-- ==== Sys2Proof/Word.lean ====
section
/-!
DEFINITION. The byte of the serial line.

The LS440 is a block: it has no machine word of its own. What crosses its serial line is bytes (R183), and
those are the only bit vectors of the model but for the CRC register, the raw converter reading and the
48-bit condition sets. Lengths, angles, speeds and counts are integers and natural numbers, since the
manual gives them as ranges of numbers and limits them only where it says so (R108).
-/

namespace Sys2Proof

/-- One character of the serial line: 8 data bits (R182). -/
abbrev Byte := BitVec 8

end Sys2Proof
end

