-- ==== Sys2Proof/Syntax.lean ====
section
/-!
DEFINITION. The commands of the part: one constructor for each row of spec/opcode_table.json.

A row is an operation or an event that changes the part's state whole (95_what_each_step_holds.md). Three
kinds of row differ in where their operands come from.

* A REQUEST row (SEC_OPEN … CNT_GET, SYS_RESTART, UNKNOWN_KIND) is the handler taking the oldest frame of the
  receive queue (R189). Its operands are that frame's kind, tag and body, so the constructor carries none.
* A row for something that happens on a LINE carries what the line shows: the byte, the edge, the level, the
  raw reading of the converter.
* A row for a timer or the end of an operation carries the channel or the bogie it belongs to, where there is
  more than one.
-/

namespace Sys2Proof

/-- The edge of the first line of a wheel's tooth pickup (R41). -/
inductive Edge where
  | rising
  | falling
  deriving DecidableEq, Repr

/-- The commands. Each constructor is one row of the table, named after it. -/
inductive Instr where
  /-- START_UP_BEGIN (R207): the supply enters its operating range. -/
  | startUpBegin
  /-- START_UP_END (R207): the 5 ms of start-up are over. -/
  | startUpEnd
  /-- SUPPLY_LOSS (R208): the supply leaves its operating range. -/
  | supplyLoss
  /-- FRAME_RECEIVED (R187): the second CRC byte of a frame, which is the operand, is taken. -/
  | frameReceived (crcLow : Byte)
  /-- FRAME_LENGTH_ABORT (R186): a length byte above 240, which is the operand, is taken. -/
  | frameLengthAbort (length : Byte)
  /-- INTER_BYTE_GAP_TIMEOUT (R185): more than 1 ms has passed since the last byte of a frame. -/
  | interByteGapTimeout
  /-- UNKNOWN_KIND (R190): the handler takes a request of a kind that is not listed. -/
  | unknownKind
  /-- TRANSMIT_BEGIN (R196): the arbiter begins a frame. -/
  | transmitBegin
  /-- FRAME_SENT (R196): the last byte of the frame in transmission leaves the part. -/
  | frameSent
  /-- SYS_RESTART (R197). -/
  | sysRestart
  /-- RESTART_TAKES_EFFECT (R198): the last byte of the SYS.RESTART reply leaves the part. -/
  | restartTakesEffect
  /-- SEC_OPEN (R10, R11). -/
  | secOpen
  /-- SEC_PUT (R12, R13). -/
  | secPut
  /-- SEC_MARK (R14). -/
  | secMark
  /-- SEC_CLOSE (R15). -/
  | secClose
  /-- CLOSE_CHECK_COMPLETE (R16, R17): the running close check is over. -/
  | closeCheckComplete
  /-- SEC_JOIN (R18): SEC.JOIN with a link kind other than NONE. -/
  | secJoin
  /-- SEC_JOIN_NONE (R19): SEC.JOIN with link kind NONE. -/
  | secJoinNone
  /-- SEC_DROP (R20). -/
  | secDrop
  /-- SEC_GET (R21). -/
  | secGet
  /-- PTS_DEFINE (R22). -/
  | ptsDefine
  /-- PTS_REMOVE (R23). -/
  | ptsRemove
  /-- PTS_SET (R24). -/
  | ptsSet
  /-- POINTS_CHANGE (R86): the path manager takes the oldest handed-over points change. -/
  | pointsChange
  /-- VEH_SET (R29 to R33). -/
  | vehSet
  /-- VEH_GET (R38). -/
  | vehGet
  /-- LAW_SET (R111). -/
  | lawSet
  /-- LAW_GET (R113). -/
  | lawGet
  /-- STG_SET (R94, R95). -/
  | stgSet
  /-- STG_GET (R96). -/
  | stgGet
  /-- PER_SET (R101). -/
  | perSet
  /-- POS_LOCATE (R56, R57). -/
  | posLocate
  /-- POS_GET (R59). -/
  | posGet
  /-- PERMIT_SET_ON (R155): PERMIT.SET with a code other than OFF. -/
  | permitSetOn
  /-- PERMIT_SET_OFF (R155): PERMIT.SET with code OFF. -/
  | permitSetOff
  /-- CH_UNLOCK (R148, R149). -/
  | chUnlock
  /-- CH_HOLD (R150). -/
  | chHold
  /-- CH_RESUME (R151). -/
  | chResume
  /-- CH_RETURN (R152). -/
  | chReturn
  /-- CH_CLEAR (R154). -/
  | chClear
  /-- CH_GET (R163). -/
  | chGet
  /-- CND_GET (R168). -/
  | cndGet
  /-- CND_ENABLE (R170). -/
  | cndEnable
  /-- CND_CRITERIA (R171). -/
  | cndCriteria
  /-- CNT_SNAP (R178). -/
  | cntSnap
  /-- CNT_MODE_AUTO (R177): CNT.MODE with code AUTO. -/
  | cntModeAuto
  /-- CNT_MODE_MANUAL (R177): CNT.MODE with a code other than AUTO. -/
  | cntModeManual
  /-- CNT_GET (R179). -/
  | cntGet
  /-- WHEEL_COUNT (R41): an edge of the first pickup line of a wheel, with the level of the second line
  (`true` is high). -/
  | wheelCount (wheel : Fin 16) (edge : Edge) (secondHigh : Bool)
  /-- TICK (R42): the tracker's 1 ms tick. -/
  | tick
  /-- MARKER_DETECTION (R61): the marker input has been active for 2 ms. -/
  | markerDetection
  /-- MARKER_DEBOUNCE_RELEASE (R61): the marker input has been inactive for 2 ms. -/
  | markerDebounceRelease
  /-- MARKER_RESOLVE (R62 to R64): a detection is resolved. -/
  | markerResolve
  /-- PERIOD_TIMER_EXPIRY (R100, R102) of a bogie. -/
  | periodTimerExpiry (bogie : Fin 4)
  /-- STAGE_CONVERSION_COMPLETE (R98): the operand is the raw reading, 0..4,095. -/
  | stageConversionComplete (raw : BitVec 12)
  /-- PASS_COMPLETE (R116). -/
  | passComplete
  /-- LOCK_TIMER_EXPIRY (R143) of a channel. -/
  | lockTimerExpiry (channel : Fin 8)
  /-- LOCK_ENGAGED_CHANGE (R144): the level of a channel's lock engaged line from now on. -/
  | lockEngagedChange (channel : Fin 8) (engaged : Bool)
  /-- DRIVE_FAULT_CHANGE (R145): the levels of a channel's drive fault and drive ready lines from now on. The
  table has no row for a change of drive ready alone, so its level comes with this one (log entry 4). -/
  | driveFaultChange (channel : Fin 8) (fault ready : Bool)
  /-- SNAPSHOT_TIMER_EXPIRY (R177). -/
  | snapshotTimerExpiry
  /-- BYTE_TAKEN (R184): a byte from the line. -/
  | byteTaken (value : Byte)
  /-- MARKER_INPUT_CHANGE (R61): the level of the marker input from now on. -/
  | markerInputChange (active : Bool)
  deriving DecidableEq, Repr

end Sys2Proof
end

