-- ==== Sys2Proof/Decode.lean ====
section
/-!
DEFINITION. The words of the opcode table.

The part decodes no instruction words, and no row of spec/opcode_table.json gives bits ("fields" is empty and
"fixed" absent in all 62). So no word spells a command. How a request frame's kind and body are read is in
Machine/Operands.lean, since that is what the link does with the bytes it receives.
-/

namespace Sys2Proof

/-- The command that a word of the table's bits spells: no row has bits, so there is none. -/
def decodeTableWord (_nbits _w : Nat) : Option Instr := none

end Sys2Proof
end

