-- ==== Sys2Proof/Config.lean ====
section
/-!
DEFINITION. The sizes the manual fixes: how many records, slots and queue places the part has.

The part has no configuration of an implementation: the manual gives every size and every value, so no
constant here is left open and the model has no free value.
-/

namespace Sys2Proof.Config

/-- Element slots of the pool shared by all sections (R3). -/
def poolSlots : Nat := 1024

/-- Greatest number of element records of one section (R1). -/
def maxElements : Nat := 128

/-- Greatest number of entries of the vehicle path (R68). -/
def maxPath : Nat := 16

/-- Places of the receive queue (R188). -/
def receiveDepth : Nat := 8

/-- Places of the reply queue (R194). -/
def replyDepth : Nat := 8

/-- The preview reach beyond the front-most wheelset, in mm (R76), and the greatest preview of a pass (R118). -/
def previewReach : Nat := 3000

/-- U after a reset and at a loss, in µm (R40, R51). -/
def uncertaintyMax : Nat := 65535000

/-- Greatest body of a frame, in bytes (R183, R186). -/
def maxBody : Nat := 240

end Sys2Proof.Config
end

