-- ==== Sys2Proof/Machine/State.lean ====
section
/-!
DEFINITION. The state of the part: every block's state as its chapter gives it, the levels of the input lines,
a clock, and the queue of commands that wait.

TIME. `clock` counts µs. Every timer and every operation that takes time holds the moment of the clock at which
it ends, and the command for that end moves the clock there (Machine/Ops.lean, `State.reach`; log entry 2).
-/

namespace Sys2Proof.Machine

/-! ## Supply and outside lines -/

/-- Whether the part runs (R207, R208). -/
inductive Power where
  /-- The supply is outside its operating range: no block runs. -/
  | off
  /-- Start-up, 5 ms, ending at the given moment: no block runs (R207). -/
  | starting (endsAt : Nat)
  /-- The part runs. -/
  | running
  deriving DecidableEq, Repr

/-- The levels of one channel's three input lines (R140). -/
structure DriveLines where
  driveReady : Bool
  driveFault : Bool
  lockEngaged : Bool
  deriving DecidableEq, Repr

/-- The levels of the input lines that the part reads as levels. They belong to the world outside: no reset of
the part touches them (log entry 3). -/
structure Lines where
  drive : Vector DriveLines 8
  /-- The track-marker detector (R61). -/
  marker : Bool
  deriving DecidableEq, Repr

/-! ## Geometry store (chapter 1) -/

/-- The states of a section (R1). -/
inductive SectionState where
  | free
  | loading
  | checking
  | ready
  deriving DecidableEq, Repr

/-- The ends of a section (R8). -/
inductive SectionEnd where
  | low
  | high
  deriving DecidableEq, Repr

/-- The roles of the member ends of a points record (R8). -/
inductive PointsRole where
  | toe
  | left
  | right
  deriving DecidableEq, Repr

/-- An end link (R8). Sections are numbered here from 0 (section id − 1), points records likewise. -/
inductive Link where
  | none
  | sec (target : Fin 32) (targetEnd : SectionEnd)
  | points (id : Fin 16) (role : PointsRole)
  deriving DecidableEq, Repr

/-- The kinds of element (R4). -/
inductive ElementKind where
  | straight
  | arc
  | spiral
  deriving DecidableEq, Repr

/-- An element record (R4): chainage in mm, curvatures in 10⁻⁶ m⁻¹, clearance in 0.01 mm. -/
structure Element where
  start : Nat
  kind : ElementKind
  curvatureStart : Int
  curvatureEnd : Int
  clearance : Option Nat
  deriving DecidableEq, Repr

/-- A marker record (R7): chainage and window half-width in mm. -/
structure Marker where
  chainage : Nat
  halfWidth : Nat
  deriving DecidableEq, Repr

/-- A section record (R1). Length and default clearance are 0 while the section is FREE and has neither. -/
structure SectionRecord where
  state : SectionState
  length : Nat
  clearance : Nat
  elements : List Element
  markers : List Marker
  low : Link
  high : Link
  occupancy : Nat
  deriving DecidableEq, Repr

/-- A FREE section (R1). -/
def SectionRecord.initial : SectionRecord :=
  { state := .free, length := 0, clearance := 0, elements := [], markers := [], low := .none, high := .none,
    occupancy := 0 }

/-- An end of a section (R9). -/
structure EndRef where
  sec : Fin 32
  side : SectionEnd
  deriving DecidableEq, Repr

/-- A points setting (R9). -/
inductive Setting where
  | unknown
  | left
  | right
  deriving DecidableEq, Repr

/-- A defined points record (R9). -/
structure PointsRecord where
  toe : EndRef
  left : EndRef
  right : EndRef
  setting : Setting
  deriving DecidableEq, Repr

/-- A change of setting handed over to the path manager (R24). -/
structure PointsChange where
  points : Fin 16
  before : Setting
  after : Setting
  deriving DecidableEq, Repr

/-- The geometry store (R1, R3, R9), and the points changes handed over and not yet taken (R24, R86). -/
structure Store where
  sections : Vector SectionRecord 32
  freePool : Nat
  points : Vector (Option PointsRecord) 16
  changes : List PointsChange
  deriving DecidableEq, Repr

/-- The store after a reset (R1, R3, R9). -/
def Store.initial : Store :=
  { sections := Vector.replicate 32 SectionRecord.initial, freePool := Config.poolSlots,
    points := Vector.replicate 16 none, changes := [] }

/-! ## Vehicle record (chapter 2) -/

/-- How a wheel's edges are counted (R41). -/
inductive CountMode where
  | rising
  | both
  deriving DecidableEq, Repr

/-- The record's fields of one bogie, in mm (R27). -/
structure BogieFields where
  centre : Int
  body : Int
  deriving DecidableEq, Repr

/-- The record's fields of one channel: wheelset offset and lever arm in mm, stroke_max in 0.01 mm (R27). -/
structure ChannelFields where
  offset : Int
  lever : Nat
  strokeMax : Nat
  deriving DecidableEq, Repr

/-- The record's fields of one wheel, with the derived distance per count in µm (R27, R34). -/
structure WheelFields where
  diameter : Nat
  teeth : Nat
  mode : CountMode
  distance : Nat
  deriving DecidableEq, Repr

/-- The vehicle record (R27). The reference wheel count is the length of `references`. -/
structure VehicleRecord where
  bogieCount : Nat
  bogies : Vector BogieFields 4
  channels : Vector ChannelFields 8
  wheels : Vector WheelFields 16
  references : List (Fin 16)
  markerOffset : Int
  drift : Nat
  locateAccuracy : Nat
  markerAccuracy : Nat
  uFull : Nat
  uZero : Nat
  uDegrade : Nat
  slip : Nat
  deriving DecidableEq, Repr

/-- What the blocks read while no record is present: every field 0, no reference wheel, every wheel counted as
RISING (R27, R41). -/
def VehicleRecord.absent : VehicleRecord :=
  { bogieCount := 0, bogies := Vector.replicate 4 ⟨0, 0⟩, channels := Vector.replicate 8 ⟨0, 0, 0⟩,
    wheels := Vector.replicate 16 ⟨0, 0, .rising, 0⟩, references := [], markerOffset := 0, drift := 0,
    locateAccuracy := 0, markerAccuracy := 0, uFull := 0, uZero := 0, uDegrade := 0, slip := 0 }

/-! ## The vehicle path (chapter 4) -/

/-- How the vehicle axis lies in a section (00_scope.md 5.2). -/
inductive Orientation where
  | up
  | down
  deriving DecidableEq, Repr

/-- A branch of points (R68). -/
inductive Branch where
  | left
  | right
  deriving DecidableEq, Repr

/-- The joint between an entry and its B-side neighbour (R68). -/
inductive Via where
  | link
  | points (id : Fin 16) (branch : Branch)
  deriving DecidableEq, Repr

/-- An entry of the path (R68). -/
structure PathEntry where
  sec : Fin 32
  orientation : Orientation
  via : Option Via
  moved : Bool
  deriving DecidableEq, Repr

/-- A location (R72): a path entry, by its place in the list counted from the B-end, and a chainage in µm. The
datum names an entry, so every operation that adds or removes entries at the B-end moves the place with it. -/
structure Location where
  entry : Nat
  chainage : Int
  deriving DecidableEq, Repr

/-! ## Tracker (chapter 3) -/

/-- The travel sign σ. -/
inductive Sign where
  | plus
  | minus
  deriving DecidableEq, Repr

/-- The tracker state (R54). -/
inductive TrackerState where
  | unlocated
  | located
  | degraded
  deriving DecidableEq, Repr

/-- The marker debounce (R61). -/
inductive Debounce where
  | waitActive
  | waitInactive
  deriving DecidableEq, Repr

/-- The datum as the published position shows it (R55): its place in the path, with the section and the
orientation of that entry. -/
structure PublishedDatum where
  location : Location
  sec : Fin 32
  orientation : Orientation
  deriving DecidableEq, Repr

/-- The published position (R55). -/
structure Published where
  state : TrackerState
  datum : Option PublishedDatum
  speed : Nat
  sign : Sign
  standstill : Bool
  /-- U in µm. -/
  uncertainty : Nat
  confidence : Nat
  missCount : Nat
  validReferences : Nat
  deriving DecidableEq, Repr

/-- The tracker (R40). -/
structure Tracker where
  pendingCounts : Vector Int 16
  /-- Sixteen entries each, oldest first. -/
  windows : Vector (List Int) 16
  wheelSpeeds : Vector Nat 16
  /-- Validity of each reference wheel slot at the last tick. -/
  referenceValid : Vector Bool 4
  validReferences : Nat
  speed : Nat
  sign : Sign
  lowSpeedRun : Nat
  standstill : Bool
  datum : Option Location
  /-- U in µm. -/
  uncertainty : Nat
  confidence : Nat
  state : TrackerState
  missCount : Nat
  debounce : Debounce
  published : Published
  /-- The moment at which the running 2 ms wait of the debounce ends; none while the input stands at the other
  level (R61). -/
  debounceEnd : Option Nat
  /-- Detections that have occurred and are not yet resolved (R61). -/
  detections : Nat
  /-- The moment of the next tick (R42). -/
  nextTick : Nat
  deriving DecidableEq, Repr

/-- The published position after a reset (R40). -/
def Published.initial : Published :=
  { state := .unlocated, datum := none, speed := 0, sign := .plus, standstill := false,
    uncertainty := Config.uncertaintyMax, confidence := 0, missCount := 0, validReferences := 0 }

/-- The tracker after a reset at the given moment (R40). The first tick starts 1 ms later (R198, R207). An input
already active gives a detection 2 ms later (R61). -/
def Tracker.initial (at_ : Nat) (markerActive : Bool) : Tracker :=
  { pendingCounts := Vector.replicate 16 0, windows := Vector.replicate 16 (List.replicate 16 0),
    wheelSpeeds := Vector.replicate 16 0, referenceValid := Vector.replicate 4 false, validReferences := 0,
    speed := 0, sign := .plus, lowSpeedRun := 0, standstill := false, datum := none,
    uncertainty := Config.uncertaintyMax, confidence := 0, state := .unlocated, missCount := 0,
    debounce := .waitActive, published := Published.initial,
    debounceEnd := if markerActive then some (at_ + 2000) else none, detections := 0, nextTick := at_ + 1000 }

/-! ## Acquisition unit (chapter 5) -/

/-- The roles of a stage (R93). -/
inductive Role where
  | gapLeftA
  | gapRightA
  | strokeA
  | gapLeftB
  | gapRightB
  | strokeB
  | yaw
  deriving DecidableEq, Repr

/-- An entry of the stage table (R93). An entry whose owner is NONE has no role and reads as 0. -/
structure StageEntry where
  owner : Option (Fin 4)
  role : Option Role
  input : Nat
  scale : Int
  offset : Int
  validLow : Int
  validHigh : Int
  deriving DecidableEq, Repr

/-- A released entry (R93, R95). -/
def StageEntry.released : StageEntry :=
  { owner := none, role := none, input := 0, scale := 0, offset := 0, validLow := 0, validHigh := 0 }

/-- One converted value with its validity (R98). -/
structure Sample where
  value : Int
  valid : Bool
  deriving DecidableEq, Repr

/-- A sample record (R107). -/
structure SampleRecord where
  bogie : Fin 4
  period : Nat
  gapLeftA : Sample
  gapRightA : Sample
  strokeA : Sample
  gapLeftB : Sample
  gapRightB : Sample
  strokeB : Sample
  yaw : Option Sample
  deriving DecidableEq, Repr

/-- A scan with its copies of the bogie's entries (R102). -/
structure Scan where
  bogie : Fin 4
  period : Nat
  stages : List StageEntry
  deriving DecidableEq, Repr

/-- The converter while converting (R92): the scan, the place of the stage in conversion, the sample record so
far, and the moment the conversion ends. -/
structure Conversion where
  scan : Scan
  position : Nat
  record : SampleRecord
  endsAt : Nat
  deriving DecidableEq, Repr

/-- The acquisition unit (chapter 5). -/
structure Acquisition where
  stages : Vector StageEntry 32
  /-- Bogie periods in ms (R101). -/
  periods : Vector Nat 4
  /-- Period timers: the moment of the next expiry, or none while stopped (R100). -/
  timers : Vector (Option Nat) 4
  /-- The converter queue, oldest first (R105). -/
  queue : List Scan
  /-- The converter; none while idle (R92). -/
  converter : Option Conversion
  /-- The clean-expiry run (R104). -/
  cleanRun : Nat
  deriving DecidableEq, Repr

/-- The acquisition unit after a reset (R92, R93, R100, R101, R104, R105). -/
def Acquisition.initial : Acquisition :=
  { stages := Vector.replicate 32 StageEntry.released, periods := Vector.replicate 4 10,
    timers := Vector.replicate 4 none, queue := [], converter := none, cleanRun := 0 }

/-! ## Channels (chapter 7) -/

/-- The states of a channel (R139). -/
inductive ChannelState where
  | locking
  | locked
  | unlocking
  | steering
  | holding
  | returning
  | fault
  deriving DecidableEq, Repr

/-- The causes of a FAULT (R139). -/
inductive FaultCause where
  | none
  | lockTimeout
  | drive
  | tracking
  | strokeSensor
  deriving DecidableEq, Repr

/-- One channel (R139). -/
structure Channel where
  state : ChannelState
  cause : FaultCause
  /-- The moment the lock timer expires; none while stopped. -/
  lockTimer : Option Nat
  /-- The stroke demand, 0.01 mm. -/
  demand : Int
  /-- The last measured stroke and its validity. -/
  measured : Int
  measuredValid : Bool
  trackingError : Option Int
  trackingRun : Nat
  strokeInvalidRun : Nat
  /-- Whether the channel has entered STEERING or RETURNING since the start of the last pass of its bogie (R116). -/
  entered : Bool
  deriving DecidableEq, Repr

/-- A channel after a reset at the given moment (R139, R142): LOCKING with 800 ms on its lock timer. -/
def Channel.initial (at_ : Nat) : Channel :=
  { state := .locking, cause := .none, lockTimer := some (at_ + 800000), demand := 0, measured := 0,
    measuredValid := false, trackingError := none, trackingRun := 0, strokeInvalidRun := 0, entered := false }

/-- The channels and the permit (R139). -/
structure Channels where
  bank : Vector Channel 8
  permit : Bool
  deriving DecidableEq, Repr

/-- The channels after a reset at the given moment (R142). -/
def Channels.initial (at_ : Nat) : Channels :=
  { bank := Vector.replicate 8 (Channel.initial at_), permit := false }

/-! ## Computation unit (chapter 6) -/

/-- Sensor health (R109). -/
inductive Health where
  | good
  | suspect
  | failed
  deriving DecidableEq, Repr

/-- The four flags of a result (R133). -/
structure LimitFlags where
  feedback : Bool
  angle : Bool
  rate : Bool
  stroke : Bool
  deriving DecidableEq, Repr

/-- No flag set. -/
def LimitFlags.clear : LimitFlags := ⟨false, false, false, false⟩

/-- The computation record of a channel (R109). -/
structure ComputationRecord where
  filter : Int
  output : Int
  held : Int
  substituted : Bool
  health : Health
  implausibleRun : Nat
  plausibleRun : Nat
  lastGood : Int
  inUse : Int
  proximity : Bool
  contact : Bool
  limitedRun : Nat
  unlimitedRun : Nat
  flags : LimitFlags
  deriving DecidableEq, Repr

/-- A computation record after a reset (R109). -/
def ComputationRecord.initial : ComputationRecord :=
  { filter := 0, output := 0, held := 0, substituted := false, health := .good, implausibleRun := 0,
    plausibleRun := 0, lastGood := 0, inUse := 0, proximity := false, contact := false, limitedRun := 0,
    unlimitedRun := 0, flags := LimitFlags.clear }

/-- The yaw record of a bogie (R109). -/
structure YawRecord where
  disagreeRun : Nat
  agreeRun : Nat
  mismatch : Bool
  deriving DecidableEq, Repr

/-- The lateral substitution modes (R125). -/
inductive LateralMode where
  | freeze
  | partner
  | zero
  deriving DecidableEq, Repr

/-- The feedforward substitution modes (R120). -/
inductive ForwardMode where
  | hold
  | decay
  | zero
  deriving DecidableEq, Repr

/-- A law record (R110), fields 1 to 19 in index order. -/
structure LawRecord where
  previewTime : Nat
  kp : Nat
  feedbackLimit : Nat
  angleMax : Nat
  rate : Nat
  shiftNormal : Nat
  shiftWidened : Nat
  proximityGap : Nat
  contactGap : Nat
  sumTolerance : Nat
  feedbackMinSpeed : Nat
  lateralMode : LateralMode
  forwardMode : ForwardMode
  decayStep : Nat
  yawTolerance : Nat
  trackingLimit : Nat
  trackingPersistence : Nat
  centreTolerance : Nat
  lockTime : Nat
  deriving DecidableEq, Repr

/-- The default law record (R110). -/
def LawRecord.default : LawRecord :=
  { previewTime := 150, kp := 1280, feedbackLimit := 20000, angleMax := 80000, rate := 40, shiftNormal := 2,
    shiftWidened := 0, proximityGap := 400, contactGap := 150, sumTolerance := 150, feedbackMinSpeed := 300,
    lateralMode := .freeze, forwardMode := .decay, decayStep := 500, yawTolerance := 8000,
    trackingLimit := 300, trackingPersistence := 20, centreTolerance := 50, lockTime := 800 }

/-- The persistences of CND.CRITERIA (R171). -/
structure Criteria where
  limitRaise : Nat
  limitClear : Nat
  mismatchRaise : Nat
  mismatchClear : Nat
  overrunClear : Nat
  deriving DecidableEq, Repr

/-- The default criteria (R171). -/
def Criteria.default : Criteria :=
  { limitRaise := 10, limitClear := 10, mismatchRaise := 5, mismatchClear := 20, overrunClear := 100 }

/-- What a pass reads for one lane at its start (R115): the channel's state, its law record and vehicle fields,
and the results of the lane's lookups over the path read then (R119, R123): κ_A at the centre sample and at the
wheelset sample, and the clearance at the wheelset, each none where the lookup fails. -/
structure LaneRead where
  start : ChannelState
  law : LawRecord
  fields : ChannelFields
  centreSample : Option Int
  wheelSample : Option Int
  clearance : Option Nat
  deriving DecidableEq, Repr

/-- A pass in flight (R115). The path it reads is used up in the lookups, which it makes at its start; the
yaw check's two samples are among them (R135). -/
structure Pass where
  sample : SampleRecord
  position : Published
  bogie : BogieFields
  laneA : LaneRead
  laneB : LaneRead
  yawCentre : Option Int
  yawBody : Option Int
  criteria : Criteria
  endsAt : Nat
  /-- The bogie ceased to be scheduled while this pass's scan was outstanding (R136). -/
  resetAfter : Bool
  deriving DecidableEq, Repr

/-- The computation unit (chapter 6). -/
structure Computation where
  /-- The pass queue, oldest first (R114). -/
  queue : List SampleRecord
  pass : Option Pass
  records : Vector ComputationRecord 8
  yaw : Vector YawRecord 4
  laws : Vector LawRecord 8
  /-- Bogies whose records are to be reset after the pass of their outstanding scan (R136). -/
  resetDue : Vector Bool 4
  deriving DecidableEq, Repr

/-- The computation unit after a reset (R109, R110, R114). -/
def Computation.initial : Computation :=
  { queue := [], pass := none, records := Vector.replicate 8 ComputationRecord.initial,
    yaw := Vector.replicate 4 ⟨0, 0, false⟩, laws := Vector.replicate 8 LawRecord.default,
    resetDue := Vector.replicate 4 false }

/-! ## Monitor (chapter 8) -/

/-- A notice mode (R164). -/
inductive NoticeMode where
  | off
  | rise
  | fall
  | both
  deriving DecidableEq, Repr

/-- A condition record (R164). -/
structure ConditionRecord where
  present : Bool
  latched : Bool
  mode : NoticeMode
  deriving DecidableEq, Repr

/-- The conditions of a channel, codes 1 to 5 (chapter 8). -/
inductive ChannelCondition where
  | flangeProximity
  | lateralSensorFailed
  | channelFault
  | trackingError
  | steerLimited
  deriving DecidableEq, Repr

/-- The conditions of the vehicle, codes 16 to 23 (chapter 8). -/
inductive VehicleCondition where
  | unlocated
  | positionDegraded
  | geometryUnknownAhead
  | geometryMismatch
  | pointsMovedUnder
  | pathFull
  | scanOverrun
  | counterSaturated
  deriving DecidableEq, Repr

/-- One set of counters and peaks (R173, R175): six counters of each channel in code order, channel by channel,
then the four of the vehicle; peak |y| and peak |tracking error| of each channel. -/
structure CounterSet where
  counts : Vector Nat 52
  peaks : Vector Nat 16
  deriving DecidableEq, Repr

/-- All counters and peaks 0 (R173, R175). -/
def CounterSet.zero : CounterSet := { counts := Vector.replicate 52 0, peaks := Vector.replicate 16 0 }

/-- The cause of a snapshot (R176). -/
inductive SnapshotCause where
  | none
  | auto
  | request
  deriving DecidableEq, Repr

/-- The snapshot set (R176). -/
structure Snapshot where
  sequence : Nat
  interval : Nat
  cause : SnapshotCause
  set : CounterSet
  deriving DecidableEq, Repr

/-- The monitor (chapter 8). -/
structure Monitor where
  /-- One record for each of the 48 instances: codes 1 to 5 with channels 0 to 7 each, then codes 16 to 23. -/
  conditions : Vector ConditionRecord 48
  criteria : Criteria
  live : CounterSet
  snapshot : Snapshot
  /-- The snapshot mode: AUTO is true (R177). -/
  auto : Bool
  /-- The moment the snapshot timer expires; none while stopped. -/
  timer : Option Nat
  /-- The start of the interval in progress (R176). -/
  intervalStart : Nat
  deriving DecidableEq, Repr

/-- The monitor after a reset at the given moment (R164, R171, R173, R176, R177): UNLOCATED, instance 40, is
present and latched. -/
def Monitor.initial (at_ : Nat) : Monitor :=
  { conditions := (Vector.replicate 48 ⟨false, false, .off⟩).set 40 ⟨true, true, .off⟩,
    criteria := Criteria.default, live := CounterSet.zero,
    snapshot := { sequence := 0, interval := 0, cause := .none, set := CounterSet.zero },
    auto := true, timer := some (at_ + 1000000), intervalStart := at_ }

/-! ## Serial link (chapter 9) -/

/-- The receiver's states (R184). -/
inductive ReceiverState where
  | hunt
  | sync2
  | header
  | body
  | crc
  deriving DecidableEq, Repr

/-- A frame without its sync bytes, length and CRC, which follow from it (R183). -/
structure Frame where
  kind : Byte
  tag : Byte
  body : List Byte
  deriving DecidableEq, Repr

/-- A reply waiting for the transmitter. `final` marks the reply of a SYS.RESTART that was taken (R197). -/
structure Reply where
  frame : Frame
  final : Bool
  deriving DecidableEq, Repr

/-- The request handler (R189). SEC.CLOSE is the one request that keeps it BUSY beyond its taking: it holds the
request's tag, the section and the moment the close check completes (R15). -/
inductive Handler where
  | idle
  | closing (tag : Byte) (sec : Fin 32) (endsAt : Nat)
  deriving DecidableEq, Repr

/-- The transmitter (R181): the frame it sends and the moment its last byte leaves. -/
inductive Transmitter where
  | idle
  | sending (frame : Frame) (final : Bool) (endsAt : Nat)
  deriving DecidableEq, Repr

/-- The events of an N.CHAN (R160). -/
inductive ChannelEvent where
  | lockEngaged
  | lockLost
  | unlock
  | lockReleased
  | hold
  | resume
  | returnTaken
  | permitOff
  | returnDone
  | fault
  | clear
  deriving DecidableEq, Repr

/-- The channel status record (R163), as it is built at one moment. -/
structure ChannelStatus where
  channel : Fin 8
  state : ChannelState
  cause : FaultCause
  /-- Lock timer remaining, whole ms rounded up. -/
  remaining : Nat
  demand : Int
  measured : Int
  measuredValid : Bool
  trackingError : Option Int
  trackingRun : Nat
  strokeInvalidRun : Nat
  driveEnable : Bool
  lockRelease : Bool
  lines : DriveLines
  permit : Bool
  output : Int
  health : Health
  deriving DecidableEq, Repr

/-- The causes of an N.POS (R66). -/
inductive PositionCause where
  | locate
  | matched
  | missed
  | state
  | loss
  deriving DecidableEq, Repr

/-- A notice waiting for the transmitter (R195). Section ids and marker indices are 0, and the correction 0,
unless the cause is MATCH (R67). Condition sets have one bit for each of the 48 instances. -/
inductive Notice where
  | condition (risen fallen : BitVec 48)
  | channel (subject : Fin 8) (before : ChannelState) (event : ChannelEvent) (status : ChannelStatus)
  | position (cause : PositionCause) (markerSection markerIndex : Nat) (correction : Int) (at_ : Published)
  deriving DecidableEq, Repr

/-- The serial link (R181). -/
structure LinkState where
  receiver : ReceiverState
  /-- The bytes received since the sync pair; none while no frame is in reception. -/
  reception : Option (List Byte)
  /-- The receive queue, oldest first. -/
  requests : List Frame
  handler : Handler
  restartPending : Bool
  /-- The reply queue, oldest first. -/
  replies : List Reply
  /-- The notice queue, in queue order. -/
  notices : List Notice
  transmitter : Transmitter
  /-- The notice sequence, 0..255. -/
  sequence : Byte
  /-- The moment the last character on the line ended, from which bytes and gaps are timed (R182, R185). -/
  lineAt : Nat
  deriving DecidableEq, Repr

/-- The link after a reset at the given moment (R181). -/
def LinkState.initial (at_ : Nat) : LinkState :=
  { receiver := .hunt, reception := none, requests := [], handler := .idle, restartPending := false,
    replies := [], notices := [], transmitter := .idle, sequence := 0, lineAt := at_ }

/-! ## The whole state -/

/-- The state of the part and of the model around it. -/
structure State where
  power : Power
  /-- µs since the reset state (log entry 2). -/
  clock : Nat
  lines : Lines
  store : Store
  /-- The vehicle record; none while absent (R27). -/
  vehicle : Option VehicleRecord
  tracker : Tracker
  /-- The path, B-most entry first (R68). -/
  path : List PathEntry
  acquisition : Acquisition
  computation : Computation
  channels : Channels
  monitor : Monitor
  link : LinkState
  /-- The commands that wait, the next one first. -/
  pending : List Instr
  deriving DecidableEq, Repr

/-- Why a step could stop with a fault. The manual gives every command an effect in every state, so no command
faults and the type has no constructor. -/
inductive Fault where
  deriving DecidableEq, Repr

/-- Why a command could be refused. -/
inductive Refusal where
  /-- Raised by `exec` alone, for a command that has no meaning yet. Safe: the model stops. No arm raises it. -/
  | notModelled (mnemonic : String)
  deriving DecidableEq, Repr

/-- The levels of the input lines at the reset state: all false (log entry 3). -/
def Lines.initial : Lines := { drive := Vector.replicate 8 ⟨false, false, false⟩, marker := false }

/-- The part right after power-on: the act at the end of start-up (R207), every block at its power-on values,
no vehicle record (R27), with every input line false and no command waiting. -/
def State.reset : State :=
  { power := .running, clock := 0, lines := Lines.initial, store := Store.initial, vehicle := none,
    tracker := Tracker.initial 0 false, path := [], acquisition := Acquisition.initial,
    computation := Computation.initial, channels := Channels.initial 0, monitor := Monitor.initial 0,
    link := LinkState.initial 0, pending := [] }

end Sys2Proof.Machine
end

