-- ==== Sys2Proof/Machine/Arith.lean ====
section
/-!
DEFINITION. The arithmetic every block shares: the one rounding rule (R108), clamps, saturating runs, ranked
means, the sign of travel, and the updating of one place of a bank.
-/

namespace Sys2Proof.Machine

/-- The rounding rule (R108): the nearest integer to `a / b`, a quotient halfway between two going to the one
further from zero. `b` is positive wherever the part divides. -/
def roundDiv (a : Int) (b : Nat) : Int :=
  if 0 ≤ a then (((2 * a.natAbs + b) / (2 * b) : Nat) : Int) else -(((2 * a.natAbs + b) / (2 * b) : Nat) : Int)

/-- The rounding rule on a quotient that is not negative. -/
def roundNat (a b : Nat) : Nat := (2 * a + b) / (2 * b)

/-- `x` limited to ±`limit`. -/
def clampAbs (limit : Nat) (x : Int) : Int := max (-(limit : Int)) (min (limit : Int) x)

/-- `x` moved toward `target` by at most `step` (R120, R130, R132). -/
def approach (step : Nat) (target x : Int) : Int := x + clampAbs step (target - x)

/-- A run that counts up by one and saturates at 255. -/
def runUp (n : Nat) : Nat := min 255 (n + 1)

/-- `n` put at its place in a list that rises. -/
def rankIn (n : Nat) : List Nat → List Nat
  | [] => [n]
  | m :: rest => if n ≤ m then n :: m :: rest else m :: rankIn n rest

/-- A list of numbers in rising order. -/
def ranked (l : List Nat) : List Nat := l.foldr rankIn []

/-- The middle of ranked numbers: the middle one of an odd number of them, the rounded mean of the middle two of
an even number (R44). -/
def median (l : List Nat) : Nat :=
  let r := ranked l
  let n := r.length
  if n % 2 = 1 then r.getD (n / 2) 0 else roundNat (r.getD (n / 2 - 1) 0 + r.getD (n / 2) 0) 2

/-- The travel sign as a number. -/
def Sign.toInt : Sign → Int
  | .plus => 1
  | .minus => -1

/-- U in mm (R40). -/
def mmOfMicro (u : Nat) : Nat := roundNat u 1000

/-- One place of a bank changed. -/
def changeAt {α : Type} {n : Nat} (v : Vector α n) (i : Fin n) (f : α → α) : Vector α n :=
  v.set i.val (f v[i]) i.isLt

/-- All numbers below 4, 8, 16, 32 and 48, in order: the bogies, channels, wheels, sections and instances. -/
def allBogies : List (Fin 4) := [0, 1, 2, 3]

/-- The channels in order. -/
def allChannels : List (Fin 8) := [0, 1, 2, 3, 4, 5, 6, 7]

/-- The wheels in order. -/
def allWheels : List (Fin 16) := [0, 1, 2, 3, 4, 5, 6, 7, 8, 9, 10, 11, 12, 13, 14, 15]

/-- The bogie of a channel (00_scope.md 5.5). -/
def bogieOf (c : Fin 8) : Fin 4 := ⟨c.val / 2, by omega⟩

/-- Lane A's channel of a bogie. -/
def channelA (b : Fin 4) : Fin 8 := ⟨2 * b.val, by omega⟩

/-- Lane B's channel of a bogie. -/
def channelB (b : Fin 4) : Fin 8 := ⟨2 * b.val + 1, by omega⟩

/-- The channel that carries a wheel (R28). -/
def channelOfWheel (w : Fin 16) : Fin 8 := ⟨w.val / 2, by omega⟩

end Sys2Proof.Machine
end

