-- ==== Sys2Proof/Machine/Operands.lean ====
section
/-!
DEFINITION. The operand forms of the serial line: how the fields of a request body are read and how those of a
reply or notice are written (chapter 10), with the code tables of R201 and the frame of R183.
-/

namespace Sys2Proof.Machine

/-! ## Reading fields (R199) -/

/-- The number that bytes give, most significant byte first (R199). -/
def beNat (bytes : List Byte) : Nat := bytes.foldl (fun acc b => acc * 256 + b.toNat) 0

/-- The unsigned field of `width` bytes at `offset`. -/
def fieldU (body : List Byte) (offset width : Nat) : Nat := beNat ((body.drop offset).take width)

/-- A number of `width` bytes read as two's complement (R199). -/
def signedOf (width n : Nat) : Int := if n < 2 ^ (8 * width - 1) then (n : Int) else (n : Int) - 2 ^ (8 * width)

/-- The signed field of `width` bytes at `offset`. -/
def fieldS (body : List Byte) (offset width : Nat) : Int := signedOf width (fieldU body offset width)

/-- Optional trailing fields (R190): each of the given widths in turn, taken from the front of the body; every
field absent from its end takes its default. None when the body ends inside a field or goes on after the last. -/
def trailing : List (Nat × Nat) → List Byte → Option (List Nat)
  | [], [] => some []
  | [], _ :: _ => none
  | (_, dflt) :: rest, [] => (trailing rest []).map (dflt :: ·)
  | (width, _) :: rest, b :: bytes =>
    if (b :: bytes).length < width then none
    else (trailing rest ((b :: bytes).drop width)).map (beNat ((b :: bytes).take width) :: ·)

/-- The `count` consecutive records of `width` bytes that a body holds from its start. -/
def recordsOf (width : Nat) : Nat → List Byte → List (List Byte)
  | 0, _ => []
  | count + 1, bytes => bytes.take width :: recordsOf width count (bytes.drop width)

/-! ## Writing fields (R199) -/

/-- `n` in `width` bytes, most significant byte first (R199). -/
def be : Nat → Nat → List Byte
  | 0, _ => []
  | width + 1, n => BitVec.ofNat 8 (n / 256 ^ width) :: be width n

/-- A signed number in `width` bytes, two's complement (R199). -/
def beS (width : Nat) (i : Int) : List Byte := be width (i % (256 ^ width : Nat)).toNat

/-- One byte. -/
def u8 (n : Nat) : Byte := BitVec.ofNat 8 n

/-- A yes or no (R199). -/
def flag (b : Bool) : Byte := if b then 1 else 0

/-- A byte whose bit i is the i-th of the list. -/
def bits (l : List Bool) : Byte := u8 (l.foldr (fun b acc => 2 * acc + b.toNat) 0)

/-! ## Codes (R201) -/

def SectionEnd.code : SectionEnd → Nat
  | .low => 0
  | .high => 1

def sectionEndOf? : Nat → Option SectionEnd
  | 0 => some .low
  | 1 => some .high
  | _ => none

def PointsRole.code : PointsRole → Nat
  | .toe => 0
  | .left => 1
  | .right => 2

def Setting.code : Setting → Nat
  | .unknown => 0
  | .left => 1
  | .right => 2

def settingOf? : Nat → Option Setting
  | 0 => some .unknown
  | 1 => some .left
  | 2 => some .right
  | _ => none

def Branch.code : Branch → Nat
  | .left => 1
  | .right => 2

def SectionState.code : SectionState → Nat
  | .free => 0
  | .loading => 1
  | .checking => 2
  | .ready => 3

def Orientation.code : Orientation → Nat
  | .up => 0
  | .down => 1

def orientationOf? : Nat → Option Orientation
  | 0 => some .up
  | 1 => some .down
  | _ => none

def ElementKind.code : ElementKind → Nat
  | .straight => 0
  | .arc => 1
  | .spiral => 2

def elementKindOf? : Nat → Option ElementKind
  | 0 => some .straight
  | 1 => some .arc
  | 2 => some .spiral
  | _ => none

def Role.code : Role → Nat
  | .gapLeftA => 1
  | .gapRightA => 2
  | .strokeA => 3
  | .gapLeftB => 4
  | .gapRightB => 5
  | .strokeB => 6
  | .yaw => 7

def roleOf? : Nat → Option Role
  | 1 => some .gapLeftA
  | 2 => some .gapRightA
  | 3 => some .strokeA
  | 4 => some .gapLeftB
  | 5 => some .gapRightB
  | 6 => some .strokeB
  | 7 => some .yaw
  | _ => none

def CountMode.code : CountMode → Nat
  | .rising => 0
  | .both => 1

def countModeOf? : Nat → Option CountMode
  | 0 => some .rising
  | 1 => some .both
  | _ => none

def ChannelState.code : ChannelState → Nat
  | .locking => 0
  | .locked => 1
  | .unlocking => 2
  | .steering => 3
  | .holding => 4
  | .returning => 5
  | .fault => 6

def FaultCause.code : FaultCause → Nat
  | .none => 0
  | .lockTimeout => 1
  | .drive => 2
  | .tracking => 3
  | .strokeSensor => 4

def Health.code : Health → Nat
  | .good => 0
  | .suspect => 1
  | .failed => 2

def LateralMode.code : LateralMode → Nat
  | .freeze => 0
  | .partner => 1
  | .zero => 2

def lateralModeOf? : Nat → Option LateralMode
  | 0 => some .freeze
  | 1 => some .partner
  | 2 => some .zero
  | _ => none

def ForwardMode.code : ForwardMode → Nat
  | .hold => 0
  | .decay => 1
  | .zero => 2

def forwardModeOf? : Nat → Option ForwardMode
  | 0 => some .hold
  | 1 => some .decay
  | 2 => some .zero
  | _ => none

def NoticeMode.code : NoticeMode → Nat
  | .off => 0
  | .rise => 1
  | .fall => 2
  | .both => 3

def noticeModeOf? : Nat → Option NoticeMode
  | 0 => some .off
  | 1 => some .rise
  | 2 => some .fall
  | 3 => some .both
  | _ => none

def PositionCause.code : PositionCause → Nat
  | .locate => 1
  | .matched => 2
  | .missed => 3
  | .state => 4
  | .loss => 5

def SnapshotCause.code : SnapshotCause → Nat
  | .none => 0
  | .auto => 1
  | .request => 2

/-- The tracker states of the summary byte (R200), and of the position record (R206). -/
def TrackerState.code : TrackerState → Nat
  | .unlocated => 0
  | .located => 1
  | .degraded => 2

/-- The events of an N.CHAN (R160). -/
def ChannelEvent.code : ChannelEvent → Nat
  | .lockEngaged => 1
  | .lockLost => 2
  | .unlock => 3
  | .lockReleased => 4
  | .hold => 5
  | .resume => 6
  | .returnTaken => 7
  | .permitOff => 8
  | .returnDone => 9
  | .fault => 10
  | .clear => 11

/-- The statuses of a reply (R193). -/
inductive Status where
  | ok
  | unknownKind
  | badLength
  | outOfRange
  | badState
  | notLocked
  | notStandstill
  | noVehicle
  | noSection
  | occupied
  | inPoints
  | linkConflict
  | noSpace
  | checkFailed
  | duplicate
  | noPath
  deriving DecidableEq, Repr

/-- The codes of the statuses (R193). -/
def Status.code : Status → Nat
  | .ok => 0
  | .unknownKind => 1
  | .badLength => 2
  | .outOfRange => 3
  | .badState => 4
  | .notLocked => 5
  | .notStandstill => 6
  | .noVehicle => 7
  | .noSection => 8
  | .occupied => 9
  | .inPoints => 10
  | .linkConflict => 11
  | .noSpace => 12
  | .checkFailed => 13
  | .duplicate => 14
  | .noPath => 15

/-- The reason codes of a CH.* request (R147). -/
inductive Reason where
  | none
  | state
  | permitOff
  | unlocated
  | notConfigured
  | incomplete
  | driveNotReady
  | driveFault
  | lockNotEngaged
  deriving DecidableEq, Repr

/-- The reason codes (R147). -/
def Reason.code : Reason → Nat
  | .none => 0
  | .state => 1
  | .permitOff => 2
  | .unlocated => 3
  | .notConfigured => 4
  | .incomplete => 5
  | .driveNotReady => 6
  | .driveFault => 7
  | .lockNotEngaged => 8

/-! ## Ids -/

/-- The section a section id names: 1..32 (R1). -/
def sectionOf? (id : Nat) : Option (Fin 32) :=
  if h : 1 ≤ id ∧ id ≤ 32 then some ⟨id - 1, by omega⟩ else none

/-- The id of a section. -/
def idOfSection (i : Fin 32) : Nat := i.val + 1

/-- The points record a points id names: 1..16 (R9). -/
def pointsOf? (id : Nat) : Option (Fin 16) :=
  if h : 1 ≤ id ∧ id ≤ 16 then some ⟨id - 1, by omega⟩ else none

/-- The id of a points record. -/
def idOfPoints (i : Fin 16) : Nat := i.val + 1

/-- The channel a channel number names: 0..7. -/
def channelOf? (n : Nat) : Option (Fin 8) := if h : n < 8 then some ⟨n, h⟩ else none

/-- The bogie a bogie number names: 0..3. -/
def bogieOf? (n : Nat) : Option (Fin 4) := if h : n < 4 then some ⟨n, h⟩ else none

/-- The wheel a wheel number names: 0..15. -/
def wheelOf? (n : Nat) : Option (Fin 16) := if h : n < 16 then some ⟨n, h⟩ else none

/-- The stage a stage index names: 0..31. -/
def stageOf? (n : Nat) : Option (Fin 32) := if h : n < 32 then some ⟨n, h⟩ else none

/-! ## Geometry records (R202) -/

/-- An element record read from its 11 bytes; none when its kind bits are 3 (R202). -/
def elementOf? (bytes : List Byte) : Option Element :=
  let last := fieldU bytes 9 2
  (elementKindOf? (last / 16384)).map fun kind =>
    { start := fieldU bytes 0 3, kind := kind, curvatureStart := fieldS bytes 3 3,
      curvatureEnd := fieldS bytes 6 3,
      clearance := if last % 16384 = 0 then none else some (last % 16384) }

/-- An element record in its 11 bytes (R202). -/
def Element.encode (e : Element) : List Byte :=
  be 3 e.start ++ beS 3 e.curvatureStart ++ beS 3 e.curvatureEnd ++
    be 2 (16384 * e.kind.code + e.clearance.getD 0)

/-- A marker record read from its 5 bytes (R202). -/
def markerOf (bytes : List Byte) : Marker := { chainage := fieldU bytes 0 3, halfWidth := fieldU bytes 3 2 }

/-- A marker record in its 5 bytes (R202). -/
def Marker.encode (m : Marker) : List Byte := be 3 m.chainage ++ be 2 m.halfWidth

/-- An end link in its 3 bytes (R202). -/
def Link.encode : Link → List Byte
  | .none => [0, 0, 0]
  | .sec target e => [1, u8 (idOfSection target), u8 e.code]
  | .points id role => [2, u8 (idOfPoints id), u8 role.code]

/-- A section end read from its 2 bytes at an offset (R202). -/
def endRefOf? (body : List Byte) (offset : Nat) : Option EndRef :=
  match sectionOf? (fieldU body offset 1), sectionEndOf? (fieldU body (offset + 1) 1) with
  | some i, some e => some ⟨i, e⟩
  | _, _ => none

/-! ## Stage record (R203) -/

/-- A stage entry in its 16 bytes (R203). -/
def StageEntry.encode (i : Fin 32) (e : StageEntry) : List Byte :=
  [u8 i.val, match e.owner with | some b => u8 b.val | none => 255,
    match e.role with | some r => u8 r.code | none => 0, u8 e.input] ++
    beS 3 e.scale ++ beS 3 e.offset ++ beS 3 e.validLow ++ beS 3 e.validHigh

/-! ## Law, computation and yaw records (R205) -/

/-- A law record in its 37 bytes (R205). -/
def LawRecord.encode (l : LawRecord) : List Byte :=
  be 2 l.previewTime ++ be 2 l.kp ++ be 4 l.feedbackLimit ++ be 4 l.angleMax ++ be 2 l.rate ++
    be 1 l.shiftNormal ++ be 1 l.shiftWidened ++ be 2 l.proximityGap ++ be 2 l.contactGap ++
    be 2 l.sumTolerance ++ be 2 l.feedbackMinSpeed ++ be 1 l.lateralMode.code ++ be 1 l.forwardMode.code ++
    be 2 l.decayStep ++ be 2 l.yawTolerance ++ be 2 l.trackingLimit ++ be 1 l.trackingPersistence ++
    be 2 l.centreTolerance ++ be 2 l.lockTime

/-- The widths of law fields 1 to 19 with their defaults (R110, R205). -/
def lawForm : List (Nat × Nat) :=
  [(2, 150), (2, 1280), (4, 20000), (4, 80000), (2, 40), (1, 2), (1, 0), (2, 400), (2, 150), (2, 150), (2, 300),
    (1, 0), (1, 1), (2, 500), (2, 8000), (2, 300), (1, 20), (2, 50), (2, 800)]

/-- The last flags' byte (R205). -/
def LimitFlags.encode (f : LimitFlags) : Byte := bits [f.feedback, f.angle, f.rate, f.stroke]

/-- A computation record in its 27 bytes (R205). -/
def ComputationRecord.encode (r : ComputationRecord) : List Byte :=
  beS 4 r.filter ++ beS 4 r.output ++ beS 4 r.held ++
    [flag r.substituted, u8 r.health.code, u8 r.implausibleRun, u8 r.plausibleRun] ++
    beS 3 r.lastGood ++ beS 3 r.inUse ++
    [flag r.proximity, flag r.contact, u8 r.limitedRun, u8 r.unlimitedRun, r.flags.encode]

/-- A yaw record in its 3 bytes (R205). -/
def YawRecord.encode (r : YawRecord) : List Byte := [u8 r.disagreeRun, u8 r.agreeRun, flag r.mismatch]

/-! ## Vehicle record (R204) -/

/-- The widths of fields 88 to 94 with their defaults (R27, R204). -/
def vehicleTail : List (Nat × Nat) := [(2, 1024), (2, 500), (2, 50), (2, 200), (2, 2000), (2, 1000), (1, 13)]

/-- Fields 1 to 94 in their 149 bytes (R204). -/
def VehicleRecord.encode (v : VehicleRecord) : List Byte :=
  [u8 v.bogieCount] ++
    (allBogies.map fun b => beS 2 v.bogies[b].centre ++ beS 2 v.bogies[b].body).flatten ++
    (allChannels.map fun c =>
      beS 2 v.channels[c].offset ++ be 2 v.channels[c].lever ++ be 2 v.channels[c].strokeMax).flatten ++
    (allWheels.map fun w =>
      be 2 v.wheels[w].diameter ++ [u8 v.wheels[w].teeth, u8 v.wheels[w].mode.code]).flatten ++
    [u8 v.references.length] ++
    (((v.references.map fun (w : Fin 16) => u8 w.val) ++ [0, 0, 0, 0]).take 4) ++
    beS 2 v.markerOffset ++ be 2 v.drift ++ be 2 v.locateAccuracy ++ be 2 v.markerAccuracy ++ be 2 v.uFull ++
    be 2 v.uZero ++ be 2 v.uDegrade ++ be 1 v.slip

/-! ## Position record, path and channel status (R206) -/

/-- A position record in its 16 bytes (R206). -/
def Published.encode (p : Published) : List Byte :=
  [u8 p.state.code] ++
    (match p.datum with
    | some d => [u8 (idOfSection d.sec)] ++ beS 3 (roundDiv d.location.chainage 1000) ++ [u8 d.orientation.code]
    | none => [0, 0, 0, 0, 0]) ++
    be 2 p.speed ++ beS 1 p.sign.toInt ++ [flag p.standstill] ++ be 2 (mmOfMicro p.uncertainty) ++
    be 2 p.confidence ++ [u8 p.missCount, u8 p.validReferences]

/-- A path entry in its 5 bytes (R206). -/
def PathEntry.encode (e : PathEntry) : List Byte :=
  [u8 (idOfSection e.sec), u8 e.orientation.code] ++
    match e.via with
    | none => [0, 0, 0]
    | some .link => [1, 0, 0]
    | some (.points id branch) => [2, u8 (idOfPoints id), u8 branch.code]

/-- A channel status record in its 23 bytes (R206). -/
def ChannelStatus.encode (c : ChannelStatus) : List Byte :=
  [u8 c.channel.val, u8 c.state.code, u8 c.cause.code] ++ be 2 c.remaining ++ beS 2 c.demand ++
    beS 4 c.measured ++ beS 4 (c.trackingError.getD 0) ++ [u8 c.trackingRun, u8 c.strokeInvalidRun,
    bits [c.driveEnable, c.lockRelease, c.lines.driveReady, c.lines.driveFault, c.lines.lockEngaged,
      c.measuredValid, c.trackingError.isSome, c.permit]] ++ beS 4 c.output ++ [u8 c.health.code]

/-- A condition set in its 6 bytes: bit c of byte k is condition code k + 1 of channel c, and byte 5 holds
codes 16 to 23 (R206). -/
def encodeSet (set : BitVec 48) : List Byte :=
  [set.extractLsb' 0 8, set.extractLsb' 8 8, set.extractLsb' 16 8, set.extractLsb' 24 8,
    set.extractLsb' 32 8, set.extractLsb' 40 8]

/-- A snapshot set as CNT.GET and CNT.SNAP carry it, 141 bytes (R179, R206). -/
def Snapshot.encode (s : Snapshot) : List Byte :=
  be 2 s.sequence ++ be 2 s.interval ++ [u8 s.cause.code] ++
    (allChannels.map fun c =>
      (([0, 1, 2, 3, 4, 5] : List (Fin 6)).map fun k =>
        be 2 s.set.counts[(⟨6 * c.val + k.val, by omega⟩ : Fin 52)]).flatten ++
      be 2 s.set.peaks[(⟨2 * c.val, by omega⟩ : Fin 16)] ++
      be 2 s.set.peaks[(⟨2 * c.val + 1, by omega⟩ : Fin 16)]).flatten ++
    (([48, 49, 50, 51] : List (Fin 52)).map fun k => be 2 s.set.counts[k]).flatten

/-! ## The frame (R183) -/

/-- One step of the CRC register: the top bit decides whether the polynomial x¹⁶ + x¹² + x⁵ + 1 is taken (R183). -/
def crcShift (reg : BitVec 16) : BitVec 16 := if reg.msb then (reg <<< 1) ^^^ 0x1021#16 else reg <<< 1

/-- A byte entered into the CRC register, most significant bit first (R183). -/
def crcByte (reg : BitVec 16) (b : Byte) : BitVec 16 :=
  let r := reg ^^^ ((b.zeroExtend 16) <<< 8)
  crcShift (crcShift (crcShift (crcShift (crcShift (crcShift (crcShift (crcShift r)))))))

/-- The CRC over bytes, from the register value 0xFFFF, with no final inversion (R183). -/
def crcOf (bytes : List Byte) : BitVec 16 := bytes.foldl crcByte 0xFFFF#16

/-- The bytes the CRC is taken over: the length, the kind, the tag and the body (R183). -/
def Frame.covered (f : Frame) : List Byte := u8 f.body.length :: f.kind :: f.tag :: f.body

/-- The frame on the line, from its sync pair to its CRC (R183, R200). -/
def Frame.wire (f : Frame) : List Byte :=
  [0xC3, 0x3C] ++ f.covered ++ [(crcOf f.covered).extractLsb' 8 8, (crcOf f.covered).extractLsb' 0 8]

/-- How long a frame lasts on the line, in µs: 7 + length characters of 20 µs (R182, R183). -/
def Frame.duration (f : Frame) : Nat := 20 * (7 + f.body.length)

end Sys2Proof.Machine
end

