-- ==== Sys2Proof/Machine/Flags.lean ====
section
/-!
DEFINITION. The values other blocks and the host read off the state: the output lines (R140), the condition
instances and sets (chapter 8), and the summary byte (R192, R200).
-/

namespace Sys2Proof.Machine

/-! ## Output lines (R140) -/

/-- The states in which a channel drives its actuator (R140). -/
def ChannelState.driven : ChannelState → Bool
  | .unlocking | .steering | .holding | .returning => true
  | .locking | .locked | .fault => false

/-- The states whose drive supervision and pass results matter: STEERING, HOLDING, RETURNING (R156). -/
def ChannelState.supervised : ChannelState → Bool
  | .steering | .holding | .returning => true
  | .locking | .locked | .unlocking | .fault => false

/-- The drive enable output of a channel (R140): disabled while the part does not run (R207, R208). -/
def State.driveEnable (s : State) (c : Fin 8) : Bool := s.power = .running ∧ s.channels.bank[c].state.driven

/-- The lock release output of a channel (R140). -/
def State.lockRelease (s : State) (c : Fin 8) : Bool := s.power = .running ∧ s.channels.bank[c].state.driven

/-- The stroke demand output of a channel (R141): 0 while the part does not run (R140). -/
def State.strokeDemand (s : State) (c : Fin 8) : Int :=
  if s.power = .running then s.channels.bank[c].demand else 0

/-! ## Condition instances (chapter 8) -/

/-- The place of a channel condition among the five (code − 1). -/
def ChannelCondition.index : ChannelCondition → Fin 5
  | .flangeProximity => 0
  | .lateralSensorFailed => 1
  | .channelFault => 2
  | .trackingError => 3
  | .steerLimited => 4

/-- The place of a vehicle condition among the eight (code − 16). -/
def VehicleCondition.index : VehicleCondition → Fin 8
  | .unlocated => 0
  | .positionDegraded => 1
  | .geometryUnknownAhead => 2
  | .geometryMismatch => 3
  | .pointsMovedUnder => 4
  | .pathFull => 5
  | .scanOverrun => 6
  | .counterSaturated => 7

/-- The instance of a channel condition: 8 × (code − 1) + channel. -/
def ofChannel (k : ChannelCondition) (c : Fin 8) : Fin 48 := ⟨8 * k.index.val + c.val, by omega⟩

/-- The instance of a vehicle condition: 40 + (code − 16). -/
def ofVehicle (k : VehicleCondition) : Fin 48 := ⟨40 + k.index.val, by omega⟩

/-- The 48 instances in order. -/
def allInstances : List (Fin 48) := List.finRange 48

/-- Whether a condition instance is present. -/
def State.present (s : State) (i : Fin 48) : Bool := s.monitor.conditions[i].present

/-- The set of the instances that meet a test, one bit each. -/
def setOf (f : Fin 48 → Bool) : BitVec 48 :=
  allInstances.foldl (fun acc i => if f i then acc ||| (1#48 <<< i.val) else acc) 0#48

/-- The present set (R164). -/
def State.presentSet (s : State) : BitVec 48 := setOf fun i => s.monitor.conditions[i].present

/-- The latched set (R164). -/
def State.latchedSet (s : State) : BitVec 48 := setOf fun i => s.monitor.conditions[i].latched

/-! ## Counters (section 8.4) -/

/-- The six counters of a channel, codes 1 to 6. -/
inductive ChannelCounter where
  | contact
  | proximityPasses
  | limitedPasses
  | implausiblePasses
  | trackingExceedPasses
  | substitutedPasses
  deriving DecidableEq, Repr

/-- The four counters of the vehicle, codes 16 to 19. -/
inductive VehicleCounter where
  | markerMatch
  | markerMiss
  | scanOverrun
  | frameError
  deriving DecidableEq, Repr

def ChannelCounter.index : ChannelCounter → Fin 6
  | .contact => 0
  | .proximityPasses => 1
  | .limitedPasses => 2
  | .implausiblePasses => 3
  | .trackingExceedPasses => 4
  | .substitutedPasses => 5

def VehicleCounter.index : VehicleCounter → Fin 4
  | .markerMatch => 0
  | .markerMiss => 1
  | .scanOverrun => 2
  | .frameError => 3

/-- The place of a channel's counter in a counter set. -/
def counterOf (k : ChannelCounter) (c : Fin 8) : Fin 52 := ⟨6 * c.val + k.index.val, by omega⟩

/-- The place of a vehicle counter in a counter set. -/
def vehicleCounter (k : VehicleCounter) : Fin 52 := ⟨48 + k.index.val, by omega⟩

/-- The place of a channel's peak |y|. -/
def peakOffset (c : Fin 8) : Fin 16 := ⟨2 * c.val, by omega⟩

/-- The place of a channel's peak |tracking error|. -/
def peakError (c : Fin 8) : Fin 16 := ⟨2 * c.val + 1, by omega⟩

/-! ## Summary byte (R192) -/

/-- Whether any channel stands in FAULT. -/
def State.anyFault (s : State) : Bool := allChannels.any fun c => s.channels.bank[c].state = .fault

/-- Whether any channel stands in STEERING. -/
def State.anySteering (s : State) : Bool := allChannels.any fun c => s.channels.bank[c].state = .steering

/-- Whether any condition is latched (R164). -/
def State.anyLatched (s : State) : Bool := allInstances.any fun i => s.monitor.conditions[i].latched

/-- The summary byte (R192) with its bits at the places of R200. -/
def State.summary (s : State) : Byte :=
  u8 s.tracker.published.state.code |||
    bits [false, false, s.channels.permit, s.anyFault, s.anySteering, s.anyLatched, s.tracker.published.standstill]

/-! ## What other blocks read of the record and the schedule -/

/-- The vehicle record as the blocks read it: all 0 while absent (R27). -/
def State.vehicleView (s : State) : VehicleRecord := s.vehicle.getD VehicleRecord.absent

/-- Whether a bogie is configured (R28). -/
def State.configured (s : State) (b : Fin 4) : Bool := b.val < s.vehicleView.bogieCount

/-- The stages in index order. -/
def allStages : List (Fin 32) := List.finRange 32

/-- The six lane roles (R99). -/
def laneRoles : List Role := [.gapLeftA, .gapRightA, .strokeA, .gapLeftB, .gapRightB, .strokeB]

/-- Whether a stage table holds a role for a bogie. -/
def holdsRole (stages : Vector StageEntry 32) (b : Fin 4) (r : Role) : Bool :=
  allStages.any fun i => stages[i].owner = some b ∧ stages[i].role = some r

/-- Whether a bogie is complete (R99). -/
def State.complete (s : State) (b : Fin 4) : Bool :=
  laneRoles.all fun r => holdsRole s.acquisition.stages b r

/-- Whether a bogie is to be scheduled: configured and complete (R99). -/
def State.schedulable (s : State) (b : Fin 4) : Bool := s.configured b && s.complete b

/-- The places of a bogie's outstanding scan (R102). -/
inductive ScanState where
  | none
  | queued
  | converting
  | awaitingPass
  deriving DecidableEq, Repr

def ScanState.code : ScanState → Nat
  | .none => 0
  | .queued => 1
  | .converting => 2
  | .awaitingPass => 3

/-- Where the bogie's outstanding scan stands (R102). -/
def State.scanState (s : State) (b : Fin 4) : ScanState :=
  if s.acquisition.queue.any (fun q => q.bogie = b) then .queued
  else if (s.acquisition.converter.any fun c => c.scan.bogie = b) then .converting
  else if s.computation.queue.any (fun r => r.bogie = b) then .awaitingPass
  else .none

/-- A bogie's schedule record in its 3 bytes (R97, R203). -/
def State.scheduleRecord (s : State) (b : Fin 4) : List Byte :=
  [u8 s.acquisition.periods[b],
    bits [s.configured b, s.complete b, holdsRole s.acquisition.stages b .yaw, s.acquisition.timers[b].isSome],
    u8 (s.scanState b).code]

/-- The four schedule records (R203). -/
def State.scheduleRecords (s : State) : List Byte := (allBogies.map s.scheduleRecord).flatten

/-! ## Channel status -/

/-- The lock timer remaining, in whole ms rounded up; 0 when stopped (R163). -/
def State.lockRemaining (s : State) (c : Fin 8) : Nat :=
  match s.channels.bank[c].lockTimer with
  | some t => (t - s.clock + 999) / 1000
  | none => 0

/-- The status record of a channel as it stands (R163). -/
def State.channelStatus (s : State) (c : Fin 8) : ChannelStatus :=
  let ch := s.channels.bank[c]
  { channel := c, state := ch.state, cause := ch.cause, remaining := s.lockRemaining c, demand := ch.demand,
    measured := ch.measured, measuredValid := ch.measuredValid, trackingError := ch.trackingError,
    trackingRun := ch.trackingRun, strokeInvalidRun := ch.strokeInvalidRun,
    driveEnable := s.driveEnable c, lockRelease := s.lockRelease c, lines := s.lines.drive[c],
    permit := s.channels.permit, output := s.computation.records[c].output,
    health := s.computation.records[c].health }

end Sys2Proof.Machine
end

