-- ==== Sys2Proof/Machine/Ops.lean ====
section
/-!
DEFINITION. The named operations that several blocks share: time, the notice queue, the monitor's reports and
counts, replies and the taking of requests, and the changes of a channel's state with what they bring about in
the same act.
-/

namespace Sys2Proof.Machine

/-! ## Running and time -/

/-- An operation of a block, done while the part runs; while it does not, nothing happens (R207, R208). -/
def State.whileRunning (s : State) (f : State → State) : State := if s.power = .running then f s else s

/-- The clock moved on to a moment that has been reached; it never goes back (log entry 2). -/
def State.reach (s : State) (t : Nat) : State := { s with clock := max s.clock t }

/-! ## Notices (R195) -/

/-- Whether two notices have the same kind and subject (R195). -/
def Notice.sameSubject : Notice → Notice → Bool
  | .condition _ _, .condition _ _ => true
  | .channel c _ _ _, .channel d _ _ _ => c = d
  | .position _ _ _ _ _, .position _ _ _ _ _ => true
  | _, _ => false

/-- A notice that replaces a waiting one: an N.COND takes over the sets it replaces (R166), the others carry
their own contents (R195). -/
def Notice.over (new old : Notice) : Notice :=
  match new, old with
  | .condition r f, .condition r' f' => .condition (r' ||| r) (f' ||| f)
  | _, _ => new

/-- A notice joining the queue: in the place of the waiting one of the same kind and subject, else at the end
(R195). -/
def queueNotice (n : Notice) : List Notice → List Notice
  | [] => [n]
  | m :: rest => if m.sameSubject n then n.over m :: rest else m :: queueNotice n rest

/-- A notice queued at the link. -/
def State.notify (s : State) (n : Notice) : State :=
  { s with link := { s.link with notices := queueNotice n s.link.notices } }

/-! ## Conditions (R165, R166) -/

/-- Whether a notice mode calls for a notice of a rise. -/
def NoticeMode.onRise : NoticeMode → Bool
  | .rise | .both => true
  | .off | .fall => false

/-- Whether a notice mode calls for a notice of a fall. -/
def NoticeMode.onFall : NoticeMode → Bool
  | .fall | .both => true
  | .off | .rise => false

/-- A condition record changed. -/
def State.setCondition (s : State) (i : Fin 48) (r : ConditionRecord) : State :=
  { s with monitor := { s.monitor with conditions := s.monitor.conditions.set i.val r i.isLt } }

/-- An owner's report of a condition instance (R165), with the notice its edge calls for (R166). -/
def State.report (s : State) (i : Fin 48) (value : Bool) : State :=
  let r := s.monitor.conditions[i]
  if value then
    if r.present then s
    else
      let s1 := s.setCondition i { r with present := true, latched := true }
      if r.mode.onRise then s1.notify (.condition (1#48 <<< i.val) 0#48) else s1
  else
    if r.present then
      let s1 := s.setCondition i { r with present := false }
      if r.mode.onFall then s1.notify (.condition 0#48 (1#48 <<< i.val)) else s1
    else s

/-! ## Counters, peaks and snapshots (R173 to R176) -/

/-- The live set changed. -/
def State.setLive (s : State) (l : CounterSet) : State := { s with monitor := { s.monitor with live := l } }

/-- One event counted (R173). The increment that brings the counter to 65,535 raises COUNTER_SATURATED (R174). -/
def State.count (s : State) (k : Fin 52) : State :=
  let n := s.monitor.live.counts[k]
  if n < 65535 then
    let s1 := s.setLive { s.monitor.live with counts := s.monitor.live.counts.set k.val (n + 1) k.isLt }
    if n + 1 = 65535 then s1.report (ofVehicle .counterSaturated) true else s1
  else s

/-- An event counted where it has occurred. -/
def State.countIf (s : State) (occurred : Bool) (k : Fin 52) : State := if occurred then s.count k else s

/-- A peak candidate offered (R175); one above 65,535 is taken as 65,535. -/
def State.offerPeak (s : State) (k : Fin 16) (candidate : Nat) : State :=
  s.setLive { s.monitor.live with
    peaks := s.monitor.live.peaks.set k.val (max s.monitor.live.peaks[k] (min 65535 candidate)) k.isLt }

/-- A snapshot (R176): the live set and its length become the snapshot set, the live set starts again from 0,
COUNTER_SATURATED ceases to be present, and in AUTO mode the timer restarts with 1,000 ms. The length in ms is
rounded by R108 (log entry 7). -/
def State.snapshot (s : State) (cause : SnapshotCause) : State :=
  let m := s.monitor
  let s1 : State := { s with monitor := { m with
    snapshot := { sequence := (m.snapshot.sequence + 1) % 65536,
                  interval := min 65535 (roundNat (s.clock - m.intervalStart) 1000), cause := cause,
                  set := m.live },
    live := CounterSet.zero, intervalStart := s.clock,
    timer := if m.auto then some (s.clock + 1000000) else m.timer } }
  s1.report (ofVehicle .counterSaturated) false

/-! ## Requests and replies (R188 to R192) -/

/-- What an owner answers: the status, and the fields that follow the reply head (R191). -/
structure Answer where
  status : Status
  fields : List Byte
  deriving DecidableEq, Repr

/-- A refusal or a taking whose reply is the head alone (R191). -/
def Answer.plain (st : Status) : Answer := ⟨st, []⟩

/-- The reply to a request (R191): its kind is the request's + 0x80, its tag the request's, its body opens with
the status and the summary byte as it stands in `s`. That this holds for the unlisted kinds 0x70 to 0x7F too, whose replies
then stand among the notice kinds, is the model's choice (log entry 29). -/
def State.replyTo (s : State) (r : Frame) (a : Answer) : Frame :=
  { kind := r.kind + 0x80, tag := r.tag, body := u8 a.status.code :: s.summary :: a.fields }

/-- A reply built and placed in the reply queue (R191, R194). -/
def State.queueReply (s : State) (r : Frame) (a : Answer) (final : Bool) : State :=
  { s with link := { s.link with replies := s.link.replies ++ [⟨s.replyTo r a, final⟩] } }

/-- Whether the handler can take a request: IDLE, no restart pending, room for a reply (R189). -/
def State.handlerFree (s : State) : Bool :=
  s.link.handler = .idle ∧ s.link.restartPending = false ∧ s.link.replies.length < Config.replyDepth

/-- The request the handler can take now: the oldest of the receive queue (R189). -/
def State.frontRequest (s : State) : Option Frame := if s.handlerFree then s.link.requests.head? else none

/-- The oldest request leaves the receive queue (R188). -/
def State.popRequest (s : State) : State := { s with link := { s.link with requests := s.link.requests.tail } }

/-- A request row: the handler takes the oldest request when it is of the row's `kind` and its body is one of the
row's own (`mine`; two rows share the kinds of SEC.JOIN, PERMIT.SET and CNT.MODE, and a body of a wrong length
is either's). A body that does not fit its form is refused BAD_LENGTH (R190); one that fits goes to its owner. -/
def State.serve (s : State) (kind : Byte) (mine fits : List Byte → Bool) (owner : Frame → State → State) : State :=
  s.whileRunning fun s =>
    match s.frontRequest with
    | none => s
    | some r =>
      if r.kind = kind then
        if fits r.body then (if mine r.body then owner r s.popRequest else s)
        else s.popRequest.queueReply r (Answer.plain .badLength) false
      else s

/-- A request row whose owner acts and answers in one act (R189): the reply is built after the request has
acted. -/
def State.serveAct (s : State) (kind : Byte) (mine fits : List Byte → Bool)
    (act : List Byte → State → State × Answer) : State :=
  s.serve kind mine fits fun r s => (act r.body s).1.queueReply r (act r.body s).2 false

/-- Every body of the kind is the row's own. -/
def anyBody (_ : List Byte) : Bool := true

/-- The body has exactly the given length (R201). -/
def lengthIs (n : Nat) (body : List Byte) : Bool := body.length = n

/-! ## Channels: changes of state (R140 to R146, R160) -/

/-- One channel changed. -/
def State.setChannel (s : State) (c : Fin 8) (f : Channel → Channel) : State :=
  { s with channels := { s.channels with bank := changeAt s.channels.bank c f } }

/-- One computation record changed. -/
def State.setRecord (s : State) (c : Fin 8) (f : ComputationRecord → ComputationRecord) : State :=
  { s with computation := { s.computation with records := changeAt s.computation.records c f } }

/-- The moment a lock timer started now expires: the channel's lock time from now (R143). -/
def State.lockDeadline (s : State) (c : Fin 8) : Nat := s.clock + 1000 * s.computation.laws[c].lockTime

/-- The N.CHAN of a change of state that has been made (R160). -/
def State.notifyChannel (s : State) (c : Fin 8) (before : ChannelState) (event : ChannelEvent) : State :=
  s.notify (.channel c before event (s.channelStatus c))

/-- A channel enters LOCKING (R141, R143): demand 0, the lock timer started. -/
def Channel.toLocking (deadline : Nat) (ch : Channel) : Channel :=
  { ch with state := .locking, demand := 0, lockTimer := some deadline }

/-- A channel enters LOCKED (R141, R143): demand 0, the lock timer stopped, no fault cause (R139), and both runs
at 0, as they stand in LOCKED (R149; log entry 8). -/
def Channel.toLocked (ch : Channel) : Channel :=
  { ch with state := .locked, cause := .none, demand := 0, lockTimer := none, trackingRun := 0,
            strokeInvalidRun := 0 }

/-- A channel enters UNLOCKING (R149): demand 0, the lock timer started, both runs at 0. -/
def Channel.toUnlocking (deadline : Nat) (ch : Channel) : Channel :=
  { ch with state := .unlocking, demand := 0, lockTimer := some deadline, trackingRun := 0,
            strokeInvalidRun := 0 }

/-- A channel enters STEERING with its demand kept (R141, R151); the entry shuts out the result of a pass
in flight (R116). -/
def Channel.toSteering (ch : Channel) : Channel :=
  { ch with state := .steering, lockTimer := none, entered := true }

/-- A channel enters RETURNING with its demand kept (R141, R152). -/
def Channel.toReturning (ch : Channel) : Channel :=
  { ch with state := .returning, lockTimer := none, entered := true }

/-- A channel enters HOLDING with its demand frozen (R150). -/
def Channel.toHolding (ch : Channel) : Channel := { ch with state := .holding }

/-- A channel enters FAULT (R146). -/
def Channel.toFault (cause : FaultCause) (ch : Channel) : Channel :=
  { ch with state := .fault, cause := cause, demand := 0, lockTimer := none, trackingRun := 0,
            strokeInvalidRun := 0 }

/-- The channel enters FAULT with its cause (R146): TRACKING_ERROR ceases to be present (R161), CHANNEL_FAULT
becomes present, and an N.CHAN is queued. -/
def State.enterFault (s : State) (c : Fin 8) (cause : FaultCause) : State :=
  let before := s.channels.bank[c].state
  let s1 := s.setChannel c (Channel.toFault cause)
  let s2 := (s1.report (ofChannel .trackingError c) false).report (ofChannel .channelFault c) true
  s2.notifyChannel c before .fault

/-- A channel moved to LOCKING with its lock timer started afresh, and the N.CHAN of the event (R143, R160). -/
def State.enterLocking (s : State) (c : Fin 8) (event : ChannelEvent) : State :=
  let before := s.channels.bank[c].state
  (s.setChannel c (Channel.toLocking (s.lockDeadline c))).notifyChannel c before event

/-- A channel moved to LOCKED, with the N.CHAN of the event. -/
def State.enterLocked (s : State) (c : Fin 8) (event : ChannelEvent) : State :=
  let before := s.channels.bank[c].state
  (s.setChannel c Channel.toLocked).notifyChannel c before event

/-- A channel moved from UNLOCKING to STEERING (R144): demand 0, and the computation unit sets the channel's f,
ψ_out and h to 0 and feedforward substituted to no (R109). -/
def State.enterSteering (s : State) (c : Fin 8) : State :=
  let before := s.channels.bank[c].state
  let s1 := s.setChannel c fun ch => { ch.toSteering with demand := 0 }
  let s2 := s1.setRecord c fun r => { r with filter := 0, output := 0, held := 0, substituted := false }
  s2.notifyChannel c before .lockReleased

/-- A channel moved to RETURNING with its demand kept, and the N.CHAN of the event (R152, R155). -/
def State.enterReturning (s : State) (c : Fin 8) (event : ChannelEvent) : State :=
  let before := s.channels.bank[c].state
  (s.setChannel c Channel.toReturning).notifyChannel c before event

/-- The states in which a true drive fault line takes a channel to FAULT (R145). -/
def ChannelState.faultable : ChannelState → Bool
  | .locking | .unlocking | .steering | .holding | .returning => true
  | .locked | .fault => false

/-- The move that the levels of a channel's lines call for in the state it stands in, made at once (R144, R145).
A true drive fault goes before a lock engaged (R145). -/
def State.settleOnce (s : State) (c : Fin 8) : State :=
  let ch := s.channels.bank[c]
  let l := s.lines.drive[c]
  if ch.state.faultable ∧ l.driveFault then s.enterFault c .drive
  else if ch.state = .locking ∧ l.lockEngaged then s.enterLocked c .lockEngaged
  else if ch.state = .locked ∧ l.lockEngaged = false then s.enterLocking c .lockLost
  else if ch.state = .unlocking ∧ l.lockEngaged = false then s.enterSteering c
  else s

/-- All the moves that the levels call for: at most two follow one another, LOCKED to LOCKING to FAULT. -/
def State.settle (s : State) (c : Fin 8) : State := (s.settleOnce c).settleOnce c

/-- The levels acted on for every channel, in channel order (R207). -/
def State.settleAll (s : State) : State := allChannels.foldl (fun s c => s.settle c) s

/-! ## Resets (R198, R207) -/

/-- Every block but the vehicle record put at its reset values at the present moment, with the levels of the
input lines acted on in the same act (R142, R144, R145, R164, R198, R207). -/
def State.resetBlocks (s : State) : State :=
  { s with
    store := Store.initial, tracker := Tracker.initial s.clock s.lines.marker, path := [],
    acquisition := Acquisition.initial, computation := Computation.initial,
    channels := Channels.initial s.clock, monitor := Monitor.initial s.clock,
    link := LinkState.initial s.clock }.settleAll

end Sys2Proof.Machine
end

