-- ==== Sys2Proof/Machine/Geometry.lean ====
section
/-!
DEFINITION. The geometry store (chapter 1): curvature and clearance within a section, the close check, and the
SEC.* and PTS.* requests.
-/

namespace Sys2Proof.Machine

/-! ## Curvature and clearance (R4 to R6) -/

/-- The element that contains chainage `s`, with the chainage where it ends: the element with the greatest start
not above `s` (R4). `stop` is where the last element ends, the section length. -/
def containing (stop s : Nat) : List Element → Option (Element × Nat)
  | [] => none
  | [e] => if e.start ≤ s then some (e, stop) else none
  | e :: f :: rest =>
    if f.start ≤ s then containing stop s (f :: rest)
    else if e.start ≤ s then some (e, f.start) else none

/-- The curvature of an element that ends at `stop`, at chainage `s` (R5). -/
def Element.curvatureAt (e : Element) (stop s : Nat) : Int :=
  match e.kind with
  | .straight => 0
  | .arc => e.curvatureStart
  | .spiral =>
    e.curvatureStart + roundDiv ((e.curvatureEnd - e.curvatureStart) * ((s : Int) - e.start)) (stop - e.start)

/-- κ(s) in the section's own chainage direction (R5); none where no element contains `s`, which no READY section
allows (R17). -/
def SectionRecord.curvature (r : SectionRecord) (s : Nat) : Option Int :=
  (containing r.length s r.elements).map fun p => p.1.curvatureAt p.2 s

/-- The clearance at chainage `s`: the element's, or the section default (R6). -/
def SectionRecord.clearanceAt (r : SectionRecord) (s : Nat) : Option Nat :=
  (containing r.length s r.elements).map fun p => p.1.clearance.getD r.clearance

/-! ## The close check (R16) -/

/-- The first index at which a list of failures fails. -/
def firstFailure : List Bool → Option Nat
  | [] => none
  | true :: _ => some 0
  | false :: rest => (firstFailure rest).map (· + 1)

/-- Each element fails when the test of it and the element before it does; the first never does. -/
def againstBefore {α : Type} (test : α → α → Bool) : List α → List Bool
  | [] => []
  | a :: rest => false :: (List.zipWith test (a :: rest) rest)

/-- Where each element ends: at the next one's start, the last at the section length (R4). -/
def elementEnds (length : Nat) (els : List Element) : List Nat := els.tail.map (·.start) ++ [length]

/-- The magnitude of a curvature is above 100,000. -/
def curvatureBeyond (k : Int) : Bool := 100000 < k.natAbs

/-- The eleven check items in order: for each its reason code and, by index, whether it fails (R16). -/
def checkItems (r : SectionRecord) : List (Nat × List Bool) :=
  let els := r.elements
  let marks := r.markers
  [(1, match els with | [] => [] | e :: _ => [decide (e.start ≠ 0)]),
   (2, againstBefore (fun a b => b.start ≤ a.start) els),
   (3, List.zipWith (fun e stop => decide (stop < e.start + 100)) els (elementEnds r.length els)),
   (4, els.map fun e => e.kind = .straight ∧ (e.curvatureStart ≠ 0 ∨ e.curvatureEnd ≠ 0)),
   (5, els.map fun e => e.kind = .arc ∧ (e.curvatureStart ≠ e.curvatureEnd ∨ e.curvatureStart = 0)),
   (6, els.map fun e => curvatureBeyond e.curvatureStart || curvatureBeyond e.curvatureEnd),
   (7, els.map fun e => match e.clearance with | none => false | some c => decide (c < 500 ∨ 6000 < c)),
   (8, marks.map fun m => decide (r.length < m.chainage)),
   (9, againstBefore (fun a b => b.chainage ≤ a.chainage) marks),
   (10, againstBefore (fun a b => b.chainage < a.chainage + 1000) marks),
   (11, if els = [] then [true] else [])]

/-- The first item and index that fail, if any (R16). -/
def closeCheck (r : SectionRecord) : Option (Nat × Nat) :=
  (checkItems r).findSome? fun item => (firstFailure item.2).map fun i => (item.1, i)

/-- How long the close check takes, in µs (R15). -/
def closeDuration (r : SectionRecord) : Nat := 50 + 5 * r.elements.length

/-! ## Changing the store -/

/-- One section record changed. -/
def State.setSection (s : State) (i : Fin 32) (f : SectionRecord → SectionRecord) : State :=
  { s with store := { s.store with sections := changeAt s.store.sections i f } }

/-- The free pool count changed. -/
def State.setPool (s : State) (n : Nat) : State := { s with store := { s.store with freePool := n } }

/-- One points record changed. -/
def State.setPoints (s : State) (i : Fin 16) (p : Option PointsRecord) : State :=
  { s with store := { s.store with points := s.store.points.set i.val p i.isLt } }

/-- The link of one end of a section. -/
def SectionRecord.linkAt (r : SectionRecord) : SectionEnd → Link
  | .low => r.low
  | .high => r.high

/-- One end's link written. -/
def SectionRecord.withLink (r : SectionRecord) (e : SectionEnd) (l : Link) : SectionRecord :=
  match e with
  | .low => { r with low := l }
  | .high => { r with high := l }

/-- The link of a section end. -/
def Store.linkOf (g : Store) (e : EndRef) : Link := g.sections[e.sec].linkAt e.side

/-- The link of a section end written. -/
def State.setLink (s : State) (e : EndRef) (l : Link) : State := s.setSection e.sec fun r => r.withLink e.side l

/-- Whether a link is a points member's. -/
def Link.isPoints : Link → Bool
  | .points _ _ => true
  | _ => false

/-- An end unlinked: when it holds a SECTION link, it and the partner end become NONE (R8, R19). -/
def State.unlink (s : State) (e : EndRef) : State :=
  match s.store.linkOf e with
  | .sec target f => (s.setLink ⟨target, f⟩ .none).setLink e .none
  | _ => s

/-- Whether a section's occupancy count is above 0 (R25). -/
def Store.occupied (g : Store) (i : Fin 32) : Bool := 0 < g.sections[i].occupancy

/-- Whether the section that a link leads to is occupied. -/
def Store.partnerOccupied (g : Store) : Link → Bool
  | .sec target _ => g.occupied target
  | _ => false

/-- The free pool count as a reply carries it (R202). -/
def State.poolField (s : State) : List Byte := be 2 s.store.freePool

/-! ## SEC.OPEN (R10, R11) -/

/-- SEC.OPEN taken on a FREE section: it becomes LOADING with the given values, with no elements, markers or
links, and no pool slot is taken (R10). -/
def State.openFree (s : State) (i : Fin 32) (length clearance : Nat) : State :=
  s.setSection i fun r =>
    { r with state := .loading, length := length, clearance := clearance, elements := [], markers := [],
             low := .none, high := .none }

/-- SEC.OPEN taken on a READY section: it becomes LOADING with the given values, its element slots return to the
pool, its markers go, and its links stand (R11). -/
def State.reopen (s : State) (i : Fin 32) (length clearance : Nat) : State :=
  (s.setPool (s.store.freePool + s.store.sections[i].elements.length)).setSection i fun r =>
    { r with state := .loading, length := length, clearance := clearance, elements := [], markers := [] }

/-- SEC.OPEN. -/
def ownSecOpen (body : List Byte) (s : State) : State × Answer :=
  let length := fieldU body 1 3
  let clearance := fieldU body 4 2
  match sectionOf? (fieldU body 0 1) with
  | none => (s, Answer.plain .outOfRange)
  | some i =>
    if length < 3000 ∨ 16000000 < length ∨ clearance < 500 ∨ 6000 < clearance then (s, Answer.plain .outOfRange)
    else match s.store.sections[i].state with
    | .loading | .checking => (s, Answer.plain .badState)
    | .free =>
      let t := s.openFree i length clearance
      (t, ⟨.ok, t.poolField⟩)
    | .ready =>
      if s.store.occupied i then (s, Answer.plain .occupied)
      else
        let t := s.reopen i length clearance
        (t, ⟨.ok, t.poolField⟩)

/-! ## SEC.PUT (R12, R13) -/

/-- Records handled in order from `index` (R13): the new element list, the new free pool count and the number of
records stored. The first record discarded ends the storing, since every later one is discarded too. -/
def putRecords (index : Nat) (els : List Element) (pool : Nat) : List Element → List Element × Nat × Nat
  | [] => (els, pool, 0)
  | e :: rest =>
    if Config.maxElements ≤ index then (els, pool, 0)
    else if index < els.length then
      let out := putRecords (index + 1) (els.set index e) pool rest
      (out.1, out.2.1, out.2.2 + 1)
    else if pool = 0 then (els, pool, 0)
    else
      let out := putRecords (index + 1) (els ++ [e]) (pool - 1) rest
      (out.1, out.2.1, out.2.2 + 1)

/-- The element records a SEC.PUT body carries; none when a kind code is not one of the three (R12). -/
def elementsOf? (body : List Byte) : Option (List Element) :=
  (recordsOf 11 ((body.length - 2) / 11) (body.drop 2)).mapM elementOf?

/-- SEC.PUT. -/
def ownSecPut (body : List Byte) (s : State) : State × Answer :=
  let start := fieldU body 1 1
  match sectionOf? (fieldU body 0 1), elementsOf? body with
  | some i, some records =>
    let r := s.store.sections[i]
    if r.state ≠ .loading then (s, Answer.plain .badState)
    else if r.elements.length < start then (s, Answer.plain .outOfRange)
    else
      let out := putRecords start r.elements s.store.freePool records
      let t := (s.setPool out.2.1).setSection i fun r => { r with elements := out.1 }
      (t, ⟨if out.2.2 < records.length then .noSpace else .ok,
        [u8 out.2.2, u8 out.1.length] ++ t.poolField⟩)
  | _, _ => (s, Answer.plain .outOfRange)

/-- A SEC.PUT body holds 1..16 element records after the section and the start index (R190, R201). -/
def fitsSecPut (body : List Byte) : Bool :=
  13 ≤ body.length ∧ body.length ≤ 2 + 11 * 16 ∧ (body.length - 2) % 11 = 0

/-! ## SEC.MARK (R14) -/

/-- SEC.MARK. -/
def ownSecMark (body : List Byte) (s : State) : State × Answer :=
  let marks := (recordsOf 5 ((body.length - 1) / 5) (body.drop 1)).map markerOf
  match sectionOf? (fieldU body 0 1) with
  | none => (s, Answer.plain .outOfRange)
  | some i =>
    if marks.any fun m => m.halfWidth < 100 ∨ 5000 < m.halfWidth then (s, Answer.plain .outOfRange)
    else if s.store.sections[i].state ≠ .loading then (s, Answer.plain .badState)
    else (s.setSection i fun r => { r with markers := marks }, ⟨.ok, [u8 marks.length]⟩)

/-- A SEC.MARK body holds 0..8 marker records after the section (R190, R201). -/
def fitsSecMark (body : List Byte) : Bool :=
  1 ≤ body.length ∧ body.length ≤ 1 + 5 * 8 ∧ (body.length - 1) % 5 = 0

/-! ## SEC.CLOSE (R15 to R17) -/

/-- SEC.CLOSE: a LOADING section becomes CHECKING and the handler stays BUSY until the check is over; the reply
comes then. A refusal is answered at once. -/
def ownSecClose (r : Frame) (s : State) : State :=
  match sectionOf? (fieldU r.body 0 1) with
  | none => s.queueReply r (Answer.plain .outOfRange) false
  | some i =>
    if s.store.sections[i].state ≠ .loading then s.queueReply r (Answer.plain .badState) false
    else
      let t := s.setSection i fun r => { r with state := .checking }
      { t with link := { t.link with
          handler := .closing r.tag i (s.clock + closeDuration s.store.sections[i]) } }

/-- The close check of the section the handler is busy with is over (R17): READY and OK with the element count,
or back to LOADING and CHECK_FAILED with the reason code and the index. -/
def State.completeClose (s : State) : State :=
  match s.link.handler with
  | .idle => s
  | .closing tag i endsAt =>
    let s1 := s.reach endsAt
    let s2 : State := { s1 with link := { s1.link with handler := .idle } }
    let request : Frame := { kind := 0x13, tag := tag, body := [u8 (idOfSection i)] }
    match closeCheck s.store.sections[i] with
    | none =>
      (s2.setSection i fun r => { r with state := .ready }).queueReply request
        ⟨.ok, [u8 s.store.sections[i].elements.length]⟩ false
    | some (code, index) =>
      (s2.setSection i fun r => { r with state := .loading }).queueReply request
        ⟨.checkFailed, [u8 code, u8 index]⟩ false

/-! ## SEC.JOIN (R18, R19) -/

/-- SEC.JOIN with a link kind other than NONE (R18). -/
def ownSecJoin (body : List Byte) (s : State) : State × Answer :=
  if fieldU body 2 1 ≠ 1 then (s, Answer.plain .outOfRange)
  else match endRefOf? body 0, endRefOf? body 3 with
  | some a, some b =>
    let g := s.store
    if a = b then (s, Answer.plain .outOfRange)
    else if g.sections[a.sec].state = .free ∨ g.sections[b.sec].state = .free then (s, Answer.plain .noSection)
    else if (g.linkOf a).isPoints ∨ (g.linkOf b).isPoints then (s, Answer.plain .inPoints)
    else if g.occupied a.sec ∨ g.occupied b.sec then (s, Answer.plain .occupied)
    else if (g.linkOf a ≠ .none ∧ g.linkOf a ≠ .sec b.sec b.side) ∨
        (g.linkOf b ≠ .none ∧ g.linkOf b ≠ .sec a.sec a.side) then (s, Answer.plain .linkConflict)
    else ((s.setLink a (.sec b.sec b.side)).setLink b (.sec a.sec a.side), Answer.plain .ok)
  | _, _ => (s, Answer.plain .outOfRange)

/-- SEC.JOIN with link kind NONE (R19). -/
def ownSecJoinNone (body : List Byte) (s : State) : State × Answer :=
  match endRefOf? body 0 with
  | none => (s, Answer.plain .outOfRange)
  | some a =>
    let g := s.store
    if g.sections[a.sec].state = .free then (s, Answer.plain .noSection)
    else if (g.linkOf a).isPoints then (s, Answer.plain .inPoints)
    else if g.occupied a.sec ∨ g.partnerOccupied (g.linkOf a) then (s, Answer.plain .occupied)
    else (s.unlink a, Answer.plain .ok)

/-- Whether a SEC.JOIN body's link kind is NONE (R201). -/
def joinsNone (body : List Byte) : Bool := fieldU body 2 1 = 0

/-! ## SEC.DROP (R20) -/

/-- SEC.DROP taken: the elements return to the pool, both ends are unlinked with their partners, and the section
becomes FREE. -/
def State.dropSection (s : State) (i : Fin 32) : State :=
  let s1 := (s.unlink ⟨i, .low⟩).unlink ⟨i, .high⟩
  (s1.setPool (s1.store.freePool + s1.store.sections[i].elements.length)).setSection i fun r =>
    { r with state := .free, length := 0, clearance := 0, elements := [], markers := [] }

/-- SEC.DROP. -/
def ownSecDrop (body : List Byte) (s : State) : State × Answer :=
  match sectionOf? (fieldU body 0 1) with
  | none => (s, Answer.plain .outOfRange)
  | some i =>
    let r := s.store.sections[i]
    if r.state = .free then (s, Answer.plain .noSection)
    else if r.low.isPoints ∨ r.high.isPoints then (s, Answer.plain .inPoints)
    else if s.store.occupied i ∨ s.store.partnerOccupied r.low ∨ s.store.partnerOccupied r.high then
      (s, Answer.plain .occupied)
    else
      let t := s.dropSection i
      (t, ⟨.ok, t.poolField⟩)

/-! ## SEC.GET (R21) -/

/-- The body of a SEC.GET reply after its head (R202). -/
def sectionReport (s : State) (i : Fin 32) (start count : Nat) : List Byte :=
  let r := s.store.sections[i]
  let shown := (r.elements.drop start).take count
  [u8 r.state.code] ++ be 3 r.length ++ be 2 r.clearance ++ [u8 r.elements.length] ++ s.poolField ++
    r.low.encode ++ r.high.encode ++ [u8 r.occupancy, u8 r.markers.length] ++
    (r.markers.map Marker.encode).flatten ++ [u8 shown.length] ++ (shown.map Element.encode).flatten

/-- SEC.GET. -/
def ownSecGet (body : List Byte) (s : State) : State × Answer :=
  let count := fieldU body 2 1
  match sectionOf? (fieldU body 0 1) with
  | none => (s, Answer.plain .outOfRange)
  | some i =>
    if count < 1 ∨ 16 < count then (s, Answer.plain .outOfRange)
    else if s.store.sections[i].state = .free then (s, Answer.plain .noSection)
    else (s, ⟨.ok, sectionReport s i (fieldU body 1 1) count⟩)

/-! ## Points (R22 to R24) -/

/-- PTS.DEFINE taken: the record with setting UNKNOWN and the three POINTS links. -/
def State.definePoints (s : State) (i : Fin 16) (toe left right : EndRef) : State :=
  (((s.setPoints i (some ⟨toe, left, right, .unknown⟩)).setLink toe (.points i .toe)).setLink
    left (.points i .left)).setLink right (.points i .right)

/-- PTS.DEFINE. -/
def ownPtsDefine (body : List Byte) (s : State) : State × Answer :=
  match pointsOf? (fieldU body 0 1), endRefOf? body 1, endRefOf? body 3, endRefOf? body 5 with
  | some i, some toe, some left, some right =>
    let g := s.store
    if toe = left ∨ toe = right ∨ left = right then (s, Answer.plain .outOfRange)
    else if g.points[i].isSome then (s, Answer.plain .badState)
    else if g.sections[toe.sec].state = .free ∨ g.sections[left.sec].state = .free ∨
        g.sections[right.sec].state = .free then (s, Answer.plain .noSection)
    else if g.occupied toe.sec ∨ g.occupied left.sec ∨ g.occupied right.sec then (s, Answer.plain .occupied)
    else if g.linkOf toe ≠ .none ∨ g.linkOf left ≠ .none ∨ g.linkOf right ≠ .none then
      (s, Answer.plain .linkConflict)
    else (s.definePoints i toe left right, Answer.plain .ok)
  | _, _, _, _ => (s, Answer.plain .outOfRange)

/-- PTS.REMOVE taken: the three member ends become NONE and the record undefined. -/
def State.removePoints (s : State) (i : Fin 16) (p : PointsRecord) : State :=
  (((s.setPoints i none).setLink p.toe .none).setLink p.left .none).setLink p.right .none

/-- PTS.REMOVE. -/
def ownPtsRemove (body : List Byte) (s : State) : State × Answer :=
  match pointsOf? (fieldU body 0 1) with
  | none => (s, Answer.plain .outOfRange)
  | some i =>
    match s.store.points[i] with
    | none => (s, Answer.plain .badState)
    | some p =>
      if s.store.occupied p.toe.sec ∨ s.store.occupied p.left.sec ∨ s.store.occupied p.right.sec then
        (s, Answer.plain .occupied)
      else (s.removePoints i p, Answer.plain .ok)

/-- A points change handed over to the path manager (R24). -/
def State.handOver (s : State) (c : PointsChange) : State :=
  { s with store := { s.store with changes := s.store.changes ++ [c] } }

/-- PTS.SET. -/
def ownPtsSet (body : List Byte) (s : State) : State × Answer :=
  match pointsOf? (fieldU body 0 1), settingOf? (fieldU body 1 1) with
  | some i, some setting =>
    match s.store.points[i] with
    | none => (s, Answer.plain .badState)
    | some p =>
      if p.setting = setting then (s, Answer.plain .ok)
      else
        ((s.setPoints i (some { p with setting := setting })).handOver ⟨i, p.setting, setting⟩, Answer.plain .ok)
  | _, _ => (s, Answer.plain .outOfRange)

/-! ## The commands -/

/-- SEC_OPEN. -/
def execSecOpen (s : State) : Host.Outcome State Fault Refusal :=
  .next (s.serveAct 0x10 anyBody (lengthIs 6) ownSecOpen)

/-- SEC_PUT. -/
def execSecPut (s : State) : Host.Outcome State Fault Refusal :=
  .next (s.serveAct 0x11 anyBody fitsSecPut ownSecPut)

/-- SEC_MARK. -/
def execSecMark (s : State) : Host.Outcome State Fault Refusal :=
  .next (s.serveAct 0x12 anyBody fitsSecMark ownSecMark)

/-- SEC_CLOSE. -/
def execSecClose (s : State) : Host.Outcome State Fault Refusal :=
  .next (s.serve 0x13 anyBody (lengthIs 1) ownSecClose)

/-- CLOSE_CHECK_COMPLETE. -/
def execCloseCheckComplete (s : State) : Host.Outcome State Fault Refusal :=
  .next (s.whileRunning State.completeClose)

/-- SEC_JOIN. -/
def execSecJoin (s : State) : Host.Outcome State Fault Refusal :=
  .next (s.serveAct 0x14 (fun body => !joinsNone body) (lengthIs 5) ownSecJoin)

/-- SEC_JOIN_NONE. -/
def execSecJoinNone (s : State) : Host.Outcome State Fault Refusal :=
  .next (s.serveAct 0x14 joinsNone (lengthIs 5) ownSecJoinNone)

/-- SEC_DROP. -/
def execSecDrop (s : State) : Host.Outcome State Fault Refusal :=
  .next (s.serveAct 0x15 anyBody (lengthIs 1) ownSecDrop)

/-- SEC_GET. -/
def execSecGet (s : State) : Host.Outcome State Fault Refusal :=
  .next (s.serveAct 0x16 anyBody (lengthIs 3) ownSecGet)

/-- PTS_DEFINE. -/
def execPtsDefine (s : State) : Host.Outcome State Fault Refusal :=
  .next (s.serveAct 0x18 anyBody (lengthIs 7) ownPtsDefine)

/-- PTS_REMOVE. -/
def execPtsRemove (s : State) : Host.Outcome State Fault Refusal :=
  .next (s.serveAct 0x19 anyBody (lengthIs 1) ownPtsRemove)

/-- PTS_SET. -/
def execPtsSet (s : State) : Host.Outcome State Fault Refusal :=
  .next (s.serveAct 0x1A anyBody (lengthIs 2) ownPtsSet)

end Sys2Proof.Machine
end

