-- ==== Sys2Proof/Machine/Path.lean ====
section
/-!
DEFINITION. The path manager (chapter 4): walking, path distance, lookups, extension, trimming, the path at a
tick and at POS.LOCATE, occupancy counts, and points changes.
-/

namespace Sys2Proof.Machine

/-! ## Ends and orientations (R71) -/

/-- The section end at an entry's A-side. -/
def Orientation.aSide : Orientation → SectionEnd
  | .up => .high
  | .down => .low

/-- The section end at an entry's B-side. -/
def Orientation.bSide : Orientation → SectionEnd
  | .up => .low
  | .down => .high

/-- The orientation of an entry appended at the A-end, entered at the given end. -/
def appendedOrientation : SectionEnd → Orientation
  | .low => .up
  | .high => .down

/-- The orientation of an entry prepended at the B-end, entered at the given end. -/
def prependedOrientation : SectionEnd → Orientation
  | .low => .down
  | .high => .up

/-! ## Walking (R72) -/

/-- The length of an entry's section, in µm. -/
def Store.microLength (g : Store) (e : PathEntry) : Int := 1000 * (g.sections[e.sec].length : Int)

/-- The distance of a chainage from the entry's B-side end; and, applied to such a distance, the chainage. -/
def Store.fromB (g : Store) (e : PathEntry) (x : Int) : Int :=
  match e.orientation with
  | .up => x
  | .down => g.microLength e - x

/-- An excess of `x` carried toward the A-end into the given entries, the first of which stands at place `i`. -/
def walkTowardA (g : Store) (i : Nat) (x : Int) : List PathEntry → Option Location
  | [] => none
  | e :: rest =>
    if x ≤ g.microLength e then some ⟨i, g.fromB e x⟩ else walkTowardA g (i + 1) (x - g.microLength e) rest

/-- An excess of `x` carried toward the B-end into the given entries, nearest first, the first of which stands at
place `i`. -/
def walkTowardB (g : Store) (i : Nat) (x : Int) : List PathEntry → Option Location
  | [] => none
  | e :: rest =>
    if x ≤ g.microLength e then some ⟨i, g.fromB e (g.microLength e - x)⟩
    else walkTowardB g (i - 1) (x - g.microLength e) rest

/-- A location walked by `d` µm along the vehicle axis, positive toward the A-end (R72); none is OUT_OF_PATH. -/
def walk (g : Store) (path : List PathEntry) (from_ : Location) (d : Int) : Option Location :=
  match path[from_.entry]? with
  | none => none
  | some e =>
    let x := g.fromB e from_.chainage + d
    if x < 0 then walkTowardB g (from_.entry - 1) (-x) (path.take from_.entry).reverse
    else if g.microLength e < x then
      walkTowardA g (from_.entry + 1) (x - g.microLength e) (path.drop (from_.entry + 1))
    else some ⟨from_.entry, g.fromB e x⟩

/-- The datum walked by an offset in mm (R73); OUT_OF_PATH while there is no datum. -/
def walkDatum (g : Store) (path : List PathEntry) (datum : Option Location) (offset : Int) : Option Location :=
  datum.bind fun l => walk g path l (1000 * offset)

/-- How far a location lies from the B-side end of the path, in µm. -/
def reachOf (g : Store) (path : List PathEntry) (l : Location) : Int :=
  ((path.take l.entry).map g.microLength).sum +
    match path[l.entry]? with
    | some e => g.fromB e l.chainage
    | none => 0

/-- The path distance from X to Y (R74). -/
def pathDistance (g : Store) (path : List PathEntry) (x y : Location) : Int := reachOf g path y - reachOf g path x

/-! ## Lookups (R75) -/

/-- The chainage of a location in mm. -/
def Location.mm (l : Location) : Nat := (roundDiv l.chainage 1000).toNat

/-- κ_A at a location (R75). -/
def curvatureAlong (g : Store) (path : List PathEntry) (l : Location) : Option Int :=
  path[l.entry]?.bind fun e =>
    (g.sections[e.sec].curvature l.mm).map fun k =>
      match e.orientation with
      | .up => k
      | .down => -k

/-- The clearance at a location (R75). -/
def clearanceAlong (g : Store) (path : List PathEntry) (l : Location) : Option Nat :=
  path[l.entry]?.bind fun e => g.sections[e.sec].clearanceAt l.mm

/-! ## Span and reach (R39, R76) -/

/-- The configured wheelset offsets (R28). -/
def VehicleRecord.offsets (v : VehicleRecord) : List Int :=
  (allChannels.filter fun c => (bogieOf c).val < v.bogieCount).map fun c => v.channels[c].offset

/-- The B-most wheelset offset (R39). -/
def VehicleRecord.bMost (v : VehicleRecord) : Int := v.offsets.foldl min (v.offsets.headD 0)

/-- The A-most wheelset offset (R39). -/
def VehicleRecord.aMost (v : VehicleRecord) : Int := v.offsets.foldl max (v.offsets.headD 0)

/-- The rear-most wheelset's offset (R76). -/
def VehicleRecord.rearMost (v : VehicleRecord) : Sign → Int
  | .plus => v.bMost
  | .minus => v.aMost

/-- The front-most wheelset's offset (R76). -/
def VehicleRecord.frontMost (v : VehicleRecord) : Sign → Int
  | .plus => v.aMost
  | .minus => v.bMost

/-- The reach target's offset (R76). -/
def VehicleRecord.reachTarget (v : VehicleRecord) : Sign → Int
  | .plus => v.aMost + Config.previewReach
  | .minus => v.bMost - Config.previewReach

/-! ## Extension (R77 to R79) -/

/-- The two sides of a path. -/
inductive Side where
  | aEnd
  | bEnd
  deriving DecidableEq, Repr

/-- The front side (R76). -/
def frontSide : Sign → Side
  | .plus => .aEnd
  | .minus => .bEnd

/-- The rear side (R76). -/
def rearSide : Sign → Side
  | .plus => .bEnd
  | .minus => .aEnd

/-- Why an extension stops (R77, R79). -/
inductive StopReason where
  | endOfLine
  | notReady
  | pointsUnknown
  | full
  deriving DecidableEq, Repr

/-- What extension finds beyond a section end: a section end to enter with the joint crossed, or a stop. -/
inductive Beyond where
  | enter (at_ : EndRef) (via : Via)
  | stop (reason : StopReason)
  deriving DecidableEq, Repr

/-- A section end entered if its section is READY (R77). -/
def Store.enterReady (g : Store) (at_ : EndRef) (via : Via) : Beyond :=
  if g.sections[at_.sec].state = .ready then .enter at_ via else .stop .notReady

/-- What lies beyond an end link (R77), with the entry via of the joint (R78). A POINTS link names a defined
record (R8); an undefined one would stop extension as NONE does. -/
def Store.beyond (g : Store) : Link → Beyond
  | .none => .stop .endOfLine
  | .sec target e => g.enterReady ⟨target, e⟩ .link
  | .points id role =>
    match g.points[id] with
    | none => .stop .endOfLine
    | some p =>
      match role with
      | .toe =>
        match p.setting with
        | .left => g.enterReady p.left (.points id .left)
        | .right => g.enterReady p.right (.points id .right)
        | .unknown => .stop .pointsUnknown
      | .left => g.enterReady p.toe (.points id .left)
      | .right => g.enterReady p.toe (.points id .right)

/-- One extension at a side of the path (R77 to R79): the longer path, or why it stops. -/
def extendOnce (g : Store) (side : Side) (path : List PathEntry) : Except StopReason (List PathEntry) :=
  match side with
  | .aEnd =>
    match path.getLast? with
    | none => .error .endOfLine
    | some e =>
      match g.beyond (g.sections[e.sec].linkAt e.orientation.aSide) with
      | .stop reason => .error reason
      | .enter at_ via =>
        if Config.maxPath ≤ path.length then .error .full
        else .ok (path ++ [⟨at_.sec, appendedOrientation at_.side, some via, false⟩])
  | .bEnd =>
    match path with
    | [] => .error .endOfLine
    | e :: rest =>
      match g.beyond (g.sections[e.sec].linkAt e.orientation.bSide) with
      | .stop reason => .error reason
      | .enter at_ via =>
        if Config.maxPath ≤ path.length then .error .full
        else .ok (⟨at_.sec, prependedOrientation at_.side, none, false⟩ :: { e with via := some via, moved := false } :: rest)

/-- A path with the datum's location on it, and whether an extension of the event has stopped with FULL. -/
structure Course where
  path : List PathEntry
  datum : Location
  full : Bool
  deriving DecidableEq, Repr

/-- The walk from a course's datum by an offset in mm. -/
def Course.walkTo (g : Store) (k : Course) (offset : Int) : Option Location :=
  walk g k.path k.datum (1000 * offset)

/-- Extension at a side, one entry at a time, until the walk to `offset` stays within the path or an extension
stops (R80, R84). `fuel` bounds the entries that can be added. -/
def extendTo (g : Store) (side : Side) (offset : Int) : Nat → Course → Course
  | 0, k => k
  | fuel + 1, k =>
    if (k.walkTo g offset).isSome then k
    else match extendOnce g side k.path with
    | .error .full => { k with full := true }
    | .error _ => k
    | .ok path =>
      extendTo g side offset fuel
        { k with path := path,
                 datum := match side with
                   | .aEnd => k.datum
                   | .bEnd => { k.datum with entry := k.datum.entry + 1 } }

/-- Rear extension and then front extension (R80, R84). -/
def Course.extend (g : Store) (v : VehicleRecord) (sign : Sign) (k : Course) : Course :=
  extendTo g (frontSide sign) (v.reachTarget sign) (Config.maxPath + 1)
    (extendTo g (rearSide sign) (v.rearMost sign) (Config.maxPath + 1) k)

/-- Whether the span is covered (R76). -/
def Course.covered (g : Store) (v : VehicleRecord) (sign : Sign) (k : Course) : Bool :=
  (k.walkTo g (v.rearMost sign)).isSome && (k.walkTo g (v.frontMost sign)).isSome

/-- Whether the reach is met (R76). -/
def Course.reached (g : Store) (v : VehicleRecord) (sign : Sign) (k : Course) : Bool :=
  (k.walkTo g (v.reachTarget sign)).isSome

/-! ## Trimming (R81) -/

/-- The B-most entry has no entry via and no mark (R68, R81). -/
def bareHead : List PathEntry → List PathEntry
  | [] => []
  | e :: rest => { e with via := none, moved := false } :: rest

/-- The entries from place `lo` up to but not including place `hi`, the first of them bare when it has become
B-most. -/
def cutPath (lo hi : Nat) (path : List PathEntry) : List PathEntry :=
  if lo = 0 then path.take hi else bareHead ((path.take hi).drop lo)

/-- The rear side trimmed to the entry that holds the rear-most wheelset (R81). -/
def Course.trim (g : Store) (v : VehicleRecord) (sign : Sign) (k : Course) : Course :=
  match k.walkTo g (v.rearMost sign) with
  | none => k
  | some l =>
    match sign with
    | .plus => { k with path := cutPath l.entry k.path.length k.path,
                        datum := { k.datum with entry := k.datum.entry - l.entry } }
    | .minus => { k with path := cutPath 0 (l.entry + 1) k.path }

/-! ## Putting a path in force (R69, R70) -/

/-- How many entries of a path name a section (R69). -/
def namedBy (path : List PathEntry) (i : Fin 32) : Nat := path.countP fun e => e.sec = i

/-- The store with every section's occupancy count by a path (R69). -/
def Store.recount (g : Store) (path : List PathEntry) : Store :=
  { g with sections := Vector.ofFn fun i => { g.sections[i] with occupancy := namedBy path i } }

/-- A path put in force, with every section's occupancy count (R69). -/
def State.setPath (s : State) (path : List PathEntry) : State :=
  { s with path := path, store := s.store.recount path }

/-- POINTS_MOVED_UNDER is present while any entry carries the mark (R88). -/
def State.judgeMoved (s : State) : State :=
  s.report (ofVehicle .pointsMovedUnder) (s.path.any fun e => e.moved)

/-- The path conditions of a course put in force (R79, R82, R88). -/
def State.judgePath (s : State) (reached full : Bool) : State :=
  ((s.report (ofVehicle .geometryUnknownAhead) (!reached)).judgeMoved).report (ofVehicle .pathFull) full

/-- The path cleared at a loss (R83): empty, every count 0, no path condition present. -/
def State.clearPath (s : State) : State := (s.setPath []).judgePath true false

/-! ## Points changes (R86 to R88) -/

/-- What a points change does to one joint (R86). -/
inductive JointOutcome where
  | untouched
  | removeBSide
  | removeASide
  | mark
  deriving DecidableEq, Repr

/-- Whether an entry via passes through the given points with a branch other than the setting. -/
def Via.differs (via : Option Via) (points : Fin 16) (setting : Setting) : Bool :=
  match via with
  | some (.points id .left) => id = points ∧ setting ≠ .left
  | some (.points id .right) => id = points ∧ setting ≠ .right
  | _ => false

/-- The outcome at the joint of place `j`, the joint between entries `j - 1` and `j`: `held` are the places of
the entries that hold a wheelset or the datum, and `toeAtA` says that entry `j` meets the joint by the toe. -/
def classify (held : List Nat) (toeAtA : Bool) (j : Nat) : JointOutcome :=
  let onB := held.any fun i => i < j
  let onA := held.any fun i => j ≤ i
  let toe := if toeAtA then onA else onB
  let branch := if toeAtA then onB else onA
  if toe then
    if branch then .mark else if toeAtA then .removeBSide else .removeASide
  else .untouched

/-- The outcomes at all joints of a path, in the order of their places; `j` is the place of the first entry given
(R86). -/
def jointOutcomes (change : PointsChange) (toe : EndRef) (held : List Nat) (j : Nat) :
    List PathEntry → List JointOutcome
  | [] => []
  | e :: rest =>
    (if Via.differs e.via change.points change.after then
      classify held (decide (toe = ⟨e.sec, e.orientation.bSide⟩)) j
     else .untouched) :: jointOutcomes change toe held (j + 1) rest

/-- The first place kept: that of the last joint whose B-side is removed. -/
def keepFrom (j : Nat) : List JointOutcome → Nat
  | [] => 0
  | o :: rest => if o = .removeBSide then max j (keepFrom (j + 1) rest) else keepFrom (j + 1) rest

/-- The place after the last one kept: that of the first joint whose A-side is removed, else the path's length. -/
def keepTo (length j : Nat) : List JointOutcome → Nat
  | [] => length
  | o :: rest => if o = .removeASide then j else keepTo length (j + 1) rest

/-- The marks of R88 set on the entries whose joint is straddled. -/
def markEntries (path : List PathEntry) (outcomes : List JointOutcome) : List PathEntry :=
  List.zipWith (fun e o => if o = .mark then { e with moved := true } else e) path outcomes

/-- The places of the entries that hold the datum or a configured wheelset (R86). -/
def heldPlaces (g : Store) (v : VehicleRecord) (path : List PathEntry) (datum : Location) : List Nat :=
  datum.entry :: (v.offsets.filterMap fun o => walk g path datum (1000 * o)).map (·.entry)

/-- The datum, and the datum of the published position, kept with their entry when entries leave at the B-end
(R68). -/
def Tracker.dropEntries (n : Nat) (t : Tracker) : Tracker :=
  { t with
    datum := t.datum.map fun l => { l with entry := l.entry - n },
    published := { t.published with
      datum := t.published.datum.map fun d =>
        { d with location := { d.location with entry := d.location.entry - n } } } }

/-- A points change taken with a path present (R86 to R88). -/
def State.applyChange (s : State) (c : PointsChange) (p : PointsRecord) (datum : Location) : State :=
  let v := s.vehicleView
  let outcomes := jointOutcomes c p.toe (heldPlaces s.store v s.path datum) 0 s.path
  let lo := keepFrom 0 outcomes
  let hi := keepTo s.path.length 0 outcomes
  let path := cutPath lo hi (markEntries s.path outcomes)
  let s1 := { s with tracker := s.tracker.dropEntries lo }.setPath path
  let removed := outcomes.any fun o => o = .removeASide ∨ o = .removeBSide
  let s2 :=
    if removed then
      s1.report (ofVehicle .geometryUnknownAhead)
        (walkDatum s1.store path s1.tracker.datum (v.reachTarget s.tracker.sign)).isNone
    else s1
  s2.judgeMoved

/-- The path manager takes the oldest points change (R86). -/
def State.takeChange (s : State) : State :=
  match s.store.changes with
  | [] => s
  | c :: rest =>
    let s1 : State := { s with store := { s.store with changes := rest } }
    match s.tracker.datum, s.store.points[c.points] with
    | some datum, some p => s1.applyChange c p datum
    | _, _ => s1

/-- POINTS_CHANGE. -/
def execPointsChange (s : State) : Host.Outcome State Fault Refusal := .next (s.whileRunning State.takeChange)

end Sys2Proof.Machine
end

