-- ==== Sys2Proof/Machine/Tracking.lean ====
section
/-!
DEFINITION. The tracker (chapter 3): wheel counts, the tick, locating, and track markers.
-/

namespace Sys2Proof.Machine

/-- The tracker changed. -/
def State.setTracker (s : State) (f : Tracker → Tracker) : State := { s with tracker := f s.tracker }

/-! ## Wheel inputs (R41) -/

/-- Whether an edge is counted in a count mode (R41). -/
def CountMode.counts : CountMode → Edge → Bool
  | .rising, .rising => true
  | .rising, .falling => false
  | .both, _ => true

/-- The count of a counted edge by the level of the second line (R41). -/
def edgeCount : Edge → Bool → Int
  | .rising, false => 1
  | .rising, true => -1
  | .falling, true => 1
  | .falling, false => -1

/-- A pending count with a count added, saturating at ±255 (R41). -/
def addCount (pending count : Int) : Int := clampAbs 255 (pending + count)

/-- An edge of a wheel's pickup (R41). -/
def State.wheelEdge (s : State) (w : Fin 16) (edge : Edge) (secondHigh : Bool) : State :=
  if s.vehicleView.wheels[w].mode.counts edge then
    s.setTracker fun t =>
      { t with pendingCounts := changeAt t.pendingCounts w fun p => addCount p (edgeCount edge secondHigh) }
  else s

/-- WHEEL_COUNT. -/
def execWheelCount (wheel : Fin 16) (edge : Edge) (secondHigh : Bool) (s : State) :
    Host.Outcome State Fault Refusal :=
  .next (s.whileRunning fun s => s.wheelEdge wheel edge secondHigh)

/-! ## Stages 1 and 2 (R43) -/

/-- A count pushed into a window: the newest entry joins, the oldest leaves (R43). -/
def pushCount (window : List Int) (count : Int) : List Int := window.tail ++ [count]

/-- The count just pushed into a window. -/
def newest (window : List Int) : Int := window.getLastD 0

/-- The wheel speed of a window, saturating at 25,000 mm/s (R43). -/
def wheelSpeed (window : List Int) (distance : Nat) : Nat :=
  min 25000 (roundNat (window.sum.natAbs * distance) 16)

/-- The wheel tick distance of a window, in µm (R43). -/
def wheelTickDistance (window : List Int) (distance : Nat) : Nat := (newest window).natAbs * distance

/-- Stages 1 and 2: the pending counts are taken and the wheel speeds formed (R42, R43). -/
def Tracker.takeCounts (v : VehicleRecord) (t : Tracker) : Tracker :=
  let windows := Vector.ofFn fun w => pushCount t.windows[w] t.pendingCounts[w]
  { t with
    pendingCounts := Vector.replicate 16 0
    windows := windows
    wheelSpeeds := Vector.ofFn fun w => wheelSpeed windows[w] v.wheels[w].distance }

/-! ## Stages 3 to 5 (R44 to R48) -/

/-- The median of the reference wheels' speeds (R44). -/
def Tracker.referenceMedian (v : VehicleRecord) (t : Tracker) : Nat :=
  median (v.references.map fun w => t.wheelSpeeds[w])

/-- The slip band around a median speed (R44). -/
def slipBand (v : VehicleRecord) (med : Nat) : Nat := max (roundNat (med * v.slip) 256) 50

/-- Whether a wheel's speed lies within the slip band of the reference median (R44). -/
def Tracker.withinBand (v : VehicleRecord) (t : Tracker) (w : Fin 16) : Bool :=
  ((t.wheelSpeeds[w] : Int) - t.referenceMedian v).natAbs ≤ slipBand v (t.referenceMedian v)

/-- The valid reference wheels, in slot order (R44). -/
def Tracker.validWheels (v : VehicleRecord) (t : Tracker) : List (Fin 16) := v.references.filter (t.withinBand v)

/-- The votes for a direction (R47). -/
def Tracker.votes (positive : Bool) (wheels : List (Fin 16)) (t : Tracker) : Nat :=
  wheels.countP fun w => if positive then 0 < t.windows[w].sum else t.windows[w].sum < 0

/-- The travel sign that the valid wheels' votes leave (R47). -/
def Tracker.votedSign (wheels : List (Fin 16)) (t : Tracker) : Sign :=
  if t.votes false wheels < t.votes true wheels then .plus
  else if t.votes true wheels < t.votes false wheels then .minus
  else t.sign

/-- The vehicle speed: from the valid wheels, or held (R45, R46). The median of four is the rounded mean of the
two left when the highest and the lowest are dropped. -/
def Tracker.vehicleSpeed (wheels : List (Fin 16)) (t : Tracker) : Nat :=
  if wheels = [] then t.speed else median (wheels.map fun w => t.wheelSpeeds[w])

/-- The tick distance in µm: from the valid wheels, or from the held speed (R45, R46). -/
def Tracker.tickDistance (v : VehicleRecord) (wheels : List (Fin 16)) (t : Tracker) : Nat :=
  if wheels = [] then 1000 * roundNat t.speed 1000
  else median (wheels.map fun w => wheelTickDistance t.windows[w] v.wheels[w].distance)

/-- The low-speed run after a tick with the given speed (R48). -/
def lowRun (speed run : Nat) : Nat := if speed < 20 then min 500 (run + 1) else 0

/-- Standstill after a tick with the given speed and run (R48). -/
def standstillAfter (speed run : Nat) (was : Bool) : Bool :=
  if speed < 20 then (if run = 500 then true else was) else false

/-- Stages 3 to 5 on the wheels' speeds: slip, speed, sign and standstill. -/
def Tracker.measure (v : VehicleRecord) (t : Tracker) : Tracker :=
  let wheels := t.validWheels v
  let speed := t.vehicleSpeed wheels
  let run := lowRun speed t.lowSpeedRun
  { t with
    referenceValid := Vector.ofFn fun slot => (v.references[slot.val]?.map (t.withinBand v)).getD false
    validReferences := wheels.length
    speed := speed
    sign := t.votedSign wheels
    lowSpeedRun := run
    standstill := standstillAfter speed run t.standstill }

/-! ## Uncertainty and confidence (R52 to R54) -/

/-- The increase of U over a tick (R52). -/
def uncertaintyIncrease (v : VehicleRecord) (distance validCount : Nat) : Nat :=
  roundNat (distance * v.drift * (if validCount < 2 then 4 else 1)) 65536

/-- The confidence of an uncertainty in µm while the tracker is not UNLOCATED (R53). -/
def confidenceOf (v : VehicleRecord) (mismatch : Bool) (u : Nat) : Nat :=
  let mm := mmOfMicro u
  let c := if mm ≤ v.uFull then 256 else if v.uZero ≤ mm then 0 else 256 * (v.uZero - mm) / (v.uZero - v.uFull)
  if mismatch then min c 64 else c

/-- The tracker state while the tracker is not UNLOCATED (R54). -/
def trackerStateOf (v : VehicleRecord) (mismatch : Bool) (u missCount : Nat) : TrackerState :=
  if v.uDegrade < mmOfMicro u ∨ 3 ≤ missCount ∨ mismatch then .degraded else .located

/-- Confidence and tracker state derived from the values as they stand (R53, R54). -/
def Tracker.derive (v : VehicleRecord) (mismatch : Bool) (t : Tracker) : Tracker :=
  { t with confidence := confidenceOf v mismatch t.uncertainty
           state := trackerStateOf v mismatch t.uncertainty t.missCount }

/-- The tracker when the vehicle is lost (R51). -/
def Tracker.lose (t : Tracker) : Tracker :=
  { t with state := .unlocated, datum := none, uncertainty := Config.uncertaintyMax, confidence := 0 }

/-! ## Publishing (R55, R66, R67) -/

/-- The published position of a tracker on a path (R55). -/
def Tracker.toPublish (path : List PathEntry) (t : Tracker) : Published :=
  { state := t.state
    datum := t.datum.bind fun l => path[l.entry]?.map fun e => ⟨l, e.sec, e.orientation⟩
    speed := t.speed, sign := t.sign, standstill := t.standstill, uncertainty := t.uncertainty
    confidence := t.confidence, missCount := t.missCount, validReferences := t.validReferences }

/-- The published position replaced whole, with the tracker's two conditions (R54, R55). -/
def State.publish (s : State) : State :=
  let s1 := s.setTracker fun t => { t with published := t.toPublish s.path }
  (s1.report (ofVehicle .unlocated) (s.tracker.state = .unlocated)).report
    (ofVehicle .positionDegraded) (s.tracker.state = .degraded)

/-- An N.POS with no marker, with the position as published (R67). -/
def State.notifyPosition (s : State) (cause : PositionCause) : State :=
  s.notify (.position cause 0 0 0 s.tracker.published)

/-- Whether GEOMETRY_MISMATCH is present. -/
def State.mismatch (s : State) : Bool := s.present (ofVehicle .geometryMismatch)

/-! ## The tick (R42, R49 to R51, R80) -/

/-- Stage 6: the datum walked by the signed tick distance, then trimming and extension; none when the walk leaves
the path or the span is not covered (R49, R50, R80). -/
def advanceCourse (g : Store) (v : VehicleRecord) (sign : Sign) (distance : Nat) (path : List PathEntry)
    (datum : Location) : Option Course :=
  (walk g path datum (sign.toInt * distance)).bind fun l =>
    let k := ((Course.mk path l false).trim g v sign).extend g v sign
    if k.covered g v sign then some k else none

/-- Stages 6 to 9 of a tick with the vehicle lost (R51). -/
def State.tickLost (s : State) : State :=
  ((s.setTracker Tracker.lose).clearPath.publish).notifyPosition .loss

/-- Stages 7 to 9 of a tick with the vehicle on a covered course (R52 to R55). -/
def State.tickOn (s : State) (v : VehicleRecord) (mismatch : Bool) (distance : Nat) (k : Course) : State :=
  let before := s.tracker.state
  let s1 := s.setTracker fun t =>
    ({ t with datum := some k.datum,
              uncertainty := min Config.uncertaintyMax
                (t.uncertainty + uncertaintyIncrease v distance t.validReferences) } : Tracker).derive v mismatch
  let s2 := ((s1.setPath k.path).judgePath (k.reached s.store v s.tracker.sign) k.full).publish
  if s1.tracker.state = before then s2 else s2.notifyPosition .state

/-- The 1 ms tick (R42). -/
def State.doTick (s : State) : State :=
  let v := s.vehicleView
  let mismatch := s.mismatch
  let s1 := s.reach s.tracker.nextTick
  let counted := s.tracker.takeCounts v
  let distance := counted.tickDistance v (counted.validWheels v)
  let s2 := s1.setTracker fun _ => { counted.measure v with nextTick := s1.clock + 1000 }
  match (if s.tracker.state = .unlocated then none else s.tracker.datum) with
  | none => s2.publish
  | some datum =>
    match advanceCourse s.store v s2.tracker.sign distance s.path datum with
    | none => s2.tickLost
    | some k => s2.tickOn v mismatch distance k

/-- TICK. -/
def execTick (s : State) : Host.Outcome State Fault Refusal := .next (s.whileRunning State.doTick)

/-! ## POS.LOCATE (R56, R57, R84, R85) -/

/-- The candidate course around a location (R84): none when the span is not covered. -/
def candidateCourse (g : Store) (v : VehicleRecord) (sign : Sign) (i : Fin 32) (chainage : Nat) (o : Orientation) :
    Option Course :=
  let k := (Course.mk [⟨i, o, none, false⟩] ⟨0, 1000 * (chainage : Int)⟩ false).extend g v sign
  if k.covered g v sign then some k else none

/-- POS.LOCATE taken (R57, R85). -/
def State.locate (s : State) (v : VehicleRecord) (k : Course) : State :=
  let s1 := s.setTracker fun t =>
    ({ t with datum := some k.datum, uncertainty := 1000 * v.locateAccuracy, missCount := 0 } : Tracker).derive v
      s.mismatch
  (((s1.setPath k.path).judgePath (k.reached s.store v s.tracker.sign) k.full).publish).notifyPosition .locate

/-- POS.LOCATE. -/
def ownPosLocate (body : List Byte) (s : State) : State × Answer :=
  let chainage := fieldU body 1 3
  match sectionOf? (fieldU body 0 1), orientationOf? (fieldU body 4 1) with
  | some i, some o =>
    if 16000000 < chainage then (s, Answer.plain .outOfRange)
    else match s.vehicle with
    | none => (s, Answer.plain .noVehicle)
    | some v =>
      if s.store.sections[i].state ≠ .ready then (s, Answer.plain .noPath)
      else if s.store.sections[i].length < chainage then (s, Answer.plain .outOfRange)
      else match candidateCourse s.store v s.tracker.sign i chainage o with
      | none => (s, Answer.plain .noPath)
      | some k =>
        let t := s.locate v k
        (t, ⟨.ok, t.tracker.published.encode⟩)
  | _, _ => (s, Answer.plain .outOfRange)

/-- POS_LOCATE. -/
def execPosLocate (s : State) : Host.Outcome State Fault Refusal :=
  .next (s.serveAct 0x38 anyBody (lengthIs 5) ownPosLocate)

/-! ## POS.GET (R59, R91) -/

/-- A reference wheel slot in its 4 bytes (R59, R206): the wheel number of the list as it stands, that wheel's speed, and
the slot's validity of the last tick. Between a VEH.SET that changes the list and the next tick, the number is the new
list's and the validity that of the wheel the slot held at the last tick: the model's choice (log entry 27). -/
def wheelSlot (s : State) (slot : Fin 4) : List Byte :=
  match s.vehicleView.references[slot.val]? with
  | none => [0, 0, 0, 0]
  | some w => [u8 w.val] ++ be 2 s.tracker.wheelSpeeds[w] ++ [flag s.tracker.referenceValid[slot]]

/-- POS.GET. -/
def ownPosGet (_ : List Byte) (s : State) : State × Answer :=
  (s, ⟨.ok, s.tracker.published.encode ++ (allBogies.map (wheelSlot s)).flatten ++ [u8 s.path.length] ++
    (s.path.map PathEntry.encode).flatten⟩)

/-- POS_GET. -/
def execPosGet (s : State) : Host.Outcome State Fault Refusal :=
  .next (s.serveAct 0x39 anyBody (lengthIs 0) ownPosGet)

/-! ## The marker input (R61) -/

/-- The moment a 2 ms wait that starts now ends, when the input stands at the level waited for (R61). -/
def debounceWait (clock : Nat) (waiting : Debounce) (active : Bool) : Option Nat :=
  match waiting, active with
  | .waitActive, true => some (clock + 2000)
  | .waitInactive, false => some (clock + 2000)
  | _, _ => none

/-- The marker input changes level: the wait starts when the new level is the one waited for, and stops
otherwise (R61). -/
def State.markerLevel (s : State) (active : Bool) : State :=
  if s.lines.marker = active then s
  else
    let s1 : State := { s with lines := { s.lines with marker := active } }
    s1.whileRunning fun s => s.setTracker fun t =>
      { t with debounceEnd := debounceWait s.clock t.debounce active }

/-- The wait of the debounce is over in the given waiting state (R61): the debounce moves on, and leaving the wait
for active is a detection. -/
def State.debounceOver (s : State) (waiting : Debounce) : State :=
  match s.tracker.debounceEnd with
  | none => s
  | some t =>
    if s.tracker.debounce = waiting then
      (s.reach t).setTracker fun k =>
        { k with
          debounce := match waiting with
            | .waitActive => .waitInactive
            | .waitInactive => .waitActive
          debounceEnd := none
          detections := match waiting with
            | .waitActive => k.detections + 1
            | .waitInactive => k.detections }
    else s

/-- MARKER_INPUT_CHANGE. -/
def execMarkerInputChange (active : Bool) (s : State) : Host.Outcome State Fault Refusal :=
  .next (s.markerLevel active)

/-- MARKER_DETECTION. -/
def execMarkerDetection (s : State) : Host.Outcome State Fault Refusal :=
  .next (s.whileRunning fun s => s.debounceOver .waitActive)

/-- MARKER_DEBOUNCE_RELEASE. -/
def execMarkerDebounceRelease (s : State) : Host.Outcome State Fault Refusal :=
  .next (s.whileRunning fun s => s.debounceOver .waitInactive)

/-! ## Resolving a detection (R62 to R64) -/

/-- A marker of the path: its entry's place and section, its index in the section's list, and its Δ in µm. -/
structure Candidate where
  entry : Nat
  sec : Fin 32
  index : Nat
  delta : Int
  deriving DecidableEq, Repr

/-- The markers of one entry that lie within the window of the detector location (R62). -/
def entryCandidates (g : Store) (path : List PathEntry) (detector : Location) (uMm place : Nat) (e : PathEntry) :
    List Candidate :=
  (g.sections[e.sec].markers.zipIdx.map fun m =>
    (m.1, Candidate.mk place e.sec m.2 (pathDistance g path detector ⟨place, 1000 * (m.1.chainage : Int)⟩))).filterMap
      fun m => if m.2.delta.natAbs ≤ 1000 * max m.1.halfWidth uMm then some m.2 else none

/-- The candidates of a detection, entry by entry (R62). -/
def candidates (g : Store) (path : List PathEntry) (detector : Location) (uMm : Nat) : List Candidate :=
  (path.zipIdx.map fun e => entryCandidates g path detector uMm e.2 e.1).flatten

/-- Whether candidate `a` goes before `b` (R63): a smaller |Δ|; of equal |Δ| on opposite sides, the one ahead in
the travel direction; of equal Δ, the one in the entry further along the travel direction. -/
def Candidate.before (sign : Sign) (a b : Candidate) : Bool :=
  if a.delta.natAbs ≠ b.delta.natAbs then a.delta.natAbs < b.delta.natAbs
  else if a.delta ≠ b.delta then 0 < sign.toInt * a.delta
  else match sign with
    | .plus => b.entry < a.entry
    | .minus => a.entry < b.entry

/-- The candidate taken (R63). -/
def bestCandidate (sign : Sign) : List Candidate → Option Candidate
  | [] => none
  | a :: rest =>
    match bestCandidate sign rest with
    | none => some a
    | some b => if b.before sign a then some b else some a

/-- A match: the candidate taken and the corrected datum (R63). The walks start from the published datum (R61). -/
def matchMarker (g : Store) (v : VehicleRecord) (path : List PathEntry) (p : Published) : Option (Candidate × Location) :=
  (p.datum.bind fun d => walk g path d.location (1000 * v.markerOffset)).bind fun detector =>
    (bestCandidate p.sign (candidates g path detector (mmOfMicro p.uncertainty))).bind fun c =>
      (p.datum.bind fun d => walk g path d.location c.delta).map fun l => (c, l)

/-- A detection that matches (R63). -/
def State.markerMatch (s : State) (v : VehicleRecord) (c : Candidate) (l : Location) : State :=
  let s1 := s.setTracker fun t =>
    ({ t with datum := some l, uncertainty := 1000 * v.markerAccuracy, missCount := 0 } : Tracker).derive v s.mismatch
  let s2 := (s1.count (vehicleCounter .markerMatch)).publish
  s2.notify (.position .matched (idOfSection c.sec) c.index (roundDiv c.delta 1000) s2.tracker.published)

/-- A detection that misses in LOCATED or DEGRADED (R64). -/
def State.markerMiss (s : State) (v : VehicleRecord) : State :=
  let s1 := s.setTracker fun t => ({ t with missCount := runUp t.missCount } : Tracker).derive v s.mismatch
  ((s1.count (vehicleCounter .markerMiss)).publish).notifyPosition .missed

/-- A waiting detection resolved (R62 to R64). -/
def State.resolveMarker (s : State) : State :=
  if s.tracker.detections = 0 then s
  else
    let s1 := s.setTracker fun t => { t with detections := t.detections - 1 }
    let v := s.vehicleView
    if s.tracker.state = .unlocated then s1.count (vehicleCounter .markerMiss)
    else match matchMarker s.store v s.path s.tracker.published with
    | some (c, l) => s1.markerMatch v c l
    | none => s1.markerMiss v

/-- MARKER_RESOLVE. -/
def execMarkerResolve (s : State) : Host.Outcome State Fault Refusal := .next (s.whileRunning State.resolveMarker)

end Sys2Proof.Machine
end

