-- ==== Sys2Proof/Machine/Passing.lean ====
section
/-!
DEFINITION. The computation unit (chapter 6): the start of a pass, its ten stages, the yaw check, its completion
with the channels' supervision (section 7.5), and the LAW.* requests.
-/

namespace Sys2Proof.Machine

/-- The computation unit changed. -/
def State.setComputation (s : State) (f : Computation → Computation) : State :=
  { s with computation := f s.computation }

/-! ## The start of a pass (R114, R115, R118, R119) -/

/-- The two lanes of a bogie. -/
inductive Lane where
  | laneA
  | laneB
  deriving DecidableEq, Repr

/-- The channel of a lane. -/
def Lane.channel : Lane → Fin 4 → Fin 8
  | .laneA, b => channelA b
  | .laneB, b => channelB b

/-- The preview distance of a lane, in mm (R118). -/
def previewOf (speed previewTime : Nat) : Nat := min Config.previewReach (roundNat (speed * previewTime) 1000)

/-- κ_A at an offset in mm from the published datum over the path (R73, R119). -/
def State.curvatureAtOffset (s : State) (offset : Int) : Option Int :=
  (walkDatum s.store s.path (s.tracker.published.datum.map (·.location)) offset).bind
    (curvatureAlong s.store s.path)

/-- The clearance at an offset in mm from the published datum over the path (R123). -/
def State.clearanceAtOffset (s : State) (offset : Int) : Option Nat :=
  (walkDatum s.store s.path (s.tracker.published.datum.map (·.location)) offset).bind
    (clearanceAlong s.store s.path)

/-- What a pass reads for one lane (R115), with the lane's lookups (R119, R123). -/
def State.readLane (s : State) (b : Fin 4) (lane : Lane) : LaneRead :=
  let c := lane.channel b
  let v := s.vehicleView
  let law := s.computation.laws[c]
  let p := s.tracker.published
  let ahead := p.sign.toInt * previewOf p.speed law.previewTime
  { start := s.channels.bank[c].state, law := law, fields := v.channels[c],
    centreSample := s.curvatureAtOffset (v.bogies[b].centre + ahead),
    wheelSample := s.curvatureAtOffset (v.channels[c].offset + ahead),
    clearance := s.clearanceAtOffset v.channels[c].offset }

/-- How long a lane takes, in µs, by its start state (R138). -/
def laneDuration : ChannelState → Nat
  | .steering => 12
  | .returning => 6
  | .holding | .locking | .locked | .unlocking | .fault => 4

/-- The duration of a pass, in µs (R138). -/
def passDuration (startA startB : ChannelState) (yaw : Bool) : Nat :=
  10 + laneDuration startA + laneDuration startB + (if yaw then 6 else 0)

/-- The pass of a sample record, with everything it reads (R115). -/
def State.readPass (s : State) (r : SampleRecord) : Pass :=
  let b := r.bogie
  let v := s.vehicleView
  let laneA := s.readLane b .laneA
  let laneB := s.readLane b .laneB
  { sample := r, position := s.tracker.published, bogie := v.bogies[b], laneA := laneA, laneB := laneB,
    yawCentre := s.curvatureAtOffset v.bogies[b].centre, yawBody := s.curvatureAtOffset v.bogies[b].body,
    criteria := s.monitor.criteria,
    endsAt := s.clock + passDuration laneA.start laneB.start r.yaw.isSome,
    resetAfter := s.computation.resetDue[b] }

/-- The unit takes the oldest record if no pass is in flight (R114): the scan is no longer outstanding, and the
channels' entries are watched from here on (R116). -/
def State.startPass (s : State) : State :=
  match s.computation.pass, s.computation.queue with
  | none, r :: rest =>
    let s1 := s.setComputation fun k =>
      { k with queue := rest, pass := some (s.readPass r),
               resetDue := changeAt k.resetDue r.bogie fun _ => false }
    (s1.setChannel (channelA r.bogie) fun ch => { ch with entered := false }).setChannel (channelB r.bogie)
      fun ch => { ch with entered := false }
  | _, _ => s

/-! ## Stage 5: lateral position and sensor health (R123 to R126) -/

/-- A lane's gaps (R107). -/
structure Gaps where
  left : Sample
  right : Sample
  deriving DecidableEq, Repr

/-- The gaps of a lane in a sample record. -/
def SampleRecord.gaps (r : SampleRecord) : Lane → Gaps
  | .laneA => ⟨r.gapLeftA, r.gapRightA⟩
  | .laneB => ⟨r.gapLeftB, r.gapRightB⟩

/-- The stroke of a lane in a sample record. -/
def SampleRecord.stroke (r : SampleRecord) : Lane → Sample
  | .laneA => r.strokeA
  | .laneB => r.strokeB

/-- Whether a lane's gaps are plausible (R123). -/
def Gaps.plausible (g : Gaps) (clearance : Option Nat) (tolerance : Nat) : Bool :=
  g.left.valid && g.right.valid &&
    match clearance with
    | some c => decide ((g.left.value + g.right.value - c).natAbs ≤ tolerance)
    | none => true

/-- The measured lateral offset (R123). -/
def Gaps.offset (g : Gaps) : Int := roundDiv (g.right.value - g.left.value) 2

/-- Sensor health after a pass, by the runs after it (R124). -/
def healthAfter (before : Health) (plausible : Bool) (implausibleRun plausibleRun : Nat) : Health :=
  match before, plausible with
  | .good, true => .good
  | .good, false => .suspect
  | .suspect, true => .good
  | .suspect, false => if 3 ≤ implausibleRun then .failed else .suspect
  | .failed, true => if 10 ≤ plausibleRun then .good else .failed
  | .failed, false => .failed

/-- A computation record after stage 5 but for y in use (R124, R126). -/
def ComputationRecord.afterGaps (r : ComputationRecord) (law : LawRecord) (clearance : Option Nat) (g : Gaps) :
    ComputationRecord :=
  let ok := g.plausible clearance law.sumTolerance
  let bad := if ok then 0 else runUp r.implausibleRun
  let good := if ok then runUp r.plausibleRun else 0
  let health := healthAfter r.health ok bad good
  let least := min g.left.value g.right.value
  { r with health := health, implausibleRun := bad, plausibleRun := good,
           lastGood := if ok && health = .good then g.offset else r.lastGood,
           proximity := ok && decide (least ≤ law.proximityGap),
           contact := ok && decide (least ≤ law.contactGap) }

/-- y in use (R125): `own` is the lane after its gaps were judged, `partner` the other lane likewise. -/
def yInUse (own : ComputationRecord) (law : LawRecord) (g : Gaps) (partner : Health) (partnerGaps : Gaps) : Int :=
  match own.health with
  | .good => g.offset
  | .suspect => own.lastGood
  | .failed =>
    match law.lateralMode with
    | .freeze => own.lastGood
    | .partner => if partner = .good then partnerGaps.offset else own.lastGood
    | .zero => 0

/-! ## Stages 3 to 10: a steering result (R120 to R122, R127 to R131) -/

/-- A steering or returning result (R116, R133). -/
structure LaneResult where
  filter : Int
  output : Int
  held : Int
  substituted : Bool
  flags : LimitFlags
  stroke : Int
  deriving DecidableEq, Repr

/-- The feedforward of two samples, scaled by the confidence (R121, R122). -/
def feedforward (centre wheel span : Int) (confidence : Nat) : Int :=
  roundDiv (roundDiv (roundDiv (centre + wheel) 2 * span) 1000 * confidence) 256

/-- The substituted feedforward, from the held one (R120). -/
def substituteForward (mode : ForwardMode) (decay : Nat) (held : Int) : Int :=
  match mode with
  | .hold => held
  | .decay => approach decay 0 held
  | .zero => 0

/-- ψ_ffC of a lane, and whether it is substituted (R119, R120). -/
def forwardOf (l : LaneRead) (centreOffset : Int) (confidence : Nat) (held : Int) : Int × Bool :=
  match l.centreSample, l.wheelSample with
  | some a, some b => (feedforward a b (l.fields.offset - centreOffset) confidence, false)
  | _, _ => (substituteForward l.law.forwardMode l.law.decayStep held, true)

/-- The feedback before its clamp (R127). -/
def rawFeedback (law : LawRecord) (sign : Sign) (speed : Nat) (y : Int) : Int :=
  if speed < law.feedbackMinSpeed then 0 else -sign.toInt * roundDiv (law.kp * y) 256

/-- Stage 8: the filter step (R129). -/
def filterStep (law : LawRecord) (proximity : Bool) (target f : Int) : Int :=
  f + roundDiv (target - f) (2 ^ (if proximity then law.shiftWidened else law.shiftNormal))

/-- Stage 10 before its clamp (R131). -/
def rawStroke (output : Int) (lever : Nat) : Int := roundDiv (output * lever) 10000

/-- The steering result of a lane (R120 to R122, R127 to R131, R133): `r` is the computation record after stage 5. -/
def steeringResult (p : Pass) (l : LaneRead) (r : ComputationRecord) : LaneResult :=
  let forward := forwardOf l p.bogie.centre p.position.confidence r.held
  let raw := rawFeedback l.law p.position.sign p.position.speed r.inUse
  let feedback := clampAbs l.law.feedbackLimit raw
  let sum := forward.1 + feedback
  let target := clampAbs l.law.angleMax sum
  let f := filterStep l.law r.proximity target r.filter
  let allowance := l.law.rate * p.sample.period
  let output := approach allowance f r.output
  let stroke := rawStroke output l.fields.lever
  { filter := f, output := output, held := forward.1, substituted := forward.2,
    flags := { feedback := decide (feedback ≠ raw),
               angle := decide (target ≠ sum) || decide (l.law.angleMax < output.natAbs),
               rate := decide (output ≠ f),
               stroke := decide (clampAbs l.fields.strokeMax stroke ≠ stroke) },
    stroke := clampAbs l.fields.strokeMax stroke }

/-- The returning result of a lane (R132). -/
def returningResult (p : Pass) (l : LaneRead) (r : ComputationRecord) : LaneResult :=
  let output := approach (l.law.rate * p.sample.period) 0 r.output
  let stroke := rawStroke output l.fields.lever
  { filter := r.filter, output := output, held := r.held, substituted := r.substituted,
    flags := { feedback := false, angle := decide (l.law.angleMax < output.natAbs),
               rate := decide (output ≠ 0),
               stroke := decide (clampAbs l.fields.strokeMax stroke ≠ stroke) },
    stroke := clampAbs l.fields.strokeMax stroke }

/-- The result computed for a lane, by its start state (R115): a steering or returning result, or none. -/
def laneResult (p : Pass) (l : LaneRead) (r : ComputationRecord) : Option LaneResult :=
  match l.start with
  | .steering => some (steeringResult p l r)
  | .returning => some (returningResult p l r)
  | .holding | .locking | .locked | .unlocking | .fault => none

/-- Whether the channel takes a lane's result (R116): it stands in the start state at completion and has not
entered STEERING or RETURNING since the start. -/
def resultTaken (start : ChannelState) (ch : Channel) : Bool :=
  (decide (start = ChannelState.steering) || decide (start = ChannelState.returning)) && decide (ch.state = start) && !ch.entered

/-- A computation record that takes a result's values (R116, R133). -/
def ComputationRecord.take (r : ComputationRecord) (x : LaneResult) : ComputationRecord :=
  let limited := x.flags.angle || x.flags.stroke
  { r with filter := x.filter, output := x.output, held := x.held, substituted := x.substituted, flags := x.flags,
           limitedRun := if limited then runUp r.limitedRun else 0,
           unlimitedRun := if limited then 0 else runUp r.unlimitedRun }

/-- A computation record after a zero result (R117). -/
def ComputationRecord.zeroed (r : ComputationRecord) : ComputationRecord :=
  { r with filter := 0, output := 0, held := 0, substituted := false, flags := LimitFlags.clear, limitedRun := 0,
           unlimitedRun := 0 }

/-- Whether a start state gives a zero result (R115). -/
def ChannelState.givesZero : ChannelState → Bool
  | .locking | .locked | .unlocking | .fault => true
  | .steering | .returning | .holding => false

/-! ## Supervision of a channel at a pass (R153, R156 to R158, R162) -/

/-- The comparison of a pass (R157): the tracking error, where one is formed. -/
def comparison (ch : Channel) (stroke : Sample) : Option Int :=
  if ch.state.supervised && stroke.valid then some (stroke.value - ch.demand) else none

/-- Whether a comparison finds the error above the tracking limit (R157). -/
def exceeds (law : LawRecord) (error : Option Int) : Bool :=
  match error with
  | some e => decide (law.trackingLimit < e.natAbs)
  | none => false

/-- Steps 1 and 2: the stroke recorded and the runs moved (R156 to R158). -/
def Channel.compare (ch : Channel) (law : LawRecord) (stroke : Sample) : Channel :=
  let error := comparison ch stroke
  { ch with measured := stroke.value, measuredValid := stroke.valid, trackingError := error
            trackingRun :=
              if ch.state.supervised then
                match error with
                | some _ => if exceeds law error then runUp ch.trackingRun else 0
                | none => ch.trackingRun
              else 0
            strokeInvalidRun :=
              if ch.state.supervised then (if stroke.valid then 0 else runUp ch.strokeInvalidRun) else 0 }

/-- The fault that step 4 finds, from the channel after step 2 (R156, R157, R158). -/
def faultFound (law : LawRecord) (after : Channel) (exceeded : Bool) : Option FaultCause :=
  if exceeded && decide (law.trackingPersistence ≤ after.trackingRun) then some .tracking
  else if after.state.supervised && !after.measuredValid && decide (3 ≤ after.strokeInvalidRun) then
    some .strokeSensor
  else none

/-- Whether a taken returning result ends the return (R153). -/
def returnEnds (law : LawRecord) (output : Int) (stroke : Sample) : Bool :=
  decide (output = 0) && stroke.valid && decide (stroke.value.natAbs ≤ law.centreTolerance)

/-- A channel's handling of the completion of a pass of its bogie (R156): `taken` is the result it takes. -/
def State.supervise (s : State) (c : Fin 8) (law : LawRecord) (stroke : Sample) (taken : Option LaneResult) :
    State :=
  let ch := s.channels.bank[c]
  let error := comparison ch stroke
  let exceeded := exceeds law error
  let after := ch.compare law stroke
  let s1 := s.setChannel c fun _ =>
    match taken with
    | some x => { after with demand := x.stroke }
    | none => after
  let found := faultFound law after exceeded
  let s2 :=
    match found with
    | some cause => s1.enterFault c cause
    | none =>
      match taken with
      | some x =>
        if ch.state = ChannelState.returning ∧ returnEnds law x.output stroke then (s1.enterLocking c .returnDone).settle c
        else s1
      | none => s1
  let standing := decide (s2.channels.bank[c].state ≠ ChannelState.fault)
  let s3 := (s2.report (ofChannel .trackingError c) (exceeded && standing)).countIf exceeded
    (counterOf .trackingExceedPasses c)
  match error with
  | some e => s3.offerPeak (peakError c) e.natAbs
  | none => s3

/-! ## The completion of a lane (R116, R117, R137) -/

/-- STEER_LIMITED after a taken result, by the runs after it (R133, R172): a change to present or to not present,
or none. -/
def steerLimited (k : Criteria) (x : LaneResult) (r : ComputationRecord) : Option Bool :=
  if x.flags.angle || x.flags.stroke then (if k.limitRaise ≤ r.limitedRun then some true else none)
  else if k.limitClear ≤ r.unlimitedRun then some false else none

/-- A condition reported where the operation reports one. -/
def State.reportIf (s : State) (i : Fin 48) : Option Bool → State
  | some value => s.report i value
  | none => s

/-- What the completion of a pass finds for one lane. -/
structure LaneEnd where
  channel : Fin 8
  read : LaneRead
  gaps : Gaps
  stroke : Sample
  /-- The computation record before the pass. -/
  before : ComputationRecord
  /-- The record with its stage 5 fields. -/
  judged : ComputationRecord
  /-- The result that the channel takes. -/
  taken : Option LaneResult
  deriving DecidableEq, Repr

/-- The computation record a lane's completion leaves (R116, R117). -/
def LaneEnd.record (e : LaneEnd) : ComputationRecord :=
  match e.taken with
  | some x => e.judged.take x
  | none => if e.read.start.givesZero then e.judged.zeroed else e.judged

/-- The lane's result offered to its channel, the record written, and the stroke handed over (R116, R156). -/
def State.finishLane (s : State) (e : LaneEnd) : State :=
  (s.setRecord e.channel fun _ => e.record).supervise e.channel e.read.law e.stroke e.taken

/-- Whether the lane's y in use is substituted on this pass (R125). -/
def LaneEnd.lateralSubstituted (e : LaneEnd) : Bool := e.judged.health = .failed

/-- Whether the lane's gaps were plausible: the plausible run counts up on every such pass (R124). -/
def LaneEnd.plausible (e : LaneEnd) : Bool := e.gaps.plausible e.read.clearance e.read.law.sumTolerance

/-- The lane's reports to the monitor (R137). -/
def State.reportLane (s : State) (k : Criteria) (e : LaneEnd) : State :=
  let c := e.channel
  let any := match e.taken with
    | some x => x.flags.feedback || x.flags.angle || x.flags.rate || x.flags.stroke
    | none => false
  let substituted := match e.taken with
    | some x => e.read.start = .steering && (x.substituted || e.lateralSubstituted)
    | none => false
  let s1 := ((((s.countIf (e.judged.contact && !e.before.contact) (counterOf .contact c)).countIf
    e.judged.proximity (counterOf .proximityPasses c)).countIf any (counterOf .limitedPasses c)).countIf
    (!e.plausible) (counterOf .implausiblePasses c)).countIf substituted (counterOf .substitutedPasses c)
  let s2 := if e.plausible then s1.offerPeak (peakOffset c) e.gaps.offset.natAbs else s1
  let s3 := (s2.report (ofChannel .flangeProximity c) e.judged.proximity).report
    (ofChannel .lateralSensorFailed c) (e.judged.health = .failed)
  match e.taken with
  | some x => s3.reportIf (ofChannel .steerLimited c) (steerLimited k x e.record)
  | none => if e.read.start.givesZero then s3.report (ofChannel .steerLimited c) false else s3

/-! ## The yaw check (R135, R136) -/

/-- The predicted yaw (R135). -/
def predictedYaw (centre body : Int) (b : BogieFields) : Int :=
  roundDiv (roundDiv (centre + body) 2 * (b.centre - b.body)) 1000

/-- The yaw record after a disagreeing or an agreeing pass (R135, R136). -/
def YawRecord.judged (r : YawRecord) (k : Criteria) (agrees : Bool) : YawRecord :=
  if agrees then
    { disagreeRun := 0, agreeRun := runUp r.agreeRun,
      mismatch := r.mismatch && decide (runUp r.agreeRun < k.mismatchClear) }
  else
    { disagreeRun := runUp r.disagreeRun, agreeRun := 0,
      mismatch := r.mismatch || decide (k.mismatchRaise ≤ runUp r.disagreeRun) }

/-- The yaw record after a pass (R135): no yaw field sets it to its reset values, an invalid yaw or a failed
lookup leaves it. -/
def yawAfter (p : Pass) (r : YawRecord) : YawRecord :=
  match p.sample.yaw with
  | none => ⟨0, 0, false⟩
  | some y =>
    match p.yawCentre, p.yawBody with
    | some a, some b =>
      if y.valid then
        r.judged p.criteria (decide ((predictedYaw a b p.bogie - y.value).natAbs ≤ p.laneA.law.yawTolerance))
      else r
    | _, _ => r

/-- A bogie's yaw record written and GEOMETRY_MISMATCH judged over the four bogies (R136). -/
def State.setYaw (s : State) (b : Fin 4) (r : YawRecord) : State :=
  let s1 := s.setComputation fun k => { k with yaw := changeAt k.yaw b fun _ => r }
  s1.report (ofVehicle .geometryMismatch) (allBogies.any fun b => s1.computation.yaw[b].mismatch)

/-- A lane's health and runs put back when its bogie has ceased to be scheduled (R136). -/
def ComputationRecord.unscanned (r : ComputationRecord) : ComputationRecord :=
  { r with health := .good, implausibleRun := 0, plausibleRun := 0, proximity := false, contact := false }

/-- The conditions of a channel whose bogie has ceased to be scheduled end (R136). -/
def State.resetLane (s : State) (c : Fin 8) : State :=
  ((s.setRecord c ComputationRecord.unscanned).report (ofChannel .lateralSensorFailed c) false).report
    (ofChannel .flangeProximity c) false

/-- The records of a bogie that has ceased to be scheduled put back (R136). -/
def State.resetBogie (s : State) (b : Fin 4) : State :=
  ((s.setYaw b ⟨0, 0, false⟩).resetLane (channelA b)).resetLane (channelB b)

/-! ## The completion of a pass (R116) -/

/-- What a lane's completion finds: `other` is the partner lane's record after its gaps were judged. -/
def State.laneEnd (s : State) (p : Pass) (lane : Lane) (l : LaneRead) (other : ComputationRecord)
    (otherGaps : Gaps) : LaneEnd :=
  let c := lane.channel p.sample.bogie
  let before := s.computation.records[c]
  let g := p.sample.gaps lane
  let own := before.afterGaps l.law l.clearance g
  let judged := { own with inUse := yInUse own l.law g other.health otherGaps }
  { channel := c, read := l, gaps := g, stroke := p.sample.stroke lane, before := before, judged := judged,
    taken := if resultTaken l.start s.channels.bank[c] then laneResult p l judged else none }

/-- Lane A at the completion of a pass. -/
def State.endA (s : State) (p : Pass) : LaneEnd :=
  s.laneEnd p .laneA p.laneA
    (s.computation.records[channelB p.sample.bogie].afterGaps p.laneB.law p.laneB.clearance (p.sample.gaps .laneB))
    (p.sample.gaps .laneB)

/-- Lane B at the completion of a pass. -/
def State.endB (s : State) (p : Pass) : LaneEnd :=
  s.laneEnd p .laneB p.laneB
    (s.computation.records[channelA p.sample.bogie].afterGaps p.laneA.law p.laneA.clearance (p.sample.gaps .laneA))
    (p.sample.gaps .laneA)

/-- The pass in flight completes (R116): the results are offered, the records written, the reports made, the yaw
record updated, the records of a bogie no longer scheduled put back (R136), and the next pass starts (R114). -/
def State.completePass (s : State) : State :=
  match s.computation.pass with
  | none => s
  | some p =>
    let s0 := (s.reach p.endsAt).setComputation fun k => { k with pass := none }
    let a := s0.endA p
    let b := s0.endB p
    let s1 := (s0.finishLane a).finishLane b
    let s2 := (s1.reportLane p.criteria a).reportLane p.criteria b
    let s3 := s2.setYaw p.sample.bogie (yawAfter p s2.computation.yaw[p.sample.bogie])
    (if p.resetAfter then s3.resetBogie p.sample.bogie else s3).startPass

/-- PASS_COMPLETE. -/
def execPassComplete (s : State) : Host.Outcome State Fault Refusal := .next (s.whileRunning State.completePass)

/-! ## Law records (R111, R113) -/

/-- The bounds of law fields 1 to 19, from the fields themselves: k_w is at most k_n, the contact gap at most the
proximity gap (R110, R111). -/
def lawBounds (l : List Nat) : List (Nat × Nat) :=
  [(0, 500), (0, 65535), (0, 100000), (1000, 150000), (1, 500), (0, 7), (0, min 7 (l.getD 5 0)), (0, 3000),
    (0, min 3000 (l.getD 7 0)), (0, 1000), (0, 25000), (0, 2), (0, 2), (1, 20000), (100, 50000), (10, 8000),
    (1, 255), (1, 1000), (100, 3000)]

/-- The first index, counted from `i`, at which a field lies outside its bounds. -/
def firstOutside (i : Nat) : List Nat → List (Nat × Nat) → Option Nat
  | n :: rest, (lo, hi) :: bounds => if n < lo ∨ hi < n then some i else firstOutside (i + 1) rest bounds
  | _, _ => none

/-- The law record of fields 1 to 19. -/
def lawOf (l : List Nat) : LawRecord :=
  { previewTime := l.getD 0 0, kp := l.getD 1 0, feedbackLimit := l.getD 2 0, angleMax := l.getD 3 0,
    rate := l.getD 4 0, shiftNormal := l.getD 5 0, shiftWidened := l.getD 6 0, proximityGap := l.getD 7 0,
    contactGap := l.getD 8 0, sumTolerance := l.getD 9 0, feedbackMinSpeed := l.getD 10 0,
    lateralMode := (lateralModeOf? (l.getD 11 0)).getD .freeze,
    forwardMode := (forwardModeOf? (l.getD 12 0)).getD .decay,
    decayStep := l.getD 13 0, yawTolerance := l.getD 14 0, trackingLimit := l.getD 15 0,
    trackingPersistence := l.getD 16 0, centreTolerance := l.getD 17 0, lockTime := l.getD 18 0 }

/-- LAW.SET (R111). -/
def ownLawSet (body : List Byte) (s : State) : State × Answer :=
  match channelOf? (fieldU body 0 1), trailing lawForm (body.drop 1) with
  | some c, some fields =>
    match firstOutside 1 fields (lawBounds fields) with
    | some index => (s, ⟨.outOfRange, [u8 index]⟩)
    | none =>
      (s.setComputation fun k => { k with laws := changeAt k.laws c fun _ => lawOf fields }, ⟨.ok, [0]⟩)
  | _, _ => (s, ⟨.outOfRange, [0]⟩)

/-- A LAW.SET body ends after the channel or after any law field (R190, R205). -/
def fitsLawSet (body : List Byte) : Bool := body ≠ [] ∧ (trailing lawForm (body.drop 1)).isSome

/-- LAW_SET. -/
def execLawSet (s : State) : Host.Outcome State Fault Refusal :=
  .next (s.serveAct 0x28 anyBody fitsLawSet ownLawSet)

/-- LAW.GET (R113). -/
def ownLawGet (body : List Byte) (s : State) : State × Answer :=
  match channelOf? (fieldU body 0 1) with
  | none => (s, Answer.plain .outOfRange)
  | some c =>
    (s, ⟨.ok, s.computation.laws[c].encode ++ s.computation.records[c].encode ++
      s.computation.yaw[bogieOf c].encode⟩)

/-- LAW_GET. -/
def execLawGet (s : State) : Host.Outcome State Fault Refusal :=
  .next (s.serveAct 0x29 anyBody (lengthIs 1) ownLawGet)

end Sys2Proof.Machine
end

