-- ==== Sys2Proof/Machine/Acquiring.lean ====
section
/-!
DEFINITION. The acquisition unit (chapter 5): the schedule of the bogies, period timers, scans, the converter, and
the STG.* and PER.* requests.
-/

namespace Sys2Proof.Machine

/-- The acquisition unit changed. -/
def State.setAcquisition (s : State) (f : Acquisition → Acquisition) : State :=
  { s with acquisition := f s.acquisition }

/-! ## The schedule (R99, R100, R136) -/

/-- A bogie's period timer started now with its period (R100). -/
def State.startTimer (s : State) (b : Fin 4) : State :=
  s.setAcquisition fun k => { k with timers := changeAt k.timers b fun _ => some (s.clock + 1000 * k.periods[b]) }

/-- A bogie's period timer stopped (R100). -/
def State.stopTimer (s : State) (b : Fin 4) : State :=
  s.setAcquisition fun k => { k with timers := changeAt k.timers b fun _ => none }

/-- The computation unit told that a bogie has ceased to be scheduled (R136): its records are put back at once when
no scan of it is outstanding, and otherwise after the pass of that scan. -/
def State.unscheduled (s : State) (b : Fin 4) : State :=
  if s.scanState b = .none then s.resetBogie b
  else s.setComputation fun k => { k with resetDue := changeAt k.resetDue b fun _ => true }

/-- A bogie's scheduled state set afresh (R99, R100): its timer starts or stops where the state has changed. -/
def State.reschedule (s : State) (b : Fin 4) : State :=
  match s.schedulable b, s.acquisition.timers[b] with
  | true, none => s.startTimer b
  | false, some _ => (s.stopTimer b).unscheduled b
  | _, _ => s

/-! ## Scans and the converter (R98, R102 to R107) -/

/-- A sample record of a scan before its first stage is written: no yaw, and nothing valid. -/
def SampleRecord.blank (b : Fin 4) (period : Nat) : SampleRecord :=
  { bogie := b, period := period, gapLeftA := ⟨0, false⟩, gapRightA := ⟨0, false⟩, strokeA := ⟨0, false⟩,
    gapLeftB := ⟨0, false⟩, gapRightB := ⟨0, false⟩, strokeB := ⟨0, false⟩, yaw := none }

/-- A sample written at the place of its stage's role (R98). -/
def SampleRecord.write (r : SampleRecord) (x : Sample) : Role → SampleRecord
  | .gapLeftA => { r with gapLeftA := x }
  | .gapRightA => { r with gapRightA := x }
  | .strokeA => { r with strokeA := x }
  | .gapLeftB => { r with gapLeftB := x }
  | .gapRightB => { r with gapRightB := x }
  | .strokeB => { r with strokeB := x }
  | .yaw => { r with yaw := some x }

/-- The value of a raw reading (R98). -/
def StageEntry.value (e : StageEntry) (raw : Nat) : Int := roundDiv (raw * e.scale) 4096 + e.offset

/-- The sample of a raw reading: the value, invalid at either end of the converter's range and outside the bounds
(R98). -/
def StageEntry.sample (e : StageEntry) (raw : Nat) : Sample :=
  { value := e.value raw,
    valid := decide (raw ≠ 0) && decide (raw ≠ 4095) && decide (e.validLow ≤ e.value raw) &&
      decide (e.value raw ≤ e.validHigh) }

/-- The scan that an expiry creates (R102): the bogie, its period, and copies of its entries in index order. -/
def State.newScan (s : State) (b : Fin 4) : Scan :=
  { bogie := b, period := s.acquisition.periods[b],
    stages := (allStages.map fun i => s.acquisition.stages[i]).filter fun e => e.owner = some b }

/-- The idle converter takes the oldest queued scan, if there is one, and begins its first conversion (R105). -/
def State.takeScan (s : State) : State :=
  match s.acquisition.converter, s.acquisition.queue with
  | none, q :: rest =>
    s.setAcquisition fun k =>
      { k with queue := rest,
               converter := some ⟨q, 0, SampleRecord.blank q.bogie q.period, s.clock + 20⟩ }
  | _, _ => s

/-- An expiry that finds the bogie's scan outstanding (R103, R104). -/
def State.overrun (s : State) : State :=
  ((s.count (vehicleCounter .scanOverrun)).setAcquisition fun k => { k with cleanRun := 0 }).report
    (ofVehicle .scanOverrun) true

/-- An expiry that creates a scan (R102, R104, R105). -/
def State.createScan (s : State) (b : Fin 4) : State :=
  let run := runUp s.acquisition.cleanRun
  let s1 := s.setAcquisition fun k => { k with cleanRun := run, queue := k.queue ++ [s.newScan b] }
  let s2 := if s.monitor.criteria.overrunClear ≤ run then s1.report (ofVehicle .scanOverrun) false else s1
  s2.takeScan

/-- A bogie's period timer expires: it starts again at once with the period in force, and the expiry is taken
(R100, R102). -/
def State.periodExpiry (s : State) (b : Fin 4) : State :=
  match s.acquisition.timers[b] with
  | none => s
  | some t =>
    let s1 := (s.reach t).startTimer b
    if s1.scanState b = .none then s1.createScan b else s1.overrun

/-- PERIOD_TIMER_EXPIRY. -/
def execPeriodTimerExpiry (b : Fin 4) (s : State) : Host.Outcome State Fault Refusal :=
  .next (s.whileRunning fun s => s.periodExpiry b)

/-- The record of a conversion with the stage in conversion written from its raw reading (R98). -/
def Conversion.written (c : Conversion) (raw : Nat) : SampleRecord :=
  match c.scan.stages[c.position]? with
  | none => c.record
  | some e => match e.role with
    | none => c.record
    | some r => c.record.write (e.sample raw) r

/-- The end of a stage's conversion (R98, R106): the value is written; then the next stage begins, or the record
passes to the pass queue, the freed converter takes the next scan, and an idle computation unit starts the pass
(R105, R114). -/
def State.conversionEnd (s : State) (raw : Nat) : State :=
  match s.acquisition.converter with
  | none => s
  | some c =>
    let s1 := s.reach c.endsAt
    if c.position + 1 < c.scan.stages.length then
      s1.setAcquisition fun k =>
        { k with converter := some ⟨c.scan, c.position + 1, c.written raw, s1.clock + 20⟩ }
    else
      let s2 := s1.setAcquisition fun k => { k with converter := none }
      let s3 := s2.setComputation fun k => { k with queue := k.queue ++ [c.written raw] }
      s3.takeScan.startPass

/-- STAGE_CONVERSION_COMPLETE. -/
def execStageConversionComplete (raw : BitVec 12) (s : State) : Host.Outcome State Fault Refusal :=
  .next (s.whileRunning fun s => s.conversionEnd raw.toNat)

/-! ## STG.SET (R94, R95) -/

/-- The roles whose values are not negative (R93). -/
def Role.isGap : Role → Bool
  | .gapLeftA | .gapRightA | .gapLeftB | .gapRightB => true
  | .strokeA | .strokeB | .yaw => false

/-- The ranges of an owned entry's fields (R93, R94). -/
def StageEntry.inRange (e : StageEntry) (r : Role) : Bool :=
  e.input ≤ 31 ∧ -1048576 ≤ e.scale ∧ e.scale ≤ 1048575 ∧ e.offset.natAbs ≤ 1000000 ∧
    e.validLow.natAbs ≤ 1000000 ∧ e.validHigh.natAbs ≤ 1000000 ∧ e.validLow ≤ e.validHigh ∧
    (r.isGap → 0 ≤ e.validLow)

/-- The entry an STG.SET body gives, when its fields are in range (R94); an owner of NONE gives a released entry,
with the other fields not examined. -/
def stageEntryOf? (body : List Byte) : Option StageEntry :=
  if fieldU body 1 1 = 255 then some StageEntry.released
  else match bogieOf? (fieldU body 1 1), roleOf? (fieldU body 2 1) with
  | some b, some r =>
    let e : StageEntry :=
      { owner := some b, role := some r, input := fieldU body 3 1, scale := fieldS body 4 3,
        offset := fieldS body 7 3, validLow := fieldS body 10 3, validHigh := fieldS body 13 3 }
    if e.inRange r then some e else none
  | _, _ => none

/-- Whether both channels of an owner are LOCKED; NONE has no channels (R94). -/
def State.ownerLocked (s : State) : Option (Fin 4) → Bool
  | none => true
  | some b => s.channels.bank[channelA b].state = .locked ∧ s.channels.bank[channelB b].state = .locked

/-- Whether another stage has the new entry's owner and role (R94). -/
def State.duplicateRole (s : State) (i : Fin 32) (e : StageEntry) : Bool :=
  e.owner.isSome ∧ allStages.any fun j =>
    j ≠ i ∧ s.acquisition.stages[j].owner = e.owner ∧ s.acquisition.stages[j].role = e.role

/-- The schedule of an owner set afresh. -/
def State.rescheduleOwner (s : State) : Option (Fin 4) → State
  | none => s
  | some b => s.reschedule b

/-- STG.SET taken: the entry is replaced whole, and the schedules of the old and the new owner are set afresh
(R95). -/
def State.writeStage (s : State) (i : Fin 32) (e : StageEntry) : State :=
  let old := s.acquisition.stages[i].owner
  ((s.setAcquisition fun k => { k with stages := changeAt k.stages i fun _ => e }).rescheduleOwner old).rescheduleOwner
    e.owner

/-- An STG.SET answer: its status with the four schedule records (R94, R95). -/
def State.stageAnswer (s : State) (st : Status) : State × Answer := (s, ⟨st, s.scheduleRecords⟩)

/-- STG.SET. -/
def ownStgSet (body : List Byte) (s : State) : State × Answer :=
  match stageOf? (fieldU body 0 1), stageEntryOf? body with
  | some i, some e =>
    if s.vehicle.isNone then s.stageAnswer .noVehicle
    else if (s.ownerLocked s.acquisition.stages[i].owner && s.ownerLocked e.owner) = false then
      s.stageAnswer .notLocked
    else if s.duplicateRole i e then s.stageAnswer .duplicate
    else (s.writeStage i e).stageAnswer .ok
  | _, _ => s.stageAnswer .outOfRange

/-- STG_SET. -/
def execStgSet (s : State) : Host.Outcome State Fault Refusal :=
  .next (s.serveAct 0x30 anyBody (lengthIs 16) ownStgSet)

/-! ## STG.GET (R96) -/

/-- A bogie's byte, 255 for none (R203). -/
def bogieByte : Option (Fin 4) → Byte
  | none => 255
  | some b => u8 b.val

/-- The body of an STG.GET reply after its head (R203). -/
def stageReport (s : State) (start count : Nat) : List Byte :=
  let shown := (allStages.drop start).take count
  [u8 shown.length] ++ (shown.map fun i => s.acquisition.stages[i].encode i).flatten ++ s.scheduleRecords ++
    [u8 s.acquisition.queue.length] ++
    (((s.acquisition.queue.map fun (q : Scan) => u8 q.bogie.val) ++ [255, 255, 255, 255]).take 4) ++
    [bogieByte (s.acquisition.converter.map fun (c : Conversion) => c.scan.bogie)]

/-- STG.GET. -/
def ownStgGet (body : List Byte) (s : State) : State × Answer :=
  let start := fieldU body 0 1
  let count := fieldU body 1 1
  if 31 < start ∨ count < 1 ∨ 8 < count then (s, Answer.plain .outOfRange)
  else (s, ⟨.ok, stageReport s start count⟩)

/-- STG_GET. -/
def execStgGet (s : State) : Host.Outcome State Fault Refusal :=
  .next (s.serveAct 0x31 anyBody (lengthIs 2) ownStgGet)

/-! ## PER.SET (R101) -/

/-- PER.SET taken: the period is held, and a running timer restarts with it. -/
def State.setPeriod (s : State) (b : Fin 4) (period : Nat) : State :=
  let s1 := s.setAcquisition fun k => { k with periods := changeAt k.periods b fun _ => period }
  if s.acquisition.timers[b].isSome then s1.startTimer b else s1

/-- PER.SET. -/
def ownPerSet (body : List Byte) (s : State) : State × Answer :=
  let period := fieldU body 1 1
  match bogieOf? (fieldU body 0 1) with
  | none => (s, Answer.plain .outOfRange)
  | some b =>
    if period < 2 ∨ 50 < period then (s, Answer.plain .outOfRange)
    else if s.vehicle.isNone then (s, Answer.plain .noVehicle)
    else
      let t := s.setPeriod b period
      (t, ⟨.ok, t.scheduleRecords⟩)

/-- PER_SET. -/
def execPerSet (s : State) : Host.Outcome State Fault Refusal :=
  .next (s.serveAct 0x32 anyBody (lengthIs 2) ownPerSet)

end Sys2Proof.Machine
end

