-- ==== Sys2Proof/Machine/Vehicle.lean ====
section
/-!
DEFINITION. The vehicle record (chapter 2): the checks of VEH.SET, the record it writes with its distances per
count, and VEH.GET.
-/

namespace Sys2Proof.Machine

/-! ## The fields of a VEH.SET body (R30, R204) -/

/-- Field 1, the bogie count. -/
def vehCount (body : List Byte) : Nat := fieldU body 0 1

/-- Fields 2 + 2b and 3 + 2b of a bogie. -/
def vehBogie (body : List Byte) (b : Fin 4) : BogieFields :=
  { centre := fieldS body (1 + 4 * b.val) 2, body := fieldS body (3 + 4 * b.val) 2 }

/-- Fields 10 + 3c to 12 + 3c of a channel. -/
def vehChannel (body : List Byte) (c : Fin 8) : ChannelFields :=
  { offset := fieldS body (17 + 6 * c.val) 2, lever := fieldU body (19 + 6 * c.val) 2,
    strokeMax := fieldU body (21 + 6 * c.val) 2 }

/-- Field 34 + 3w, a wheel's diameter. -/
def vehDiameter (body : List Byte) (w : Fin 16) : Nat := fieldU body (65 + 4 * w.val) 2

/-- Field 35 + 3w, a wheel's teeth. -/
def vehTeeth (body : List Byte) (w : Fin 16) : Nat := fieldU body (67 + 4 * w.val) 1

/-- Field 36 + 3w, a wheel's count mode code. -/
def vehMode (body : List Byte) (w : Fin 16) : Nat := fieldU body (68 + 4 * w.val) 1

/-- Field 82, the reference wheel count. -/
def vehReferences (body : List Byte) : Nat := fieldU body 129 1

/-- Fields 83 to 86, the reference wheel of a slot. -/
def vehSlot (body : List Byte) (slot : Nat) : Nat := fieldU body (130 + slot) 1

/-- Field 87, the marker detector offset. -/
def vehMarker (body : List Byte) : Int := fieldS body 134 2

/-- Fields 88 to 94, each absent one at its default (R30). -/
def vehTail (body : List Byte) : List Nat := (trailing vehicleTail (body.drop 136)).getD []

/-- A VEH.SET body ends after field 87 or after a later field (R30, R190, R204). -/
def fitsVehSet (body : List Byte) : Bool :=
  136 ≤ body.length ∧ (trailing vehicleTail (body.drop 136)).isSome

/-! ## The field checks (R31, R32) -/

/-- An offset outside ±30,000 mm. -/
def offsetBeyond (o : Int) : Bool := 30000 < o.natAbs

/-- A number outside its range. -/
def outside (lo hi n : Nat) : Bool := n < lo ∨ hi < n

/-- Whether a wheelset offset fails: its range, its half spacing, or its side of the bogie centre (R31). -/
def wheelsetFails (c : Fin 8) (offset centre : Int) : Bool :=
  offsetBeyond offset || outside 300 2500 (offset - centre).natAbs ||
    (if c.val % 2 = 0 then decide (offset ≤ centre) else decide (centre ≤ offset))

/-- Whether a reference wheel slot fails (R32). -/
def slotFails (body : List Byte) (slot : Nat) : Bool :=
  decide (4 * vehCount body ≤ vehSlot body slot) ||
    (List.range slot).any fun k => vehSlot body k = vehSlot body slot

/-- The fields examined by VEH.SET in ascending index, each with whether it fails; entries of unconfigured bogies,
channels and wheels, and slots beyond the reference wheel count, are skipped (R31, R32). -/
def vehChecks (body : List Byte) : List (Nat × Bool) :=
  let count := vehCount body
  let tail := vehTail body
  let full := tail.getD 3 0
  let uZero := tail.getD 4 0
  [(1, outside 2 4 count)] ++
    ((allBogies.filter fun b => b.val < count).map fun b =>
      [(2 + 2 * b.val, offsetBeyond (vehBogie body b).centre),
       (3 + 2 * b.val, offsetBeyond (vehBogie body b).body)]).flatten ++
    ((allChannels.filter fun c => (bogieOf c).val < count).map fun c =>
      [(10 + 3 * c.val, wheelsetFails c (vehChannel body c).offset (vehBogie body (bogieOf c)).centre),
       (11 + 3 * c.val, outside 100 2000 (vehChannel body c).lever),
       (12 + 3 * c.val, outside 100 8000 (vehChannel body c).strokeMax)]).flatten ++
    ((allWheels.filter fun w => w.val < 4 * count).map fun w =>
      [(34 + 3 * w.val, outside 400 800 (vehDiameter body w)),
       (35 + 3 * w.val, outside 20 200 (vehTeeth body w)),
       (36 + 3 * w.val, decide (1 < vehMode body w))]).flatten ++
    [(82, outside 1 4 (vehReferences body))] ++
    ((List.range 4).filter fun k => k < vehReferences body).map (fun k => (83 + k, slotFails body k)) ++
    [(87, offsetBeyond (vehMarker body)),
     (88, outside 0 8192 (tail.getD 0 0)),
     (89, outside 10 10000 (tail.getD 1 0)),
     (90, outside 10 2000 (tail.getD 2 0)),
     (91, outside 0 65534 full),
     (92, outside 1 65535 uZero || decide (uZero ≤ full)),
     (93, decide (tail.getD 5 0 < full) || decide (uZero < tail.getD 5 0)),
     (94, outside 1 128 (tail.getD 6 0))]

/-- The first channel of a list whose offset is the least of them. -/
def leastOffset (body : List Byte) : List (Fin 8) → Option (Fin 8)
  | [] => none
  | c :: rest =>
    match leastOffset body rest with
    | none => some c
    | some d => if (vehChannel body c).offset ≤ (vehChannel body d).offset then some c else some d

/-- The first channel of a list whose offset is the greatest of them. -/
def greatestOffset (body : List Byte) : List (Fin 8) → Option (Fin 8)
  | [] => none
  | c :: rest =>
    match greatestOffset body rest with
    | none => some c
    | some d => if (vehChannel body d).offset ≤ (vehChannel body c).offset then some c else some d

/-- The span check (R32): the field index of the wheelset offset that it fails on. -/
def spanFailure (body : List Byte) : Option Nat :=
  let channels := allChannels.filter fun c => (bogieOf c).val < vehCount body
  match leastOffset body channels, greatestOffset body channels with
  | some low, some high =>
    if 0 < (vehChannel body low).offset then some (10 + 3 * low.val)
    else if (vehChannel body high).offset < 0 then some (10 + 3 * high.val)
    else none
  | _, _ => none

/-- The field index that VEH.SET is refused with, if any (R31, R32). -/
def vehFailure (body : List Byte) : Option Nat :=
  match (vehChecks body).find? fun check => check.2 with
  | some check => some check.1
  | none => spanFailure body

/-! ## The record (R33, R34) -/

/-- Counts per tooth (R34). -/
def CountMode.perTooth : CountMode → Nat
  | .rising => 1
  | .both => 2

/-- The distance per count in µm, with π taken as 355/113 (R34). -/
def distancePerCount (diameter teeth : Nat) (mode : CountMode) : Nat :=
  roundNat (355 * diameter * 1000) (113 * teeth * mode.perTooth)

/-- The record's fields of a configured wheel. -/
def vehWheel (body : List Byte) (w : Fin 16) : WheelFields :=
  let mode := (countModeOf? (vehMode body w)).getD .rising
  { diameter := vehDiameter body w, teeth := vehTeeth body w, mode := mode,
    distance := distancePerCount (vehDiameter body w) (vehTeeth body w) mode }

/-- The record that a VEH.SET body gives (R33): unconfigured entries and unused slots read as 0. -/
def vehRecord (body : List Byte) : VehicleRecord :=
  let count := vehCount body
  let tail := vehTail body
  { bogieCount := count
    bogies := Vector.ofFn fun b => if b.val < count then vehBogie body b else ⟨0, 0⟩
    channels := Vector.ofFn fun c => if (bogieOf c).val < count then vehChannel body c else ⟨0, 0, 0⟩
    wheels := Vector.ofFn fun w => if w.val < 4 * count then vehWheel body w else ⟨0, 0, .rising, 0⟩
    references := (List.range (vehReferences body)).filterMap fun k => wheelOf? (vehSlot body k)
    markerOffset := vehMarker body
    drift := tail.getD 0 0
    locateAccuracy := tail.getD 1 0
    markerAccuracy := tail.getD 2 0
    uFull := tail.getD 3 0
    uZero := tail.getD 4 0
    uDegrade := tail.getD 5 0
    slip := tail.getD 6 0 }

/-! ## VEH.SET (R29, R33, R36) -/

/-- Whether every channel of a bogie configured in a record is LOCKED (R29). -/
def State.configuredLocked (s : State) (v : VehicleRecord) : Bool :=
  allChannels.all fun c => (bogieOf c).val < v.bogieCount → s.channels.bank[c].state = .locked

/-- What the state of the vehicle refuses VEH.SET with (R29). -/
def State.vehicleRefusal (s : State) : Option Status :=
  match s.vehicle with
  | none => none
  | some v =>
    if s.configuredLocked v = false then some .notLocked
    else if s.tracker.standstill = false then some .notStandstill
    else none

/-- VEH.SET taken: the record is replaced whole, and the bogies' schedules follow its bogie count (R33, R36, R99). -/
def State.setVehicle (s : State) (v : VehicleRecord) : State :=
  allBogies.foldl (fun s b => s.reschedule b) { s with vehicle := some v }

/-- VEH.SET. -/
def ownVehSet (body : List Byte) (s : State) : State × Answer :=
  match s.vehicleRefusal with
  | some st => (s, ⟨st, [0]⟩)
  | none =>
    match vehFailure body with
    | some index => (s, ⟨.outOfRange, [u8 index]⟩)
    | none => (s.setVehicle (vehRecord body), ⟨.ok, [0]⟩)

/-- VEH_SET. -/
def execVehSet (s : State) : Host.Outcome State Fault Refusal :=
  .next (s.serveAct 0x20 anyBody fitsVehSet ownVehSet)

/-! ## VEH.GET (R38) -/

/-- VEH.GET. -/
def ownVehGet (_ : List Byte) (s : State) : State × Answer :=
  match s.vehicle with
  | none => (s, ⟨.ok, [0]⟩)
  | some v => (s, ⟨.ok, [1] ++ v.encode ++ (allWheels.map fun w => be 3 v.wheels[w].distance).flatten⟩)

/-- VEH_GET. -/
def execVehGet (s : State) : Host.Outcome State Fault Refusal :=
  .next (s.serveAct 0x21 anyBody (lengthIs 0) ownVehGet)

end Sys2Proof.Machine
end

