-- ==== Sys2Proof/Machine/Steering.lean ====
section
/-!
DEFINITION. The steering channels (chapter 7): their requests, the permit, the lock timer and the input lines.
-/

namespace Sys2Proof.Machine

/-! ## The CH.* requests (R147) -/

/-- The answer to a CH.* request that names a channel: the reason code and the channel's status record (R147). -/
def State.channelAnswer (s : State) (c : Fin 8) (st : Status) (reason : Reason) : Answer :=
  ⟨st, u8 reason.code :: (s.channelStatus c).encode⟩

/-- The answer to a CH.* request whose channel number is out of range: reason NONE and a record of zeros (R147). -/
def noChannel : Answer := ⟨.outOfRange, List.replicate 24 0⟩

/-- A CH.* request on a channel (R147): refused BAD_STATE with the reason of its first failing check, or taken. -/
def channelRequest (reason : Option Reason) (act : State → State) (c : Fin 8) (s : State) : State × Answer :=
  match reason with
  | some r => (s, s.channelAnswer c .badState r)
  | none => (act s, (act s).channelAnswer c .ok .none)

/-- The reason of the first check that fails in a list of checks, each with whether it holds. -/
def firstReason : List (Bool × Reason) → Option Reason
  | [] => none
  | (holds, r) :: rest => if holds then firstReason rest else some r

/-! ## CH.UNLOCK (R148, R149) -/

/-- The checks of CH.UNLOCK in order (R148). -/
def State.unlockReason (s : State) (c : Fin 8) : Option Reason :=
  firstReason
    [(decide (s.channels.bank[c].state = .locked), .state),
     (s.channels.permit, .permitOff),
     (decide (s.tracker.state ≠ .unlocated), .unlocated),
     (s.configured (bogieOf c), .notConfigured),
     (s.complete (bogieOf c), .incomplete),
     (s.lines.drive[c].driveReady, .driveNotReady),
     (!s.lines.drive[c].driveFault, .driveFault)]

/-- CH.UNLOCK taken (R149). -/
def State.unlock (s : State) (c : Fin 8) : State :=
  let before := s.channels.bank[c].state
  ((s.setChannel c (Channel.toUnlocking (s.lockDeadline c))).notifyChannel c before .unlock).settle c

/-- CH.UNLOCK. -/
def ownChUnlock (body : List Byte) (s : State) : State × Answer :=
  match channelOf? (fieldU body 0 1) with
  | none => (s, noChannel)
  | some c =>
    if s.vehicle.isNone then (s, s.channelAnswer c .noVehicle .none)
    else channelRequest (s.unlockReason c) (fun s => s.unlock c) c s

/-- CH_UNLOCK. -/
def execChUnlock (s : State) : Host.Outcome State Fault Refusal :=
  .next (s.serveAct 0x41 anyBody (lengthIs 1) ownChUnlock)

/-! ## CH.HOLD, CH.RESUME, CH.RETURN (R150 to R152) -/

/-- CH.HOLD taken (R150). -/
def State.hold (s : State) (c : Fin 8) : State :=
  let before := s.channels.bank[c].state
  (s.setChannel c Channel.toHolding).notifyChannel c before .hold

/-- CH.HOLD. -/
def ownChHold (body : List Byte) (s : State) : State × Answer :=
  match channelOf? (fieldU body 0 1) with
  | none => (s, noChannel)
  | some c =>
    channelRequest (firstReason [(decide (s.channels.bank[c].state = .steering), .state)]) (fun s => s.hold c) c s

/-- CH_HOLD. -/
def execChHold (s : State) : Host.Outcome State Fault Refusal :=
  .next (s.serveAct 0x42 anyBody (lengthIs 1) ownChHold)

/-- CH.RESUME taken (R151). -/
def State.resume (s : State) (c : Fin 8) : State :=
  let before := s.channels.bank[c].state
  (s.setChannel c Channel.toSteering).notifyChannel c before .resume

/-- CH.RESUME. -/
def ownChResume (body : List Byte) (s : State) : State × Answer :=
  match channelOf? (fieldU body 0 1) with
  | none => (s, noChannel)
  | some c =>
    channelRequest (firstReason [(decide (s.channels.bank[c].state = .holding), .state)]) (fun s => s.resume c) c s

/-- CH_RESUME. -/
def execChResume (s : State) : Host.Outcome State Fault Refusal :=
  .next (s.serveAct 0x43 anyBody (lengthIs 1) ownChResume)

/-- A channel moved out of driving by an event (R152, R155): from UNLOCKING to LOCKING, where its lines act on it
at once, and from STEERING or HOLDING to RETURNING. Other states stay as they are. That a lock still home takes the
channel on to LOCKED in the same act, by the `at once` of R144, is the model's choice: R152's first order and R159's row
from UNLOCKING leave it in LOCKING (log entry 30). -/
def State.bringBack (s : State) (event : ChannelEvent) (c : Fin 8) : State :=
  match s.channels.bank[c].state with
  | .unlocking => (s.enterLocking c event).settle c
  | .steering | .holding => s.enterReturning c event
  | .locking | .locked | .returning | .fault => s

/-- The states CH.RETURN is taken in (R152). -/
def ChannelState.returnable : ChannelState → Bool
  | .unlocking | .steering | .holding => true
  | .locking | .locked | .returning | .fault => false

/-- CH.RETURN. -/
def ownChReturn (body : List Byte) (s : State) : State × Answer :=
  match channelOf? (fieldU body 0 1) with
  | none => (s, noChannel)
  | some c =>
    channelRequest (firstReason [(s.channels.bank[c].state.returnable, .state)])
      (fun s => s.bringBack .returnTaken c) c s

/-- CH_RETURN. -/
def execChReturn (s : State) : Host.Outcome State Fault Refusal :=
  .next (s.serveAct 0x44 anyBody (lengthIs 1) ownChReturn)

/-! ## CH.CLEAR (R154) -/

/-- The checks of CH.CLEAR in order (R154). -/
def State.clearReason (s : State) (c : Fin 8) : Option Reason :=
  firstReason
    [(decide (s.channels.bank[c].state = .fault), .state),
     (!s.lines.drive[c].driveFault, .driveFault),
     (s.lines.drive[c].lockEngaged, .lockNotEngaged)]

/-- CH.CLEAR taken (R154). -/
def State.clearFault (s : State) (c : Fin 8) : State :=
  let before := s.channels.bank[c].state
  ((s.setChannel c Channel.toLocked).report (ofChannel .channelFault c) false).notifyChannel c before .clear

/-- CH.CLEAR. -/
def ownChClear (body : List Byte) (s : State) : State × Answer :=
  match channelOf? (fieldU body 0 1) with
  | none => (s, noChannel)
  | some c => channelRequest (s.clearReason c) (fun s => s.clearFault c) c s

/-- CH_CLEAR. -/
def execChClear (s : State) : Host.Outcome State Fault Refusal :=
  .next (s.serveAct 0x45 anyBody (lengthIs 1) ownChClear)

/-! ## CH.GET (R163) -/

/-- CH.GET (R163): the status records alone. R206 gives "a reply to a CH.* request" a reason code before its record; the
model reads that as the five requests of R147, which is its reading and not the manual's words (log entry 28). -/
def ownChGet (body : List Byte) (s : State) : State × Answer :=
  match body with
  | [] => (s, ⟨.ok, (allChannels.map fun c => (s.channelStatus c).encode).flatten⟩)
  | n :: _ =>
    match channelOf? n.toNat with
    | none => (s, Answer.plain .outOfRange)
    | some c => (s, ⟨.ok, (s.channelStatus c).encode⟩)

/-- A CH.GET body is empty or one channel number (R190, R201). -/
def fitsChGet (body : List Byte) : Bool := body.length ≤ 1

/-- CH_GET. -/
def execChGet (s : State) : Host.Outcome State Fault Refusal :=
  .next (s.serveAct 0x46 anyBody fitsChGet ownChGet)

/-! ## PERMIT.SET (R155) -/

/-- The permit changed. -/
def State.setPermit (s : State) (on : Bool) : State := { s with channels := { s.channels with permit := on } }

/-- The permit becomes OFF, and every channel is moved in the same act (R155). A permit already OFF changes
nothing. -/
def State.permitOff (s : State) : State :=
  if s.channels.permit then allChannels.foldl (fun s c => s.bringBack .permitOff c) (s.setPermit false) else s

/-- Whether a PERMIT.SET body's code is OFF (R201). -/
def permitsOff (body : List Byte) : Bool := fieldU body 0 1 = 0

/-- PERMIT.SET with a code other than OFF. -/
def ownPermitSetOn (body : List Byte) (s : State) : State × Answer :=
  if fieldU body 0 1 = 1 then (s.setPermit true, Answer.plain .ok) else (s, Answer.plain .outOfRange)

/-- PERMIT_SET_ON. -/
def execPermitSetOn (s : State) : Host.Outcome State Fault Refusal :=
  .next (s.serveAct 0x40 (fun body => !permitsOff body) (lengthIs 1) ownPermitSetOn)

/-- PERMIT.SET with code OFF. -/
def ownPermitSetOff (_ : List Byte) (s : State) : State × Answer := (s.permitOff, Answer.plain .ok)

/-- PERMIT_SET_OFF. -/
def execPermitSetOff (s : State) : Host.Outcome State Fault Refusal :=
  .next (s.serveAct 0x40 permitsOff (lengthIs 1) ownPermitSetOff)

/-! ## The lock timer and the lines (R143 to R145) -/

/-- The states in which a lock timer expires (R143). -/
def ChannelState.timed : ChannelState → Bool
  | .locking | .unlocking => true
  | .locked | .steering | .holding | .returning | .fault => false

/-- A lock timer expires (R143). -/
def State.lockExpiry (s : State) (c : Fin 8) : State :=
  match s.channels.bank[c].lockTimer with
  | none => s
  | some t => if s.channels.bank[c].state.timed then (s.reach t).enterFault c .lockTimeout else s

/-- LOCK_TIMER_EXPIRY. -/
def execLockTimerExpiry (c : Fin 8) (s : State) : Host.Outcome State Fault Refusal :=
  .next (s.whileRunning fun s => s.lockExpiry c)

/-- The levels of a channel's lines written. -/
def State.setLines (s : State) (c : Fin 8) (f : DriveLines → DriveLines) : State :=
  { s with lines := { s.lines with drive := changeAt s.lines.drive c f } }

/-- LOCK_ENGAGED_CHANGE. -/
def execLockEngagedChange (c : Fin 8) (engaged : Bool) (s : State) : Host.Outcome State Fault Refusal :=
  .next ((s.setLines c fun l => { l with lockEngaged := engaged }).whileRunning fun s => s.settle c)

/-- DRIVE_FAULT_CHANGE. -/
def execDriveFaultChange (c : Fin 8) (fault ready : Bool) (s : State) : Host.Outcome State Fault Refusal :=
  .next ((s.setLines c fun l => { l with driveFault := fault, driveReady := ready }).whileRunning fun s => s.settle c)

end Sys2Proof.Machine
end

