-- ==== Sys2Proof/Machine/Watching.lean ====
section
/-!
DEFINITION. The monitor's requests and its snapshot timer (chapter 8).
-/

namespace Sys2Proof.Machine

/-- The monitor changed. -/
def State.setMonitor (s : State) (f : Monitor → Monitor) : State := { s with monitor := f s.monitor }

/-! ## CND.GET (R168) -/

/-- The criteria, one byte each (R206). -/
def Criteria.encode (k : Criteria) : List Byte :=
  [u8 k.limitRaise, u8 k.limitClear, u8 k.mismatchRaise, u8 k.mismatchClear, u8 k.overrunClear]

/-- The fields of a CND.GET reply after its head (R168, R206). -/
def State.conditionReport (s : State) : List Byte :=
  encodeSet s.presentSet ++ encodeSet s.latchedSet ++
    (allInstances.map fun i => u8 s.monitor.conditions[i].mode.code) ++ s.monitor.criteria.encode

/-- Every instance that is latched and not present becomes not latched (R168). -/
def State.clearLatches (s : State) : State :=
  s.setMonitor fun m =>
    { m with conditions := Vector.ofFn fun i =>
        { m.conditions[i] with latched := m.conditions[i].latched && m.conditions[i].present } }

/-- CND.GET: the reply is built, and then the latches are cleared. -/
def ownCndGet (r : Frame) (s : State) : State :=
  (s.queueReply r ⟨.ok, s.conditionReport⟩ false).clearLatches

/-- CND_GET. -/
def execCndGet (s : State) : Host.Outcome State Fault Refusal :=
  .next (s.serve 0x50 anyBody (lengthIs 0) ownCndGet)

/-! ## CND.ENABLE (R170) -/

/-- A condition code: 0 for every condition, or one of the table's (R170). -/
def isConditionCode (code : Nat) : Bool := code ≤ 5 ∨ (16 ≤ code ∧ code ≤ 23)

/-- Whether a condition code and a channel field go together (R170). -/
def channelFieldFits (code channel : Nat) : Bool :=
  (channel < 8 ∨ channel = 255) ∧ (16 ≤ code → channel = 255)

/-- Whether an instance is selected by a code and a channel field (R170). -/
def selected (code channel : Nat) (i : Fin 48) : Bool :=
  if i.val < 40 then
    (code = 0 ∨ code = i.val / 8 + 1) ∧ (channel = 255 ∨ channel = i.val % 8)
  else code = 0 ∨ code = i.val - 40 + 16

/-- The notice modes of the selected instances set (R170). -/
def State.setModes (s : State) (code channel : Nat) (mode : NoticeMode) : State :=
  s.setMonitor fun m =>
    { m with conditions := Vector.ofFn fun i =>
        if selected code channel i then { m.conditions[i] with mode := mode } else m.conditions[i] }

/-- CND.ENABLE. -/
def ownCndEnable (body : List Byte) (s : State) : State × Answer :=
  let code := fieldU body 0 1
  match noticeModeOf? (fieldU body 1 1), trailing [(1, 255)] (body.drop 2) with
  | some mode, some [channel] =>
    if isConditionCode code ∧ channelFieldFits code channel then
      (s.setModes code channel mode, Answer.plain .ok)
    else (s, Answer.plain .outOfRange)
  | _, _ => (s, Answer.plain .outOfRange)

/-- A CND.ENABLE body is a code, a mode and an optional channel (R190, R201). -/
def fitsCndEnable (body : List Byte) : Bool := 2 ≤ body.length ∧ body.length ≤ 3

/-- CND_ENABLE. -/
def execCndEnable (s : State) : Host.Outcome State Fault Refusal :=
  .next (s.serveAct 0x51 anyBody fitsCndEnable ownCndEnable)

/-! ## CND.CRITERIA (R171) -/

/-- The widths of the five criteria with their defaults (R171, R201). -/
def criteriaForm : List (Nat × Nat) := [(1, 10), (1, 10), (1, 5), (1, 20), (1, 100)]

/-- The criteria of five fields. -/
def criteriaOf (l : List Nat) : Criteria :=
  { limitRaise := l.getD 0 0, limitClear := l.getD 1 0, mismatchRaise := l.getD 2 0, mismatchClear := l.getD 3 0,
    overrunClear := l.getD 4 0 }

/-- CND.CRITERIA. -/
def ownCndCriteria (body : List Byte) (s : State) : State × Answer :=
  match trailing criteriaForm body with
  | none => (s, Answer.plain .badLength)
  | some fields =>
    match firstOutside 1 fields (List.replicate 5 (1, 255)) with
    | some index => (s, ⟨.outOfRange, [u8 index]⟩)
    | none => (s.setMonitor fun m => { m with criteria := criteriaOf fields }, ⟨.ok, [0]⟩)

/-- A CND.CRITERIA body holds 0..5 bytes (R190, R201). -/
def fitsCndCriteria (body : List Byte) : Bool := body.length ≤ 5

/-- CND_CRITERIA. -/
def execCndCriteria (s : State) : Host.Outcome State Fault Refusal :=
  .next (s.serveAct 0x52 anyBody fitsCndCriteria ownCndCriteria)

/-! ## Counters and snapshots (R177 to R179) -/

/-- CNT.SNAP: a snapshot, answered with the new snapshot set (R178). -/
def ownCntSnap (_ : List Byte) (s : State) : State × Answer :=
  let t := s.snapshot .request
  (t, ⟨.ok, t.monitor.snapshot.encode⟩)

/-- CNT_SNAP. -/
def execCntSnap (s : State) : Host.Outcome State Fault Refusal :=
  .next (s.serveAct 0x53 anyBody (lengthIs 0) ownCntSnap)

/-- Whether a CNT.MODE body's code is AUTO (R201). -/
def modesAuto (body : List Byte) : Bool := fieldU body 0 1 = 0

/-- The mode becomes AUTO: the timer starts with 1,000 ms, or runs on where the mode was AUTO (R177). -/
def State.modeAuto (s : State) : State :=
  if s.monitor.auto then s
  else s.setMonitor fun m => { m with auto := true, timer := some (s.clock + 1000000) }

/-- The mode becomes MANUAL: the timer stops (R177). -/
def State.modeManual (s : State) : State :=
  if s.monitor.auto then s.setMonitor fun m => { m with auto := false, timer := none } else s

/-- CNT.MODE with code AUTO. -/
def ownCntModeAuto (_ : List Byte) (s : State) : State × Answer := (s.modeAuto, Answer.plain .ok)

/-- CNT_MODE_AUTO. -/
def execCntModeAuto (s : State) : Host.Outcome State Fault Refusal :=
  .next (s.serveAct 0x54 modesAuto (lengthIs 1) ownCntModeAuto)

/-- CNT.MODE with a code other than AUTO. -/
def ownCntModeManual (body : List Byte) (s : State) : State × Answer :=
  if fieldU body 0 1 = 1 then (s.modeManual, Answer.plain .ok) else (s, Answer.plain .outOfRange)

/-- CNT_MODE_MANUAL. -/
def execCntModeManual (s : State) : Host.Outcome State Fault Refusal :=
  .next (s.serveAct 0x54 (fun body => !modesAuto body) (lengthIs 1) ownCntModeManual)

/-- CNT.GET (R179). -/
def ownCntGet (_ : List Byte) (s : State) : State × Answer := (s, ⟨.ok, s.monitor.snapshot.encode⟩)

/-- CNT_GET. -/
def execCntGet (s : State) : Host.Outcome State Fault Refusal :=
  .next (s.serveAct 0x55 anyBody (lengthIs 0) ownCntGet)

/-- The snapshot timer expires in AUTO mode (R177). -/
def State.snapshotExpiry (s : State) : State :=
  match s.monitor.timer with
  | none => s
  | some t => if s.monitor.auto then (s.reach t).snapshot .auto else s

/-- SNAPSHOT_TIMER_EXPIRY. -/
def execSnapshotTimerExpiry (s : State) : Host.Outcome State Fault Refusal :=
  .next (s.whileRunning State.snapshotExpiry)

end Sys2Proof.Machine
end

