-- ==== Sys2Proof/Machine/Line.lean ====
section
/-!
DEFINITION. The serial link (chapter 9): the receiver, the frame check, requests of unknown kinds, the
transmitter, and SYS.RESTART.
-/

namespace Sys2Proof.Machine

/-- The link changed. -/
def State.changeLink (s : State) (f : LinkState → LinkState) : State := { s with link := f s.link }

/-! ## The receiver (R182 to R186) -/

/-- The receiver back in HUNT with no frame in reception. -/
def LinkState.hunting (l : LinkState) : LinkState := { l with receiver := .hunt, reception := none }

/-- The bytes received since the sync pair. -/
def LinkState.bytes (l : LinkState) : List Byte := l.reception.getD []

/-- The number of body bytes of the frame in reception: its length byte. -/
def LinkState.bodyLength (l : LinkState) : Nat := fieldU l.bytes 0 1

/-- Whether the next byte is the length byte of a frame. -/
def LinkState.atLength (l : LinkState) : Bool := l.receiver = .header ∧ l.bytes = []

/-- Whether the next byte is the second CRC byte of a frame. -/
def LinkState.atLastByte (l : LinkState) : Bool := l.receiver = .crc ∧ l.bytes.length = l.bodyLength + 4

/-- The receiver after it has taken a byte that completes no frame (R184, R186). -/
def LinkState.take (l : LinkState) (b : Byte) : LinkState :=
  match l.receiver with
  | .hunt => if b = 0xC3 then { l with receiver := .sync2 } else l
  | .sync2 =>
    if b = 0x3C then { l with receiver := .header, reception := some [] }
    else if b = 0xC3 then l
    else { l with receiver := .hunt }
  | .header =>
    match l.bytes with
    | [] => if Config.maxBody < b.toNat then l.hunting else { l with reception := some [b] }
    | [n] => { l with reception := some [n, b] }
    | bytes =>
      { l with reception := some (bytes ++ [b]), receiver := if l.bodyLength = 0 then .crc else .body }
  | .body =>
    { l with reception := some (l.bytes ++ [b]),
             receiver := if l.bytes.length + 1 = l.bodyLength + 3 then .crc else .body }
  | .crc => { l with reception := some (l.bytes ++ [b]) }

/-- The request that the covered bytes of a frame make (R183). -/
def frameOf (covered : List Byte) : Frame :=
  { kind := covered.getD 1 0, tag := covered.getD 2 0, body := covered.drop 3 }

/-- A checked request arrives (R188): it joins the receive queue, or is discarded and counted when that is full. -/
def State.arrive (s : State) (r : Frame) : State :=
  if s.link.requests.length < Config.receiveDepth then
    { s with link := { s.link with requests := s.link.requests ++ [r] } }
  else s.count (vehicleCounter .frameError)

/-- A completed frame checked (R187): `covered` are its bytes from the length to the last of the body, `crc` the
value received. -/
def State.checkFrame (s : State) (covered : List Byte) (crc : BitVec 16) : State :=
  if s.link.restartPending then s
  else if crcOf covered ≠ crc then s.count (vehicleCounter .frameError)
  else if 0x80 ≤ (frameOf covered).kind.toNat then s
  else s.arrive (frameOf covered)

/-- The last byte of a frame is taken: the receiver returns to HUNT and the frame is checked (R184, R187). -/
def State.completeFrame (s : State) (crcLow : Byte) : State :=
  let covered := s.link.bytes.take (s.link.bodyLength + 3)
  let crcHigh := s.link.bytes.getD (s.link.bodyLength + 3) 0
  (s.changeLink LinkState.hunting).checkFrame covered (crcHigh ++ crcLow)

/-- The moment the byte now taken has ended: 20 µs after the last character at the earliest (R182). -/
def State.byteEnd (s : State) : Nat := max s.clock (s.link.lineAt + 20)

/-- Whether more than 1 ms has passed between the end of the last byte and the start of the one now taken (R185). -/
def State.afterGap (s : State) : Bool := s.link.lineAt + 1000 + 20 < s.byteEnd

/-- The receiver when a byte begins: a frame in reception is discarded after a gap (R185). -/
def State.beforeByte (s : State) : LinkState := if s.afterGap then s.link.hunting else s.link

/-- A byte of the line is taken (R182, R184); the transmitter's own frame keeps the receiver from it. -/
def State.takeByte (s : State) (b : Byte) : State :=
  match s.link.transmitter with
  | .sending _ _ _ => s
  | .idle =>
    let l := s.beforeByte
    let s1 : State := { s with clock := s.byteEnd, link := { l with lineAt := s.byteEnd } }
    if l.atLastByte then s1.completeFrame b else s1.changeLink fun l => l.take b

/-- BYTE_TAKEN. -/
def execByteTaken (b : Byte) (s : State) : Host.Outcome State Fault Refusal :=
  .next (s.whileRunning fun s => s.takeByte b)

/-- FRAME_RECEIVED: a byte taken where the second CRC byte of a frame stands next. -/
def execFrameReceived (crcLow : Byte) (s : State) : Host.Outcome State Fault Refusal :=
  .next (s.whileRunning fun s => if s.beforeByte.atLastByte then s.takeByte crcLow else s)

/-- FRAME_LENGTH_ABORT: a byte above 240 taken where a length byte stands next (R186). -/
def execFrameLengthAbort (length : Byte) (s : State) : Host.Outcome State Fault Refusal :=
  .next (s.whileRunning fun s =>
    if s.beforeByte.atLength ∧ Config.maxBody < length.toNat then s.takeByte length else s)

/-- More than 1 ms has passed since the last byte of a frame in reception (R185). -/
def State.gapTimeout (s : State) : State :=
  if s.link.receiver = .hunt then s
  else (s.reach (s.link.lineAt + 1001)).changeLink LinkState.hunting

/-- INTER_BYTE_GAP_TIMEOUT. -/
def execInterByteGapTimeout (s : State) : Host.Outcome State Fault Refusal :=
  .next (s.whileRunning State.gapTimeout)

/-! ## Unknown kinds (R190, R201) -/

/-- The kinds of requests (R201). -/
def requestKinds : List Byte :=
  [0x01, 0x10, 0x11, 0x12, 0x13, 0x14, 0x15, 0x16, 0x18, 0x19, 0x1A, 0x20, 0x21, 0x28, 0x29, 0x30] ++
    [0x31, 0x32, 0x38, 0x39, 0x40, 0x41, 0x42, 0x43, 0x44, 0x45, 0x46, 0x50, 0x51, 0x52, 0x53, 0x54, 0x55]

/-- The handler takes a request of a kind that is not listed, and refuses it (R190). To a kind of 0x70 to 0x7F the reply
has a kind of 0xF0 to 0xFF, as R191 gives it, though R183 and R201 keep that range for the notices: the model's choice
(log entry 29). -/
def State.refuseKind (s : State) : State :=
  match s.frontRequest with
  | none => s
  | some r =>
    if r.kind ∈ requestKinds then s else s.popRequest.queueReply r (Answer.plain .unknownKind) false

/-- UNKNOWN_KIND. -/
def execUnknownKind (s : State) : Host.Outcome State Fault Refusal := .next (s.whileRunning State.refuseKind)

/-! ## The transmitter (R194 to R196) -/

/-- The body of a notice, with the condition sets read now (R167, R201, R206). -/
def State.noticeBody (s : State) : Notice → List Byte
  | .condition risen fallen =>
    encodeSet risen ++ encodeSet fallen ++ encodeSet s.presentSet ++ encodeSet s.latchedSet
  | .channel c before event status => [u8 c.val, u8 before.code, u8 event.code] ++ status.encode
  | .position cause sec index correction p =>
    [u8 cause.code, u8 sec, u8 index] ++ beS 4 correction ++ p.encode

/-- The kind of a notice (R201). -/
def Notice.kind : Notice → Byte
  | .condition _ _ => 0xF0
  | .channel _ _ _ _ => 0xF1
  | .position _ _ _ _ _ => 0xF2

/-- The frame of a notice begun now: its tag is the notice sequence (R196). -/
def State.noticeFrame (s : State) (n : Notice) : Frame :=
  { kind := n.kind, tag := s.link.sequence, body := s.noticeBody n }

/-- The transmitter begins a frame now (R182, R183). -/
def State.sending (s : State) (f : Frame) (final : Bool) : Transmitter := .sending f final (s.clock + f.duration)

/-- The arbiter begins a frame (R196): with the transmitter IDLE and the receiver in HUNT, the oldest reply, else
the first notice. -/
def State.beginFrame (s : State) : State :=
  if s.link.transmitter = .idle ∧ s.link.receiver = .hunt then
    match s.link.replies, s.link.notices with
    | r :: rest, _ => s.changeLink fun l => { l with replies := rest, transmitter := s.sending r.frame r.final }
    | [], n :: rest =>
      s.changeLink fun l =>
        { l with notices := rest, sequence := l.sequence + 1, transmitter := s.sending (s.noticeFrame n) false }
    | [], [] => s
  else s

/-- TRANSMIT_BEGIN. -/
def execTransmitBegin (s : State) : Host.Outcome State Fault Refusal := .next (s.whileRunning State.beginFrame)

/-- The last byte of the frame in transmission leaves the part (R182, R196); that of the SYS.RESTART reply
brings the restart into effect in the same act (R198). -/
def State.endFrame (s : State) : State :=
  match s.link.transmitter with
  | .idle => s
  | .sending _ final endsAt =>
    let s1 := s.reach endsAt
    if final then s1.resetBlocks
    else s1.changeLink fun l => { l.hunting with transmitter := .idle, lineAt := s1.clock }

/-- FRAME_SENT. -/
def execFrameSent (s : State) : Host.Outcome State Fault Refusal := .next (s.whileRunning State.endFrame)

/-! ## SYS.RESTART (R197, R198) -/

/-- SYS.RESTART: the reply is queued as the last one, and restart becomes pending. -/
def ownSysRestart (r : Frame) (s : State) : State :=
  (s.queueReply r (Answer.plain .ok) true).changeLink fun l => { l with restartPending := true }

/-- SYS_RESTART. -/
def execSysRestart (s : State) : Host.Outcome State Fault Refusal :=
  .next (s.serve 0x01 anyBody (lengthIs 0) ownSysRestart)

/-- The last byte of the SYS.RESTART reply leaves the part: the restart takes effect (R198). -/
def State.restart (s : State) : State :=
  match s.link.transmitter with
  | .sending _ true endsAt => (s.reach endsAt).resetBlocks
  | .sending _ false _ => s
  | .idle => s

/-- RESTART_TAKES_EFFECT. -/
def execRestartTakesEffect (s : State) : Host.Outcome State Fault Refusal := .next (s.whileRunning State.restart)

end Sys2Proof.Machine
end

