-- ==== Sys2Proof/Machine/Supply.lean ====
section
/-!
DEFINITION. Start-up and the loss of the supply (section 11.1).
-/

namespace Sys2Proof.Machine

/-- The supply enters its operating range (R207): start-up begins, and lasts 5 ms. -/
def State.beginStartUp (s : State) : State :=
  match s.power with
  | .off => { s with power := .starting (s.clock + 5000) }
  | .starting _ => s
  | .running => s

/-- START_UP_BEGIN. -/
def execStartUpBegin (s : State) : Host.Outcome State Fault Refusal := .next s.beginStartUp

/-- The end of start-up (R207): every block takes its power-on values, the vehicle record is absent (R27), and the
levels of the inputs are acted on, in one act. -/
def State.endStartUp (s : State) : State :=
  match s.power with
  | .starting endsAt => { s.reach endsAt with power := .running, vehicle := none }.resetBlocks
  | .off => s
  | .running => s

/-- START_UP_END. -/
def execStartUpEnd (s : State) : Host.Outcome State Fault Refusal := .next s.endStartUp

/-- The supply leaves its operating range (R208): the part stops and its state is lost. What stands in the lost
state is not observable; the model puts its power-on values there (log entry 11). -/
def State.loseSupply (s : State) : State :=
  match s.power with
  | .off => s
  | .starting _ | .running =>
    { s with
      power := .off, vehicle := none, store := Store.initial, tracker := Tracker.initial s.clock false, path := [],
      acquisition := Acquisition.initial, computation := Computation.initial,
      channels := Channels.initial s.clock, monitor := Monitor.initial s.clock, link := LinkState.initial s.clock }

/-- SUPPLY_LOSS. -/
def execSupplyLoss (s : State) : Host.Outcome State Fault Refusal := .next s.loseSupply

end Sys2Proof.Machine
end

