-- ==== Sys2Proof/Machine/Dispatch.lean ====
section
/-!
DEFINITION. One arm for each command: its meaning.
-/

namespace Sys2Proof.Machine

/-- The effect of a command on everything but the queue of waiting commands. -/
def exec (i : Instr) (s : State) : Host.Outcome State Fault Refusal :=
  match i with
  | .startUpBegin => Sys2Proof.Machine.execStartUpBegin s
  | .startUpEnd => Sys2Proof.Machine.execStartUpEnd s
  | .supplyLoss => Sys2Proof.Machine.execSupplyLoss s
  | .frameReceived crcLow => Sys2Proof.Machine.execFrameReceived crcLow s
  | .frameLengthAbort length => Sys2Proof.Machine.execFrameLengthAbort length s
  | .interByteGapTimeout => Sys2Proof.Machine.execInterByteGapTimeout s
  | .unknownKind => Sys2Proof.Machine.execUnknownKind s
  | .transmitBegin => Sys2Proof.Machine.execTransmitBegin s
  | .frameSent => Sys2Proof.Machine.execFrameSent s
  | .sysRestart => Sys2Proof.Machine.execSysRestart s
  | .restartTakesEffect => Sys2Proof.Machine.execRestartTakesEffect s
  | .secOpen => Sys2Proof.Machine.execSecOpen s
  | .secPut => Sys2Proof.Machine.execSecPut s
  | .secMark => Sys2Proof.Machine.execSecMark s
  | .secClose => Sys2Proof.Machine.execSecClose s
  | .closeCheckComplete => Sys2Proof.Machine.execCloseCheckComplete s
  | .secJoin => Sys2Proof.Machine.execSecJoin s
  | .secJoinNone => Sys2Proof.Machine.execSecJoinNone s
  | .secDrop => Sys2Proof.Machine.execSecDrop s
  | .secGet => Sys2Proof.Machine.execSecGet s
  | .ptsDefine => Sys2Proof.Machine.execPtsDefine s
  | .ptsRemove => Sys2Proof.Machine.execPtsRemove s
  | .ptsSet => Sys2Proof.Machine.execPtsSet s
  | .pointsChange => Sys2Proof.Machine.execPointsChange s
  | .vehSet => Sys2Proof.Machine.execVehSet s
  | .vehGet => Sys2Proof.Machine.execVehGet s
  | .lawSet => Sys2Proof.Machine.execLawSet s
  | .lawGet => Sys2Proof.Machine.execLawGet s
  | .stgSet => Sys2Proof.Machine.execStgSet s
  | .stgGet => Sys2Proof.Machine.execStgGet s
  | .perSet => Sys2Proof.Machine.execPerSet s
  | .posLocate => Sys2Proof.Machine.execPosLocate s
  | .posGet => Sys2Proof.Machine.execPosGet s
  | .permitSetOn => Sys2Proof.Machine.execPermitSetOn s
  | .permitSetOff => Sys2Proof.Machine.execPermitSetOff s
  | .chUnlock => Sys2Proof.Machine.execChUnlock s
  | .chHold => Sys2Proof.Machine.execChHold s
  | .chResume => Sys2Proof.Machine.execChResume s
  | .chReturn => Sys2Proof.Machine.execChReturn s
  | .chClear => Sys2Proof.Machine.execChClear s
  | .chGet => Sys2Proof.Machine.execChGet s
  | .cndGet => Sys2Proof.Machine.execCndGet s
  | .cndEnable => Sys2Proof.Machine.execCndEnable s
  | .cndCriteria => Sys2Proof.Machine.execCndCriteria s
  | .cntSnap => Sys2Proof.Machine.execCntSnap s
  | .cntModeAuto => Sys2Proof.Machine.execCntModeAuto s
  | .cntModeManual => Sys2Proof.Machine.execCntModeManual s
  | .cntGet => Sys2Proof.Machine.execCntGet s
  | .wheelCount wheel edge secondHigh => Sys2Proof.Machine.execWheelCount wheel edge secondHigh s
  | .tick => Sys2Proof.Machine.execTick s
  | .markerDetection => Sys2Proof.Machine.execMarkerDetection s
  | .markerDebounceRelease => Sys2Proof.Machine.execMarkerDebounceRelease s
  | .markerResolve => Sys2Proof.Machine.execMarkerResolve s
  | .periodTimerExpiry bogie => Sys2Proof.Machine.execPeriodTimerExpiry bogie s
  | .stageConversionComplete raw => Sys2Proof.Machine.execStageConversionComplete raw s
  | .passComplete => Sys2Proof.Machine.execPassComplete s
  | .lockTimerExpiry channel => Sys2Proof.Machine.execLockTimerExpiry channel s
  | .lockEngagedChange channel engaged => Sys2Proof.Machine.execLockEngagedChange channel engaged s
  | .driveFaultChange channel fault ready => Sys2Proof.Machine.execDriveFaultChange channel fault ready s
  | .snapshotTimerExpiry => Sys2Proof.Machine.execSnapshotTimerExpiry s
  | .byteTaken value => Sys2Proof.Machine.execByteTaken value s
  | .markerInputChange active => Sys2Proof.Machine.execMarkerInputChange active s

end Sys2Proof.Machine
end

