-- ==== Sys2Proof/Safety.lean ====
section
/-!
DEFINITION. The terms the statements use: when a request can be taken and how it is answered, the invariants that
every step keeps, and the mirror of a pass (R134).
-/

namespace Sys2Proof.Machine

/-! ## Requests and replies -/

/-- The request rows of the table, each with the kind of its requests (R201). -/
def requestRows : List (Instr × Byte) :=
  [(.sysRestart, 0x01), (.secOpen, 0x10), (.secPut, 0x11), (.secMark, 0x12), (.secClose, 0x13), (.secJoin, 0x14),
   (.secJoinNone, 0x14), (.secDrop, 0x15), (.secGet, 0x16), (.ptsDefine, 0x18), (.ptsRemove, 0x19)] ++
  [(.ptsSet, 0x1A), (.vehSet, 0x20), (.vehGet, 0x21), (.lawSet, 0x28), (.lawGet, 0x29), (.stgSet, 0x30),
   (.stgGet, 0x31), (.perSet, 0x32), (.posLocate, 0x38), (.posGet, 0x39), (.permitSetOn, 0x40)] ++
  [(.permitSetOff, 0x40), (.chUnlock, 0x41), (.chHold, 0x42), (.chResume, 0x43), (.chReturn, 0x44),
   (.chClear, 0x45), (.chGet, 0x46), (.cndGet, 0x50), (.cndEnable, 0x51), (.cndCriteria, 0x52)] ++
  [(.cntSnap, 0x53), (.cntModeAuto, 0x54), (.cntModeManual, 0x54), (.cntGet, 0x55)]

/-- Whether a body of `n` bytes fits a request kind, as the table of R201 and the field ends of R204 and R205 give
it. -/
def lengthFits (kind : Byte) (n : Nat) : Bool :=
  if kind = 0x01 ∨ kind = 0x21 ∨ kind = 0x39 ∨ kind = 0x50 ∨ kind = 0x53 ∨ kind = 0x55 then n = 0
  else if kind = 0x10 then n = 6
  else if kind = 0x11 then n ∈ (List.range 16).map fun k => 13 + 11 * k
  else if kind = 0x12 then n ∈ (List.range 9).map fun k => 1 + 5 * k
  else if kind = 0x14 ∨ kind = 0x38 then n = 5
  else if kind = 0x16 then n = 3
  else if kind = 0x18 then n = 7
  else if kind = 0x1A ∨ kind = 0x31 ∨ kind = 0x32 then n = 2
  else if kind = 0x20 then n ∈ [136, 138, 140, 142, 144, 146, 148, 149]
  else if kind = 0x28 then
    n ∈ [1, 3, 5, 9, 13, 15, 16, 17, 19, 21, 23, 25, 26, 27, 29, 31, 33, 34, 36, 38]
  else if kind = 0x30 then n = 16
  else if kind = 0x46 then n ≤ 1
  else if kind = 0x51 then n = 2 ∨ n = 3
  else if kind = 0x52 then n ≤ 5
  else n = 1

/-- The handler can take the given request now: the part runs, the handler is IDLE, no restart is pending, the reply
queue has room, and the request is the oldest of the receive queue (R189). -/
def State.canTake (s : State) (r : Frame) : Prop :=
  s.power = .running ∧ s.link.handler = .idle ∧ s.link.restartPending = false ∧ s.link.replies.length < 8 ∧
    s.link.requests.head? = some r

/-- The reply to a request (R191), with the summary byte of the given state. -/
def replyOf (r : Frame) (st : Status) (summary : Byte) (fields : List Byte) : Reply :=
  { frame := { kind := r.kind + 0x80, tag := r.tag, body := u8 st.code :: summary :: fields }, final := false }

/-- From `s` to `t` a request has been taken and its reply queued last; nothing else of the link has changed but the
notices (R188, R191). -/
def State.answered (s t : State) (r : Frame) (st : Status) (fields : List Byte) : Prop :=
  t.link = { s.link with requests := s.link.requests.tail,
                         replies := s.link.replies ++ [replyOf r st t.summary fields],
                         notices := t.link.notices }

/-- The same with the notices unchanged too. -/
def State.answeredOnly (s t : State) (r : Frame) (st : Status) (fields : List Byte) : Prop :=
  s.answered t r st fields ∧ t.link.notices = s.link.notices

/-- From `s` to `t` a request has been taken and answered, and nothing else has changed: a refusal, or a reading (R2,
R191, R193). -/
def State.onlyAnswers (s t : State) (r : Frame) (st : Status) (fields : List Byte) : Prop :=
  t = { s with link := { s.link with requests := s.link.requests.tail,
                                     replies := s.link.replies ++ [replyOf r st s.summary fields] } }

/-- From `s` to `t` one event has been counted under a counter, which stays at 65,535 once there (R173). -/
def State.counted (s t : State) (k : Fin 52) : Prop :=
  ∀ j : Fin 52, t.monitor.live.counts[j] =
    if j = k ∧ s.monitor.live.counts[j] < 65535 then s.monitor.live.counts[j] + 1 else s.monitor.live.counts[j]

/-! ## Resets -/

/-- A channel right after a reset, with the levels of its lines acted on in the same act: a true drive fault takes it
to FAULT, else a true lock engaged to LOCKED, else it stands in LOCKING with 800 ms on its lock timer (R142, R144,
R145). -/
def resetChannel (at_ : Nat) (l : DriveLines) : Channel :=
  { state := if l.driveFault then .fault else if l.lockEngaged then .locked else .locking
    cause := if l.driveFault then .drive else .none
    lockTimer := if l.driveFault || l.lockEngaged then none else some (at_ + 800000)
    demand := 0, measured := 0, measuredValid := false, trackingError := none, trackingRun := 0,
    strokeInvalidRun := 0, entered := false }

/-- The notice that a channel's line calls for at a reset (R144, R145, R160, R207). -/
def resetNotice (t : State) (c : Fin 8) : Option Notice :=
  if t.lines.drive[c].driveFault then some (.channel c .locking .fault (t.channelStatus c))
  else if t.lines.drive[c].lockEngaged then some (.channel c .locking .lockEngaged (t.channelStatus c))
  else none

/-- The condition record of an instance right after a reset: UNLOCATED, and CHANNEL_FAULT of a channel whose drive
fault is true, are present and latched; every notice mode is OFF (R164). -/
def resetCondition (t : State) (i : Fin 48) : ConditionRecord :=
  let on := decide (i = ofVehicle .unlocated) ||
    allChannels.any fun c => decide (i = ofChannel .channelFault c) && t.lines.drive[c].driveFault
  { present := on, latched := on, mode := .off }

/-- `t` stands as a reset at the present moment leaves every block but the vehicle record (R1, R9, R40, R68, R92,
R93, R100, R101, R104, R105, R109, R110, R114, R139, R142, R164, R171, R173, R176, R177, R181, R198, R207). -/
structure ResetState (t : State) : Prop where
  power : t.power = .running
  store : t.store = Store.initial
  path : t.path = []
  tracker : t.tracker = Tracker.initial t.clock t.lines.marker
  acquisition : t.acquisition = Acquisition.initial
  computation : t.computation = Computation.initial
  permit : t.channels.permit = false
  bank : ∀ c : Fin 8, t.channels.bank[c] = resetChannel t.clock t.lines.drive[c]
  conditions : ∀ i : Fin 48, t.monitor.conditions[i] = resetCondition t i
  monitor : t.monitor = { Monitor.initial t.clock with conditions := t.monitor.conditions }
  link : t.link = { LinkState.initial t.clock with notices := allChannels.filterMap (resetNotice t) }

/-! ## The invariants -/

/-- The pool slots that the elements of the sections take (R3). -/
def Store.slotsUsed (g : Store) : Nat := ((List.finRange 32).map fun i => g.sections[i].elements.length).sum

/-- The member end of a points record by its role (R9). -/
def PointsRecord.member (p : PointsRecord) : PointsRole → EndRef
  | .toe => p.toe
  | .left => p.left
  | .right => p.right

/-- The roles of the member ends. -/
def allRoles : List PointsRole := [.toe, .left, .right]

/-- The geometry store as R1, R3, R7 and R8 have it: each of the 1,024 slots is free or taken by one element, a FREE
section holds nothing, no end links to itself, a SECTION link and its partner name each other, and POINTS links and
points records name each other. -/
structure StoreSound (g : Store) : Prop where
  pool : g.freePool + g.slotsUsed = 1024
  free : ∀ i : Fin 32, g.sections[i].state = .free →
    g.sections[i].elements = [] ∧ g.sections[i].markers = [] ∧ g.sections[i].low = .none ∧
      g.sections[i].high = .none
  noSelf : ∀ a : EndRef, g.linkOf a ≠ .sec a.sec a.side
  links : ∀ (a b : EndRef), g.linkOf a = .sec b.sec b.side → g.linkOf b = .sec a.sec a.side
  members : ∀ (a : EndRef) (id : Fin 16) (role : PointsRole),
    g.linkOf a = .points id role ↔ ∃ p, g.points[id] = some p ∧ p.member role = a

/-- A section that a READY section must look like (R17): 1 to 128 elements whose starts begin at 0, each at least
100 mm long up to the next start or the section length. -/
structure ReadySection (r : SectionRecord) : Prop where
  count : 1 ≤ r.elements.length ∧ r.elements.length ≤ 128
  first : ∀ e, r.elements.head? = some e → e.start = 0
  lengths : ∀ (j : Nat) (h : j + 1 < r.elements.length), r.elements[j].start + 100 ≤ r.elements[j + 1].start
  last : ∀ e, r.elements.getLast? = some e → e.start + 100 ≤ r.length

/-- Every READY section as R17 has it, with the bound of every element list (R1). -/
structure ReadySound (g : Store) : Prop where
  elements : ∀ i : Fin 32, g.sections[i].elements.length ≤ 128
  ready : ∀ i : Fin 32, g.sections[i].state = .ready → ReadySection g.sections[i]

/-- The path as R68 and R69 have it: at most 16 entries, each naming a READY section, each section's occupancy count
the number of entries that name it, the B-most entry bare, and marks only on entries with a POINTS entry via; and the
section of a running close check CHECKING (R15). -/
structure PathSound (s : State) : Prop where
  length : s.path.length ≤ 16
  ready : ∀ e ∈ s.path, s.store.sections[e.sec].state = .ready
  marks : ∀ e ∈ s.path, e.moved = true → ∃ id b, e.via = some (.points id b)
  closing : ∀ tag i endsAt, s.link.handler = .closing tag i endsAt → s.store.sections[i].state = .checking
  occupancy : ∀ i : Fin 32, s.store.sections[i].occupancy = s.path.countP fun e => e.sec = i
  head : ∀ e, s.path.head? = some e → e.via = none ∧ e.moved = false

/-- The channels as R139, R141, R143 to R146, R155 and R161 have them. -/
structure ChannelsSound (s : State) : Prop where
  cause : ∀ c : Fin 8, s.channels.bank[c].cause = .none ↔ s.channels.bank[c].state ≠ .fault
  timer : ∀ c : Fin 8, s.channels.bank[c].lockTimer.isSome = true ↔
    s.channels.bank[c].state = .locking ∨ s.channels.bank[c].state = .unlocking
  demand : ∀ c : Fin 8, s.channels.bank[c].demand ≠ 0 →
    s.channels.bank[c].state = .steering ∨ s.channels.bank[c].state = .holding ∨
      s.channels.bank[c].state = .returning
  permit : s.channels.permit = false → ∀ c : Fin 8, s.channels.bank[c].state ≠ .unlocking ∧
    s.channels.bank[c].state ≠ .steering ∧ s.channels.bank[c].state ≠ .holding
  fault : ∀ c : Fin 8, s.present (ofChannel .channelFault c) = true ↔ s.channels.bank[c].state = .fault
  tracking : ∀ c : Fin 8, s.channels.bank[c].state = .fault → s.present (ofChannel .trackingError c) = false
  runs : ∀ c : Fin 8, s.channels.bank[c].trackingRun ≤ 255 ∧ s.channels.bank[c].strokeInvalidRun ≤ 255

/-- While the part runs, no channel stands in a state that the level of one of its lines moves it out of (R144,
R145). -/
def LevelsTaken (s : State) : Prop :=
  s.power = .running → ∀ c : Fin 8,
    match s.channels.bank[c].state with
    | .locking => s.lines.drive[c].lockEngaged = false ∧ s.lines.drive[c].driveFault = false
    | .locked => s.lines.drive[c].lockEngaged = true
    | .unlocking => s.lines.drive[c].lockEngaged = true ∧ s.lines.drive[c].driveFault = false
    | .steering | .holding | .returning => s.lines.drive[c].driveFault = false
    | .fault => True

/-- The demands as R36 and R141 bound them: each within ±stroke_max of the vehicle record; the result that a channel can
still take from a pass in flight clamped to the same stroke_max or a lesser one (R116, R131); and a channel of a bogie
outside the record in LOCKING, LOCKED or FAULT. -/
structure DemandsBounded (s : State) : Prop where
  demand : ∀ c : Fin 8, s.channels.bank[c].demand.natAbs ≤ s.vehicleView.channels[c].strokeMax
  inFlight : ∀ (p : Pass) (c : Fin 8) (l : LaneRead), s.computation.pass = some p →
    (c = channelA p.sample.bogie ∧ l = p.laneA ∨ c = channelB p.sample.bogie ∧ l = p.laneB) →
    (l.start = .steering ∨ l.start = .returning) → s.channels.bank[c].state = l.start →
    s.channels.bank[c].entered = false → l.fields.strokeMax ≤ s.vehicleView.channels[c].strokeMax
  outside : ∀ c : Fin 8, s.vehicleView.bogieCount ≤ (bogieOf c).val →
    s.channels.bank[c].state = .locking ∨ s.channels.bank[c].state = .locked ∨ s.channels.bank[c].state = .fault

/-- The monitor as R165, R173, R174 and R175 have it. -/
structure MonitorSound (m : Monitor) : Prop where
  latched : ∀ i : Fin 48, m.conditions[i].present = true → m.conditions[i].latched = true
  counts : ∀ k : Fin 52, m.live.counts[k] ≤ 65535
  peaks : ∀ k : Fin 16, m.live.peaks[k] ≤ 65535
  saturated : m.conditions[ofVehicle .counterSaturated].present = true ↔ ∃ k : Fin 52, m.live.counts[k] = 65535
  timer : m.timer.isSome = m.auto

/-- The link's queues as R188, R189, R194 and R195 have them: the bounds of the queues, room for the reply that a busy
handler owes, and never two waiting notices with the same kind and subject. -/
structure LinkSound (l : LinkState) : Prop where
  requests : l.requests.length ≤ 8
  replies : l.replies.length ≤ 8
  owed : l.handler ≠ .idle → l.replies.length < 8
  kinds : ∀ r ∈ l.requests, r.kind.toNat < 128
  subjects : l.notices.Pairwise fun a b => a.sameSubject b = false

/-- A notice `n` joins the notice queue (R195): in the place of the waiting notice of its kind and subject, every other
one staying where it stands, or last where none waits. An N.COND adds its sets to those it takes over (R166), and any other
notice carries its own contents. -/
def NoticeJoins (before : List Notice) (n : Notice) (after : List Notice) : Prop :=
  ((∀ m ∈ before, m.sameSubject n = false) → after = before ++ [n]) ∧
  ∀ front m rest, before = front ++ m :: rest → (∀ k ∈ front, k.sameSubject n = false) → m.sameSubject n = true →
    after = front ++ (match m, n with
      | .condition risen fallen, .condition risen' fallen' => .condition (risen ||| risen') (fallen ||| fallen')
      | _, _ => n) :: rest

/-- From the first queue to the second only notices have joined, one after the other (R195). -/
inductive NoticesJoin : List Notice → List Notice → Prop
  | none (q : List Notice) : NoticesJoin q q
  | next {q q' q'' : List Notice} (n : Notice) : NoticesJoin q q' → NoticeJoins q' n q'' → NoticesJoin q q''

/-- How many places hold a scan of a bogie: the converter queue, the converter, the pass queue (R102). -/
def State.outstanding (s : State) (b : Fin 4) : Nat :=
  (s.acquisition.queue.countP fun q => q.bogie = b) +
    (match s.acquisition.converter with
      | some c => if c.scan.bogie = b then 1 else 0
      | none => 0) +
    s.computation.queue.countP fun r => r.bogie = b

/-- The acquisition unit and the pass queue as R93, R100, R101, R102, R105 and R114 have them: a timer runs exactly
while its bogie is configured and complete, a role of a bogie is held by one stage, a bogie has at most one scan
outstanding, and neither the converter nor the computation unit is idle while something waits for it. -/
structure ScansSound (s : State) : Prop where
  timers : ∀ b : Fin 4, s.acquisition.timers[b].isSome = s.schedulable b
  periods : ∀ b : Fin 4, 2 ≤ s.acquisition.periods[b] ∧ s.acquisition.periods[b] ≤ 50
  roles : ∀ i j : Fin 32, s.acquisition.stages[i].owner.isSome = true →
    s.acquisition.stages[i].owner = s.acquisition.stages[j].owner →
    s.acquisition.stages[i].role = s.acquisition.stages[j].role → i = j
  outstanding : ∀ b : Fin 4, s.outstanding b ≤ 1
  record : ∀ c, s.acquisition.converter = some c → c.record.bogie = c.scan.bogie
  converter : s.acquisition.converter = none → s.acquisition.queue = []
  pass : s.computation.pass = none → s.computation.queue = []

/-- The tracker as R40, R51, R54 and R55 have it: UNLOCATED exactly while it holds no datum, and then the path is
empty, U the greatest and C 0; C at most 256; the published state that of the tracker; and UNLOCATED and
POSITION_DEGRADED present with the states they name. -/
structure TrackerSound (s : State) : Prop where
  datum : s.tracker.state = .unlocated ↔ s.tracker.datum = none
  lost : s.tracker.datum = none → s.path = [] ∧ s.tracker.uncertainty = 65535000 ∧ s.tracker.confidence = 0
  confidence : s.tracker.confidence ≤ 256
  published : s.tracker.published.state = s.tracker.state
  unlocated : s.present (ofVehicle .unlocated) = true ↔ s.tracker.state = .unlocated
  degraded : s.present (ofVehicle .positionDegraded) = true ↔ s.tracker.state = .degraded

/-- The datum names an entry of the path (R68, R72). -/
def DatumOnPath (s : State) : Prop := ∀ l, s.tracker.datum = some l → l.entry < s.path.length

/-! ## Ranked values and the reads of a pass -/

/-- `m` is the middle of a list of numbers (R44, R45): of the list put in rising order, the middle one of an odd number of
them, and the rounded mean of the middle two of an even number. -/
def IsMiddle (m : Nat) (l : List Nat) : Prop :=
  ∀ r : List Nat, r.Perm l → r.Pairwise (fun a b => a ≤ b) →
    m = if l.length % 2 = 1 then r.getD (l.length / 2) 0
      else roundNat (r.getD (l.length / 2 - 1) 0 + r.getD (l.length / 2) 0) 2

/-- The location that an offset in mm from the published datum reaches over the path (R73, R119): none without a datum,
or where the walk leaves the path. -/
def State.sampleLocation (s : State) (offset : Int) : Option Location :=
  match s.tracker.published.datum with
  | none => none
  | some d => walk s.store s.path d.location (1000 * offset)

/-- κ_A at an offset (R75): the section's κ at the chainage rounded to the mm, negated in a DOWN entry. -/
def State.seenCurvature (s : State) (offset : Int) : Option Int :=
  match s.sampleLocation offset with
  | none => none
  | some l => match s.path[l.entry]? with
    | none => none
    | some e => match s.store.sections[e.sec].curvature (roundDiv l.chainage 1000).toNat with
      | none => none
      | some k => some (if e.orientation = .up then k else -k)

/-- The clearance at an offset (R75): that of the section at the chainage rounded to the mm. -/
def State.seenClearance (s : State) (offset : Int) : Option Nat :=
  match s.sampleLocation offset with
  | none => none
  | some l => match s.path[l.entry]? with
    | none => none
    | some e => s.store.sections[e.sec].clearanceAt (roundDiv l.chainage 1000).toNat

/-- What a pass that starts in `s` reads for the lane of a channel (R115, R118, R119, R123): the channel's state, its law
record and vehicle fields, the samples at the bogie centre and at the wheelset, each moved by the preview in the travel
direction, and the clearance at the wheelset with no preview. -/
structure LaneReads (s : State) (centre : Int) (c : Fin 8) (l : LaneRead) : Prop where
  start : l.start = s.channels.bank[c].state
  law : l.law = s.computation.laws[c]
  fields : l.fields = s.vehicleView.channels[c]
  samples : ∀ ahead : Int,
    ahead = s.tracker.published.sign.toInt * (min 3000 (roundNat (s.tracker.published.speed * l.law.previewTime) 1000) : Nat) →
    l.centreSample = s.seenCurvature (centre + ahead) ∧ l.wheelSample = s.seenCurvature (l.fields.offset + ahead)
  clearance : l.clearance = s.seenClearance l.fields.offset

/-- What a pass that starts in `s` reads (R115, R135), and how long it lasts (R138). -/
structure PassReads (s : State) (p : Pass) : Prop where
  position : p.position = s.tracker.published
  bogie : p.bogie = s.vehicleView.bogies[p.sample.bogie]
  criteria : p.criteria = s.monitor.criteria
  laneA : LaneReads s p.bogie.centre (channelA p.sample.bogie) p.laneA
  laneB : LaneReads s p.bogie.centre (channelB p.sample.bogie) p.laneB
  yawCentre : p.yawCentre = s.seenCurvature p.bogie.centre
  yawBody : p.yawBody = s.seenCurvature p.bogie.body
  duration : p.endsAt = s.clock + 10 +
    ([p.laneA.start, p.laneB.start].map fun st => if st = .steering then 12 else if st = .returning then 6 else 4).sum +
    (if p.sample.yaw = none then 0 else 6)

/-- What the completion of a pass holds for one lane (R107, R115, R116, R123 to R126): its channel `c`, its reads, its gaps
and stroke of the sample record, its channel's computation record before the pass and after stage 5, in which y in use
looks at the partner's health and gaps, and the result its channel takes. `d` is the partner's channel. -/
structure LaneEndHolds (s : State) (p : Pass) (e : LaneEnd) (c d : Fin 8) (own partner : LaneRead)
    (ownGaps partnerGaps : Gaps) (ownStroke : Sample) : Prop where
  channel : e.channel = c
  read : e.read = own
  gaps : e.gaps = ownGaps
  stroke : e.stroke = ownStroke
  before : e.before = s.computation.records[c]
  judged : e.judged =
    { s.computation.records[c].afterGaps own.law own.clearance ownGaps with
      inUse := yInUse (s.computation.records[c].afterGaps own.law own.clearance ownGaps) own.law ownGaps
        (s.computation.records[d].afterGaps partner.law partner.clearance partnerGaps).health partnerGaps }
  taken : e.taken =
    if (own.start = .steering ∨ own.start = .returning) ∧ s.channels.bank[c].state = own.start ∧
      s.channels.bank[c].entered = false then laneResult p own e.judged else none

/-! ## The published position -/

/-- The published position carries the values of the tracker as they stand (R55): its datum is the tracker's, with the
section and orientation of the entry of the path that it names, and none while the tracker has none. -/
structure PublishedAsTracked (t : State) : Prop where
  state : t.tracker.published.state = t.tracker.state
  datum : t.tracker.published.datum = match t.tracker.datum with
    | none => none
    | some l => match t.path[l.entry]? with
      | none => none
      | some e => some { location := l, sec := e.sec, orientation := e.orientation }
  speed : t.tracker.published.speed = t.tracker.speed
  sign : t.tracker.published.sign = t.tracker.sign
  standstill : t.tracker.published.standstill = t.tracker.standstill
  uncertainty : t.tracker.published.uncertainty = t.tracker.uncertainty
  confidence : t.tracker.published.confidence = t.tracker.confidence
  missCount : t.tracker.published.missCount = t.tracker.missCount
  validReferences : t.tracker.published.validReferences = t.tracker.validReferences

/-! ## Places on the path -/

/-- The distance of a chainage of an entry from the entry's B-side end, in µm (R72, R74): it rises with the chainage in an
UP entry and falls with it in a DOWN entry. -/
def fromBSide (g : Store) (e : PathEntry) (chainage : Int) : Int :=
  match e.orientation with
  | .up => chainage
  | .down => 1000 * (g.sections[e.sec].length : Int) - chainage

/-- The chainage of an entry's A-side end (R72). -/
def aSideEnd (g : Store) (e : PathEntry) : Int :=
  match e.orientation with
  | .up => 1000 * (g.sections[e.sec].length : Int)
  | .down => 0

/-- The chainage of an entry's B-side end (R72). -/
def bSideEnd (g : Store) (e : PathEntry) : Int :=
  match e.orientation with
  | .up => 0
  | .down => 1000 * (g.sections[e.sec].length : Int)

/-! ## Ranges -/

/-- Every field of a vehicle record fits its width (R204). -/
structure VehicleInWidths (v : VehicleRecord) : Prop where
  bogieCount : v.bogieCount < 256
  bogies : ∀ b : Fin 4, v.bogies[b].centre.natAbs < 32768 ∧ v.bogies[b].body.natAbs < 32768
  channels : ∀ c : Fin 8, v.channels[c].offset.natAbs < 32768 ∧ v.channels[c].lever < 65536 ∧
    v.channels[c].strokeMax < 65536
  wheels : ∀ w : Fin 16, v.wheels[w].diameter < 65536 ∧ v.wheels[w].teeth < 256
  references : v.references.length ≤ 4
  markerOffset : v.markerOffset.natAbs < 32768
  trust : v.drift < 65536 ∧ v.locateAccuracy < 65536 ∧ v.markerAccuracy < 65536 ∧ v.uFull < 65536 ∧
    v.uZero < 65536 ∧ v.uDegrade < 65536 ∧ v.slip < 256

/-- Every field of a published position fits its width (R206). -/
structure PublishedInWidths (p : Published) : Prop where
  datum : ∀ d, p.datum = some d → 0 ≤ roundDiv d.location.chainage 1000 ∧ roundDiv d.location.chainage 1000 < 16777216
  speed : p.speed < 65536
  uncertainty : roundNat p.uncertainty 1000 < 65536
  counts : p.confidence < 65536 ∧ p.missCount < 256 ∧ p.validReferences < 256

/-- The ranges of a law record (R110). -/
structure LawInRange (l : LawRecord) : Prop where
  previewTime : l.previewTime ≤ 500
  kp : l.kp ≤ 65535
  feedbackLimit : l.feedbackLimit ≤ 100000
  angleMax : 1000 ≤ l.angleMax ∧ l.angleMax ≤ 150000
  rate : 1 ≤ l.rate ∧ l.rate ≤ 500
  shifts : l.shiftNormal ≤ 7 ∧ l.shiftWidened ≤ l.shiftNormal
  gaps : l.proximityGap ≤ 3000 ∧ l.contactGap ≤ l.proximityGap
  sumTolerance : l.sumTolerance ≤ 1000
  feedbackMinSpeed : l.feedbackMinSpeed ≤ 25000
  decayStep : 1 ≤ l.decayStep ∧ l.decayStep ≤ 20000
  yawTolerance : 100 ≤ l.yawTolerance ∧ l.yawTolerance ≤ 50000
  trackingLimit : 10 ≤ l.trackingLimit ∧ l.trackingLimit ≤ 8000
  trackingPersistence : 1 ≤ l.trackingPersistence ∧ l.trackingPersistence ≤ 255
  centreTolerance : 1 ≤ l.centreTolerance ∧ l.centreTolerance ≤ 1000
  lockTime : 100 ≤ l.lockTime ∧ l.lockTime ≤ 3000

/-- Whether the field of an index lies in its range (R110), from the values of the fields by index. -/
def LawFieldInRange (f : Nat → Nat) : Nat → Prop
  | 1 => f 1 ≤ 500
  | 2 => f 2 ≤ 65535
  | 3 => f 3 ≤ 100000
  | 4 => 1000 ≤ f 4 ∧ f 4 ≤ 150000
  | 5 => 1 ≤ f 5 ∧ f 5 ≤ 500
  | 6 => f 6 ≤ 7
  | 7 => f 7 ≤ f 6
  | 8 => f 8 ≤ 3000
  | 9 => f 9 ≤ f 8
  | 10 => f 10 ≤ 1000
  | 11 => f 11 ≤ 25000
  | 12 => f 12 ≤ 2
  | 13 => f 13 ≤ 2
  | 14 => 1 ≤ f 14 ∧ f 14 ≤ 20000
  | 15 => 100 ≤ f 15 ∧ f 15 ≤ 50000
  | 16 => 10 ≤ f 16 ∧ f 16 ≤ 8000
  | 17 => 1 ≤ f 17 ∧ f 17 ≤ 255
  | 18 => 1 ≤ f 18 ∧ f 18 ≤ 1000
  | 19 => 100 ≤ f 19 ∧ f 19 ≤ 3000
  | _ => True

/-! ## The mirror of a pass (R134) -/

/-- A lane's reads with every curvature sample negated. -/
def LaneRead.mirror (l : LaneRead) : LaneRead :=
  { l with centreSample := l.centreSample.map (-·), wheelSample := l.wheelSample.map (-·) }

/-- A lane's left and right gaps exchanged. -/
def Gaps.exchange (g : Gaps) : Gaps := ⟨g.right, g.left⟩

/-- A sample record with the left and right gaps of each lane exchanged. -/
def SampleRecord.exchange (r : SampleRecord) : SampleRecord :=
  { r with gapLeftA := r.gapRightA, gapRightA := r.gapLeftA, gapLeftB := r.gapRightB, gapRightB := r.gapLeftB }

/-- A pass with every curvature sample negated and each lane's gaps exchanged. -/
def Pass.mirror (p : Pass) : Pass :=
  { p with sample := p.sample.exchange, laneA := p.laneA.mirror, laneB := p.laneB.mirror,
           yawCentre := p.yawCentre.map (-·), yawBody := p.yawBody.map (-·) }

/-- A computation record with its filter state, last output, held feedforward, last good y and y in use negated. -/
def ComputationRecord.mirror (r : ComputationRecord) : ComputationRecord :=
  { r with filter := -r.filter, output := -r.output, held := -r.held, lastGood := -r.lastGood, inUse := -r.inUse }

/-- A result with its angles and its stroke negated. -/
def LaneResult.mirror (x : LaneResult) : LaneResult :=
  { x with filter := -x.filter, output := -x.output, held := -x.held, stroke := -x.stroke }

end Sys2Proof.Machine
end

