-- ==== Sys2Proof/Laws/State.lean ====
section
/-!
SUPPORT. What each update of the state leaves alone: one lemma per field per update, each true by definition, and
what each update writes. No later proof unfolds a record update.
-/

namespace Sys2Proof.Machine

variable (s : State)

/-! ## State.reach -/

@[simp] theorem State.reach_power (t : Nat) : (s.reach t).power = s.power := rfl
@[simp] theorem State.reach_lines (t : Nat) : (s.reach t).lines = s.lines := rfl
@[simp] theorem State.reach_store (t : Nat) : (s.reach t).store = s.store := rfl
@[simp] theorem State.reach_vehicle (t : Nat) : (s.reach t).vehicle = s.vehicle := rfl
@[simp] theorem State.reach_tracker (t : Nat) : (s.reach t).tracker = s.tracker := rfl
@[simp] theorem State.reach_path (t : Nat) : (s.reach t).path = s.path := rfl
@[simp] theorem State.reach_acquisition (t : Nat) : (s.reach t).acquisition = s.acquisition := rfl
@[simp] theorem State.reach_computation (t : Nat) : (s.reach t).computation = s.computation := rfl
@[simp] theorem State.reach_channels (t : Nat) : (s.reach t).channels = s.channels := rfl
@[simp] theorem State.reach_monitor (t : Nat) : (s.reach t).monitor = s.monitor := rfl
@[simp] theorem State.reach_link (t : Nat) : (s.reach t).link = s.link := rfl
@[simp] theorem State.reach_pending (t : Nat) : (s.reach t).pending = s.pending := rfl

/-! ## State.notify -/

@[simp] theorem State.notify_power (n : Notice) : (s.notify n).power = s.power := rfl
@[simp] theorem State.notify_clock (n : Notice) : (s.notify n).clock = s.clock := rfl
@[simp] theorem State.notify_lines (n : Notice) : (s.notify n).lines = s.lines := rfl
@[simp] theorem State.notify_store (n : Notice) : (s.notify n).store = s.store := rfl
@[simp] theorem State.notify_vehicle (n : Notice) : (s.notify n).vehicle = s.vehicle := rfl
@[simp] theorem State.notify_tracker (n : Notice) : (s.notify n).tracker = s.tracker := rfl
@[simp] theorem State.notify_path (n : Notice) : (s.notify n).path = s.path := rfl
@[simp] theorem State.notify_acquisition (n : Notice) : (s.notify n).acquisition = s.acquisition := rfl
@[simp] theorem State.notify_computation (n : Notice) : (s.notify n).computation = s.computation := rfl
@[simp] theorem State.notify_channels (n : Notice) : (s.notify n).channels = s.channels := rfl
@[simp] theorem State.notify_monitor (n : Notice) : (s.notify n).monitor = s.monitor := rfl
@[simp] theorem State.notify_pending (n : Notice) : (s.notify n).pending = s.pending := rfl

/-! ## State.setCondition -/

@[simp] theorem State.setCondition_power (i : Fin 48) (r : ConditionRecord) : (s.setCondition i r).power = s.power := rfl
@[simp] theorem State.setCondition_clock (i : Fin 48) (r : ConditionRecord) : (s.setCondition i r).clock = s.clock := rfl
@[simp] theorem State.setCondition_lines (i : Fin 48) (r : ConditionRecord) : (s.setCondition i r).lines = s.lines := rfl
@[simp] theorem State.setCondition_store (i : Fin 48) (r : ConditionRecord) : (s.setCondition i r).store = s.store := rfl
@[simp] theorem State.setCondition_vehicle (i : Fin 48) (r : ConditionRecord) : (s.setCondition i r).vehicle = s.vehicle := rfl
@[simp] theorem State.setCondition_tracker (i : Fin 48) (r : ConditionRecord) : (s.setCondition i r).tracker = s.tracker := rfl
@[simp] theorem State.setCondition_path (i : Fin 48) (r : ConditionRecord) : (s.setCondition i r).path = s.path := rfl
@[simp] theorem State.setCondition_acquisition (i : Fin 48) (r : ConditionRecord) : (s.setCondition i r).acquisition = s.acquisition := rfl
@[simp] theorem State.setCondition_computation (i : Fin 48) (r : ConditionRecord) : (s.setCondition i r).computation = s.computation := rfl
@[simp] theorem State.setCondition_channels (i : Fin 48) (r : ConditionRecord) : (s.setCondition i r).channels = s.channels := rfl
@[simp] theorem State.setCondition_link (i : Fin 48) (r : ConditionRecord) : (s.setCondition i r).link = s.link := rfl
@[simp] theorem State.setCondition_pending (i : Fin 48) (r : ConditionRecord) : (s.setCondition i r).pending = s.pending := rfl

/-! ## State.setLive -/

@[simp] theorem State.setLive_power (l : CounterSet) : (s.setLive l).power = s.power := rfl
@[simp] theorem State.setLive_clock (l : CounterSet) : (s.setLive l).clock = s.clock := rfl
@[simp] theorem State.setLive_lines (l : CounterSet) : (s.setLive l).lines = s.lines := rfl
@[simp] theorem State.setLive_store (l : CounterSet) : (s.setLive l).store = s.store := rfl
@[simp] theorem State.setLive_vehicle (l : CounterSet) : (s.setLive l).vehicle = s.vehicle := rfl
@[simp] theorem State.setLive_tracker (l : CounterSet) : (s.setLive l).tracker = s.tracker := rfl
@[simp] theorem State.setLive_path (l : CounterSet) : (s.setLive l).path = s.path := rfl
@[simp] theorem State.setLive_acquisition (l : CounterSet) : (s.setLive l).acquisition = s.acquisition := rfl
@[simp] theorem State.setLive_computation (l : CounterSet) : (s.setLive l).computation = s.computation := rfl
@[simp] theorem State.setLive_channels (l : CounterSet) : (s.setLive l).channels = s.channels := rfl
@[simp] theorem State.setLive_link (l : CounterSet) : (s.setLive l).link = s.link := rfl
@[simp] theorem State.setLive_pending (l : CounterSet) : (s.setLive l).pending = s.pending := rfl

/-! ## State.queueReply -/

@[simp] theorem State.queueReply_power (r : Frame) (a : Answer) (b : Bool) : (s.queueReply r a b).power = s.power := rfl
@[simp] theorem State.queueReply_clock (r : Frame) (a : Answer) (b : Bool) : (s.queueReply r a b).clock = s.clock := rfl
@[simp] theorem State.queueReply_lines (r : Frame) (a : Answer) (b : Bool) : (s.queueReply r a b).lines = s.lines := rfl
@[simp] theorem State.queueReply_store (r : Frame) (a : Answer) (b : Bool) : (s.queueReply r a b).store = s.store := rfl
@[simp] theorem State.queueReply_vehicle (r : Frame) (a : Answer) (b : Bool) : (s.queueReply r a b).vehicle = s.vehicle := rfl
@[simp] theorem State.queueReply_tracker (r : Frame) (a : Answer) (b : Bool) : (s.queueReply r a b).tracker = s.tracker := rfl
@[simp] theorem State.queueReply_path (r : Frame) (a : Answer) (b : Bool) : (s.queueReply r a b).path = s.path := rfl
@[simp] theorem State.queueReply_acquisition (r : Frame) (a : Answer) (b : Bool) : (s.queueReply r a b).acquisition = s.acquisition := rfl
@[simp] theorem State.queueReply_computation (r : Frame) (a : Answer) (b : Bool) : (s.queueReply r a b).computation = s.computation := rfl
@[simp] theorem State.queueReply_channels (r : Frame) (a : Answer) (b : Bool) : (s.queueReply r a b).channels = s.channels := rfl
@[simp] theorem State.queueReply_monitor (r : Frame) (a : Answer) (b : Bool) : (s.queueReply r a b).monitor = s.monitor := rfl
@[simp] theorem State.queueReply_pending (r : Frame) (a : Answer) (b : Bool) : (s.queueReply r a b).pending = s.pending := rfl

/-! ## State.popRequest -/

@[simp] theorem State.popRequest_power : s.popRequest.power = s.power := rfl
@[simp] theorem State.popRequest_clock : s.popRequest.clock = s.clock := rfl
@[simp] theorem State.popRequest_lines : s.popRequest.lines = s.lines := rfl
@[simp] theorem State.popRequest_store : s.popRequest.store = s.store := rfl
@[simp] theorem State.popRequest_vehicle : s.popRequest.vehicle = s.vehicle := rfl
@[simp] theorem State.popRequest_tracker : s.popRequest.tracker = s.tracker := rfl
@[simp] theorem State.popRequest_path : s.popRequest.path = s.path := rfl
@[simp] theorem State.popRequest_acquisition : s.popRequest.acquisition = s.acquisition := rfl
@[simp] theorem State.popRequest_computation : s.popRequest.computation = s.computation := rfl
@[simp] theorem State.popRequest_channels : s.popRequest.channels = s.channels := rfl
@[simp] theorem State.popRequest_monitor : s.popRequest.monitor = s.monitor := rfl
@[simp] theorem State.popRequest_pending : s.popRequest.pending = s.pending := rfl

/-! ## State.setChannel -/

@[simp] theorem State.setChannel_power (c : Fin 8) (f : Channel → Channel) : (s.setChannel c f).power = s.power := rfl
@[simp] theorem State.setChannel_clock (c : Fin 8) (f : Channel → Channel) : (s.setChannel c f).clock = s.clock := rfl
@[simp] theorem State.setChannel_lines (c : Fin 8) (f : Channel → Channel) : (s.setChannel c f).lines = s.lines := rfl
@[simp] theorem State.setChannel_store (c : Fin 8) (f : Channel → Channel) : (s.setChannel c f).store = s.store := rfl
@[simp] theorem State.setChannel_vehicle (c : Fin 8) (f : Channel → Channel) : (s.setChannel c f).vehicle = s.vehicle := rfl
@[simp] theorem State.setChannel_tracker (c : Fin 8) (f : Channel → Channel) : (s.setChannel c f).tracker = s.tracker := rfl
@[simp] theorem State.setChannel_path (c : Fin 8) (f : Channel → Channel) : (s.setChannel c f).path = s.path := rfl
@[simp] theorem State.setChannel_acquisition (c : Fin 8) (f : Channel → Channel) : (s.setChannel c f).acquisition = s.acquisition := rfl
@[simp] theorem State.setChannel_computation (c : Fin 8) (f : Channel → Channel) : (s.setChannel c f).computation = s.computation := rfl
@[simp] theorem State.setChannel_monitor (c : Fin 8) (f : Channel → Channel) : (s.setChannel c f).monitor = s.monitor := rfl
@[simp] theorem State.setChannel_link (c : Fin 8) (f : Channel → Channel) : (s.setChannel c f).link = s.link := rfl
@[simp] theorem State.setChannel_pending (c : Fin 8) (f : Channel → Channel) : (s.setChannel c f).pending = s.pending := rfl

/-! ## State.setRecord -/

@[simp] theorem State.setRecord_power (c : Fin 8) (f : ComputationRecord → ComputationRecord) : (s.setRecord c f).power = s.power := rfl
@[simp] theorem State.setRecord_clock (c : Fin 8) (f : ComputationRecord → ComputationRecord) : (s.setRecord c f).clock = s.clock := rfl
@[simp] theorem State.setRecord_lines (c : Fin 8) (f : ComputationRecord → ComputationRecord) : (s.setRecord c f).lines = s.lines := rfl
@[simp] theorem State.setRecord_store (c : Fin 8) (f : ComputationRecord → ComputationRecord) : (s.setRecord c f).store = s.store := rfl
@[simp] theorem State.setRecord_vehicle (c : Fin 8) (f : ComputationRecord → ComputationRecord) : (s.setRecord c f).vehicle = s.vehicle := rfl
@[simp] theorem State.setRecord_tracker (c : Fin 8) (f : ComputationRecord → ComputationRecord) : (s.setRecord c f).tracker = s.tracker := rfl
@[simp] theorem State.setRecord_path (c : Fin 8) (f : ComputationRecord → ComputationRecord) : (s.setRecord c f).path = s.path := rfl
@[simp] theorem State.setRecord_acquisition (c : Fin 8) (f : ComputationRecord → ComputationRecord) : (s.setRecord c f).acquisition = s.acquisition := rfl
@[simp] theorem State.setRecord_channels (c : Fin 8) (f : ComputationRecord → ComputationRecord) : (s.setRecord c f).channels = s.channels := rfl
@[simp] theorem State.setRecord_monitor (c : Fin 8) (f : ComputationRecord → ComputationRecord) : (s.setRecord c f).monitor = s.monitor := rfl
@[simp] theorem State.setRecord_link (c : Fin 8) (f : ComputationRecord → ComputationRecord) : (s.setRecord c f).link = s.link := rfl
@[simp] theorem State.setRecord_pending (c : Fin 8) (f : ComputationRecord → ComputationRecord) : (s.setRecord c f).pending = s.pending := rfl

/-! ## State.notifyChannel -/

@[simp] theorem State.notifyChannel_power (c : Fin 8) (b : ChannelState) (e : ChannelEvent) : (s.notifyChannel c b e).power = s.power := rfl
@[simp] theorem State.notifyChannel_clock (c : Fin 8) (b : ChannelState) (e : ChannelEvent) : (s.notifyChannel c b e).clock = s.clock := rfl
@[simp] theorem State.notifyChannel_lines (c : Fin 8) (b : ChannelState) (e : ChannelEvent) : (s.notifyChannel c b e).lines = s.lines := rfl
@[simp] theorem State.notifyChannel_store (c : Fin 8) (b : ChannelState) (e : ChannelEvent) : (s.notifyChannel c b e).store = s.store := rfl
@[simp] theorem State.notifyChannel_vehicle (c : Fin 8) (b : ChannelState) (e : ChannelEvent) : (s.notifyChannel c b e).vehicle = s.vehicle := rfl
@[simp] theorem State.notifyChannel_tracker (c : Fin 8) (b : ChannelState) (e : ChannelEvent) : (s.notifyChannel c b e).tracker = s.tracker := rfl
@[simp] theorem State.notifyChannel_path (c : Fin 8) (b : ChannelState) (e : ChannelEvent) : (s.notifyChannel c b e).path = s.path := rfl
@[simp] theorem State.notifyChannel_acquisition (c : Fin 8) (b : ChannelState) (e : ChannelEvent) : (s.notifyChannel c b e).acquisition = s.acquisition := rfl
@[simp] theorem State.notifyChannel_computation (c : Fin 8) (b : ChannelState) (e : ChannelEvent) : (s.notifyChannel c b e).computation = s.computation := rfl
@[simp] theorem State.notifyChannel_channels (c : Fin 8) (b : ChannelState) (e : ChannelEvent) : (s.notifyChannel c b e).channels = s.channels := rfl
@[simp] theorem State.notifyChannel_monitor (c : Fin 8) (b : ChannelState) (e : ChannelEvent) : (s.notifyChannel c b e).monitor = s.monitor := rfl
@[simp] theorem State.notifyChannel_pending (c : Fin 8) (b : ChannelState) (e : ChannelEvent) : (s.notifyChannel c b e).pending = s.pending := rfl

/-! ## State.setSection -/

@[simp] theorem State.setSection_power (i : Fin 32) (f : SectionRecord → SectionRecord) : (s.setSection i f).power = s.power := rfl
@[simp] theorem State.setSection_clock (i : Fin 32) (f : SectionRecord → SectionRecord) : (s.setSection i f).clock = s.clock := rfl
@[simp] theorem State.setSection_lines (i : Fin 32) (f : SectionRecord → SectionRecord) : (s.setSection i f).lines = s.lines := rfl
@[simp] theorem State.setSection_vehicle (i : Fin 32) (f : SectionRecord → SectionRecord) : (s.setSection i f).vehicle = s.vehicle := rfl
@[simp] theorem State.setSection_tracker (i : Fin 32) (f : SectionRecord → SectionRecord) : (s.setSection i f).tracker = s.tracker := rfl
@[simp] theorem State.setSection_path (i : Fin 32) (f : SectionRecord → SectionRecord) : (s.setSection i f).path = s.path := rfl
@[simp] theorem State.setSection_acquisition (i : Fin 32) (f : SectionRecord → SectionRecord) : (s.setSection i f).acquisition = s.acquisition := rfl
@[simp] theorem State.setSection_computation (i : Fin 32) (f : SectionRecord → SectionRecord) : (s.setSection i f).computation = s.computation := rfl
@[simp] theorem State.setSection_channels (i : Fin 32) (f : SectionRecord → SectionRecord) : (s.setSection i f).channels = s.channels := rfl
@[simp] theorem State.setSection_monitor (i : Fin 32) (f : SectionRecord → SectionRecord) : (s.setSection i f).monitor = s.monitor := rfl
@[simp] theorem State.setSection_link (i : Fin 32) (f : SectionRecord → SectionRecord) : (s.setSection i f).link = s.link := rfl
@[simp] theorem State.setSection_pending (i : Fin 32) (f : SectionRecord → SectionRecord) : (s.setSection i f).pending = s.pending := rfl

/-! ## State.setPool -/

@[simp] theorem State.setPool_power (n : Nat) : (s.setPool n).power = s.power := rfl
@[simp] theorem State.setPool_clock (n : Nat) : (s.setPool n).clock = s.clock := rfl
@[simp] theorem State.setPool_lines (n : Nat) : (s.setPool n).lines = s.lines := rfl
@[simp] theorem State.setPool_vehicle (n : Nat) : (s.setPool n).vehicle = s.vehicle := rfl
@[simp] theorem State.setPool_tracker (n : Nat) : (s.setPool n).tracker = s.tracker := rfl
@[simp] theorem State.setPool_path (n : Nat) : (s.setPool n).path = s.path := rfl
@[simp] theorem State.setPool_acquisition (n : Nat) : (s.setPool n).acquisition = s.acquisition := rfl
@[simp] theorem State.setPool_computation (n : Nat) : (s.setPool n).computation = s.computation := rfl
@[simp] theorem State.setPool_channels (n : Nat) : (s.setPool n).channels = s.channels := rfl
@[simp] theorem State.setPool_monitor (n : Nat) : (s.setPool n).monitor = s.monitor := rfl
@[simp] theorem State.setPool_link (n : Nat) : (s.setPool n).link = s.link := rfl
@[simp] theorem State.setPool_pending (n : Nat) : (s.setPool n).pending = s.pending := rfl

/-! ## State.setPoints -/

@[simp] theorem State.setPoints_power (i : Fin 16) (p : Option PointsRecord) : (s.setPoints i p).power = s.power := rfl
@[simp] theorem State.setPoints_clock (i : Fin 16) (p : Option PointsRecord) : (s.setPoints i p).clock = s.clock := rfl
@[simp] theorem State.setPoints_lines (i : Fin 16) (p : Option PointsRecord) : (s.setPoints i p).lines = s.lines := rfl
@[simp] theorem State.setPoints_vehicle (i : Fin 16) (p : Option PointsRecord) : (s.setPoints i p).vehicle = s.vehicle := rfl
@[simp] theorem State.setPoints_tracker (i : Fin 16) (p : Option PointsRecord) : (s.setPoints i p).tracker = s.tracker := rfl
@[simp] theorem State.setPoints_path (i : Fin 16) (p : Option PointsRecord) : (s.setPoints i p).path = s.path := rfl
@[simp] theorem State.setPoints_acquisition (i : Fin 16) (p : Option PointsRecord) : (s.setPoints i p).acquisition = s.acquisition := rfl
@[simp] theorem State.setPoints_computation (i : Fin 16) (p : Option PointsRecord) : (s.setPoints i p).computation = s.computation := rfl
@[simp] theorem State.setPoints_channels (i : Fin 16) (p : Option PointsRecord) : (s.setPoints i p).channels = s.channels := rfl
@[simp] theorem State.setPoints_monitor (i : Fin 16) (p : Option PointsRecord) : (s.setPoints i p).monitor = s.monitor := rfl
@[simp] theorem State.setPoints_link (i : Fin 16) (p : Option PointsRecord) : (s.setPoints i p).link = s.link := rfl
@[simp] theorem State.setPoints_pending (i : Fin 16) (p : Option PointsRecord) : (s.setPoints i p).pending = s.pending := rfl

/-! ## State.handOver -/

@[simp] theorem State.handOver_power (c : PointsChange) : (s.handOver c).power = s.power := rfl
@[simp] theorem State.handOver_clock (c : PointsChange) : (s.handOver c).clock = s.clock := rfl
@[simp] theorem State.handOver_lines (c : PointsChange) : (s.handOver c).lines = s.lines := rfl
@[simp] theorem State.handOver_vehicle (c : PointsChange) : (s.handOver c).vehicle = s.vehicle := rfl
@[simp] theorem State.handOver_tracker (c : PointsChange) : (s.handOver c).tracker = s.tracker := rfl
@[simp] theorem State.handOver_path (c : PointsChange) : (s.handOver c).path = s.path := rfl
@[simp] theorem State.handOver_acquisition (c : PointsChange) : (s.handOver c).acquisition = s.acquisition := rfl
@[simp] theorem State.handOver_computation (c : PointsChange) : (s.handOver c).computation = s.computation := rfl
@[simp] theorem State.handOver_channels (c : PointsChange) : (s.handOver c).channels = s.channels := rfl
@[simp] theorem State.handOver_monitor (c : PointsChange) : (s.handOver c).monitor = s.monitor := rfl
@[simp] theorem State.handOver_link (c : PointsChange) : (s.handOver c).link = s.link := rfl
@[simp] theorem State.handOver_pending (c : PointsChange) : (s.handOver c).pending = s.pending := rfl

/-! ## State.setLink -/

@[simp] theorem State.setLink_power (e : EndRef) (l : Link) : (s.setLink e l).power = s.power := rfl
@[simp] theorem State.setLink_clock (e : EndRef) (l : Link) : (s.setLink e l).clock = s.clock := rfl
@[simp] theorem State.setLink_lines (e : EndRef) (l : Link) : (s.setLink e l).lines = s.lines := rfl
@[simp] theorem State.setLink_vehicle (e : EndRef) (l : Link) : (s.setLink e l).vehicle = s.vehicle := rfl
@[simp] theorem State.setLink_tracker (e : EndRef) (l : Link) : (s.setLink e l).tracker = s.tracker := rfl
@[simp] theorem State.setLink_path (e : EndRef) (l : Link) : (s.setLink e l).path = s.path := rfl
@[simp] theorem State.setLink_acquisition (e : EndRef) (l : Link) : (s.setLink e l).acquisition = s.acquisition := rfl
@[simp] theorem State.setLink_computation (e : EndRef) (l : Link) : (s.setLink e l).computation = s.computation := rfl
@[simp] theorem State.setLink_channels (e : EndRef) (l : Link) : (s.setLink e l).channels = s.channels := rfl
@[simp] theorem State.setLink_monitor (e : EndRef) (l : Link) : (s.setLink e l).monitor = s.monitor := rfl
@[simp] theorem State.setLink_link (e : EndRef) (l : Link) : (s.setLink e l).link = s.link := rfl
@[simp] theorem State.setLink_pending (e : EndRef) (l : Link) : (s.setLink e l).pending = s.pending := rfl

/-! ## State.setPath -/

@[simp] theorem State.setPath_power (p : List PathEntry) : (s.setPath p).power = s.power := by
  simp only [State.setPath]
@[simp] theorem State.setPath_clock (p : List PathEntry) : (s.setPath p).clock = s.clock := by
  simp only [State.setPath]
@[simp] theorem State.setPath_lines (p : List PathEntry) : (s.setPath p).lines = s.lines := by
  simp only [State.setPath]
@[simp] theorem State.setPath_vehicle (p : List PathEntry) : (s.setPath p).vehicle = s.vehicle := by
  simp only [State.setPath]
@[simp] theorem State.setPath_tracker (p : List PathEntry) : (s.setPath p).tracker = s.tracker := by
  simp only [State.setPath]
@[simp] theorem State.setPath_acquisition (p : List PathEntry) : (s.setPath p).acquisition = s.acquisition := by
  simp only [State.setPath]
@[simp] theorem State.setPath_computation (p : List PathEntry) : (s.setPath p).computation = s.computation := by
  simp only [State.setPath]
@[simp] theorem State.setPath_channels (p : List PathEntry) : (s.setPath p).channels = s.channels := by
  simp only [State.setPath]
@[simp] theorem State.setPath_monitor (p : List PathEntry) : (s.setPath p).monitor = s.monitor := by
  simp only [State.setPath]
@[simp] theorem State.setPath_link (p : List PathEntry) : (s.setPath p).link = s.link := by
  simp only [State.setPath]
@[simp] theorem State.setPath_pending (p : List PathEntry) : (s.setPath p).pending = s.pending := by
  simp only [State.setPath]

/-! ## State.setTracker -/

@[simp] theorem State.setTracker_power (f : Tracker → Tracker) : (s.setTracker f).power = s.power := rfl
@[simp] theorem State.setTracker_clock (f : Tracker → Tracker) : (s.setTracker f).clock = s.clock := rfl
@[simp] theorem State.setTracker_lines (f : Tracker → Tracker) : (s.setTracker f).lines = s.lines := rfl
@[simp] theorem State.setTracker_store (f : Tracker → Tracker) : (s.setTracker f).store = s.store := rfl
@[simp] theorem State.setTracker_vehicle (f : Tracker → Tracker) : (s.setTracker f).vehicle = s.vehicle := rfl
@[simp] theorem State.setTracker_path (f : Tracker → Tracker) : (s.setTracker f).path = s.path := rfl
@[simp] theorem State.setTracker_acquisition (f : Tracker → Tracker) : (s.setTracker f).acquisition = s.acquisition := rfl
@[simp] theorem State.setTracker_computation (f : Tracker → Tracker) : (s.setTracker f).computation = s.computation := rfl
@[simp] theorem State.setTracker_channels (f : Tracker → Tracker) : (s.setTracker f).channels = s.channels := rfl
@[simp] theorem State.setTracker_monitor (f : Tracker → Tracker) : (s.setTracker f).monitor = s.monitor := rfl
@[simp] theorem State.setTracker_link (f : Tracker → Tracker) : (s.setTracker f).link = s.link := rfl
@[simp] theorem State.setTracker_pending (f : Tracker → Tracker) : (s.setTracker f).pending = s.pending := rfl

/-! ## State.setComputation -/

@[simp] theorem State.setComputation_power (f : Computation → Computation) : (s.setComputation f).power = s.power := rfl
@[simp] theorem State.setComputation_clock (f : Computation → Computation) : (s.setComputation f).clock = s.clock := rfl
@[simp] theorem State.setComputation_lines (f : Computation → Computation) : (s.setComputation f).lines = s.lines := rfl
@[simp] theorem State.setComputation_store (f : Computation → Computation) : (s.setComputation f).store = s.store := rfl
@[simp] theorem State.setComputation_vehicle (f : Computation → Computation) : (s.setComputation f).vehicle = s.vehicle := rfl
@[simp] theorem State.setComputation_tracker (f : Computation → Computation) : (s.setComputation f).tracker = s.tracker := rfl
@[simp] theorem State.setComputation_path (f : Computation → Computation) : (s.setComputation f).path = s.path := rfl
@[simp] theorem State.setComputation_acquisition (f : Computation → Computation) : (s.setComputation f).acquisition = s.acquisition := rfl
@[simp] theorem State.setComputation_channels (f : Computation → Computation) : (s.setComputation f).channels = s.channels := rfl
@[simp] theorem State.setComputation_monitor (f : Computation → Computation) : (s.setComputation f).monitor = s.monitor := rfl
@[simp] theorem State.setComputation_link (f : Computation → Computation) : (s.setComputation f).link = s.link := rfl
@[simp] theorem State.setComputation_pending (f : Computation → Computation) : (s.setComputation f).pending = s.pending := rfl

/-! ## State.setAcquisition -/

@[simp] theorem State.setAcquisition_power (f : Acquisition → Acquisition) : (s.setAcquisition f).power = s.power := rfl
@[simp] theorem State.setAcquisition_clock (f : Acquisition → Acquisition) : (s.setAcquisition f).clock = s.clock := rfl
@[simp] theorem State.setAcquisition_lines (f : Acquisition → Acquisition) : (s.setAcquisition f).lines = s.lines := rfl
@[simp] theorem State.setAcquisition_store (f : Acquisition → Acquisition) : (s.setAcquisition f).store = s.store := rfl
@[simp] theorem State.setAcquisition_vehicle (f : Acquisition → Acquisition) : (s.setAcquisition f).vehicle = s.vehicle := rfl
@[simp] theorem State.setAcquisition_tracker (f : Acquisition → Acquisition) : (s.setAcquisition f).tracker = s.tracker := rfl
@[simp] theorem State.setAcquisition_path (f : Acquisition → Acquisition) : (s.setAcquisition f).path = s.path := rfl
@[simp] theorem State.setAcquisition_computation (f : Acquisition → Acquisition) : (s.setAcquisition f).computation = s.computation := rfl
@[simp] theorem State.setAcquisition_channels (f : Acquisition → Acquisition) : (s.setAcquisition f).channels = s.channels := rfl
@[simp] theorem State.setAcquisition_monitor (f : Acquisition → Acquisition) : (s.setAcquisition f).monitor = s.monitor := rfl
@[simp] theorem State.setAcquisition_link (f : Acquisition → Acquisition) : (s.setAcquisition f).link = s.link := rfl
@[simp] theorem State.setAcquisition_pending (f : Acquisition → Acquisition) : (s.setAcquisition f).pending = s.pending := rfl

/-! ## State.startTimer -/

@[simp] theorem State.startTimer_power (b : Fin 4) : (s.startTimer b).power = s.power := rfl
@[simp] theorem State.startTimer_clock (b : Fin 4) : (s.startTimer b).clock = s.clock := rfl
@[simp] theorem State.startTimer_lines (b : Fin 4) : (s.startTimer b).lines = s.lines := rfl
@[simp] theorem State.startTimer_store (b : Fin 4) : (s.startTimer b).store = s.store := rfl
@[simp] theorem State.startTimer_vehicle (b : Fin 4) : (s.startTimer b).vehicle = s.vehicle := rfl
@[simp] theorem State.startTimer_tracker (b : Fin 4) : (s.startTimer b).tracker = s.tracker := rfl
@[simp] theorem State.startTimer_path (b : Fin 4) : (s.startTimer b).path = s.path := rfl
@[simp] theorem State.startTimer_computation (b : Fin 4) : (s.startTimer b).computation = s.computation := rfl
@[simp] theorem State.startTimer_channels (b : Fin 4) : (s.startTimer b).channels = s.channels := rfl
@[simp] theorem State.startTimer_monitor (b : Fin 4) : (s.startTimer b).monitor = s.monitor := rfl
@[simp] theorem State.startTimer_link (b : Fin 4) : (s.startTimer b).link = s.link := rfl
@[simp] theorem State.startTimer_pending (b : Fin 4) : (s.startTimer b).pending = s.pending := rfl

/-! ## State.stopTimer -/

@[simp] theorem State.stopTimer_power (b : Fin 4) : (s.stopTimer b).power = s.power := rfl
@[simp] theorem State.stopTimer_clock (b : Fin 4) : (s.stopTimer b).clock = s.clock := rfl
@[simp] theorem State.stopTimer_lines (b : Fin 4) : (s.stopTimer b).lines = s.lines := rfl
@[simp] theorem State.stopTimer_store (b : Fin 4) : (s.stopTimer b).store = s.store := rfl
@[simp] theorem State.stopTimer_vehicle (b : Fin 4) : (s.stopTimer b).vehicle = s.vehicle := rfl
@[simp] theorem State.stopTimer_tracker (b : Fin 4) : (s.stopTimer b).tracker = s.tracker := rfl
@[simp] theorem State.stopTimer_path (b : Fin 4) : (s.stopTimer b).path = s.path := rfl
@[simp] theorem State.stopTimer_computation (b : Fin 4) : (s.stopTimer b).computation = s.computation := rfl
@[simp] theorem State.stopTimer_channels (b : Fin 4) : (s.stopTimer b).channels = s.channels := rfl
@[simp] theorem State.stopTimer_monitor (b : Fin 4) : (s.stopTimer b).monitor = s.monitor := rfl
@[simp] theorem State.stopTimer_link (b : Fin 4) : (s.stopTimer b).link = s.link := rfl
@[simp] theorem State.stopTimer_pending (b : Fin 4) : (s.stopTimer b).pending = s.pending := rfl

/-! ## State.setPermit -/

@[simp] theorem State.setPermit_power (b : Bool) : (s.setPermit b).power = s.power := rfl
@[simp] theorem State.setPermit_clock (b : Bool) : (s.setPermit b).clock = s.clock := rfl
@[simp] theorem State.setPermit_lines (b : Bool) : (s.setPermit b).lines = s.lines := rfl
@[simp] theorem State.setPermit_store (b : Bool) : (s.setPermit b).store = s.store := rfl
@[simp] theorem State.setPermit_vehicle (b : Bool) : (s.setPermit b).vehicle = s.vehicle := rfl
@[simp] theorem State.setPermit_tracker (b : Bool) : (s.setPermit b).tracker = s.tracker := rfl
@[simp] theorem State.setPermit_path (b : Bool) : (s.setPermit b).path = s.path := rfl
@[simp] theorem State.setPermit_acquisition (b : Bool) : (s.setPermit b).acquisition = s.acquisition := rfl
@[simp] theorem State.setPermit_computation (b : Bool) : (s.setPermit b).computation = s.computation := rfl
@[simp] theorem State.setPermit_monitor (b : Bool) : (s.setPermit b).monitor = s.monitor := rfl
@[simp] theorem State.setPermit_link (b : Bool) : (s.setPermit b).link = s.link := rfl
@[simp] theorem State.setPermit_pending (b : Bool) : (s.setPermit b).pending = s.pending := rfl

/-! ## State.setLines -/

@[simp] theorem State.setLines_power (c : Fin 8) (f : DriveLines → DriveLines) : (s.setLines c f).power = s.power := rfl
@[simp] theorem State.setLines_clock (c : Fin 8) (f : DriveLines → DriveLines) : (s.setLines c f).clock = s.clock := rfl
@[simp] theorem State.setLines_store (c : Fin 8) (f : DriveLines → DriveLines) : (s.setLines c f).store = s.store := rfl
@[simp] theorem State.setLines_vehicle (c : Fin 8) (f : DriveLines → DriveLines) : (s.setLines c f).vehicle = s.vehicle := rfl
@[simp] theorem State.setLines_tracker (c : Fin 8) (f : DriveLines → DriveLines) : (s.setLines c f).tracker = s.tracker := rfl
@[simp] theorem State.setLines_path (c : Fin 8) (f : DriveLines → DriveLines) : (s.setLines c f).path = s.path := rfl
@[simp] theorem State.setLines_acquisition (c : Fin 8) (f : DriveLines → DriveLines) : (s.setLines c f).acquisition = s.acquisition := rfl
@[simp] theorem State.setLines_computation (c : Fin 8) (f : DriveLines → DriveLines) : (s.setLines c f).computation = s.computation := rfl
@[simp] theorem State.setLines_channels (c : Fin 8) (f : DriveLines → DriveLines) : (s.setLines c f).channels = s.channels := rfl
@[simp] theorem State.setLines_monitor (c : Fin 8) (f : DriveLines → DriveLines) : (s.setLines c f).monitor = s.monitor := rfl
@[simp] theorem State.setLines_link (c : Fin 8) (f : DriveLines → DriveLines) : (s.setLines c f).link = s.link := rfl
@[simp] theorem State.setLines_pending (c : Fin 8) (f : DriveLines → DriveLines) : (s.setLines c f).pending = s.pending := rfl

/-! ## State.setMonitor -/

@[simp] theorem State.setMonitor_power (f : Monitor → Monitor) : (s.setMonitor f).power = s.power := rfl
@[simp] theorem State.setMonitor_clock (f : Monitor → Monitor) : (s.setMonitor f).clock = s.clock := rfl
@[simp] theorem State.setMonitor_lines (f : Monitor → Monitor) : (s.setMonitor f).lines = s.lines := rfl
@[simp] theorem State.setMonitor_store (f : Monitor → Monitor) : (s.setMonitor f).store = s.store := rfl
@[simp] theorem State.setMonitor_vehicle (f : Monitor → Monitor) : (s.setMonitor f).vehicle = s.vehicle := rfl
@[simp] theorem State.setMonitor_tracker (f : Monitor → Monitor) : (s.setMonitor f).tracker = s.tracker := rfl
@[simp] theorem State.setMonitor_path (f : Monitor → Monitor) : (s.setMonitor f).path = s.path := rfl
@[simp] theorem State.setMonitor_acquisition (f : Monitor → Monitor) : (s.setMonitor f).acquisition = s.acquisition := rfl
@[simp] theorem State.setMonitor_computation (f : Monitor → Monitor) : (s.setMonitor f).computation = s.computation := rfl
@[simp] theorem State.setMonitor_channels (f : Monitor → Monitor) : (s.setMonitor f).channels = s.channels := rfl
@[simp] theorem State.setMonitor_link (f : Monitor → Monitor) : (s.setMonitor f).link = s.link := rfl
@[simp] theorem State.setMonitor_pending (f : Monitor → Monitor) : (s.setMonitor f).pending = s.pending := rfl

/-! ## State.changeLink -/

@[simp] theorem State.changeLink_power (f : LinkState → LinkState) : (s.changeLink f).power = s.power := rfl
@[simp] theorem State.changeLink_clock (f : LinkState → LinkState) : (s.changeLink f).clock = s.clock := rfl
@[simp] theorem State.changeLink_lines (f : LinkState → LinkState) : (s.changeLink f).lines = s.lines := rfl
@[simp] theorem State.changeLink_store (f : LinkState → LinkState) : (s.changeLink f).store = s.store := rfl
@[simp] theorem State.changeLink_vehicle (f : LinkState → LinkState) : (s.changeLink f).vehicle = s.vehicle := rfl
@[simp] theorem State.changeLink_tracker (f : LinkState → LinkState) : (s.changeLink f).tracker = s.tracker := rfl
@[simp] theorem State.changeLink_path (f : LinkState → LinkState) : (s.changeLink f).path = s.path := rfl
@[simp] theorem State.changeLink_acquisition (f : LinkState → LinkState) : (s.changeLink f).acquisition = s.acquisition := rfl
@[simp] theorem State.changeLink_computation (f : LinkState → LinkState) : (s.changeLink f).computation = s.computation := rfl
@[simp] theorem State.changeLink_channels (f : LinkState → LinkState) : (s.changeLink f).channels = s.channels := rfl
@[simp] theorem State.changeLink_monitor (f : LinkState → LinkState) : (s.changeLink f).monitor = s.monitor := rfl
@[simp] theorem State.changeLink_pending (f : LinkState → LinkState) : (s.changeLink f).pending = s.pending := rfl

/-! ## State.withPending -/

@[simp] theorem State.withPending_power (l : List Instr) : (s.withPending l).power = s.power := rfl
@[simp] theorem State.withPending_clock (l : List Instr) : (s.withPending l).clock = s.clock := rfl
@[simp] theorem State.withPending_lines (l : List Instr) : (s.withPending l).lines = s.lines := rfl
@[simp] theorem State.withPending_store (l : List Instr) : (s.withPending l).store = s.store := rfl
@[simp] theorem State.withPending_vehicle (l : List Instr) : (s.withPending l).vehicle = s.vehicle := rfl
@[simp] theorem State.withPending_tracker (l : List Instr) : (s.withPending l).tracker = s.tracker := rfl
@[simp] theorem State.withPending_path (l : List Instr) : (s.withPending l).path = s.path := rfl
@[simp] theorem State.withPending_acquisition (l : List Instr) : (s.withPending l).acquisition = s.acquisition := rfl
@[simp] theorem State.withPending_computation (l : List Instr) : (s.withPending l).computation = s.computation := rfl
@[simp] theorem State.withPending_channels (l : List Instr) : (s.withPending l).channels = s.channels := rfl
@[simp] theorem State.withPending_monitor (l : List Instr) : (s.withPending l).monitor = s.monitor := rfl
@[simp] theorem State.withPending_link (l : List Instr) : (s.withPending l).link = s.link := rfl
/-! ## What the updates write -/

@[simp] theorem State.reach_clock (t : Nat) : (s.reach t).clock = max s.clock t := rfl
@[simp] theorem State.notify_link (n : Notice) :
    (s.notify n).link = { s.link with notices := queueNotice n s.link.notices } := rfl
@[simp] theorem State.queueReply_link (r : Frame) (a : Answer) (b : Bool) :
    (s.queueReply r a b).link = { s.link with replies := s.link.replies ++ [⟨s.replyTo r a, b⟩] } := rfl
@[simp] theorem State.popRequest_link : s.popRequest.link = { s.link with requests := s.link.requests.tail } := rfl
@[simp] theorem State.setChannel_channels (c : Fin 8) (f : Channel → Channel) :
    (s.setChannel c f).channels = { s.channels with bank := changeAt s.channels.bank c f } := rfl
@[simp] theorem State.setRecord_computation (c : Fin 8) (f : ComputationRecord → ComputationRecord) :
    (s.setRecord c f).computation =
      { s.computation with records := changeAt s.computation.records c f } := rfl
@[simp] theorem State.setSection_store (i : Fin 32) (f : SectionRecord → SectionRecord) :
    (s.setSection i f).store = { s.store with sections := changeAt s.store.sections i f } := rfl
@[simp] theorem State.setPool_store (n : Nat) : (s.setPool n).store = { s.store with freePool := n } := rfl
@[simp] theorem State.setPoints_store (i : Fin 16) (p : Option PointsRecord) :
    (s.setPoints i p).store = { s.store with points := s.store.points.set i.val p i.isLt } := rfl
@[simp] theorem State.handOver_store (c : PointsChange) :
    (s.handOver c).store = { s.store with changes := s.store.changes ++ [c] } := rfl
@[simp] theorem State.setPath_store (p : List PathEntry) : (s.setPath p).store = s.store.recount p := rfl
@[simp] theorem State.setPath_path (p : List PathEntry) : (s.setPath p).path = p := rfl
@[simp] theorem State.setTracker_tracker (f : Tracker → Tracker) : (s.setTracker f).tracker = f s.tracker := rfl
@[simp] theorem State.setComputation_computation (f : Computation → Computation) :
    (s.setComputation f).computation = f s.computation := rfl
@[simp] theorem State.setAcquisition_acquisition (f : Acquisition → Acquisition) :
    (s.setAcquisition f).acquisition = f s.acquisition := rfl
@[simp] theorem State.setPermit_channels (b : Bool) :
    (s.setPermit b).channels = { s.channels with permit := b } := rfl
@[simp] theorem State.setLines_lines (c : Fin 8) (f : DriveLines → DriveLines) :
    (s.setLines c f).lines = { s.lines with drive := changeAt s.lines.drive c f } := rfl
@[simp] theorem State.setMonitor_monitor (f : Monitor → Monitor) : (s.setMonitor f).monitor = f s.monitor := rfl
@[simp] theorem State.changeLink_link (f : LinkState → LinkState) : (s.changeLink f).link = f s.link := rfl
@[simp] theorem State.withPending_pending (l : List Instr) : (s.withPending l).pending = l := rfl
@[simp] theorem State.setCondition_monitor (i : Fin 48) (r : ConditionRecord) : (s.setCondition i r).monitor =
    { s.monitor with conditions := s.monitor.conditions.set i.val r i.isLt } := rfl
@[simp] theorem State.setLive_monitor (l : CounterSet) : (s.setLive l).monitor = { s.monitor with live := l } := rfl

/-! ## Banks -/

/-- One place of a bank changed: what stands at each place after. -/
@[simp] theorem changeAt_get {α : Type} {n : Nat} (v : Vector α n) (i : Fin n) (f : α → α) (j : Nat) (h : j < n) :
    (changeAt v i f)[j] = if i.val = j then f v[i.val] else v[j] := by
  simp [changeAt, Vector.getElem_set]

/-- The changed place. -/
theorem changeAt_same {α : Type} {n : Nat} (v : Vector α n) (i : Fin n) (f : α → α) :
    (changeAt v i f)[i] = f v[i] := by simp

/-- Any other place. -/
theorem changeAt_other {α : Type} {n : Nat} (v : Vector α n) (i j : Fin n) (f : α → α) (h : j ≠ i) :
    (changeAt v i f)[j] = v[j] := by
  have : i.val ≠ j.val := fun e => h (Fin.ext e.symm)
  simp [this]

end Sys2Proof.Machine
end

