-- ==== Sys2Proof/Laws/Ops.lean ====
section
/-!
SUPPORT. What each shared operation of Machine/Ops.lean can do, said once: the taking of requests, the monitor's
reports and counts, the notice queue, and the changes of a channel's state.
-/

namespace Sys2Proof.Machine

variable (s : State)

/-! ## What the monitor's and the channels' operations leave alone -/

@[simp] theorem State.report_power (i : Fin 48) (v : Bool) : (s.report i v).power = s.power := by
  unfold State.report; dsimp only; split <;> split <;> (try split) <;> rfl
@[simp] theorem State.report_clock (i : Fin 48) (v : Bool) : (s.report i v).clock = s.clock := by
  unfold State.report; dsimp only; split <;> split <;> (try split) <;> rfl
@[simp] theorem State.report_lines (i : Fin 48) (v : Bool) : (s.report i v).lines = s.lines := by
  unfold State.report; dsimp only; split <;> split <;> (try split) <;> rfl
@[simp] theorem State.report_store (i : Fin 48) (v : Bool) : (s.report i v).store = s.store := by
  unfold State.report; dsimp only; split <;> split <;> (try split) <;> rfl
@[simp] theorem State.report_vehicle (i : Fin 48) (v : Bool) : (s.report i v).vehicle = s.vehicle := by
  unfold State.report; dsimp only; split <;> split <;> (try split) <;> rfl
@[simp] theorem State.report_tracker (i : Fin 48) (v : Bool) : (s.report i v).tracker = s.tracker := by
  unfold State.report; dsimp only; split <;> split <;> (try split) <;> rfl
@[simp] theorem State.report_path (i : Fin 48) (v : Bool) : (s.report i v).path = s.path := by
  unfold State.report; dsimp only; split <;> split <;> (try split) <;> rfl
@[simp] theorem State.report_acquisition (i : Fin 48) (v : Bool) : (s.report i v).acquisition = s.acquisition := by
  unfold State.report; dsimp only; split <;> split <;> (try split) <;> rfl
@[simp] theorem State.report_computation (i : Fin 48) (v : Bool) : (s.report i v).computation = s.computation := by
  unfold State.report; dsimp only; split <;> split <;> (try split) <;> rfl
@[simp] theorem State.report_channels (i : Fin 48) (v : Bool) : (s.report i v).channels = s.channels := by
  unfold State.report; dsimp only; split <;> split <;> (try split) <;> rfl
@[simp] theorem State.report_pending (i : Fin 48) (v : Bool) : (s.report i v).pending = s.pending := by
  unfold State.report; dsimp only; split <;> split <;> (try split) <;> rfl

@[simp] theorem State.reportIf_power (i : Fin 48) (v : Option Bool) : (s.reportIf i v).power = s.power := by
  cases v <;> simp [State.reportIf]
@[simp] theorem State.reportIf_clock (i : Fin 48) (v : Option Bool) : (s.reportIf i v).clock = s.clock := by
  cases v <;> simp [State.reportIf]
@[simp] theorem State.reportIf_lines (i : Fin 48) (v : Option Bool) : (s.reportIf i v).lines = s.lines := by
  cases v <;> simp [State.reportIf]
@[simp] theorem State.reportIf_store (i : Fin 48) (v : Option Bool) : (s.reportIf i v).store = s.store := by
  cases v <;> simp [State.reportIf]
@[simp] theorem State.reportIf_vehicle (i : Fin 48) (v : Option Bool) : (s.reportIf i v).vehicle = s.vehicle := by
  cases v <;> simp [State.reportIf]
@[simp] theorem State.reportIf_tracker (i : Fin 48) (v : Option Bool) : (s.reportIf i v).tracker = s.tracker := by
  cases v <;> simp [State.reportIf]
@[simp] theorem State.reportIf_path (i : Fin 48) (v : Option Bool) : (s.reportIf i v).path = s.path := by
  cases v <;> simp [State.reportIf]
@[simp] theorem State.reportIf_acquisition (i : Fin 48) (v : Option Bool) : (s.reportIf i v).acquisition = s.acquisition := by
  cases v <;> simp [State.reportIf]
@[simp] theorem State.reportIf_computation (i : Fin 48) (v : Option Bool) : (s.reportIf i v).computation = s.computation := by
  cases v <;> simp [State.reportIf]
@[simp] theorem State.reportIf_channels (i : Fin 48) (v : Option Bool) : (s.reportIf i v).channels = s.channels := by
  cases v <;> simp [State.reportIf]
@[simp] theorem State.reportIf_pending (i : Fin 48) (v : Option Bool) : (s.reportIf i v).pending = s.pending := by
  cases v <;> simp [State.reportIf]

@[simp] theorem State.count_power (k : Fin 52) : (s.count k).power = s.power := by
  unfold State.count; dsimp only; split <;> (try split) <;> simp
@[simp] theorem State.count_clock (k : Fin 52) : (s.count k).clock = s.clock := by
  unfold State.count; dsimp only; split <;> (try split) <;> simp
@[simp] theorem State.count_lines (k : Fin 52) : (s.count k).lines = s.lines := by
  unfold State.count; dsimp only; split <;> (try split) <;> simp
@[simp] theorem State.count_store (k : Fin 52) : (s.count k).store = s.store := by
  unfold State.count; dsimp only; split <;> (try split) <;> simp
@[simp] theorem State.count_vehicle (k : Fin 52) : (s.count k).vehicle = s.vehicle := by
  unfold State.count; dsimp only; split <;> (try split) <;> simp
@[simp] theorem State.count_tracker (k : Fin 52) : (s.count k).tracker = s.tracker := by
  unfold State.count; dsimp only; split <;> (try split) <;> simp
@[simp] theorem State.count_path (k : Fin 52) : (s.count k).path = s.path := by
  unfold State.count; dsimp only; split <;> (try split) <;> simp
@[simp] theorem State.count_acquisition (k : Fin 52) : (s.count k).acquisition = s.acquisition := by
  unfold State.count; dsimp only; split <;> (try split) <;> simp
@[simp] theorem State.count_computation (k : Fin 52) : (s.count k).computation = s.computation := by
  unfold State.count; dsimp only; split <;> (try split) <;> simp
@[simp] theorem State.count_channels (k : Fin 52) : (s.count k).channels = s.channels := by
  unfold State.count; dsimp only; split <;> (try split) <;> simp
@[simp] theorem State.count_pending (k : Fin 52) : (s.count k).pending = s.pending := by
  unfold State.count; dsimp only; split <;> (try split) <;> simp

@[simp] theorem State.countIf_power (b : Bool) (k : Fin 52) : (s.countIf b k).power = s.power := by
  unfold State.countIf; split <;> simp
@[simp] theorem State.countIf_clock (b : Bool) (k : Fin 52) : (s.countIf b k).clock = s.clock := by
  unfold State.countIf; split <;> simp
@[simp] theorem State.countIf_lines (b : Bool) (k : Fin 52) : (s.countIf b k).lines = s.lines := by
  unfold State.countIf; split <;> simp
@[simp] theorem State.countIf_store (b : Bool) (k : Fin 52) : (s.countIf b k).store = s.store := by
  unfold State.countIf; split <;> simp
@[simp] theorem State.countIf_vehicle (b : Bool) (k : Fin 52) : (s.countIf b k).vehicle = s.vehicle := by
  unfold State.countIf; split <;> simp
@[simp] theorem State.countIf_tracker (b : Bool) (k : Fin 52) : (s.countIf b k).tracker = s.tracker := by
  unfold State.countIf; split <;> simp
@[simp] theorem State.countIf_path (b : Bool) (k : Fin 52) : (s.countIf b k).path = s.path := by
  unfold State.countIf; split <;> simp
@[simp] theorem State.countIf_acquisition (b : Bool) (k : Fin 52) : (s.countIf b k).acquisition = s.acquisition := by
  unfold State.countIf; split <;> simp
@[simp] theorem State.countIf_computation (b : Bool) (k : Fin 52) : (s.countIf b k).computation = s.computation := by
  unfold State.countIf; split <;> simp
@[simp] theorem State.countIf_channels (b : Bool) (k : Fin 52) : (s.countIf b k).channels = s.channels := by
  unfold State.countIf; split <;> simp
@[simp] theorem State.countIf_pending (b : Bool) (k : Fin 52) : (s.countIf b k).pending = s.pending := by
  unfold State.countIf; split <;> simp

@[simp] theorem State.offerPeak_power (k : Fin 16) (n : Nat) : (s.offerPeak k n).power = s.power := by
  rfl
@[simp] theorem State.offerPeak_clock (k : Fin 16) (n : Nat) : (s.offerPeak k n).clock = s.clock := by
  rfl
@[simp] theorem State.offerPeak_lines (k : Fin 16) (n : Nat) : (s.offerPeak k n).lines = s.lines := by
  rfl
@[simp] theorem State.offerPeak_store (k : Fin 16) (n : Nat) : (s.offerPeak k n).store = s.store := by
  rfl
@[simp] theorem State.offerPeak_vehicle (k : Fin 16) (n : Nat) : (s.offerPeak k n).vehicle = s.vehicle := by
  rfl
@[simp] theorem State.offerPeak_tracker (k : Fin 16) (n : Nat) : (s.offerPeak k n).tracker = s.tracker := by
  rfl
@[simp] theorem State.offerPeak_path (k : Fin 16) (n : Nat) : (s.offerPeak k n).path = s.path := by
  rfl
@[simp] theorem State.offerPeak_acquisition (k : Fin 16) (n : Nat) : (s.offerPeak k n).acquisition = s.acquisition := by
  rfl
@[simp] theorem State.offerPeak_computation (k : Fin 16) (n : Nat) : (s.offerPeak k n).computation = s.computation := by
  rfl
@[simp] theorem State.offerPeak_channels (k : Fin 16) (n : Nat) : (s.offerPeak k n).channels = s.channels := by
  rfl
@[simp] theorem State.offerPeak_link (k : Fin 16) (n : Nat) : (s.offerPeak k n).link = s.link := by
  rfl
@[simp] theorem State.offerPeak_pending (k : Fin 16) (n : Nat) : (s.offerPeak k n).pending = s.pending := by
  rfl

@[simp] theorem State.snapshot_power (c : SnapshotCause) : (s.snapshot c).power = s.power := by
  simp [State.snapshot]
@[simp] theorem State.snapshot_clock (c : SnapshotCause) : (s.snapshot c).clock = s.clock := by
  simp [State.snapshot]
@[simp] theorem State.snapshot_lines (c : SnapshotCause) : (s.snapshot c).lines = s.lines := by
  simp [State.snapshot]
@[simp] theorem State.snapshot_store (c : SnapshotCause) : (s.snapshot c).store = s.store := by
  simp [State.snapshot]
@[simp] theorem State.snapshot_vehicle (c : SnapshotCause) : (s.snapshot c).vehicle = s.vehicle := by
  simp [State.snapshot]
@[simp] theorem State.snapshot_tracker (c : SnapshotCause) : (s.snapshot c).tracker = s.tracker := by
  simp [State.snapshot]
@[simp] theorem State.snapshot_path (c : SnapshotCause) : (s.snapshot c).path = s.path := by
  simp [State.snapshot]
@[simp] theorem State.snapshot_acquisition (c : SnapshotCause) : (s.snapshot c).acquisition = s.acquisition := by
  simp [State.snapshot]
@[simp] theorem State.snapshot_computation (c : SnapshotCause) : (s.snapshot c).computation = s.computation := by
  simp [State.snapshot]
@[simp] theorem State.snapshot_channels (c : SnapshotCause) : (s.snapshot c).channels = s.channels := by
  simp [State.snapshot]
@[simp] theorem State.snapshot_pending (c : SnapshotCause) : (s.snapshot c).pending = s.pending := by
  simp [State.snapshot]

@[simp] theorem State.enterFault_power (c : Fin 8) (k : FaultCause) : (s.enterFault c k).power = s.power := by
  simp [State.enterFault]
@[simp] theorem State.enterFault_clock (c : Fin 8) (k : FaultCause) : (s.enterFault c k).clock = s.clock := by
  simp [State.enterFault]
@[simp] theorem State.enterFault_lines (c : Fin 8) (k : FaultCause) : (s.enterFault c k).lines = s.lines := by
  simp [State.enterFault]
@[simp] theorem State.enterFault_store (c : Fin 8) (k : FaultCause) : (s.enterFault c k).store = s.store := by
  simp [State.enterFault]
@[simp] theorem State.enterFault_vehicle (c : Fin 8) (k : FaultCause) : (s.enterFault c k).vehicle = s.vehicle := by
  simp [State.enterFault]
@[simp] theorem State.enterFault_tracker (c : Fin 8) (k : FaultCause) : (s.enterFault c k).tracker = s.tracker := by
  simp [State.enterFault]
@[simp] theorem State.enterFault_path (c : Fin 8) (k : FaultCause) : (s.enterFault c k).path = s.path := by
  simp [State.enterFault]
@[simp] theorem State.enterFault_acquisition (c : Fin 8) (k : FaultCause) : (s.enterFault c k).acquisition = s.acquisition := by
  simp [State.enterFault]
@[simp] theorem State.enterFault_computation (c : Fin 8) (k : FaultCause) : (s.enterFault c k).computation = s.computation := by
  simp [State.enterFault]
@[simp] theorem State.enterFault_pending (c : Fin 8) (k : FaultCause) : (s.enterFault c k).pending = s.pending := by
  simp [State.enterFault]

@[simp] theorem State.enterLocking_power (c : Fin 8) (e : ChannelEvent) : (s.enterLocking c e).power = s.power := by
  rfl
@[simp] theorem State.enterLocking_clock (c : Fin 8) (e : ChannelEvent) : (s.enterLocking c e).clock = s.clock := by
  rfl
@[simp] theorem State.enterLocking_lines (c : Fin 8) (e : ChannelEvent) : (s.enterLocking c e).lines = s.lines := by
  rfl
@[simp] theorem State.enterLocking_store (c : Fin 8) (e : ChannelEvent) : (s.enterLocking c e).store = s.store := by
  rfl
@[simp] theorem State.enterLocking_vehicle (c : Fin 8) (e : ChannelEvent) : (s.enterLocking c e).vehicle = s.vehicle := by
  rfl
@[simp] theorem State.enterLocking_tracker (c : Fin 8) (e : ChannelEvent) : (s.enterLocking c e).tracker = s.tracker := by
  rfl
@[simp] theorem State.enterLocking_path (c : Fin 8) (e : ChannelEvent) : (s.enterLocking c e).path = s.path := by
  rfl
@[simp] theorem State.enterLocking_acquisition (c : Fin 8) (e : ChannelEvent) : (s.enterLocking c e).acquisition = s.acquisition := by
  rfl
@[simp] theorem State.enterLocking_computation (c : Fin 8) (e : ChannelEvent) : (s.enterLocking c e).computation = s.computation := by
  rfl
@[simp] theorem State.enterLocking_monitor (c : Fin 8) (e : ChannelEvent) : (s.enterLocking c e).monitor = s.monitor := by
  rfl
@[simp] theorem State.enterLocking_pending (c : Fin 8) (e : ChannelEvent) : (s.enterLocking c e).pending = s.pending := by
  rfl

@[simp] theorem State.enterLocked_power (c : Fin 8) (e : ChannelEvent) : (s.enterLocked c e).power = s.power := by
  rfl
@[simp] theorem State.enterLocked_clock (c : Fin 8) (e : ChannelEvent) : (s.enterLocked c e).clock = s.clock := by
  rfl
@[simp] theorem State.enterLocked_lines (c : Fin 8) (e : ChannelEvent) : (s.enterLocked c e).lines = s.lines := by
  rfl
@[simp] theorem State.enterLocked_store (c : Fin 8) (e : ChannelEvent) : (s.enterLocked c e).store = s.store := by
  rfl
@[simp] theorem State.enterLocked_vehicle (c : Fin 8) (e : ChannelEvent) : (s.enterLocked c e).vehicle = s.vehicle := by
  rfl
@[simp] theorem State.enterLocked_tracker (c : Fin 8) (e : ChannelEvent) : (s.enterLocked c e).tracker = s.tracker := by
  rfl
@[simp] theorem State.enterLocked_path (c : Fin 8) (e : ChannelEvent) : (s.enterLocked c e).path = s.path := by
  rfl
@[simp] theorem State.enterLocked_acquisition (c : Fin 8) (e : ChannelEvent) : (s.enterLocked c e).acquisition = s.acquisition := by
  rfl
@[simp] theorem State.enterLocked_computation (c : Fin 8) (e : ChannelEvent) : (s.enterLocked c e).computation = s.computation := by
  rfl
@[simp] theorem State.enterLocked_monitor (c : Fin 8) (e : ChannelEvent) : (s.enterLocked c e).monitor = s.monitor := by
  rfl
@[simp] theorem State.enterLocked_pending (c : Fin 8) (e : ChannelEvent) : (s.enterLocked c e).pending = s.pending := by
  rfl

@[simp] theorem State.enterSteering_power (c : Fin 8) : (s.enterSteering c).power = s.power := by
  rfl
@[simp] theorem State.enterSteering_clock (c : Fin 8) : (s.enterSteering c).clock = s.clock := by
  rfl
@[simp] theorem State.enterSteering_lines (c : Fin 8) : (s.enterSteering c).lines = s.lines := by
  rfl
@[simp] theorem State.enterSteering_store (c : Fin 8) : (s.enterSteering c).store = s.store := by
  rfl
@[simp] theorem State.enterSteering_vehicle (c : Fin 8) : (s.enterSteering c).vehicle = s.vehicle := by
  rfl
@[simp] theorem State.enterSteering_tracker (c : Fin 8) : (s.enterSteering c).tracker = s.tracker := by
  rfl
@[simp] theorem State.enterSteering_path (c : Fin 8) : (s.enterSteering c).path = s.path := by
  rfl
@[simp] theorem State.enterSteering_acquisition (c : Fin 8) : (s.enterSteering c).acquisition = s.acquisition := by
  rfl
@[simp] theorem State.enterSteering_monitor (c : Fin 8) : (s.enterSteering c).monitor = s.monitor := by
  rfl
@[simp] theorem State.enterSteering_pending (c : Fin 8) : (s.enterSteering c).pending = s.pending := by
  rfl

@[simp] theorem State.enterReturning_power (c : Fin 8) (e : ChannelEvent) : (s.enterReturning c e).power = s.power := by
  rfl
@[simp] theorem State.enterReturning_clock (c : Fin 8) (e : ChannelEvent) : (s.enterReturning c e).clock = s.clock := by
  rfl
@[simp] theorem State.enterReturning_lines (c : Fin 8) (e : ChannelEvent) : (s.enterReturning c e).lines = s.lines := by
  rfl
@[simp] theorem State.enterReturning_store (c : Fin 8) (e : ChannelEvent) : (s.enterReturning c e).store = s.store := by
  rfl
@[simp] theorem State.enterReturning_vehicle (c : Fin 8) (e : ChannelEvent) : (s.enterReturning c e).vehicle = s.vehicle := by
  rfl
@[simp] theorem State.enterReturning_tracker (c : Fin 8) (e : ChannelEvent) : (s.enterReturning c e).tracker = s.tracker := by
  rfl
@[simp] theorem State.enterReturning_path (c : Fin 8) (e : ChannelEvent) : (s.enterReturning c e).path = s.path := by
  rfl
@[simp] theorem State.enterReturning_acquisition (c : Fin 8) (e : ChannelEvent) : (s.enterReturning c e).acquisition = s.acquisition := by
  rfl
@[simp] theorem State.enterReturning_computation (c : Fin 8) (e : ChannelEvent) : (s.enterReturning c e).computation = s.computation := by
  rfl
@[simp] theorem State.enterReturning_monitor (c : Fin 8) (e : ChannelEvent) : (s.enterReturning c e).monitor = s.monitor := by
  rfl
@[simp] theorem State.enterReturning_pending (c : Fin 8) (e : ChannelEvent) : (s.enterReturning c e).pending = s.pending := by
  rfl

@[simp] theorem State.settleOnce_power (c : Fin 8) : (s.settleOnce c).power = s.power := by
  unfold State.settleOnce; dsimp only; repeat' split
  all_goals simp
@[simp] theorem State.settleOnce_clock (c : Fin 8) : (s.settleOnce c).clock = s.clock := by
  unfold State.settleOnce; dsimp only; repeat' split
  all_goals simp
@[simp] theorem State.settleOnce_lines (c : Fin 8) : (s.settleOnce c).lines = s.lines := by
  unfold State.settleOnce; dsimp only; repeat' split
  all_goals simp
@[simp] theorem State.settleOnce_store (c : Fin 8) : (s.settleOnce c).store = s.store := by
  unfold State.settleOnce; dsimp only; repeat' split
  all_goals simp
@[simp] theorem State.settleOnce_vehicle (c : Fin 8) : (s.settleOnce c).vehicle = s.vehicle := by
  unfold State.settleOnce; dsimp only; repeat' split
  all_goals simp
@[simp] theorem State.settleOnce_tracker (c : Fin 8) : (s.settleOnce c).tracker = s.tracker := by
  unfold State.settleOnce; dsimp only; repeat' split
  all_goals simp
@[simp] theorem State.settleOnce_path (c : Fin 8) : (s.settleOnce c).path = s.path := by
  unfold State.settleOnce; dsimp only; repeat' split
  all_goals simp
@[simp] theorem State.settleOnce_acquisition (c : Fin 8) : (s.settleOnce c).acquisition = s.acquisition := by
  unfold State.settleOnce; dsimp only; repeat' split
  all_goals simp
@[simp] theorem State.settleOnce_pending (c : Fin 8) : (s.settleOnce c).pending = s.pending := by
  unfold State.settleOnce; dsimp only; repeat' split
  all_goals simp

@[simp] theorem State.settle_power (c : Fin 8) : (s.settle c).power = s.power := by
  simp [State.settle]
@[simp] theorem State.settle_clock (c : Fin 8) : (s.settle c).clock = s.clock := by
  simp [State.settle]
@[simp] theorem State.settle_lines (c : Fin 8) : (s.settle c).lines = s.lines := by
  simp [State.settle]
@[simp] theorem State.settle_store (c : Fin 8) : (s.settle c).store = s.store := by
  simp [State.settle]
@[simp] theorem State.settle_vehicle (c : Fin 8) : (s.settle c).vehicle = s.vehicle := by
  simp [State.settle]
@[simp] theorem State.settle_tracker (c : Fin 8) : (s.settle c).tracker = s.tracker := by
  simp [State.settle]
@[simp] theorem State.settle_path (c : Fin 8) : (s.settle c).path = s.path := by
  simp [State.settle]
@[simp] theorem State.settle_acquisition (c : Fin 8) : (s.settle c).acquisition = s.acquisition := by
  simp [State.settle]
@[simp] theorem State.settle_pending (c : Fin 8) : (s.settle c).pending = s.pending := by
  simp [State.settle]

@[simp] theorem State.bringBack_power (e : ChannelEvent) (c : Fin 8) : (s.bringBack e c).power = s.power := by
  unfold State.bringBack; split <;> simp
@[simp] theorem State.bringBack_clock (e : ChannelEvent) (c : Fin 8) : (s.bringBack e c).clock = s.clock := by
  unfold State.bringBack; split <;> simp
@[simp] theorem State.bringBack_lines (e : ChannelEvent) (c : Fin 8) : (s.bringBack e c).lines = s.lines := by
  unfold State.bringBack; split <;> simp
@[simp] theorem State.bringBack_store (e : ChannelEvent) (c : Fin 8) : (s.bringBack e c).store = s.store := by
  unfold State.bringBack; split <;> simp
@[simp] theorem State.bringBack_vehicle (e : ChannelEvent) (c : Fin 8) : (s.bringBack e c).vehicle = s.vehicle := by
  unfold State.bringBack; split <;> simp
@[simp] theorem State.bringBack_tracker (e : ChannelEvent) (c : Fin 8) : (s.bringBack e c).tracker = s.tracker := by
  unfold State.bringBack; split <;> simp
@[simp] theorem State.bringBack_path (e : ChannelEvent) (c : Fin 8) : (s.bringBack e c).path = s.path := by
  unfold State.bringBack; split <;> simp
@[simp] theorem State.bringBack_acquisition (e : ChannelEvent) (c : Fin 8) : (s.bringBack e c).acquisition = s.acquisition := by
  unfold State.bringBack; split <;> simp
@[simp] theorem State.bringBack_pending (e : ChannelEvent) (c : Fin 8) : (s.bringBack e c).pending = s.pending := by
  unfold State.bringBack; split <;> simp

/-! ## The taking of requests (R188 to R191) -/

/-- The handler is free exactly as R189 says. -/
theorem State.handlerFree_iff : s.handlerFree = true ↔
    s.link.handler = .idle ∧ s.link.restartPending = false ∧ s.link.replies.length < 8 := by
  unfold State.handlerFree
  exact decide_eq_true_iff

/-- A request that can be taken is the front request. -/
theorem State.frontRequest_of_canTake {s : State} {r : Frame} (h : s.canTake r) : s.frontRequest = some r := by
  obtain ⟨-, h1, h2, h3, h4⟩ := h
  simp [State.frontRequest, (s.handlerFree_iff).2 ⟨h1, h2, h3⟩, h4]

/-- While the part runs, the front request is one that can be taken. -/
theorem State.canTake_of_frontRequest {s : State} {r : Frame} (hp : s.power = .running)
    (h : s.frontRequest = some r) : s.canTake r := by
  unfold State.frontRequest at h
  split at h
  · next hf => exact ⟨hp, ((s.handlerFree_iff).1 hf).1, ((s.handlerFree_iff).1 hf).2.1, ((s.handlerFree_iff).1 hf).2.2, h⟩
  · cases h

/-- While the part runs, an operation of a block is done. -/
theorem State.whileRunning_of_running {s : State} (h : s.power = .running) (f : State → State) :
    s.whileRunning f = f s := by simp [State.whileRunning, h]

/-- While it does not, nothing happens (R207, R208). -/
theorem State.whileRunning_of_stopped {s : State} (h : s.power ≠ .running) (f : State → State) :
    s.whileRunning f = s := by simp [State.whileRunning, h]

section Serve
variable {s} {r : Frame} {kind : Byte} {mine fits : List Byte → Bool}

/-- A request of the row's kind with a fitting body goes to its owner. -/
theorem State.serve_taken {owner : Frame → State → State} (h : s.canTake r) (hk : r.kind = kind)
    (hf : fits r.body = true) (hm : mine r.body = true) : s.serve kind mine fits owner = owner r s.popRequest := by
  simp [State.serve, State.whileRunning, h.1, State.frontRequest_of_canTake h, hk, hf, hm]

/-- A request row's owner acts, and its answer is queued. -/
theorem State.serveAct_taken {act : List Byte → State → State × Answer} (h : s.canTake r) (hk : r.kind = kind)
    (hf : fits r.body = true) (hm : mine r.body = true) : s.serveAct kind mine fits act =
      (act r.body s.popRequest).1.queueReply r (act r.body s.popRequest).2 false :=
  State.serve_taken h hk hf hm

/-- A body that does not fit is refused BAD_LENGTH (R190). -/
theorem State.serve_badLength {owner : Frame → State → State} (h : s.canTake r) (hk : r.kind = kind)
    (hf : fits r.body = false) :
    s.serve kind mine fits owner = s.popRequest.queueReply r (Answer.plain .badLength) false := by
  simp [State.serve, State.whileRunning, h.1, State.frontRequest_of_canTake h, hk, hf]

/-- Everything a request row can do. -/
theorem State.serve_cases (owner : Frame → State → State) : s.serve kind mine fits owner = s ∨
    ∃ r, s.canTake r ∧ r.kind = kind ∧
      ((fits r.body = true ∧ mine r.body = true ∧ s.serve kind mine fits owner = owner r s.popRequest) ∨
       (fits r.body = false ∧
        s.serve kind mine fits owner = s.popRequest.queueReply r (Answer.plain .badLength) false)) := by
  by_cases hp : s.power = .running
  · cases hr : s.frontRequest with
    | none => left; simp [State.serve, State.whileRunning, hp, hr]
    | some r =>
      have hc := State.canTake_of_frontRequest hp hr
      by_cases hk : r.kind = kind
      · cases hf : fits r.body with
        | true =>
          cases hm : mine r.body with
          | true => exact .inr ⟨r, hc, hk, .inl ⟨hf, hm, State.serve_taken hc hk hf hm⟩⟩
          | false => left; simp [State.serve, State.whileRunning, hp, hr, hf, hm]
        | false => exact .inr ⟨r, hc, hk, .inr ⟨hf, State.serve_badLength hc hk hf⟩⟩
      · left; simp [State.serve, State.whileRunning, hp, hr, hk]
  · left; simp [State.serve, State.whileRunning, hp]

end Serve

/-- A request taken leaves what the summary is made from as it was. -/
@[simp] theorem State.popRequest_summary : s.popRequest.summary = s.summary := rfl

/-- A reply queued leaves what the summary is made from as it was. -/
@[simp] theorem State.queueReply_summary (r : Frame) (a : Answer) (b : Bool) :
    (s.queueReply r a b).summary = s.summary := rfl

/-- The reply built for a request. -/
theorem State.replyTo_eq (r : Frame) (st : Status) (fields : List Byte) :
    (⟨s.replyTo r ⟨st, fields⟩, false⟩ : Reply) = replyOf r st s.summary fields := rfl

/-! ## Reports and counts (R165, R166, R173) -/

/-- What a report leaves in the record of each instance (R165): the reported one takes the value and latches a rise;
the others, and every notice mode, stay. -/
theorem State.report_condition (i j : Fin 48) (v : Bool) : (s.report i v).monitor.conditions[j] =
    if i = j then { s.monitor.conditions[i] with
      present := v, latched := s.monitor.conditions[i].latched || (v && !s.monitor.conditions[i].present) }
    else s.monitor.conditions[j] := by
  by_cases hij : i = j
  · subst hij
    cases hp : s.monitor.conditions[i].present <;> cases v <;> simp only [Fin.getElem_fin] at hp <;>
      simp [State.report, hp] <;> (try split) <;>
      simp [State.setCondition, State.notify, ← hp]
  · have hv : i.val ≠ j.val := fun e => hij (Fin.ext e)
    simp only [hij, if_false]
    unfold State.report
    dsimp only
    split <;> split <;> (try split) <;> simp [State.setCondition, State.notify, hv]

/-- What a report leaves present (R165). -/
theorem State.report_present (i j : Fin 48) (v : Bool) :
    (s.report i v).present j = if i = j then v else s.present j := by
  unfold State.present
  rw [State.report_condition]
  split <;> rfl

/-- A report leaves the counters and everything of the monitor but the condition records alone. -/
theorem State.report_monitor (i : Fin 48) (v : Bool) :
    (s.report i v).monitor = { s.monitor with conditions := (s.report i v).monitor.conditions } := by
  unfold State.report
  dsimp only
  split <;> split <;> (try split) <;> rfl

/-- A report leaves everything of the link but the notices alone. -/
theorem State.report_link (i : Fin 48) (v : Bool) :
    (s.report i v).link = { s.link with notices := (s.report i v).link.notices } := by
  unfold State.report
  dsimp only
  split <;> split <;> (try split) <;> rfl

/-- A report leaves the live counters and peaks alone. -/
@[simp] theorem State.report_live (i : Fin 48) (v : Bool) : (s.report i v).monitor.live = s.monitor.live := by
  rw [State.report_monitor]

/-- What an event counted leaves in the counters: its own one higher unless it stood at 65,535 (R173). -/
theorem State.count_counts (k j : Fin 52) : (s.count k).monitor.live.counts[j] =
    if k = j ∧ s.monitor.live.counts[k] < 65535 then s.monitor.live.counts[k] + 1
    else s.monitor.live.counts[j] := by
  have hv : k = j ↔ k.val = j.val := Fin.ext_iff
  by_cases hn : s.monitor.live.counts[k] < 65535
  · simp only [Fin.getElem_fin] at hn
    by_cases h1 : s.monitor.live.counts[k.val] + 1 = 65535 <;>
      simp [State.count, hn, h1, State.setLive, Vector.getElem_set, hv]
  · simp only [Fin.getElem_fin] at hn
    simp [State.count, hn]

/-! ## The notice queue (R195) -/

/-- Two notices have the same subject either way round. -/
theorem Notice.sameSubject_comm (a b : Notice) : a.sameSubject b = b.sameSubject a := by
  cases a <;> cases b <;> simp [Notice.sameSubject, eq_comm]

/-- A notice that replaces one has its subject. -/
theorem Notice.over_sameSubject (n m k : Notice) (h : m.sameSubject n = true) :
    (n.over m).sameSubject k = m.sameSubject k := by
  cases n <;> cases m <;> simp_all [Notice.sameSubject, Notice.over] <;> cases k <;> simp

/-- Whatever has another subject than all waiting notices and the new one has another than all after. -/
theorem queueNotice_all (n k : Notice) (l : List Notice) (hn : n.sameSubject k = false)
    (hl : ∀ m ∈ l, m.sameSubject k = false) : ∀ m ∈ queueNotice n l, m.sameSubject k = false := by
  induction l with
  | nil => simpa [queueNotice] using hn
  | cons m rest ih =>
    unfold queueNotice
    split
    · next h =>
      intro x hx
      rcases List.mem_cons.1 hx with rfl | hx
      · rw [Notice.over_sameSubject _ _ _ h]; exact hl m (by simp)
      · exact hl x (by simp [hx])
    · intro x hx
      rcases List.mem_cons.1 hx with rfl | hx
      · exact hl _ (by simp)
      · exact ih (fun y hy => hl y (by simp [hy])) x hx

/-- Queuing a notice keeps every two waiting notices of different subjects (R195). -/
theorem queueNotice_pairwise (n : Notice) (l : List Notice) (h : l.Pairwise fun a b => a.sameSubject b = false) :
    (queueNotice n l).Pairwise fun a b => a.sameSubject b = false := by
  induction l with
  | nil => simp [queueNotice]
  | cons m rest ih =>
    rw [List.pairwise_cons] at h
    unfold queueNotice
    split
    · next hs =>
      rw [List.pairwise_cons]
      exact ⟨fun x hx => by rw [Notice.over_sameSubject _ _ _ hs]; exact h.1 x hx, h.2⟩
    · next hs =>
      rw [List.pairwise_cons]
      refine ⟨fun x hx => ?_, ih h.2⟩
      rw [Notice.sameSubject_comm]
      refine queueNotice_all n m rest ?_ (fun y hy => ?_) x hx
      · rw [Notice.sameSubject_comm]; simpa using hs
      · rw [Notice.sameSubject_comm]; exact h.1 y hy

/-! ## Moves of a channel (R144, R145) -/

/-- Everything that the levels of a channel's lines can bring about at once. -/
theorem State.settleOnce_cases (c : Fin 8) :
    (s.channels.bank[c].state.faultable = true ∧ s.lines.drive[c].driveFault = true ∧
      s.settleOnce c = s.enterFault c .drive) ∨
    (s.channels.bank[c].state = .locking ∧ s.lines.drive[c].driveFault = false ∧
      s.lines.drive[c].lockEngaged = true ∧ s.settleOnce c = s.enterLocked c .lockEngaged) ∨
    (s.channels.bank[c].state = .locked ∧ s.lines.drive[c].lockEngaged = false ∧
      s.settleOnce c = s.enterLocking c .lockLost) ∨
    (s.channels.bank[c].state = .unlocking ∧ s.lines.drive[c].driveFault = false ∧
      s.lines.drive[c].lockEngaged = false ∧ s.settleOnce c = s.enterSteering c) ∨
    s.settleOnce c = s := by
  cases hs : s.channels.bank[c].state <;> cases hf : s.lines.drive[c].driveFault <;>
    cases he : s.lines.drive[c].lockEngaged <;> simp only [Fin.getElem_fin] at hs hf he <;>
    simp [State.settleOnce, ChannelState.faultable, hs, hf, he]

/-- A channel whose levels call for no move stays as it is. -/
theorem State.settle_of_settleOnce {s : State} {c : Fin 8} (h : s.settleOnce c = s) : s.settle c = s := by
  simp [State.settle, h]

end Sys2Proof.Machine
end

