-- ==== Sys2Proof/Certificates/Slice0/Obligations.lean ====
section
/-!
DEFINITION. The statements for the provers, chapter by chapter. Each docstring names the rules of spec/ a statement
follows. A request is named by the frame `r` that the handler takes (R189), and its fields by their places in the body
(chapter 10): `fieldU r.body o n` is the unsigned field of `n` bytes at offset `o`, `fieldS` the signed one.
-/

open Sys2Proof Sys2Proof.Machine

/-! ## The machine as a whole -/

/-- A step runs the command at the front of the queue on the state with the rest of the queue; on an empty queue the
part idles, which is the model's choice (log entry 5). -/
def Obligations.StepRunsTheFrontCommand : Prop :=
  (∀ (c : Instr) (rest : List Instr) (s : State), s.pending = c :: rest →
    step s = exec c { s with pending := rest }) ∧
  (∀ s : State, s.pending = [] → step s = .next s)

/-- Every command answers a next state, which leaves the queue to the step, never goes back in time, and writes the
levels of the input lines only where the command is a change of a line. -/
def Obligations.EveryCommandAnswersANextState : Prop :=
  ∀ (c : Instr) (s : State), ∃ t, exec c s = .next t ∧ t.pending = s.pending ∧ s.clock ≤ t.clock ∧
    ((∀ l b, c ≠ .lockEngagedChange l b) → (∀ l f g, c ≠ .driveFaultChange l f g) →
      (∀ b, c ≠ .markerInputChange b) → t.lines = s.lines)

/-- While the part does not run (start-up, or no supply), no command but the supply's own and the changes of the input
lines does anything, every drive is disabled, every lock commanded engaged and every stroke demand 0 (R207, R208). That DRIVE_FAULT_CHANGE carries the drive ready level is
the model's choice (log entry 4), and so is what a command does that cannot occur (log entry 1). -/
def Sys2Proof.Claims.NothingRunsWithoutSupply : Prop :=
  ∀ (s : State), s.power ≠ .running →
    (∀ c : Instr, c ≠ .startUpBegin → c ≠ .startUpEnd → c ≠ .supplyLoss →
      (∀ l b, c ≠ .lockEngagedChange l b) → (∀ l f g, c ≠ .driveFaultChange l f g) →
      (∀ b, c ≠ .markerInputChange b) → exec c s = .next s) ∧
    (∀ l b, exec (.lockEngagedChange l b) s = .next (s.setLines l fun d => { d with lockEngaged := b })) ∧
    (∀ l f g, exec (.driveFaultChange l f g) s =
      .next (s.setLines l fun d => { d with driveFault := f, driveReady := g })) ∧
    (∀ b, exec (.markerInputChange b) s = .next { s with lines := { s.lines with marker := b } }) ∧
    (∀ c : Fin 8, s.driveEnable c = false ∧ s.lockRelease c = false ∧ s.strokeDemand c = 0)

/-- The supply enters its range: start-up begins and lasts 5 ms. At its end every block stands at its power-on values,
the vehicle record is absent, and each input has been acted on at its level in the same act. The supply leaves its
range: the part stops (R27, R207, R208). The order of the notices of the act, by channel, is the model's (log entry 10),
as are its own fields' reset values (log entry 21) and what stands in the lost state (log entry 11). -/
def Sys2Proof.Claims.StartUpGivesThePowerOnState : Prop :=
  ∀ s : State,
    (s.power = .off → exec .startUpBegin s = .next { s with power := .starting (s.clock + 5000) }) ∧
    (∀ endsAt, s.power = .starting endsAt → ∃ t, exec .startUpEnd s = .next t ∧ ResetState t ∧
      t.vehicle = none ∧ t.clock = max s.clock endsAt ∧ t.lines = s.lines ∧ t.pending = s.pending) ∧
    (s.power ≠ .off → ∃ t, exec .supplyLoss s = .next t ∧ t.power = .off ∧ t.vehicle = none ∧
      t.lines = s.lines ∧ t.clock = s.clock ∧ t.pending = s.pending)

/-- The part without its supply, and its start-up: both statements above (R27, R207, R208). Model's choices in it:
DRIVE_FAULT_CHANGE carries the drive ready level (log entry 4), a command that cannot occur leaves the state (log entry
1), the notices of the start-up act stand in channel order (log entry 10), the lost state (log entry 11), and the
reset values of the model's own fields such as `lineAt` (log entry 21). -/
def Obligations.SupplyStartsAndStopsThePart : Prop :=
  Claims.NothingRunsWithoutSupply ∧ Claims.StartUpGivesThePowerOnState

/-- The last byte of the SYS.RESTART reply leaves the part: in that act every block but the vehicle record stands at
its reset values (R198). That the command may be FRAME_SENT or RESTART_TAKES_EFFECT is the model's reading (log entry
13), and so is the order of the notices of the act, by channel (log entry 10). -/
def Sys2Proof.Claims.RestartResetsAllButTheVehicleRecord : Prop :=
  ∀ (s : State) (f : Frame) (endsAt : Nat) (c : Instr), s.power = .running →
    s.link.transmitter = .sending f true endsAt → (c = .frameSent ∨ c = .restartTakesEffect) →
    ∃ t, exec c s = .next t ∧ ResetState t ∧ t.vehicle = s.vehicle ∧ t.clock = max s.clock endsAt ∧
      t.lines = s.lines ∧ t.pending = s.pending

/-- The state at reset: the part right after power-on with every input line false, the vehicle record absent and no
command waiting; among its values those the tables of R1, R3, R40, R68, R101, R110, R139 and R181 give. -/
def Sys2Proof.Claims.ResetStateHoldsThePowerOnValues : Prop :=
  ResetState State.reset ∧ State.reset.vehicle = none ∧ State.reset.pending = [] ∧
    State.reset.store.freePool = 1024 ∧ State.reset.tracker.uncertainty = 65535000 ∧
    State.reset.tracker.state = .unlocated ∧ State.reset.tracker.sign = .plus ∧
    (∀ i : Fin 32, State.reset.store.sections[i].state = .free ∧ State.reset.store.sections[i].occupancy = 0) ∧
    (∀ b : Fin 4, State.reset.acquisition.periods[b] = 10 ∧ State.reset.acquisition.timers[b] = none) ∧
    (∀ c : Fin 8, State.reset.channels.bank[c].state = .locking ∧
      State.reset.channels.bank[c].lockTimer = some 800000 ∧ State.reset.computation.laws[c].lockTime = 800) ∧
    State.reset.channels.permit = false ∧ State.reset.monitor.auto = true ∧
    State.reset.monitor.timer = some 1000000 ∧ State.reset.link.receiver = .hunt

/-- The state at reset meets every invariant that the statements below have every step keep. -/
def Sys2Proof.Claims.ResetMeetsTheInvariants : Prop :=
  StoreSound State.reset.store ∧ ReadySound State.reset.store ∧ PathSound State.reset ∧ ChannelsSound State.reset ∧
    LevelsTaken State.reset ∧ MonitorSound State.reset.monitor ∧ LinkSound State.reset.link ∧
    ScansSound State.reset ∧ TrackerSound State.reset ∧ DatumOnPath State.reset ∧ DemandsBounded State.reset

/-- The state at reset: both statements above. -/
def Obligations.ResetStateMeetsTheInvariants : Prop :=
  Claims.ResetStateHoldsThePowerOnValues ∧ Claims.ResetMeetsTheInvariants

/-- Outside resets, each piece of configuration changes only at its own command: the vehicle record at VEH.SET, the
stage table at STG.SET, the periods at PER.SET, the law records at LAW.SET, the notice modes at CND.ENABLE, the criteria
at CND.CRITERIA, the snapshot mode at CNT.MODE, the permit at PERMIT.SET, the points at PTS.*, and a READY section's
geometry at SEC.OPEN and SEC.DROP (R26, R27, R93, R101, R110, R155, R170, R171, R177). -/
def Obligations.ConfigurationChangesOnlyAtItsOwnCommand : Prop :=
  ∀ (c : Instr) (s t : State), exec c s = .next t → c ≠ .startUpEnd → c ≠ .supplyLoss → c ≠ .frameSent →
    c ≠ .restartTakesEffect →
    (c ≠ .vehSet → t.vehicle = s.vehicle) ∧
    (c ≠ .stgSet → t.acquisition.stages = s.acquisition.stages) ∧
    (c ≠ .perSet → t.acquisition.periods = s.acquisition.periods) ∧
    (c ≠ .lawSet → t.computation.laws = s.computation.laws) ∧
    (c ≠ .cndEnable → ∀ i : Fin 48, t.monitor.conditions[i].mode = s.monitor.conditions[i].mode) ∧
    (c ≠ .cndCriteria → t.monitor.criteria = s.monitor.criteria) ∧
    (c ≠ .cntModeAuto → c ≠ .cntModeManual → t.monitor.auto = s.monitor.auto) ∧
    (c ≠ .permitSetOn → c ≠ .permitSetOff → t.channels.permit = s.channels.permit) ∧
    (c ≠ .ptsDefine → c ≠ .ptsRemove → c ≠ .ptsSet → t.store.points = s.store.points) ∧
    (c ≠ .secOpen → c ≠ .secDrop →
      (∀ tag i endsAt, s.link.handler = .closing tag i endsAt → s.store.sections[i].state = .checking) →
      ∀ i : Fin 32, s.store.sections[i].state = .ready →
        t.store.sections[i].state = .ready ∧ t.store.sections[i].length = s.store.sections[i].length ∧
          t.store.sections[i].clearance = s.store.sections[i].clearance ∧
          t.store.sections[i].elements = s.store.sections[i].elements ∧
          t.store.sections[i].markers = s.store.sections[i].markers)

/-! ## The serial line (chapters 9 and 10) -/

/-- The receiver's table, byte by byte (R184 to R186): what a byte does that is not the last one of a frame. A byte that
ends a gap of more than 1 ms within a frame is taken in HUNT; the bytes of the part's own frame are not taken (R182). -/
def Sys2Proof.Claims.ByteTakenMovesTheReceiver : Prop :=
  ∀ (s : State) (b : Byte), s.power = .running →
    (∀ f final endsAt, s.link.transmitter = .sending f final endsAt → exec (.byteTaken b) s = .next s) ∧
    (s.link.transmitter = .idle →
      let now := max s.clock (s.link.lineAt + 20)
      let gap := s.link.lineAt + 1020 < now
      let receiver := if gap then .hunt else s.link.receiver
      let reception := if gap then none else s.link.reception
      let got := reception.getD []
      ¬(receiver = .crc ∧ got.length = fieldU got 0 1 + 4) →
      exec (.byteTaken b) s = .next { s with
        clock := now
        link := { s.link with
          lineAt := now
          receiver := match receiver with
            | .hunt => if b = 0xC3 then .sync2 else .hunt
            | .sync2 => if b = 0x3C then .header else if b = 0xC3 then .sync2 else .hunt
            | .header =>
              if got.length = 0 then (if 240 < b.toNat then .hunt else .header)
              else if got.length = 1 then .header
              else if fieldU got 0 1 = 0 then .crc else .body
            | .body => if got.length + 1 = fieldU got 0 1 + 3 then .crc else .body
            | .crc => .crc
          reception := match receiver with
            | .hunt => reception
            | .sync2 => if b = 0x3C then some [] else reception
            | .header => if got.length = 0 ∧ 240 < b.toNat then none else some (got ++ [b])
            | .body => some (got ++ [b])
            | .crc => some (got ++ [b]) } })

/-- The second CRC byte of a frame is taken (R187, R188), as BYTE_TAKEN or as FRAME_RECEIVED: the receiver returns to
HUNT; while restart is pending the frame is dropped; a wrong CRC counts FRAME_ERROR; a kind of 0x80 or above is dropped;
a request joins the receive queue, or is dropped and counted when the queue holds 8. That the byte may be given by either
command, with one effect, is the model's choice (log entry 12). -/
def Obligations.FrameReceivedIsCheckedAndQueued : Prop :=
  ∀ (s : State) (b : Byte) (c : Instr) (got : List Byte), s.power = .running → s.link.transmitter = .idle →
    s.clock ≤ s.link.lineAt + 1020 → s.link.receiver = .crc → s.link.reception = some got →
    got.length = fieldU got 0 1 + 4 → (c = .byteTaken b ∨ c = .frameReceived b) →
    ∃ t, exec c s = .next t ∧
      let now := max s.clock (s.link.lineAt + 20)
      let covered := got.take (fieldU got 0 1 + 3)
      let received : BitVec 16 := got.getD (fieldU got 0 1 + 3) 0 ++ b
      let frame : Frame := { kind := got.getD 1 0, tag := got.getD 2 0, body := covered.drop 3 }
      let waiting : State :=
        { s with clock := now, link := { s.link with lineAt := now, receiver := .hunt, reception := none } }
      let countsOne := s.counted t (vehicleCounter .frameError) ∧
        t = { waiting with monitor := t.monitor, link := { waiting.link with notices := t.link.notices } }
      if s.link.restartPending then t = waiting
      else if crcOf covered ≠ received then countsOne
      else if 0x80 ≤ frame.kind.toNat then t = waiting
      else if s.link.requests.length < 8 then
        t = { waiting with link := { waiting.link with requests := s.link.requests ++ [frame] } }
      else countsOne

/-- A length byte above 240 ends the frame in reception (R186), and so does a gap of more than 1 ms (R185): the
receiver returns to HUNT, and nothing is counted or answered. In HUNT a gap has no effect. That the gap's end moves the
clock to 1,001 µs after the last character, and that the length byte is a case of BYTE_TAKEN, are the model's choices
(log entry 12). -/
def Sys2Proof.Claims.AbortedFramesLeaveNoTrace : Prop :=
  ∀ s : State, s.power = .running →
    (∀ length : Byte, s.link.transmitter = .idle → s.clock ≤ s.link.lineAt + 1020 → s.link.receiver = .header →
      s.link.reception = some [] → 240 < length.toNat →
      let now := max s.clock (s.link.lineAt + 20)
      exec (.frameLengthAbort length) s = .next
        { s with clock := now, link := { s.link with lineAt := now, receiver := .hunt, reception := none } }) ∧
    (s.link.receiver ≠ .hunt → exec .interByteGapTimeout s = .next
      { s with clock := max s.clock (s.link.lineAt + 1001),
               link := { s.link with receiver := .hunt, reception := none } }) ∧
    (s.link.receiver = .hunt → exec .interByteGapTimeout s = .next s)

/-- The receiver, byte by byte and at an abort: both statements above (R182, R184 to R186), with the model's choices of
log entry 12. -/
def Obligations.ReceiverFollowsItsTable : Prop :=
  Claims.ByteTakenMovesTheReceiver ∧ Claims.AbortedFramesLeaveNoTrace

/-- A whole request frame, fed byte by byte from its sync pair to its CRC to a part whose receiver is in HUNT, arrives
in the receive queue as exactly that request, and nothing else changes but the time (R182 to R184, R187, R188). -/
def Obligations.FedFrameArrivesWhole : Prop :=
  ∀ (s : State) (f : Frame) (rest : List Instr), s.power = .running → s.link.transmitter = .idle →
    s.link.receiver = .hunt → s.link.reception = none → s.link.restartPending = false →
    s.link.requests.length < 8 → f.body.length ≤ 240 → f.kind.toNat < 0x80 →
    s.pending = f.wire.map Instr.byteTaken ++ rest →
    let ends := max s.clock (s.link.lineAt + 20) + 20 * (6 + f.body.length)
    Host.Core.run Sys2Proof.core (7 + f.body.length) s = .next { s with
      pending := rest
      clock := ends
      link := { s.link with requests := s.link.requests ++ [f], lineAt := ends } }

/-- The arbiter (R167, R196): with the transmitter IDLE and the receiver in HUNT the oldest reply begins, else the first
notice, whose tag is the notice sequence, which counts up, and of which an N.COND reads the present and latched sets
now; with nothing waiting, or outside these conditions, nothing begins. -/
def Sys2Proof.Claims.TransmitBeginChoosesReplyThenNotice : Prop :=
  ∀ s : State, s.power = .running →
    (∀ r rest, s.link.transmitter = .idle → s.link.receiver = .hunt → s.link.replies = r :: rest →
      exec .transmitBegin s = .next { s with link := { s.link with
        replies := rest
        transmitter := .sending r.frame r.final (s.clock + 20 * (7 + r.frame.body.length)) } }) ∧
    (∀ n rest, s.link.transmitter = .idle → s.link.receiver = .hunt → s.link.replies = [] →
      s.link.notices = n :: rest →
      let kind : Byte := match n with
        | .condition _ _ => 0xF0
        | .channel _ _ _ _ => 0xF1
        | .position _ _ _ _ _ => 0xF2
      let body : List Byte := match n with
        | .condition risen fallen =>
          encodeSet risen ++ encodeSet fallen ++ encodeSet s.presentSet ++ encodeSet s.latchedSet
        | .channel c before event status => [u8 c.val, u8 before.code, u8 event.code] ++ status.encode
        | .position cause sec index delta p => [u8 cause.code, u8 sec, u8 index] ++ beS 4 delta ++ p.encode
      exec .transmitBegin s = .next { s with link := { s.link with
        notices := rest
        sequence := s.link.sequence + 1
        transmitter := .sending ⟨kind, s.link.sequence, body⟩ false (s.clock + 20 * (7 + body.length)) } }) ∧
    (s.link.replies = [] → s.link.notices = [] → exec .transmitBegin s = .next s) ∧
    ((s.link.transmitter ≠ .idle ∨ s.link.receiver ≠ .hunt) → exec .transmitBegin s = .next s)

/-- The last byte of a frame other than the SYS.RESTART reply leaves the part (R182, R196): the transmitter becomes IDLE,
and the receiver stands in HUNT with no frame in reception. -/
def Sys2Proof.Claims.FrameSentFreesTheLine : Prop :=
  ∀ (s : State) (f : Frame) (endsAt : Nat), s.power = .running →
    s.link.transmitter = .sending f false endsAt →
    exec .frameSent s = .next { s with
      clock := max s.clock endsAt
      link := { s.link with transmitter := .idle, receiver := .hunt, reception := none,
                            lineAt := max s.clock endsAt } }

/-- The transmitter at the beginning and the end of a frame: both statements above (R167, R182, R196). -/
def Obligations.TransmitterSendsRepliesThenNotices : Prop :=
  Claims.TransmitBeginChoosesReplyThenNotice ∧ Claims.FrameSentFreesTheLine

/-- A request kind that the table does not list is refused UNKNOWN_KIND (R190, R201), and changes nothing else. That the
reply to a kind of 0x70 to 0x7F has that kind + 0x80 too is the model's choice (log entry 29). -/
def Sys2Proof.Claims.UnknownKindIsRefused : Prop :=
  ∀ (s : State) (r : Frame), s.canTake r → r.kind ∉ requestRows.map (fun p => p.2) →
    ∃ t, exec .unknownKind s = .next t ∧ s.onlyAnswers t r .unknownKind []

/-- A listed request whose body does not fit its kind's form is refused BAD_LENGTH with the head alone, and changes
nothing else (R190, R201, R204, R205). -/
def Sys2Proof.Claims.BadLengthIsRefused : Prop :=
  ∀ (row : Instr × Byte) (s : State) (r : Frame), row ∈ requestRows → s.canTake r → r.kind = row.2 →
    lengthFits r.kind r.body.length = false →
    ∃ t, exec row.1 s = .next t ∧ s.onlyAnswers t r .badLength []

/-- The handler takes no request while it is BUSY, while a restart is pending, while the reply queue holds 8 replies, or
while the receive queue is empty (R189): no request row does anything then. -/
def Sys2Proof.Claims.RequestsWaitForTheHandler : Prop :=
  ∀ (c : Instr) (s : State), (c = .unknownKind ∨ c ∈ requestRows.map (fun p => p.1)) →
    (s.link.handler ≠ .idle ∨ s.link.restartPending = true ∨ 8 ≤ s.link.replies.length ∨ s.link.requests = []) →
    exec c s = .next s

/-- What the handler does before any owner is asked: the three statements above (R189, R190, R201), with the model's choice
of log entry 29. -/
def Obligations.HandlerWaitsAndRefuses : Prop :=
  Claims.UnknownKindIsRefused ∧ Claims.BadLengthIsRefused ∧ Claims.RequestsWaitForTheHandler

/-- A refusal changes no state of the part (R2, R193): when the reply to a request taken carries a status other than OK
and NO_SPACE, the request has left the receive queue, its reply waits last, and everything else is as it was. That the reply
to an unlisted kind of 0x70 to 0x7F has that kind + 0x80 too is the model's choice (log entry 29). -/
def Obligations.RefusalsChangeNothing : Prop :=
  ∀ (c : Instr) (s t : State) (r : Frame) (reply : Reply), (c = .unknownKind ∨ c ∈ requestRows.map (fun p => p.1)) →
    s.canTake r → exec c s = .next t → t.link.replies = s.link.replies ++ [reply] →
    reply.frame.body.head? ≠ some (u8 Status.ok.code) → reply.frame.body.head? ≠ some (u8 Status.noSpace.code) →
    reply.frame.kind = r.kind + 0x80 ∧ reply.frame.tag = r.tag ∧
      t = { s with link := { s.link with requests := s.link.requests.tail, replies := s.link.replies ++ [reply] } }

/-- Ids, codes and fields outside their ranges (R2, R12, R14, R15, R18 to R24, R56, R94): a request that names a section
outside 1..32, points outside 1..16, or a code its form does not define, is refused OUT_OF_RANGE whatever else holds, and
changes nothing; so is an STG.SET with a field outside its range, whose reply carries the schedule records. -/
def Obligations.FieldsOutOfRangeAreRefused : Prop :=
  ∀ (s : State) (r : Frame), s.canTake r →
    let field : Nat → Nat := fun k => fieldU r.body k 1
    let badSection : Nat → Prop := fun k => field k = 0 ∨ 32 < field k
    let badPoints : Nat → Prop := fun k => field k = 0 ∨ 16 < field k
    let refuses : Instr → List Byte → Prop := fun c fields =>
      ∃ t, exec c s = .next t ∧ s.onlyAnswers t r .outOfRange fields
    (∀ row ∈ [(Instr.secPut, (0x11 : Byte)), (.secMark, 0x12), (.secClose, 0x13), (.secDrop, 0x15), (.secGet, 0x16)],
      r.kind = row.2 → lengthFits r.kind r.body.length = true → badSection 0 → refuses row.1 []) ∧
    (r.kind = 0x11 → lengthFits r.kind r.body.length = true →
      (∃ j : Fin 16, 2 + 11 * j.val < r.body.length ∧ 192 ≤ field (2 + 11 * j.val + 9)) → refuses .secPut []) ∧
    (r.kind = 0x14 → r.body.length = 5 → 0 < field 2 →
      (badSection 0 ∨ 1 < field 1 ∨ 1 < field 2 ∨ badSection 3 ∨ 1 < field 4) → refuses .secJoin []) ∧
    (r.kind = 0x14 → r.body.length = 5 → field 2 = 0 → (badSection 0 ∨ 1 < field 1) → refuses .secJoinNone []) ∧
    (r.kind = 0x18 → r.body.length = 7 → (badPoints 0 ∨ badSection 1 ∨ 1 < field 2 ∨ badSection 3 ∨ 1 < field 4 ∨
      badSection 5 ∨ 1 < field 6) → refuses .ptsDefine []) ∧
    (r.kind = 0x19 → r.body.length = 1 → badPoints 0 → refuses .ptsRemove []) ∧
    (r.kind = 0x1A → r.body.length = 2 → (badPoints 0 ∨ 2 < field 1) → refuses .ptsSet []) ∧
    (r.kind = 0x38 → r.body.length = 5 → (badSection 0 ∨ 1 < field 4) → refuses .posLocate []) ∧
    (r.kind = 0x30 → r.body.length = 16 →
      (31 < field 0 ∨ (field 1 ≠ 255 ∧ (3 < field 1 ∨ field 2 = 0 ∨ 7 < field 2 ∨ 31 < field 3 ∨
        fieldS r.body 4 3 < -1048576 ∨ 1048575 < fieldS r.body 4 3 ∨ 1000000 < (fieldS r.body 7 3).natAbs ∨
        1000000 < (fieldS r.body 10 3).natAbs ∨ 1000000 < (fieldS r.body 13 3).natAbs ∨
        fieldS r.body 13 3 < fieldS r.body 10 3 ∨ (field 2 ∈ [1, 2, 4, 5] ∧ fieldS r.body 10 3 < 0)))) →
      refuses .stgSet s.scheduleRecords)

/-- SYS.RESTART (R197): the reply is built at once and queued behind any replies already there, and restart becomes
pending; nothing else changes yet. -/
def Sys2Proof.Claims.SysRestartAnswersAndWaits : Prop :=
  ∀ (s : State) (r : Frame), s.canTake r → r.kind = 0x01 → r.body.length = 0 →
    exec .sysRestart s = .next { s with link := { s.link with
      requests := s.link.requests.tail
      replies := s.link.replies ++ [{ replyOf r .ok s.summary [] with final := true }]
      restartPending := true } }

/-- SYS.RESTART, at its taking and at its effect: both statements above (R197, R198), with the readings of log entries
10 and 13. -/
def Obligations.RestartAnswersThenResets : Prop :=
  Claims.RestartResetsAllButTheVehicleRecord ∧ Claims.SysRestartAnswersAndWaits

/-! ## The geometry store (chapter 1) -/

/-- SEC.OPEN (R10, R11): its checks in their order; a FREE section becomes LOADING and takes no pool slot, an unoccupied
READY one is reopened: its slots return to the pool, its markers go and its links stay. -/
def Sys2Proof.Claims.SecOpenPreparesASection : Prop :=
  ∀ (s : State) (r : Frame), s.canTake r → r.kind = 0x10 → r.body.length = 6 →
    ∃ t, exec .secOpen s = .next t ∧
      let length := fieldU r.body 1 3
      let clearance := fieldU r.body 4 2
      let inRange := 3000 ≤ length ∧ length ≤ 16000000 ∧ 500 ≤ clearance ∧ clearance ≤ 6000
      ((fieldU r.body 0 1 = 0 ∨ 32 < fieldU r.body 0 1 ∨ ¬inRange) → s.onlyAnswers t r .outOfRange []) ∧
      ∀ i : Fin 32, fieldU r.body 0 1 = i.val + 1 → inRange →
        match s.store.sections[i].state with
        | .loading | .checking => s.onlyAnswers t r .badState []
        | .free =>
          s.answeredOnly t r .ok (be 2 s.store.freePool) ∧
          t = { s with link := t.link, store := { s.store with
            sections := s.store.sections.set i.val
              { s.store.sections[i] with
                state := .loading, length := length, clearance := clearance, elements := [], markers := [],
                low := .none, high := .none } i.isLt } }
        | .ready =>
          if 0 < s.store.sections[i].occupancy then s.onlyAnswers t r .occupied []
          else
            s.answeredOnly t r .ok (be 2 (s.store.freePool + s.store.sections[i].elements.length)) ∧
            t = { s with link := t.link, store := { s.store with
              freePool := s.store.freePool + s.store.sections[i].elements.length
              sections := s.store.sections.set i.val
                { s.store.sections[i] with
                  state := .loading, length := length, clearance := clearance, elements := [], markers := [] }
                i.isLt } }

/-- SEC.PUT (R12, R13) on a LOADING section with a start index that leaves no gap: of the records, as many are stored as
have an index below 128 and find a place among the old elements or the free pool slots; the first ones replace, the
others are appended, each taking one slot; the reply is NO_SPACE when any is discarded. Any other state is refused
BAD_STATE, and a start beyond the element count OUT_OF_RANGE. -/
def Sys2Proof.Claims.SecPutStoresWhatFits : Prop :=
  ∀ (s : State) (r : Frame) (i : Fin 32) (records : List Element), s.canTake r → r.kind = 0x11 →
    1 ≤ records.length → records.length ≤ 16 → r.body.length = 2 + 11 * records.length →
    fieldU r.body 0 1 = i.val + 1 →
    (∀ (j : Nat) (h : j < records.length), elementOf? ((r.body.drop (2 + 11 * j)).take 11) = some records[j]) →
    ∃ t, exec .secPut s = .next t ∧
      let start := fieldU r.body 1 1
      let old := s.store.sections[i].elements
      let stored := min records.length (min (128 - start) (old.length - start + s.store.freePool))
      let new := old.take start ++ records.take stored ++ old.drop (start + stored)
      let pool := s.store.freePool - (new.length - old.length)
      if s.store.sections[i].state ≠ .loading then s.onlyAnswers t r .badState []
      else if old.length < start then s.onlyAnswers t r .outOfRange []
      else
        s.answeredOnly t r (if stored < records.length then .noSpace else .ok)
          ([u8 stored, u8 new.length] ++ be 2 pool) ∧
        t = { s with link := t.link, store := { s.store with
          freePool := pool
          sections := s.store.sections.set i.val { s.store.sections[i] with elements := new } i.isLt } }

/-- SEC.MARK (R14): with every half-width in 100..5,000, a LOADING section's marker list becomes the records of the
request, in their order; the checks are made in the rule's order. -/
def Sys2Proof.Claims.SecMarkReplacesTheMarkers : Prop :=
  ∀ (s : State) (r : Frame) (i : Fin 32) (n : Nat), s.canTake r → r.kind = 0x12 → n ≤ 8 →
    r.body.length = 1 + 5 * n → fieldU r.body 0 1 = i.val + 1 →
    ∃ t, exec .secMark s = .next t ∧
      let marks : List Marker :=
        (List.range n).map fun j => ⟨fieldU r.body (1 + 5 * j) 3, fieldU r.body (4 + 5 * j) 2⟩
      if ∃ m ∈ marks, m.halfWidth < 100 ∨ 5000 < m.halfWidth then s.onlyAnswers t r .outOfRange []
      else if s.store.sections[i].state ≠ .loading then s.onlyAnswers t r .badState []
      else
        s.answeredOnly t r .ok [u8 n] ∧
        t = { s with link := t.link, store := { s.store with
          sections := s.store.sections.set i.val { s.store.sections[i] with markers := marks } i.isLt } }

/-- SEC.PUT and SEC.MARK: both statements above (R12 to R14). -/
def Obligations.LoadingSectionsTakeRecords : Prop :=
  Claims.SecPutStoresWhatFits ∧ Claims.SecMarkReplacesTheMarkers

/-- SEC.CLOSE (R15): a LOADING section becomes CHECKING, and the handler stays BUSY, with no reply yet, for 50 µs and
5 µs more for each element; in any other state the request is refused BAD_STATE. -/
def Sys2Proof.Claims.SecCloseStartsTheCheck : Prop :=
  ∀ (s : State) (r : Frame) (i : Fin 32), s.canTake r → r.kind = 0x13 → r.body.length = 1 →
    fieldU r.body 0 1 = i.val + 1 →
    ∃ t, exec .secClose s = .next t ∧
      (s.store.sections[i].state ≠ .loading → s.onlyAnswers t r .badState []) ∧
      (s.store.sections[i].state = .loading → t = { s with
        store := { s.store with
          sections := s.store.sections.set i.val { s.store.sections[i] with state := .checking } i.isLt }
        link := { s.link with
          requests := s.link.requests.tail
          handler := .closing r.tag i (s.clock + 50 + 5 * s.store.sections[i].elements.length) } })

/-- The close check is over (R17): when no item fails the section becomes READY and the reply is OK with the element
count; when one fails it returns to LOADING and the reply is CHECK_FAILED with the code and the index; the record is
otherwise as it was, and the handler is IDLE. -/
def Sys2Proof.Claims.CloseCheckDecidesTheSection : Prop :=
  ∀ (s : State) (tag : Byte) (i : Fin 32) (endsAt : Nat), s.power = .running →
    s.link.handler = .closing tag i endsAt →
    ∃ t, exec .closeCheckComplete s = .next t ∧
      let answer : SectionState × Status × List Byte := match closeCheck s.store.sections[i] with
        | none => (.ready, .ok, [u8 s.store.sections[i].elements.length])
        | some (code, index) => (.loading, .checkFailed, [u8 code, u8 index])
      t = { s with
        clock := max s.clock endsAt
        store := { s.store with
          sections := s.store.sections.set i.val { s.store.sections[i] with state := answer.1 } i.isLt }
        link := { s.link with
          handler := .idle
          replies := s.link.replies ++ [replyOf ⟨0x13, tag, []⟩ answer.2.1 s.summary answer.2.2] } }

/-- What a section must look like for the close check to find no failing item (R16). -/
def Sys2Proof.Claims.CloseCheckPassesExactly : Prop :=
  ∀ r : SectionRecord, closeCheck r = none ↔
    r.elements ≠ [] ∧ (∀ e, r.elements.head? = some e → e.start = 0) ∧
    (∀ (j : Nat) (h : j + 1 < r.elements.length), r.elements[j].start + 100 ≤ r.elements[j + 1].start) ∧
    (∀ e, r.elements.getLast? = some e → e.start + 100 ≤ r.length) ∧
    (∀ e ∈ r.elements, e.curvatureStart.natAbs ≤ 100000 ∧ e.curvatureEnd.natAbs ≤ 100000 ∧
      (e.kind = .straight → e.curvatureStart = 0 ∧ e.curvatureEnd = 0) ∧
      (e.kind = .arc → e.curvatureStart = e.curvatureEnd ∧ e.curvatureStart ≠ 0) ∧
      ∀ c, e.clearance = some c → 500 ≤ c ∧ c ≤ 6000) ∧
    (∀ m ∈ r.markers, m.chainage ≤ r.length) ∧
    (∀ (j : Nat) (h : j + 1 < r.markers.length), r.markers[j].chainage + 1000 ≤ r.markers[j + 1].chainage)

/-- The close check reports the first item that fails and, within it, the first index (R16): `fails code k` is the
table's row `code` for the element or marker `k`. -/
def Sys2Proof.Claims.CloseCheckReportsTheFirstFailure : Prop :=
  ∀ (r : SectionRecord) (code k : Nat),
    let element : (Element → Prop) → Nat → Prop := fun bad n => ∃ e, r.elements[n]? = some e ∧ bad e
    let marker : (Marker → Marker → Prop) → Nat → Prop := fun bad n =>
      0 < n ∧ ∃ a b, r.markers[n - 1]? = some a ∧ r.markers[n]? = some b ∧ bad a b
    let fails : Nat → Nat → Prop := fun item n => match item with
      | 1 => n = 0 ∧ element (fun e => e.start ≠ 0) n
      | 2 => 0 < n ∧ ∃ a b, r.elements[n - 1]? = some a ∧ r.elements[n]? = some b ∧ b.start ≤ a.start
      | 3 => element (fun e => (match r.elements[n + 1]? with | some f => f.start | none => r.length) < e.start + 100) n
      | 4 => element (fun e => e.kind = .straight ∧ (e.curvatureStart ≠ 0 ∨ e.curvatureEnd ≠ 0)) n
      | 5 => element (fun e => e.kind = .arc ∧ (e.curvatureStart ≠ e.curvatureEnd ∨ e.curvatureStart = 0)) n
      | 6 => element (fun e => 100000 < e.curvatureStart.natAbs ∨ 100000 < e.curvatureEnd.natAbs) n
      | 7 => element (fun e => ∃ c, e.clearance = some c ∧ (c < 500 ∨ 6000 < c)) n
      | 8 => ∃ m, r.markers[n]? = some m ∧ r.length < m.chainage
      | 9 => marker (fun a b => b.chainage ≤ a.chainage) n
      | 10 => marker (fun a b => b.chainage < a.chainage + 1000) n
      | 11 => n = 0 ∧ r.elements = []
      | _ => False
    closeCheck r = some (code, k) ↔
      fails code k ∧ (∀ item, item < code → ∀ n, ¬fails item n) ∧ ∀ n, n < k → ¬fails code n

/-- SEC.CLOSE, the end of its close check, and what the check finds: the four statements above (R15 to R17). -/
def Obligations.CloseChecksTheSection : Prop :=
  Claims.SecCloseStartsTheCheck ∧ Claims.CloseCheckDecidesTheSection ∧ Claims.CloseCheckPassesExactly ∧
    Claims.CloseCheckReportsTheFirstFailure

/-- The curvature of an element (R5): 0 on a STRAIGHT, κ_start on an ARC; on a SPIRAL the nearest integer to the straight
line from κ_start to κ_end, a half going away from κ_start, never outside the two, and κ_start at the element's start. -/
def Sys2Proof.Claims.ElementsGiveTheCurvature : Prop :=
  ∀ (e : Element) (stop x : Nat), e.start ≤ x → x ≤ stop → e.start < stop →
    let k := e.curvatureAt stop x
    let moved := (k - e.curvatureStart) * ((stop : Int) - e.start)
    let exact_ := (e.curvatureEnd - e.curvatureStart) * ((x : Int) - e.start)
    (e.kind = .straight → k = 0) ∧ (e.kind = .arc → k = e.curvatureStart) ∧
    (e.kind = .spiral →
      min e.curvatureStart e.curvatureEnd ≤ k ∧ k ≤ max e.curvatureStart e.curvatureEnd ∧
      (x = e.start → k = e.curvatureStart) ∧
      (2 * (moved - exact_)).natAbs ≤ stop - e.start ∧
      ((2 * (moved - exact_)).natAbs = stop - e.start → exact_.natAbs < moved.natAbs))

/-- In a READY section every chainage up to the length lies in one element, the last one with a start not above it (R4),
whose curvature is the section's there (R5), and whose clearance, or else the section default, is the section's (R6). -/
def Sys2Proof.Claims.SectionsFindTheElement : Prop :=
  ∀ (r : SectionRecord) (s : Nat), ReadySection r → s ≤ r.length →
    ∃ (j : Nat) (e : Element) (stop : Nat), r.elements[j]? = some e ∧
      stop = (match r.elements[j + 1]? with | some f => f.start | none => r.length) ∧
      e.start ≤ s ∧ (s < stop ∨ r.elements[j + 1]? = none) ∧
      r.curvature s = some (e.curvatureAt stop s) ∧ r.clearanceAt s = some (e.clearance.getD r.clearance)

/-- The curvature and the clearance at a chainage of a READY section: both statements above (R4 to R6). -/
def Obligations.CurvatureFollowsTheElement : Prop :=
  Claims.ElementsGiveTheCurvature ∧ Claims.SectionsFindTheElement

/-- SEC.JOIN with a SECTION link (R18): its checks in their order; taken, both ends link to each other and no other link
changes. -/
def Sys2Proof.Claims.SecJoinLinksBothEnds : Prop :=
  ∀ (s : State) (r : Frame) (a b : EndRef), s.canTake r → r.kind = 0x14 → r.body.length = 5 →
    fieldU r.body 0 1 = a.sec.val + 1 → fieldU r.body 1 1 = a.side.code → fieldU r.body 2 1 = 1 →
    fieldU r.body 3 1 = b.sec.val + 1 → fieldU r.body 4 1 = b.side.code →
    ∃ t, exec .secJoin s = .next t ∧
      if a = b then s.onlyAnswers t r .outOfRange []
      else if s.store.sections[a.sec].state = .free ∨ s.store.sections[b.sec].state = .free then
        s.onlyAnswers t r .noSection []
      else if (s.store.linkOf a).isPoints ∨ (s.store.linkOf b).isPoints then s.onlyAnswers t r .inPoints []
      else if 0 < s.store.sections[a.sec].occupancy ∨ 0 < s.store.sections[b.sec].occupancy then
        s.onlyAnswers t r .occupied []
      else if (s.store.linkOf a ≠ .none ∧ s.store.linkOf a ≠ .sec b.sec b.side) ∨
          (s.store.linkOf b ≠ .none ∧ s.store.linkOf b ≠ .sec a.sec a.side) then
        s.onlyAnswers t r .linkConflict []
      else
        s.answeredOnly t r .ok [] ∧ t = { s with link := t.link, store := t.store } ∧
        t.store = { s.store with sections := t.store.sections } ∧
        t.store.linkOf a = .sec b.sec b.side ∧ t.store.linkOf b = .sec a.sec a.side ∧
        (∀ e, e ≠ a → e ≠ b → t.store.linkOf e = s.store.linkOf e) ∧
        ∀ i : Fin 32, t.store.sections[i] =
          { s.store.sections[i] with low := t.store.sections[i].low, high := t.store.sections[i].high }

/-- SEC.JOIN with link NONE (R19): its checks in their order; taken, the named end and the end it was linked to become
NONE, and no other link changes. -/
def Sys2Proof.Claims.SecJoinNoneUnlinksBothEnds : Prop :=
  ∀ (s : State) (r : Frame) (a : EndRef), s.canTake r → r.kind = 0x14 → r.body.length = 5 →
    fieldU r.body 0 1 = a.sec.val + 1 → fieldU r.body 1 1 = a.side.code → fieldU r.body 2 1 = 0 →
    ∃ t, exec .secJoinNone s = .next t ∧
      if s.store.sections[a.sec].state = .free then s.onlyAnswers t r .noSection []
      else if (s.store.linkOf a).isPoints then s.onlyAnswers t r .inPoints []
      else if 0 < s.store.sections[a.sec].occupancy ∨ s.store.partnerOccupied (s.store.linkOf a) then
        s.onlyAnswers t r .occupied []
      else
        s.answeredOnly t r .ok [] ∧ t = { s with link := t.link, store := t.store } ∧
        t.store = { s.store with sections := t.store.sections } ∧
        (∀ e : EndRef, t.store.linkOf e =
          if e = a ∨ s.store.linkOf a = .sec e.sec e.side then .none else s.store.linkOf e) ∧
        ∀ i : Fin 32, t.store.sections[i] =
          { s.store.sections[i] with low := t.store.sections[i].low, high := t.store.sections[i].high }

/-- SEC.JOIN with a SECTION link and with NONE: both statements above (R18, R19). -/
def Obligations.JoinsKeepBothEndsAlike : Prop :=
  Claims.SecJoinLinksBothEnds ∧ Claims.SecJoinNoneUnlinksBothEnds

/-- SEC.DROP (R20): its checks in their order; taken, the section's slots return to the pool, the section is FREE and
empty, its partner ends become NONE, and no other section or link changes. -/
def Sys2Proof.Claims.SecDropFreesTheSection : Prop :=
  ∀ (s : State) (r : Frame) (i : Fin 32), StoreSound s.store → s.canTake r → r.kind = 0x15 → r.body.length = 1 →
    fieldU r.body 0 1 = i.val + 1 →
    ∃ t, exec .secDrop s = .next t ∧
      let linked : EndRef → Prop := fun e =>
        s.store.sections[i].low = .sec e.sec e.side ∨ s.store.sections[i].high = .sec e.sec e.side
      let pool := s.store.freePool + s.store.sections[i].elements.length
      if s.store.sections[i].state = .free then s.onlyAnswers t r .noSection []
      else if s.store.sections[i].low.isPoints ∨ s.store.sections[i].high.isPoints then
        s.onlyAnswers t r .inPoints []
      else if 0 < s.store.sections[i].occupancy ∨ s.store.partnerOccupied s.store.sections[i].low ∨
          s.store.partnerOccupied s.store.sections[i].high then
        s.onlyAnswers t r .occupied []
      else
        s.answeredOnly t r .ok (be 2 pool) ∧ t = { s with link := t.link, store := t.store } ∧
        t.store = { s.store with freePool := pool, sections := t.store.sections } ∧
        t.store.sections[i] = { SectionRecord.initial with occupancy := s.store.sections[i].occupancy } ∧
        (∀ e : EndRef, e.sec ≠ i → (linked e → t.store.linkOf e = .none) ∧
          (¬linked e → t.store.linkOf e = s.store.linkOf e)) ∧
        ∀ j : Fin 32, j ≠ i → t.store.sections[j] =
          { s.store.sections[j] with low := t.store.sections[j].low, high := t.store.sections[j].high }

/-- SEC.OPEN and SEC.DROP: both statements above (R10, R11, R20). -/
def Obligations.SectionsAreOpenedAndDropped : Prop :=
  Claims.SecOpenPreparesASection ∧ Claims.SecDropFreesTheSection

/-- SEC.GET (R21, R202): the reply of an existing section, with the element records from the start index, as many as
asked for and there; nothing changes. A count outside 1..16 is refused OUT_OF_RANGE and a FREE section NO_SECTION. -/
def Sys2Proof.Claims.SecGetReadsTheSection : Prop :=
  ∀ (s : State) (r : Frame) (i : Fin 32), s.canTake r → r.kind = 0x16 → r.body.length = 3 →
    fieldU r.body 0 1 = i.val + 1 →
    ∃ t, exec .secGet s = .next t ∧
      let count := fieldU r.body 2 1
      let sec := s.store.sections[i]
      let shown := (sec.elements.drop (fieldU r.body 1 1)).take count
      if count = 0 ∨ 16 < count then s.onlyAnswers t r .outOfRange []
      else if sec.state = .free then s.onlyAnswers t r .noSection []
      else s.onlyAnswers t r .ok ([u8 sec.state.code] ++ be 3 sec.length ++ be 2 sec.clearance ++
        [u8 sec.elements.length] ++ be 2 s.store.freePool ++ sec.low.encode ++ sec.high.encode ++
        [u8 sec.occupancy, u8 sec.markers.length] ++ (sec.markers.map Marker.encode).flatten ++
        [u8 shown.length] ++ (shown.map Element.encode).flatten)

/-- PTS.DEFINE (R22): its checks in their order; taken, the record holds the three ends with setting UNKNOWN, and the
three ends link to it in their roles. -/
def Sys2Proof.Claims.PtsDefineLinksItsMembers : Prop :=
  ∀ (s : State) (r : Frame) (i : Fin 16) (p : PointsRecord), s.canTake r → r.kind = 0x18 → r.body.length = 7 →
    fieldU r.body 0 1 = i.val + 1 → p.setting = .unknown →
    fieldU r.body 1 1 = p.toe.sec.val + 1 → fieldU r.body 2 1 = p.toe.side.code →
    fieldU r.body 3 1 = p.left.sec.val + 1 → fieldU r.body 4 1 = p.left.side.code →
    fieldU r.body 5 1 = p.right.sec.val + 1 → fieldU r.body 6 1 = p.right.side.code →
    ∃ t, exec .ptsDefine s = .next t ∧
      if p.toe = p.left ∨ p.toe = p.right ∨ p.left = p.right then s.onlyAnswers t r .outOfRange []
      else if s.store.points[i] ≠ none then s.onlyAnswers t r .badState []
      else if ∃ role ∈ allRoles, s.store.sections[(p.member role).sec].state = .free then s.onlyAnswers t r .noSection []
      else if ∃ role ∈ allRoles, 0 < s.store.sections[(p.member role).sec].occupancy then s.onlyAnswers t r .occupied []
      else if ∃ role ∈ allRoles, s.store.linkOf (p.member role) ≠ .none then s.onlyAnswers t r .linkConflict []
      else
        s.answeredOnly t r .ok [] ∧ t = { s with link := t.link, store := t.store } ∧
        t.store = { s.store with points := s.store.points.set i.val (some p) i.isLt
                                 sections := t.store.sections } ∧
        (∀ role, t.store.linkOf (p.member role) = .points i role) ∧
        (∀ e : EndRef, (∀ role, e ≠ p.member role) → t.store.linkOf e = s.store.linkOf e) ∧
        ∀ j : Fin 32, t.store.sections[j] =
          { s.store.sections[j] with low := t.store.sections[j].low, high := t.store.sections[j].high }

/-- PTS.REMOVE (R23): an undefined record is refused BAD_STATE, one with an occupied member OCCUPIED; taken, the record
is undefined and its member ends are NONE. -/
def Sys2Proof.Claims.PtsRemoveUnlinksItsMembers : Prop :=
  ∀ (s : State) (r : Frame) (i : Fin 16), s.canTake r → r.kind = 0x19 → r.body.length = 1 →
    fieldU r.body 0 1 = i.val + 1 →
    ∃ t, exec .ptsRemove s = .next t ∧
      match s.store.points[i] with
      | none => s.onlyAnswers t r .badState []
      | some p =>
        if ∃ role ∈ allRoles, 0 < s.store.sections[(p.member role).sec].occupancy then s.onlyAnswers t r .occupied []
        else
          s.answeredOnly t r .ok [] ∧ t = { s with link := t.link, store := t.store } ∧
          t.store = { s.store with points := s.store.points.set i.val none i.isLt, sections := t.store.sections } ∧
          (∀ role, t.store.linkOf (p.member role) = .none) ∧
          (∀ e : EndRef, (∀ role, e ≠ p.member role) → t.store.linkOf e = s.store.linkOf e) ∧
          ∀ j : Fin 32, t.store.sections[j] =
            { s.store.sections[j] with low := t.store.sections[j].low, high := t.store.sections[j].high }

/-- PTS.SET (R24): an undefined record is refused BAD_STATE; the setting already held changes nothing; another one is
written and handed to the path manager, behind the changes that still wait there. -/
def Sys2Proof.Claims.PtsSetHandsTheChangeOver : Prop :=
  ∀ (s : State) (r : Frame) (i : Fin 16) (setting : Setting), s.canTake r → r.kind = 0x1A → r.body.length = 2 →
    fieldU r.body 0 1 = i.val + 1 → fieldU r.body 1 1 = setting.code →
    ∃ t, exec .ptsSet s = .next t ∧
      match s.store.points[i] with
      | none => s.onlyAnswers t r .badState []
      | some p =>
        if p.setting = setting then s.onlyAnswers t r .ok []
        else
          s.answeredOnly t r .ok [] ∧
          t = { s with link := t.link, store := { s.store with
            points := s.store.points.set i.val (some { p with setting := setting }) i.isLt
            changes := s.store.changes ++ [⟨i, p.setting, setting⟩] } }

/-- PTS.DEFINE, PTS.REMOVE and PTS.SET: the three statements above (R22 to R24). -/
def Obligations.PointsRequestsWriteTheRecord : Prop :=
  Claims.PtsDefineLinksItsMembers ∧ Claims.PtsRemoveUnlinksItsMembers ∧ Claims.PtsSetHandsTheChangeOver

/-! ## The vehicle record (chapter 2) and the rounding rule -/

/-- The part's one rounding rule (R108): the nearest integer, a quotient halfway between two going to the one further
from zero. -/
def Sys2Proof.Claims.RoundingGoesToTheNearest : Prop :=
  ∀ (a : Int) (b : Nat), 0 < b →
    2 * (roundDiv a b * b - a).natAbs ≤ b ∧
    (2 * (roundDiv a b * b - a).natAbs = b → a.natAbs < (roundDiv a b * b).natAbs)

/-- The distance per count (R34) of a wheel within its ranges: the nearest number of µm to 355 × diameter × 1,000 over
113 × teeth × counts per tooth, a half going up, and within 3,142 to 125,664. -/
def Sys2Proof.Claims.DistancePerCountIsNearest : Prop :=
  ∀ (diameter teeth : Nat) (mode : CountMode), 400 ≤ diameter → diameter ≤ 800 → 20 ≤ teeth → teeth ≤ 200 →
    let n := 355 * diameter * 1000
    let q := 113 * teeth * (match mode with | .rising => 1 | .both => 2)
    let d := distancePerCount diameter teeth mode
    2 * n < 2 * q * d + q ∧ 2 * q * d ≤ 2 * n + q ∧ 3142 ≤ d ∧ d ≤ 125664

/-- The rounding rule, and the distance per count formed by it: both statements above (R34, R108). -/
def Obligations.DivisionsRoundToTheNearest : Prop :=
  Claims.RoundingGoesToTheNearest ∧ Claims.DistancePerCountIsNearest

/-- The record that a VEH.SET body gives (R28, R30, R33, R34, R204): the fields at their places, 0 for every entry of a
bogie at or above the bogie count, the wheels of the used reference slots, the distance per count of every configured
wheel, and each absent trailing field at its default. -/
def Obligations.VehicleRecordTakesTheFields : Prop :=
  ∀ body : List Byte, body.length ∈ [136, 138, 140, 142, 144, 146, 148, 149] → vehFailure body = none →
    let v := vehRecord body
    let trail : Nat → Nat → Nat → Nat := fun offset width dflt =>
      if offset + width ≤ body.length then fieldU body offset width else dflt
    v.bogieCount = fieldU body 0 1 ∧
    (∀ b : Fin 4, v.bogies[b] = if b.val < v.bogieCount then
      ⟨fieldS body (1 + 4 * b.val) 2, fieldS body (3 + 4 * b.val) 2⟩ else ⟨0, 0⟩) ∧
    (∀ c : Fin 8, v.channels[c] = if c.val < 2 * v.bogieCount then
      ⟨fieldS body (17 + 6 * c.val) 2, fieldU body (19 + 6 * c.val) 2, fieldU body (21 + 6 * c.val) 2⟩
      else ⟨0, 0, 0⟩) ∧
    (∀ w : Fin 16, if w.val < 4 * v.bogieCount then
      v.wheels[w].diameter = fieldU body (65 + 4 * w.val) 2 ∧ v.wheels[w].teeth = fieldU body (67 + 4 * w.val) 1 ∧
        v.wheels[w].mode.code = fieldU body (68 + 4 * w.val) 1 ∧
        v.wheels[w].distance = distancePerCount v.wheels[w].diameter v.wheels[w].teeth v.wheels[w].mode
      else v.wheels[w] = ⟨0, 0, .rising, 0⟩) ∧
    v.references.map (fun w => w.val) = (List.range (fieldU body 129 1)).map (fun k => fieldU body (130 + k) 1) ∧
    v.markerOffset = fieldS body 134 2 ∧ v.drift = trail 136 2 1024 ∧ v.locateAccuracy = trail 138 2 500 ∧
    v.markerAccuracy = trail 140 2 50 ∧ v.uFull = trail 142 2 200 ∧ v.uZero = trail 144 2 2000 ∧
    v.uDegrade = trail 146 2 1000 ∧ v.slip = trail 148 1 13

/-- VEH.SET (R29, R31 to R33, R36, R99, R100). With a record present, a configured channel that is not LOCKED refuses it
NOT_LOCKED, and then no standstill NOT_STANDSTILL; the first failing field refuses it OUT_OF_RANGE with its index; else
the record is replaced whole, and the period timer of every bogie runs exactly while the bogie is scheduled: one that
was running and stays scheduled runs on, one that becomes scheduled starts with its period. -/
def Obligations.VehSetReplacesTheRecord : Prop :=
  ∀ (s : State) (r : Frame), s.canTake r → r.kind = 0x20 →
    r.body.length ∈ [136, 138, 140, 142, 144, 146, 148, 149] →
    ∃ t, exec .vehSet s = .next t ∧
      let unlocked := ∃ v, s.vehicle = some v ∧
        ∃ c : Fin 8, c.val < 2 * v.bogieCount ∧ s.channels.bank[c].state ≠ .locked
      let moving := s.vehicle ≠ none ∧ s.tracker.standstill = false
      (unlocked → s.onlyAnswers t r .notLocked [0]) ∧
      (¬unlocked → moving → s.onlyAnswers t r .notStandstill [0]) ∧
      (¬unlocked → ¬moving → ∀ index, vehFailure r.body = some index →
        s.onlyAnswers t r .outOfRange [u8 index]) ∧
      (¬unlocked → ¬moving → vehFailure r.body = none →
        s.answered t r .ok [0] ∧ t.vehicle = some (vehRecord r.body) ∧
        (∀ b : Fin 4, t.acquisition.timers[b] =
          if t.schedulable b then
            (match s.acquisition.timers[b] with
              | some at_ => some at_
              | none => some (s.clock + 1000 * s.acquisition.periods[b]))
          else none) ∧
        t.acquisition = { s.acquisition with timers := t.acquisition.timers } ∧
        t = { s with vehicle := t.vehicle, acquisition := t.acquisition, computation := t.computation,
                     monitor := t.monitor, link := t.link })

/-- The field checks of VEH.SET (R31, R32): `fails k` is the tables' row for the field of index k, with the entries of
unconfigured bogies and the slots beyond the count skipped; the least failing index is reported, and where none fails,
the span check reports the wheelset offset of the B-most channel above 0 or of the A-most below 0, the lowest channel of
that offset. -/
def Obligations.VehicleFieldsFailByTheirTables : Prop :=
  ∀ body : List Byte, body.length ∈ [136, 138, 140, 142, 144, 146, 148, 149] →
    let trail : Nat → Nat → Nat → Nat := fun offset width dflt =>
      if offset + width ≤ body.length then fieldU body offset width else dflt
    let count := fieldU body 0 1
    let centre : Nat → Int := fun b => fieldS body (1 + 4 * b) 2
    let offset : Fin 8 → Int := fun c => fieldS body (17 + 6 * c.val) 2
    let slot : Nat → Nat := fun k => fieldU body (130 + k) 1
    let beyond : Nat → Nat → Nat → Prop := fun lo hi n => n < lo ∨ hi < n
    let wide : Int → Prop := fun o => 30000 < o.natAbs
    let fullTrust := trail 142 2 200
    let noTrust := trail 144 2 2000
    let ofBogie : Nat → Fin 4 → Prop := fun k b =>
      (k = 2 + 2 * b.val ∧ wide (centre b.val)) ∨ (k = 3 + 2 * b.val ∧ wide (fieldS body (3 + 4 * b.val) 2))
    let ofWheelset : Nat → Fin 8 → Prop := fun k c =>
      (k = 10 + 3 * c.val ∧ (wide (offset c) ∨ beyond 300 2500 (offset c - centre (c.val / 2)).natAbs ∨
        (c.val % 2 = 0 ∧ offset c ≤ centre (c.val / 2)) ∨ (c.val % 2 = 1 ∧ centre (c.val / 2) ≤ offset c))) ∨
      (k = 11 + 3 * c.val ∧ beyond 100 2000 (fieldU body (19 + 6 * c.val) 2)) ∨
      (k = 12 + 3 * c.val ∧ beyond 100 8000 (fieldU body (21 + 6 * c.val) 2))
    let ofWheel : Nat → Fin 16 → Prop := fun k w =>
      (k = 34 + 3 * w.val ∧ beyond 400 800 (fieldU body (65 + 4 * w.val) 2)) ∨
      (k = 35 + 3 * w.val ∧ beyond 20 200 (fieldU body (67 + 4 * w.val) 1)) ∨
      (k = 36 + 3 * w.val ∧ 1 < fieldU body (68 + 4 * w.val) 1)
    let fails : Nat → Prop := fun k =>
      (k = 1 ∧ beyond 2 4 count) ∨ (∃ b : Fin 4, b.val < count ∧ ofBogie k b) ∨
      (∃ c : Fin 8, c.val < 2 * count ∧ ofWheelset k c) ∨ (∃ w : Fin 16, w.val < 4 * count ∧ ofWheel k w) ∨
      (k = 82 ∧ beyond 1 4 (fieldU body 129 1)) ∨
      (∃ j : Fin 4, k = 83 + j.val ∧ j.val < fieldU body 129 1 ∧
        (4 * count ≤ slot j.val ∨ ∃ i : Fin 4, i < j ∧ slot i.val = slot j.val)) ∨
      (k = 87 ∧ wide (fieldS body 134 2)) ∨ (k = 88 ∧ 8192 < trail 136 2 1024) ∨
      (k = 89 ∧ beyond 10 10000 (trail 138 2 500)) ∨ (k = 90 ∧ beyond 10 2000 (trail 140 2 50)) ∨
      (k = 91 ∧ 65534 < fullTrust) ∨ (k = 92 ∧ (noTrust < 1 ∨ noTrust ≤ fullTrust)) ∨
      (k = 93 ∧ beyond fullTrust noTrust (trail 146 2 1000)) ∨ (k = 94 ∧ beyond 1 128 (trail 148 1 13))
    let spanFails : Nat → Prop := fun k => ∃ c : Fin 8, c.val < 2 * count ∧ k = 10 + 3 * c.val ∧
      (∀ d : Fin 8, d < c → offset d ≠ offset c) ∧
      ((0 < offset c ∧ ∀ d : Fin 8, d.val < 2 * count → offset c ≤ offset d) ∨
        (offset c < 0 ∧ ∀ d : Fin 8, d.val < 2 * count → offset d ≤ offset c))
    ∀ k, vehFailure body = some k ↔
      (fails k ∧ ∀ j, j < k → ¬fails j) ∨ ((∀ j, ¬fails j) ∧ spanFails k)

/-- VEH.GET (R38, R204): a present record is answered with the flag 1, its 149 bytes and the 16 distances per count; an
absent one with the flag 0 alone; nothing changes. -/
def Sys2Proof.Claims.VehGetReadsTheRecord : Prop :=
  ∀ (s : State) (r : Frame), s.canTake r → r.kind = 0x21 → r.body.length = 0 →
    ∃ t, exec .vehGet s = .next t ∧
      match s.vehicle with
      | none => s.onlyAnswers t r .ok [0]
      | some v => s.onlyAnswers t r .ok
          ([1] ++ v.encode ++ ((List.finRange 16).map fun w : Fin 16 => be 3 v.wheels[w].distance).flatten)

/-! ## The tracker (chapter 3) -/

/-- A wheel edge (R41): a rising edge counts always, a falling one in mode BOTH only; the second line gives the
direction; the pending count saturates at ±255; nothing else changes. -/
def Sys2Proof.Claims.WheelCountMovesThePendingCount : Prop :=
  ∀ (s : State) (w : Fin 16) (edge : Edge) (second : Bool), s.power = .running →
    let mode := match s.vehicle with
      | some v => v.wheels[w].mode
      | none => .rising
    let before := s.tracker.pendingCounts[w]
    let direction : Int := if (edge = .rising ↔ second = false) then 1 else -1
    let after := if edge = .rising ∨ mode = .both then max (-255) (min 255 (before + direction)) else before
    exec (.wheelCount w edge second) s = .next { s with
      tracker := { s.tracker with pendingCounts := s.tracker.pendingCounts.set w.val after w.isLt } }

/-- Stages 1 to 5 of every tick (R42 to R48), and its time: the pending counts pass into the windows, each wheel's speed
follows from its window, the reference wheels within the slip band around their median speed are valid and no others, the
vehicle speed and the tick distance are the middle of the valid wheels' or, with none, follow the held speed, the sign
follows the votes of the valid wheels, and the low-speed run and standstill follow the speed. -/
def Obligations.TickMeasuresTheWheels : Prop :=
  ∀ s : State, s.power = .running → ∃ t, exec .tick s = .next t ∧
    t.clock = max s.clock s.tracker.nextTick ∧ t.tracker.nextTick = t.clock + 1000 ∧
    t.vehicle = s.vehicle ∧ t.lines = s.lines ∧ t.acquisition = s.acquisition ∧ t.computation = s.computation ∧
    t.channels = s.channels ∧ t.pending = s.pending ∧
    (∀ w : Fin 16, t.tracker.pendingCounts[w] = 0 ∧
      t.tracker.windows[w] = s.tracker.windows[w].tail ++ [s.tracker.pendingCounts[w]] ∧
      t.tracker.wheelSpeeds[w] =
        min 25000 (roundNat (t.tracker.windows[w].sum.natAbs * s.vehicleView.wheels[w].distance) 16)) ∧
    (let v := s.vehicleView
     let speed : Fin 16 → Nat := fun w => t.tracker.wheelSpeeds[w]
     let moved : Fin 16 → Nat := fun w => s.tracker.pendingCounts[w].natAbs * v.wheels[w].distance
     ∃ med, IsMiddle med (v.references.map speed) ∧
       let inBand : Fin 16 → Bool := fun w =>
         decide (((speed w : Int) - med).natAbs ≤ max (roundNat (med * v.slip) 256) 50)
       let wheels := v.references.filter inBand
       let distance := (s.tracker.takeCounts v).tickDistance v wheels
       let forward := wheels.countP fun w => 0 < t.tracker.windows[w].sum
       let backward := wheels.countP fun w => t.tracker.windows[w].sum < 0
       (s.tracker.takeCounts v).validWheels v = wheels ∧ t.tracker.validReferences = wheels.length ∧
       (∀ k : Fin 4, t.tracker.referenceValid[k] = match v.references[k.val]? with
         | some w => inBand w
         | none => false) ∧
       (wheels = [] → t.tracker.speed = s.tracker.speed ∧ distance = 1000 * roundNat s.tracker.speed 1000) ∧
       (wheels ≠ [] → IsMiddle t.tracker.speed (wheels.map speed) ∧ IsMiddle distance (wheels.map moved)) ∧
       t.tracker.sign =
         if backward < forward then .plus else if forward < backward then .minus else s.tracker.sign) ∧
    t.tracker.lowSpeedRun = (if t.tracker.speed < 20 then min 500 (s.tracker.lowSpeedRun + 1) else 0) ∧
    t.tracker.standstill = (if t.tracker.speed < 20 then
      (t.tracker.lowSpeedRun = 500 || s.tracker.standstill) else false)

/-- A tick in UNLOCATED (R49, R52 to R55): the datum, the path, U, C and the state stay, no count or section changes, and
the published position is the tracker's own. -/
def Sys2Proof.Claims.TickInUnlocatedKeepsThePosition : Prop :=
  ∀ s : State, s.power = .running → TrackerSound s → s.tracker.state = .unlocated →
    ∃ t, exec .tick s = .next t ∧ t.store = s.store ∧ t.path = [] ∧ t.monitor = s.monitor ∧ t.link = s.link ∧
      t.tracker.state = .unlocated ∧ t.tracker.datum = none ∧ t.tracker.uncertainty = 65535000 ∧
      t.tracker.confidence = 0 ∧ t.tracker.missCount = s.tracker.missCount ∧
      t.tracker.detections = s.tracker.detections ∧ t.tracker.debounce = s.tracker.debounce ∧
      t.tracker.published = { state := .unlocated, datum := none, speed := t.tracker.speed, sign := t.tracker.sign,
                              standstill := t.tracker.standstill, uncertainty := 65535000, confidence := 0,
                              missCount := t.tracker.missCount, validReferences := t.tracker.validReferences }

/-- A tick in LOCATED or DEGRADED (R49 to R55, R79 to R83, R88): the datum is walked by the sign times the tick
distance, the path trimmed and extended around it. When the walk stays within the path and the span is covered, the new
course is in force, U has grown, and C, the state and the path's conditions follow from the values as they stand; when
not, the vehicle is lost: no datum, no path, U at its greatest and C 0. The published position carries the tracker's values
at the end of the tick (R55), and every section's occupancy count is that of the path after the tick. -/
def Sys2Proof.Claims.TickAdvancesOrLosesTheDatum : Prop :=
  ∀ (s : State) (datum : Location), s.power = .running → s.tracker.state ≠ .unlocated →
    s.tracker.datum = some datum →
    ∃ t, exec .tick s = .next t ∧
      let v := s.vehicleView
      let wheels := (s.tracker.takeCounts v).validWheels v
      let distance := (s.tracker.takeCounts v).tickDistance v wheels
      let advanced := (walk s.store s.path datum (t.tracker.sign.toInt * distance)).bind fun l =>
        let k := ((Course.mk s.path l false).trim s.store v t.tracker.sign).extend s.store v t.tracker.sign
        if (k.walkTo s.store (v.rearMost t.tracker.sign)).isSome ∧
          (k.walkTo s.store (v.frontMost t.tracker.sign)).isSome then some k else none
      (match advanced with
        | none => t.path = [] ∧ t.tracker.datum = none ∧ t.tracker.state = .unlocated ∧
            t.tracker.uncertainty = 65535000 ∧ t.tracker.confidence = 0 ∧
            t.present (ofVehicle .geometryUnknownAhead) = false ∧ t.present (ofVehicle .pathFull) = false ∧
            .position .loss 0 0 0 t.tracker.published ∈ t.link.notices
        | some k =>
            let mismatch := s.present (ofVehicle .geometryMismatch)
            t.path = k.path ∧ t.tracker.datum = some k.datum ∧
            t.tracker.uncertainty = min 65535000 (s.tracker.uncertainty +
              roundNat (distance * v.drift * (if wheels.length < 2 then 4 else 1)) 65536) ∧
            t.tracker.confidence = confidenceOf v mismatch t.tracker.uncertainty ∧
            t.tracker.state = trackerStateOf v mismatch t.tracker.uncertainty s.tracker.missCount ∧
            t.present (ofVehicle .geometryUnknownAhead) =
              (k.walkTo s.store (v.reachTarget t.tracker.sign)).isNone ∧
            t.present (ofVehicle .pathFull) = k.full ∧
            (t.tracker.state ≠ s.tracker.state → .position .state 0 0 0 t.tracker.published ∈ t.link.notices)) ∧
      PublishedAsTracked t ∧
      t.tracker.missCount = s.tracker.missCount ∧ t.tracker.detections = s.tracker.detections ∧
      t.present (ofVehicle .pointsMovedUnder) = (t.path.any fun e => e.moved) ∧
      t.present (ofVehicle .unlocated) = decide (t.tracker.state = .unlocated) ∧
      t.present (ofVehicle .positionDegraded) = decide (t.tracker.state = .degraded) ∧
      ∀ i : Fin 32, t.store.sections[i] =
        { s.store.sections[i] with occupancy := t.path.countP fun e => e.sec = i }

/-- The stages 6 to 9 of a tick in every tracker state: both statements above. -/
def Obligations.TickFollowsTheTrackerState : Prop :=
  Claims.TickInUnlocatedKeepsThePosition ∧ Claims.TickAdvancesOrLosesTheDatum

/-- Confidence and tracker state (R53, R54): C by the table of R53 with the quotient truncated, capped at 64 under a
mismatch, never above 256; DEGRADED exactly when U in mm is above U_degrade, three markers in a row were missed, or
there is a mismatch, and LOCATED otherwise. -/
def Obligations.ConfidenceAndStateFollowTheTables : Prop :=
  ∀ (v : VehicleRecord) (mismatch : Bool) (u misses : Nat),
    let mm := roundNat u 1000
    let c := confidenceOf v mismatch u
    let bound := if mismatch then 64 else 256
    c ≤ bound ∧ (mm ≤ v.uFull → c = bound) ∧ (v.uFull < mm → v.uZero ≤ mm → c = 0) ∧
    (v.uFull < mm → mm < v.uZero → ∃ q, q * (v.uZero - v.uFull) ≤ 256 * (v.uZero - mm) ∧
      256 * (v.uZero - mm) < (q + 1) * (v.uZero - v.uFull) ∧ c = min bound q) ∧
    (trackerStateOf v mismatch u misses = .degraded ↔ v.uDegrade < mm ∨ 3 ≤ misses ∨ mismatch = true) ∧
    (trackerStateOf v mismatch u misses = .located ↔ ¬(v.uDegrade < mm ∨ 3 ≤ misses ∨ mismatch = true))

/-- POS.LOCATE (R56, R57, R84, R85): the chainage's range, the record, the section, its length and the span are checked
in this order; taken, the candidate course replaces the path, U is the locate accuracy, the miss count 0, C, the state
and the path's conditions follow, the position is published with an N.POS of cause LOCATE, and the windows, speeds,
sign and standstill stay. -/
def Sys2Proof.Claims.PosLocateSetsTheDatum : Prop :=
  ∀ (s : State) (r : Frame) (i : Fin 32) (o : Orientation), s.canTake r → r.kind = 0x38 → r.body.length = 5 →
    fieldU r.body 0 1 = i.val + 1 → fieldU r.body 4 1 = o.code →
    ∃ t, exec .posLocate s = .next t ∧
      let chainage := fieldU r.body 1 3
      if 16000000 < chainage then s.onlyAnswers t r .outOfRange []
      else match s.vehicle with
      | none => s.onlyAnswers t r .noVehicle []
      | some v =>
        if s.store.sections[i].state ≠ .ready then s.onlyAnswers t r .noPath []
        else if s.store.sections[i].length < chainage then s.onlyAnswers t r .outOfRange []
        else match candidateCourse s.store v s.tracker.sign i chainage o with
        | none => s.onlyAnswers t r .noPath []
        | some k =>
          let mismatch := s.present (ofVehicle .geometryMismatch)
          s.answered t r .ok t.tracker.published.encode ∧ t.path = k.path ∧
          t.tracker = { s.tracker with
            datum := some k.datum
            uncertainty := 1000 * v.locateAccuracy
            missCount := 0
            confidence := confidenceOf v mismatch (1000 * v.locateAccuracy)
            state := trackerStateOf v mismatch (1000 * v.locateAccuracy) 0
            published := t.tracker.published } ∧
          PublishedAsTracked t ∧
          .position .locate 0 0 0 t.tracker.published ∈ t.link.notices ∧
          t.present (ofVehicle .geometryUnknownAhead) =
            (k.walkTo s.store (v.reachTarget s.tracker.sign)).isNone ∧
          t.present (ofVehicle .pathFull) = k.full ∧ t.present (ofVehicle .pointsMovedUnder) = false ∧
          t.present (ofVehicle .unlocated) = false ∧
          (∀ i : Fin 32, t.store.sections[i] =
            { s.store.sections[i] with occupancy := t.path.countP fun e => e.sec = i }) ∧
          t = { s with store := { s.store with sections := t.store.sections }, path := t.path,
                       tracker := t.tracker, monitor := t.monitor, link := t.link }

/-- The candidate course of a POS.LOCATE (R84): it holds at most 16 entries, none marked, its B-most entry has no entry
via, and its datum stands in an entry of the named section and orientation at the named chainage. -/
def Sys2Proof.Claims.CandidateCourseKeepsItsSeed : Prop :=
  ∀ (g : Store) (v : VehicleRecord) (sign : Sign) (i : Fin 32) (chainage : Nat) (o : Orientation) (k : Course),
    candidateCourse g v sign i chainage o = some k →
    k.path.length ≤ 16 ∧ (∀ e ∈ k.path, e.moved = false) ∧ (∀ e, k.path.head? = some e → e.via = none) ∧
    k.datum.chainage = 1000 * (chainage : Int) ∧
    (∃ e, k.path[k.datum.entry]? = some e ∧ e.sec = i ∧ e.orientation = o) ∧
    (k.walkTo g (v.rearMost sign)).isSome ∧ (k.walkTo g (v.frontMost sign)).isSome

/-- POS.LOCATE with the course it builds: both statements above (R56, R57, R84, R85). -/
def Obligations.PosLocateBuildsItsPath : Prop :=
  Claims.PosLocateSetsTheDatum ∧ Claims.CandidateCourseKeepsItsSeed

/-- POS.GET (R59, R91, R206): the position record, four wheel slots, and the path entry by entry; nothing changes. What a
slot shows between a VEH.SET and the next tick is the model's choice (log entry 27). -/
def Sys2Proof.Claims.PosGetReadsPositionAndPath : Prop :=
  ∀ (s : State) (r : Frame), s.canTake r → r.kind = 0x39 → r.body.length = 0 →
    ∃ t, exec .posGet s = .next t ∧
      let slot : Fin 4 → List Byte := fun k => match s.vehicleView.references[k.val]? with
        | none => [0, 0, 0, 0]
        | some w => [u8 w.val] ++ be 2 s.tracker.wheelSpeeds[w] ++ [flag s.tracker.referenceValid[k]]
      let entry : PathEntry → List Byte := fun e =>
        [u8 (e.sec.val + 1), u8 e.orientation.code] ++ match e.via with
          | none => [0, 0, 0]
          | some .link => [1, 0, 0]
          | some (.points id branch) => [2, u8 (id.val + 1), u8 branch.code]
      s.onlyAnswers t r .ok (s.tracker.published.encode ++ slot 0 ++ slot 1 ++ slot 2 ++ slot 3 ++
        [u8 s.path.length] ++ (s.path.map entry).flatten)

/-- The marker input and its debounce (R61): a change to the level waited for starts a wait of 2 ms, a change away from
it stops the wait; a wait for active that is over is a detection and turns to waiting for inactive; a wait for inactive
that is over turns back. That a change to the level already standing, which cannot occur, leaves the state is the model's
choice (log entry 1). -/
def Sys2Proof.Claims.MarkerInputIsDebounced : Prop :=
  ∀ s : State, s.power = .running →
    (∀ active, s.lines.marker ≠ active →
      let wanted := match s.tracker.debounce with
        | .waitActive => true
        | .waitInactive => false
      exec (.markerInputChange active) s = .next { s with
        lines := { s.lines with marker := active }
        tracker := { s.tracker with debounceEnd := if active = wanted then some (s.clock + 2000) else none } }) ∧
    (∀ active, s.lines.marker = active → exec (.markerInputChange active) s = .next s) ∧
    (∀ ends, s.tracker.debounceEnd = some ends → s.tracker.debounce = .waitActive →
      exec .markerDetection s = .next { s with
        clock := max s.clock ends
        tracker := { s.tracker with debounce := .waitInactive, debounceEnd := none,
                                    detections := s.tracker.detections + 1 } }) ∧
    (∀ ends, s.tracker.debounceEnd = some ends → s.tracker.debounce = .waitInactive →
      exec .markerDebounceRelease s = .next { s with
        clock := max s.clock ends
        tracker := { s.tracker with debounce := .waitActive, debounceEnd := none } })

/-- The tracker's two inputs, the wheel pickups and the marker detector: both statements above (R41, R61), with the model's
choice of log entry 1. -/
def Obligations.TrackerInputsAreTaken : Prop :=
  Claims.WheelCountMovesThePendingCount ∧ Claims.MarkerInputIsDebounced

/-- A detection is resolved (R62 to R64, R66): in UNLOCATED it only counts MARKER_MISS, and no N.POS is queued. In LOCATED or DEGRADED, a match
walks the datum by the Δ of the candidate taken, sets U to the marker accuracy and the miss count to 0 and counts
MARKER_MATCH; a miss counts MARKER_MISS and adds one to the miss count, up to 255, with the datum and U kept. Either way
C and the state are derived, the position is published, an N.POS is queued, and the path stays. -/
def Obligations.MarkerResolveMatchesOrMisses : Prop :=
  ∀ s : State, s.power = .running → 0 < s.tracker.detections →
    ∃ t, exec .markerResolve s = .next t ∧
      t = { s with tracker := t.tracker, monitor := t.monitor, link := { s.link with notices := t.link.notices } } ∧
      let v := s.vehicleView
      let mismatch := s.present (ofVehicle .geometryMismatch)
      let derived : Option Location → Nat → Nat → Prop := fun datum u misses =>
        t.tracker = { s.tracker with
          detections := s.tracker.detections - 1
          datum := datum
          uncertainty := u
          missCount := misses
          confidence := confidenceOf v mismatch u
          state := trackerStateOf v mismatch u misses
          published := t.tracker.published } ∧
        PublishedAsTracked t
      if s.tracker.state = .unlocated then
        t.tracker = { s.tracker with detections := s.tracker.detections - 1 } ∧
        s.counted t (vehicleCounter .markerMiss) ∧
        ∀ cause sec index delta p, .position cause sec index delta p ∈ t.link.notices ↔
          .position cause sec index delta p ∈ s.link.notices
      else match matchMarker s.store v s.path s.tracker.published with
      | some (c, l) =>
        derived (some l) (1000 * v.markerAccuracy) 0 ∧ s.counted t (vehicleCounter .markerMatch) ∧
        .position .matched (c.sec.val + 1) c.index (roundDiv c.delta 1000) t.tracker.published ∈ t.link.notices
      | none =>
        derived s.tracker.datum s.tracker.uncertainty (min 255 (s.tracker.missCount + 1)) ∧
        s.counted t (vehicleCounter .markerMiss) ∧
        .position .missed 0 0 0 t.tracker.published ∈ t.link.notices

/-- The candidate taken at a match (R63): its |Δ| is the least; of candidates with that |Δ| on the two sides it is the
one ahead in the travel direction; of those with its Δ, none stands in an entry further along the travel direction. -/
def Sys2Proof.Claims.NearestMarkerIsTaken : Prop :=
  ∀ (sign : Sign) (l : List Candidate), (l ≠ [] → ∃ c, bestCandidate sign l = some c) ∧
    ∀ c, bestCandidate sign l = some c → c ∈ l ∧ ∀ d ∈ l,
      c.delta.natAbs ≤ d.delta.natAbs ∧
      (d.delta.natAbs = c.delta.natAbs → d.delta ≠ c.delta → 0 < sign.toInt * c.delta) ∧
      (d.delta = c.delta → 0 ≤ sign.toInt * ((c.entry : Int) - d.entry))

/-- The candidates of a detection (R62): for every entry of the path and every marker of its section, the marker with its
path distance Δ from the detector location, exactly when |Δ| is at most 1,000 times the greater of its half-width and U
in mm. -/
def Sys2Proof.Claims.CandidatesLieInTheWindow : Prop :=
  ∀ (g : Store) (path : List PathEntry) (detector : Location) (uMm : Nat) (c : Candidate),
    c ∈ candidates g path detector uMm ↔
      ∃ e m, path[c.entry]? = some e ∧ c.sec = e.sec ∧ g.sections[e.sec].markers[c.index]? = some m ∧
        c.delta = pathDistance g path detector ⟨c.entry, 1000 * (m.chainage : Int)⟩ ∧
        c.delta.natAbs ≤ 1000 * max m.halfWidth uMm

/-- A match (R62, R63): the published datum walked by the detector offset gives the detector location, the best of its
candidates within U is taken, and the datum walked by its Δ is the corrected datum. A walk that leaves the path, or no
candidate, is no match. -/
def Sys2Proof.Claims.MatchWalksTheDatum : Prop :=
  ∀ (g : Store) (v : VehicleRecord) (path : List PathEntry) (p : Published) (c : Candidate) (l : Location),
    matchMarker g v path p = some (c, l) ↔
      ∃ d detector, p.datum = some d ∧ walk g path d.location (1000 * v.markerOffset) = some detector ∧
        bestCandidate p.sign (candidates g path detector (roundNat p.uncertainty 1000)) = some c ∧
        walk g path d.location c.delta = some l

/-- The candidates, the one taken, and the match: the three statements above (R62, R63). -/
def Obligations.NearestMarkerInTheWindowIsTaken : Prop :=
  Claims.CandidatesLieInTheWindow ∧ Claims.NearestMarkerIsTaken ∧ Claims.MatchWalksTheDatum

/-! ## The vehicle path (chapter 4) -/

/-- Walking and the path distance agree (R72, R74): a walk by d from a location within its section ends, if it stays on
the path, at a location within its section whose path distance is d; and it leaves the path exactly when the distance
from the path's B-side end would fall below 0 or above the length of the whole path. -/
def Sys2Proof.Claims.WalkEndsAtItsPathDistance : Prop :=
  ∀ (g : Store) (path : List PathEntry) (l : Location) (d : Int) (e : PathEntry), path[l.entry]? = some e →
    0 ≤ l.chainage → l.chainage ≤ 1000 * (g.sections[e.sec].length : Int) →
    (∀ m, walk g path l d = some m → pathDistance g path l m = d ∧
      ∃ f, path[m.entry]? = some f ∧ 0 ≤ m.chainage ∧ m.chainage ≤ 1000 * (g.sections[f.sec].length : Int)) ∧
    (walk g path l d = none ↔
      reachOf g path l + d < 0 ∨ (path.map fun f => 1000 * (g.sections[f.sec].length : Int)).sum < reachOf g path l + d)

/-- The path distance (R74): within one entry it rises with the chainage in an UP entry and falls with it in a DOWN entry;
toward the A-end it is the distance to the A-side end of the first entry, the lengths of the entries between, and the
distance from the B-side end of the last one; the other way it is the negative. -/
def Sys2Proof.Claims.PathDistanceFollowsTheEntries : Prop :=
  ∀ (g : Store) (path : List PathEntry) (x y : Location) (e f : PathEntry),
    path[x.entry]? = some e → path[y.entry]? = some f →
    let length : PathEntry → Int := fun k => 1000 * (g.sections[k.sec].length : Int)
    pathDistance g path y x = -pathDistance g path x y ∧
    (x.entry = y.entry → e.orientation = .up → pathDistance g path x y = y.chainage - x.chainage) ∧
    (x.entry = y.entry → e.orientation = .down → pathDistance g path x y = x.chainage - y.chainage) ∧
    (x.entry < y.entry → pathDistance g path x y = (length e - fromBSide g e x.chainage) +
      (((path.take y.entry).drop (x.entry + 1)).map length).sum + fromBSide g f y.chainage)

/-- A walk that reaches a section end exactly ends in the entry it was walking through (R72): from a location within its
section, the walk by the distance to the A-side end of an entry toward A, or to the B-side end of one toward B, ends in
that entry at that end; and one that ends in another entry toward A has left that entry's B-side end, and one toward B
its A-side end. -/
def Sys2Proof.Claims.WalkStopsAtTheEndItReaches : Prop :=
  ∀ (g : Store) (path : List PathEntry) (l : Location) (e : PathEntry), path[l.entry]? = some e →
    0 ≤ l.chainage → l.chainage ≤ 1000 * (g.sections[e.sec].length : Int) →
    (∀ j f, path[j]? = some f → (j = l.entry ∨ (l.entry < j ∧ 0 < g.sections[f.sec].length)) →
      walk g path l (pathDistance g path l ⟨j, aSideEnd g f⟩) = some ⟨j, aSideEnd g f⟩) ∧
    (∀ j f, path[j]? = some f → (j = l.entry ∨ (j < l.entry ∧ 0 < g.sections[f.sec].length)) →
      walk g path l (pathDistance g path l ⟨j, bSideEnd g f⟩) = some ⟨j, bSideEnd g f⟩) ∧
    ∀ d m f, walk g path l d = some m → path[m.entry]? = some f →
      (l.entry < m.entry → 0 < d ∧ 0 < fromBSide g f m.chainage) ∧
      (m.entry < l.entry → d < 0 ∧ fromBSide g f m.chainage < 1000 * (g.sections[f.sec].length : Int))

/-- The walk, the path distance, and where a walk stands at a section end: the three statements above (R72, R74). -/
def Obligations.WalkEndsAtItsPathDistance : Prop :=
  Claims.WalkEndsAtItsPathDistance ∧ Claims.PathDistanceFollowsTheEntries ∧ Claims.WalkStopsAtTheEndItReaches

/-- A points change (R86) that meets no path, or whose new setting is the latched branch at every joint through the
points, or that names points no joint passes, is taken and leaves the path, its conditions and the tracker as they
are. That nothing happens with no change handed over is the model's choice (log entry 1). -/
def Obligations.PointsChangeMayLeaveThePath : Prop :=
  ∀ s : State, s.power = .running → PathSound s →
    (s.present (ofVehicle .pointsMovedUnder) = true ↔ ∃ e ∈ s.path, e.moved = true) →
    (s.store.changes = [] → exec .pointsChange s = .next s) ∧
    (∀ c rest, s.store.changes = c :: rest →
      (s.tracker.datum = none ∨ s.store.points[c.points] = none ∨
        ∀ e ∈ s.path, ∀ b, e.via = some (.points c.points b) → c.after.code = b.code) →
      exec .pointsChange s = .next { s with store := { s.store with changes := rest } })

/-- A points change that differs from the latched branch of the one joint of the path through these points (R86 to R88),
the joint of the entry at place j. With a wheelset or the datum on the toe side only, the entries of the branch side
leave; with one on either side, the entry is marked; with none on the toe side, nothing changes. The occupancy counts
and POINTS_MOVED_UNDER follow the path, and after a removal GEOMETRY_UNKNOWN_AHEAD is judged. -/
def Sys2Proof.Claims.PointsChangeClassifiesTheJoint : Prop :=
  ∀ (s : State) (c : PointsChange) (rest : List PointsChange) (p : PointsRecord) (datum : Location)
    (onB onA : List PathEntry) (e : PathEntry) (branch : Branch), s.power = .running →
    s.store.changes = c :: rest → s.tracker.datum = some datum → s.store.points[c.points] = some p →
    s.path = onB ++ e :: onA → onB ≠ [] → e.via = some (.points c.points branch) → c.after.code ≠ branch.code →
    (∀ f ∈ onB ++ onA, ∀ b, f.via ≠ some (.points c.points b)) →
    ∃ t, exec .pointsChange s = .next t ∧
      let held := heldPlaces s.store s.vehicleView s.path datum
      let holdsB := ∃ n ∈ held, n < onB.length
      let holdsA := ∃ n ∈ held, onB.length ≤ n
      let toeOnA := p.toe = ⟨e.sec, e.orientation.bSide⟩
      let unknownAhead := (walkDatum t.store t.path t.tracker.datum
        (s.vehicleView.reachTarget s.tracker.sign)).isNone
      (toeOnA → holdsA → ¬holdsB →
        t.path = { e with via := none, moved := false } :: onA ∧
        t.tracker = s.tracker.dropEntries onB.length ∧
        t.tracker.datum = some { datum with entry := datum.entry - onB.length } ∧
        t.present (ofVehicle .geometryUnknownAhead) = unknownAhead) ∧
      (¬toeOnA → holdsB → ¬holdsA →
        t.path = onB ∧ t.tracker = s.tracker ∧ t.present (ofVehicle .geometryUnknownAhead) = unknownAhead) ∧
      (holdsB → holdsA → t.path = onB ++ { e with moved := true } :: onA ∧ t.tracker = s.tracker ∧
        t.present (ofVehicle .geometryUnknownAhead) = s.present (ofVehicle .geometryUnknownAhead)) ∧
      (¬(if toeOnA then holdsA else holdsB) → t.path = s.path ∧ t.tracker = s.tracker) ∧
      t.present (ofVehicle .pointsMovedUnder) = (t.path.any fun f => f.moved) ∧
      t.present (ofVehicle .pathFull) = s.present (ofVehicle .pathFull) ∧
      (∀ i : Fin 32, t.store.sections[i] =
        { s.store.sections[i] with occupancy := t.path.countP fun f => f.sec = i }) ∧
      t = { s with store := { s.store with sections := t.store.sections, changes := rest }, path := t.path,
                   tracker := t.tracker, monitor := t.monitor, link := { s.link with notices := t.link.notices } }

/-- A points change over a path with any number of joints through the points (R86 to R88): each joint whose latched
branch differs is classified on its own, by the places of the wheelsets and the datum; then every entry on the branch
side of a joint with only its toe side held leaves, and the joints held on both sides are marked. `lo` is the first place
kept and `hi` the place behind the last one. -/
def Sys2Proof.Claims.PointsChangeClassifiesEveryJoint : Prop :=
  ∀ (s : State) (c : PointsChange) (rest : List PointsChange) (p : PointsRecord) (datum : Location),
    s.power = .running → s.store.changes = c :: rest → s.tracker.datum = some datum →
    s.store.points[c.points] = some p →
    ∃ t, exec .pointsChange s = .next t ∧
      let held := heldPlaces s.store s.vehicleView s.path datum
      let joint : Nat → (PathEntry → Prop) → Prop := fun j meets => ∃ e branch, s.path[j]? = some e ∧
        e.via = some (.points c.points branch) ∧ c.after.code ≠ branch.code ∧ meets e
      let onB : Nat → Prop := fun j => ∃ n ∈ held, n < j
      let onA : Nat → Prop := fun j => ∃ n ∈ held, j ≤ n
      let leavesB : Nat → Prop := fun j =>
        joint j fun e => p.toe = ⟨e.sec, e.orientation.bSide⟩ ∧ onA j ∧ ¬onB j
      let leavesA : Nat → Prop := fun j =>
        joint j fun e => p.toe ≠ ⟨e.sec, e.orientation.bSide⟩ ∧ onB j ∧ ¬onA j
      let marked : Nat → Prop := fun j => joint j fun _ => onB j ∧ onA j
      ∃ lo hi : Nat, (∀ j, leavesB j → j ≤ lo) ∧ (lo = 0 ∨ leavesB lo) ∧ (∀ j, leavesA j → hi ≤ j) ∧
        (hi = s.path.length ∨ leavesA hi) ∧ t.path.length = hi - lo ∧
        (∀ i e, i < hi - lo → s.path[lo + i]? = some e →
          (i = 0 → lo ≠ 0 → t.path[0]? = some { e with via := none, moved := false }) ∧
          ((i ≠ 0 ∨ lo = 0) → (marked (lo + i) → t.path[i]? = some { e with moved := true }) ∧
            (¬marked (lo + i) → t.path[i]? = some e))) ∧
        t.tracker = s.tracker.dropEntries lo ∧
        t.present (ofVehicle .pointsMovedUnder) = (t.path.any fun e => e.moved) ∧
        t.present (ofVehicle .pathFull) = s.present (ofVehicle .pathFull) ∧
        ((∃ j, leavesB j ∨ leavesA j) → t.present (ofVehicle .geometryUnknownAhead) =
          (walkDatum t.store t.path t.tracker.datum (s.vehicleView.reachTarget s.tracker.sign)).isNone) ∧
        ((¬∃ j, leavesB j ∨ leavesA j) →
          t.present (ofVehicle .geometryUnknownAhead) = s.present (ofVehicle .geometryUnknownAhead))

/-- The places that a points change looks at (R86): that of the datum, and that of every configured channel's wheelset
whose walk from the datum stays on the path; a wheelset whose walk fails is at none. The datum, and that of the published
position, keep their entry when entries leave at the B-end (R68). -/
def Sys2Proof.Claims.PlacesHeldAreTheVehicles : Prop :=
  (∀ (g : Store) (v : VehicleRecord) (path : List PathEntry) (datum : Location) (n : Nat),
    n ∈ heldPlaces g v path datum ↔ n = datum.entry ∨
      ∃ (c : Fin 8) (l : Location), c.val < 2 * v.bogieCount ∧
        walk g path datum (1000 * v.channels[c].offset) = some l ∧ l.entry = n) ∧
  ∀ (n : Nat) (t : Tracker),
    t.dropEntries n = { t with datum := (t.dropEntries n).datum, published := (t.dropEntries n).published } ∧
    (t.dropEntries n).published = { t.published with datum := (t.dropEntries n).published.datum } ∧
    (t.datum = none → (t.dropEntries n).datum = none) ∧
    (∀ l, t.datum = some l → (t.dropEntries n).datum = some ⟨l.entry - n, l.chainage⟩) ∧
    (t.published.datum = none → (t.dropEntries n).published.datum = none) ∧
    ∀ d, t.published.datum = some d → (t.dropEntries n).published.datum =
      some ⟨⟨d.location.entry - n, d.location.chainage⟩, d.sec, d.orientation⟩

/-- A points change at one joint and at any number of them, with the places it looks at: the three statements above (R68,
R86 to R88). -/
def Obligations.PointsChangeClassifiesTheJoint : Prop :=
  Claims.PointsChangeClassifiesTheJoint ∧ Claims.PointsChangeClassifiesEveryJoint ∧ Claims.PlacesHeldAreTheVehicles

/-- The span of a vehicle (R39, R76): the B-most and A-most wheelset offsets are the least and the greatest of the
configured ones, the rear-most and front-most follow the sign, and the reach target lies 3,000 mm beyond the
front-most. -/
def Sys2Proof.Claims.SpanFollowsTheWheelsets : Prop :=
  ∀ v : VehicleRecord, 1 ≤ v.bogieCount →
    (∃ c : Fin 8, c.val < 2 * v.bogieCount ∧ v.channels[c].offset = v.bMost) ∧
    (∃ c : Fin 8, c.val < 2 * v.bogieCount ∧ v.channels[c].offset = v.aMost) ∧
    (∀ c : Fin 8, c.val < 2 * v.bogieCount → v.bMost ≤ v.channels[c].offset ∧ v.channels[c].offset ≤ v.aMost) ∧
    v.rearMost .plus = v.bMost ∧ v.frontMost .plus = v.aMost ∧ v.reachTarget .plus = v.aMost + 3000 ∧
    v.rearMost .minus = v.aMost ∧ v.frontMost .minus = v.bMost ∧ v.reachTarget .minus = v.bMost - 3000

/-- One extension (R71, R77 to R79), from the outer entry `e` of a path at one side: the end link of its outer end says
what lies beyond; a READY section is added with the orientation that the entered end gives and the joint in the entry via
of the joint's A-side entry; every other case stops with its reason, and so does a 17th entry. -/
def Sys2Proof.Claims.ExtensionFollowsTheEndLink : Prop :=
  ∀ (g : Store) (side : Side) (path : List PathEntry) (e : PathEntry),
    (side = .aEnd → path.getLast? = some e) → (side = .bEnd → path.head? = some e) →
    let atHigh := decide (side = .aEnd) == decide (e.orientation = .up)
    let outer := if atHigh then g.sections[e.sec].high else g.sections[e.sec].low
    let added : EndRef → Via → Except StopReason (List PathEntry) := fun entered via =>
      if g.sections[entered.sec].state ≠ .ready then .error .notReady
      else if 16 ≤ path.length then .error .full
      else match side, entered.side with
        | .aEnd, .low => .ok (path ++ [⟨entered.sec, .up, some via, false⟩])
        | .aEnd, .high => .ok (path ++ [⟨entered.sec, .down, some via, false⟩])
        | .bEnd, .low => .ok (⟨entered.sec, .down, none, false⟩ :: { e with via := some via, moved := false } :: path.tail)
        | .bEnd, .high => .ok (⟨entered.sec, .up, none, false⟩ :: { e with via := some via, moved := false } :: path.tail)
    (outer = .none → extendOnce g side path = .error .endOfLine) ∧
    (∀ target end_, outer = .sec target end_ → extendOnce g side path = added ⟨target, end_⟩ .link) ∧
    (∀ id role p, outer = .points id role → g.points[id] = some p →
      (role = .toe → p.setting = .left → extendOnce g side path = added p.left (.points id .left)) ∧
      (role = .toe → p.setting = .right → extendOnce g side path = added p.right (.points id .right)) ∧
      (role = .toe → p.setting = .unknown → extendOnce g side path = .error .pointsUnknown) ∧
      (role = .left → extendOnce g side path = added p.toe (.points id .left)) ∧
      (role = .right → extendOnce g side path = added p.toe (.points id .right)))

/-- Extension at a side for a target (R78 to R80, R84): it ends with the walk to the target on the path or with an
extension that stops, it says FULL exactly when that stop is for capacity, it never goes beyond 16 entries, and it keeps
every entry and the datum's: entries join at the A-end behind the path, or at the B-end before it, where the old B-most
entry takes the joint. The course is extended at the rear for the rear-most wheelset and then at the front for the reach
target. -/
def Sys2Proof.Claims.ExtensionGoesToItsTarget : Prop :=
  (∀ (g : Store) (side : Side) (offset : Int) (k : Course),
    let m := extendTo g side offset 17 k
    ((m.walkTo g offset).isSome = true ∨ ∃ reason, extendOnce g side m.path = .error reason) ∧
    (m.full = true ↔ k.full = true ∨ ((m.walkTo g offset).isNone = true ∧ extendOnce g side m.path = .error .full)) ∧
    m.path.length ≤ max 16 k.path.length ∧
    (side = .aEnd → m.datum = k.datum ∧ ∃ more, m.path = k.path ++ more) ∧
    (side = .bEnd → ∃ more, m.path.drop (more + 1) = k.path.tail ∧ m.path.length = more + k.path.length ∧
      m.datum = { k.datum with entry := k.datum.entry + more } ∧
      ∀ e, k.path.head? = some e → ∃ f, m.path[more]? = some f ∧ f.sec = e.sec ∧ f.orientation = e.orientation ∧
        (more = 0 → f = e) ∧ (more ≠ 0 → f.via ≠ none ∧ f.moved = false))) ∧
  ∀ (g : Store) (v : VehicleRecord) (k : Course),
    k.extend g v .plus = extendTo g .aEnd (v.reachTarget .plus) 17 (extendTo g .bEnd (v.rearMost .plus) 17 k) ∧
    k.extend g v .minus = extendTo g .bEnd (v.reachTarget .minus) 17 (extendTo g .aEnd (v.rearMost .minus) 17 k)

/-- Trimming (R81): where the walk to the rear-most wheelset leaves the path nothing is trimmed; else the entries beyond
the one it ends in leave at the rear, the first entry kept at the B-end dropping its entry via and its mark, and the datum
stays with its entry. -/
def Sys2Proof.Claims.TrimmingCutsTheRear : Prop :=
  ∀ (g : Store) (v : VehicleRecord) (sign : Sign) (k : Course),
    let m := k.trim g v sign
    m.full = k.full ∧
    (k.walkTo g (v.rearMost sign) = none → m = k) ∧
    ∀ l, k.walkTo g (v.rearMost sign) = some l →
      (sign = .minus → m.path = k.path.take (l.entry + 1) ∧ m.datum = k.datum) ∧
      (sign = .plus → m.path.length = k.path.length - l.entry ∧
        m.datum = { k.datum with entry := k.datum.entry - l.entry } ∧
        (∀ i, 0 < i → m.path[i]? = k.path[l.entry + i]?) ∧
        ∀ e, k.path[l.entry]? = some e →
          m.path[0]? = some (if l.entry = 0 then e else { e with via := none, moved := false }))

/-- How the path grows at its outer ends and is trimmed at its rear: the four statements above (R39, R71, R76 to R81,
R84). -/
def Obligations.PathGrowsAndIsTrimmed : Prop :=
  Claims.SpanFollowsTheWheelsets ∧ Claims.ExtensionFollowsTheEndLink ∧ Claims.ExtensionGoesToItsTarget ∧
    Claims.TrimmingCutsTheRear

/-! ## The acquisition unit (chapter 5) -/

/-- STG.SET (R94, R95, R99, R100): NO_VEHICLE without a record, NOT_LOCKED unless every channel of the old and the new
owner is LOCKED, DUPLICATE when another stage holds the role, each with the schedule records; taken, the entry is
replaced whole, and the timers of all bogies run exactly while they are scheduled. An owner of NONE releases the entry,
whatever the other fields. -/
def Obligations.StgSetReplacesTheEntry : Prop :=
  ∀ (s : State) (r : Frame) (i : Fin 32) (e : StageEntry), ScansSound s → s.canTake r → r.kind = 0x30 →
    r.body.length = 16 → fieldU r.body 0 1 = i.val →
    ((e = StageEntry.released ∧ fieldU r.body 1 1 = 255) ∨
      (∃ (b : Fin 4) (role : Role),
        e = ⟨some b, some role, fieldU r.body 3 1, fieldS r.body 4 3, fieldS r.body 7 3, fieldS r.body 10 3,
          fieldS r.body 13 3⟩ ∧
        fieldU r.body 1 1 = b.val ∧ fieldU r.body 2 1 = role.code ∧ e.input ≤ 31 ∧
        -1048576 ≤ e.scale ∧ e.scale ≤ 1048575 ∧ e.offset.natAbs ≤ 1000000 ∧ e.validLow.natAbs ≤ 1000000 ∧
        e.validHigh.natAbs ≤ 1000000 ∧ e.validLow ≤ e.validHigh ∧
        (role ∈ [.gapLeftA, .gapRightA, .gapLeftB, .gapRightB] → 0 ≤ e.validLow))) →
    ∃ t, exec .stgSet s = .next t ∧
      let old := s.acquisition.stages[i].owner
      let unlocked := ∃ c : Fin 8, (some (bogieOf c) = old ∨ some (bogieOf c) = e.owner) ∧
        s.channels.bank[c].state ≠ .locked
      let held := e.owner ≠ none ∧ ∃ j : Fin 32, j ≠ i ∧ s.acquisition.stages[j].owner = e.owner ∧
        s.acquisition.stages[j].role = e.role
      (s.vehicle = none → s.onlyAnswers t r .noVehicle s.scheduleRecords) ∧
      (s.vehicle ≠ none → unlocked → s.onlyAnswers t r .notLocked s.scheduleRecords) ∧
      (s.vehicle ≠ none → ¬unlocked → held → s.onlyAnswers t r .duplicate s.scheduleRecords) ∧
      (s.vehicle ≠ none → ¬unlocked → ¬held →
        s.answered t r .ok t.scheduleRecords ∧
        t.acquisition.stages = s.acquisition.stages.set i.val e i.isLt ∧
        (∀ b : Fin 4, t.acquisition.timers[b] =
          if t.schedulable b then
            (match s.acquisition.timers[b] with
              | some at_ => some at_
              | none => some (s.clock + 1000 * s.acquisition.periods[b]))
          else none) ∧
        t.acquisition = { s.acquisition with stages := t.acquisition.stages, timers := t.acquisition.timers } ∧
        t = { s with acquisition := t.acquisition, computation := t.computation, monitor := t.monitor,
                     link := t.link })

/-- STG.GET (R96, R97, R203): the entries from the start index, as many as asked for and there, the four schedule
records, and the converter queue with the scan in conversion; nothing changes. That a refusal is answered with the head
alone (R191, where R97 names the records for STG.GET replies) is the model's choice (log entry 17). -/
def Sys2Proof.Claims.StgGetReadsTheTable : Prop :=
  ∀ (s : State) (r : Frame), s.canTake r → r.kind = 0x31 → r.body.length = 2 →
    ∃ t, exec .stgGet s = .next t ∧
      let start := fieldU r.body 0 1
      let count := fieldU r.body 1 1
      let shown := ((List.finRange 32).drop start).take count
      let queue : List Byte := s.acquisition.queue.map fun q => u8 q.bogie.val
      let running : Byte := match s.acquisition.converter with
        | some c => u8 c.scan.bogie.val
        | none => 255
      if 31 < start ∨ count = 0 ∨ 8 < count then s.onlyAnswers t r .outOfRange []
      else s.onlyAnswers t r .ok ([u8 (min count (32 - start))] ++
        (shown.map fun i : Fin 32 => s.acquisition.stages[i].encode i).flatten ++ s.scheduleRecords ++
        [u8 queue.length] ++ (queue ++ [255, 255, 255, 255]).take 4 ++ [running])

/-- PER.SET (R101): out of range, then NO_VEHICLE; taken, the period is held, a running timer starts again with it, and a
stopped one stays stopped. The reply of a taking carries the schedule records; that a refusal is answered with the head
alone (R191, where R97 and R203 name the records for PER.SET replies and R101 names none) is the model's choice (log
entry 17). -/
def Sys2Proof.Claims.PerSetRestartsTheTimer : Prop :=
  ∀ (s : State) (r : Frame), s.canTake r → r.kind = 0x32 → r.body.length = 2 →
    ∃ t, exec .perSet s = .next t ∧
      let period := fieldU r.body 1 1
      ((3 < fieldU r.body 0 1 ∨ period < 2 ∨ 50 < period) → s.onlyAnswers t r .outOfRange []) ∧
      ∀ b : Fin 4, fieldU r.body 0 1 = b.val → 2 ≤ period → period ≤ 50 →
        if s.vehicle = none then s.onlyAnswers t r .noVehicle []
        else
          s.answeredOnly t r .ok t.scheduleRecords ∧
          t = { s with link := t.link, acquisition := { s.acquisition with
            periods := s.acquisition.periods.set b.val period b.isLt
            timers := s.acquisition.timers.set b.val
              (if s.acquisition.timers[b] = none then none else some (s.clock + 1000 * period)) b.isLt } }

/-- A period timer expires (R100, R102 to R105): it starts again at once. With the bogie's scan outstanding the expiry is
skipped: SCAN_OVERRUN counts one and is present, and the clean run is 0. Without one, the run counts up and a new scan
with the period in force and copies of the bogie's entries joins the converter queue, from which an idle converter
takes it at once. -/
def Sys2Proof.Claims.PeriodExpiryCreatesAScan : Prop :=
  ∀ (s : State) (b : Fin 4) (at_ : Nat), s.power = .running → ScansSound s →
    s.acquisition.timers[b] = some at_ →
    ∃ t, exec (.periodTimerExpiry b) s = .next t ∧
      let now := max s.clock at_
      let scan : Scan :=
        { bogie := b, period := s.acquisition.periods[b],
          stages := ((List.finRange 32).map fun i : Fin 32 => s.acquisition.stages[i]).filter
            fun e => e.owner = some b }
      let run := min 255 (s.acquisition.cleanRun + 1)
      t.acquisition.timers = s.acquisition.timers.set b.val
        (some (now + 1000 * s.acquisition.periods[b])) b.isLt ∧
      t = { s with clock := now, acquisition := t.acquisition, monitor := t.monitor,
                   link := { s.link with notices := t.link.notices } } ∧
      (s.outstanding b ≠ 0 →
        s.counted t (vehicleCounter .scanOverrun) ∧ t.present (ofVehicle .scanOverrun) = true ∧
        t.acquisition = { s.acquisition with timers := t.acquisition.timers, cleanRun := 0 }) ∧
      (s.outstanding b = 0 →
        t.monitor.live = s.monitor.live ∧
        (t.present (ofVehicle .scanOverrun) = true ↔
          s.present (ofVehicle .scanOverrun) = true ∧ run < s.monitor.criteria.overrunClear) ∧
        t.acquisition = { s.acquisition with
          timers := t.acquisition.timers
          cleanRun := run
          queue := if s.acquisition.converter = none then [] else s.acquisition.queue ++ [scan]
          converter := if s.acquisition.converter = none then
            some ⟨scan, 0, SampleRecord.blank b scan.period, now + 20⟩ else s.acquisition.converter })

/-- PER.SET and the expiry of a period timer: both statements above (R100 to R105), with the model's choice of log entry
17. -/
def Obligations.PeriodTimersDriveTheScans : Prop :=
  Claims.PerSetRestartsTheTimer ∧ Claims.PeriodExpiryCreatesAScan

/-- A stage's value and validity (R98): the nearest integer to raw × scale / 4,096, a half going away from zero, plus the
offset; invalid at either end of the converter's range and outside the bounds. -/
def Sys2Proof.Claims.StageValueAndValidity : Prop :=
  ∀ (e : StageEntry) (raw : Nat), raw ≤ 4095 →
    let x := e.sample raw
    2 * ((x.value - e.offset) * 4096 - raw * e.scale).natAbs ≤ 4096 ∧
    (2 * ((x.value - e.offset) * 4096 - raw * e.scale).natAbs = 4096 →
      ((raw : Int) * e.scale).natAbs < ((x.value - e.offset) * 4096).natAbs) ∧
    (x.valid = true ↔ 0 < raw ∧ raw < 4095 ∧ e.validLow ≤ x.value ∧ x.value ≤ e.validHigh)

/-- The end of a stage's conversion (R98, R105, R106, R114): the value is written at the role's place; a further stage
begins at once; after the last one the record joins the pass queue, the converter takes the oldest queued scan or is
idle, and an idle computation unit starts the pass of its oldest record. -/
def Sys2Proof.Claims.ConversionEndWritesTheStage : Prop :=
  ∀ (s : State) (raw : BitVec 12) (c : Conversion) (e : StageEntry) (role : Role), s.power = .running →
    s.acquisition.converter = some c → c.scan.stages[c.position]? = some e → e.role = some role →
    ∃ t, exec (.stageConversionComplete raw) s = .next t ∧
      let now := max s.clock c.endsAt
      let record := c.record.write (e.sample raw.toNat) role
      let arrived := s.computation.queue ++ [record]
      t.clock = now ∧
      (c.position + 1 < c.scan.stages.length →
        t = { s with clock := now, acquisition := { s.acquisition with
          converter := some ⟨c.scan, c.position + 1, record, now + 20⟩ } }) ∧
      (c.scan.stages.length ≤ c.position + 1 →
        (match s.acquisition.queue with
          | [] => t.acquisition = { s.acquisition with converter := none }
          | q :: rest => t.acquisition = { s.acquisition with
              queue := rest, converter := some ⟨q, 0, SampleRecord.blank q.bogie q.period, now + 20⟩ }) ∧
        (s.computation.pass ≠ none → t.computation = { s.computation with queue := arrived } ∧
          t.channels = s.channels) ∧
        (s.computation.pass = none → t.computation.queue = arrived.tail ∧
          ∃ p, t.computation.pass = some p ∧ arrived.head? = some p.sample ∧
            p.laneA.start = s.channels.bank[channelA p.sample.bogie].state ∧
            p.laneB.start = s.channels.bank[channelB p.sample.bogie].state ∧
            p.position = s.tracker.published ∧ p.criteria = s.monitor.criteria ∧
            p.laneA.law = s.computation.laws[channelA p.sample.bogie] ∧
            p.laneB.law = s.computation.laws[channelB p.sample.bogie] ∧
            t.computation = { s.computation with
              queue := t.computation.queue, pass := t.computation.pass,
              resetDue := s.computation.resetDue.set p.sample.bogie.val false p.sample.bogie.isLt } ∧
            ∀ k : Fin 8, t.channels.bank[k] = { s.channels.bank[k] with
              entered := s.channels.bank[k].entered && decide (bogieOf k ≠ p.sample.bogie) }) ∧
        t = { s with clock := now, acquisition := t.acquisition, computation := t.computation,
                     channels := { s.channels with bank := t.channels.bank } })

/-- The place of each role in a sample record (R98, R107): a value is written into the field of its stage's role, and every
other field stays. A record before its first stage holds its bogie and period, and no yaw. -/
def Sys2Proof.Claims.RolesNameTheirFields : Prop :=
  (∀ (r : SampleRecord) (x : Sample),
    r.write x .gapLeftA = { r with gapLeftA := x } ∧ r.write x .gapRightA = { r with gapRightA := x } ∧
    r.write x .strokeA = { r with strokeA := x } ∧ r.write x .gapLeftB = { r with gapLeftB := x } ∧
    r.write x .gapRightB = { r with gapRightB := x } ∧ r.write x .strokeB = { r with strokeB := x } ∧
    r.write x .yaw = { r with yaw := some x }) ∧
  ∀ (b : Fin 4) (period : Nat), (SampleRecord.blank b period).bogie = b ∧
    (SampleRecord.blank b period).period = period ∧ (SampleRecord.blank b period).yaw = none

/-- A stage's value, its place in the sample record and the end of its conversion: the three statements above (R98, R105 to
R107, R114). -/
def Obligations.ConversionsFillTheSampleRecord : Prop :=
  Claims.StageValueAndValidity ∧ Claims.RolesNameTheirFields ∧ Claims.ConversionEndWritesTheStage

/-- A pass that starts (R114, R115, R118, R119, R123, R135, R138), at the last conversion of a scan with no pass in flight
or at the completion of the pass before: it reads what stands then, its lookups made over the path and store of that
moment, and its duration follows from its start states and its yaw field. At a completion the next pass starts exactly
when a record waits, and takes the oldest; the two channels are watched from then on. A reset of the bogie's records that
is due comes with it. -/
def Obligations.PassesReadWhatStandsAtTheirStart : Prop :=
  ∀ (c : Instr) (s t : State) (p : Pass), s.power = .running → exec c s = .next t →
    ((c = .passComplete ∧ s.computation.pass ≠ none) ∨
      (s.computation.pass = none ∧ ∃ raw, c = .stageConversionComplete raw)) →
    (c = .passComplete → (t.computation.pass = none ↔ s.computation.queue = [])) ∧
    (t.computation.pass = some p →
      PassReads t p ∧ p.resetAfter = s.computation.resetDue[p.sample.bogie] ∧
      t.computation.resetDue[p.sample.bogie] = false ∧
      t.channels.bank[channelA p.sample.bogie].entered = false ∧
      t.channels.bank[channelB p.sample.bogie].entered = false ∧
      (c = .passComplete → s.computation.queue = p.sample :: t.computation.queue))

/-! ## The computation unit (chapter 6) -/

/-- A pass is mirror-exact (R134). With every curvature sample negated, each lane's left and right gaps exchanged and
each record's filter state, last output, held feedforward and last good y negated, everything else the same (a pass
writes y in use anew, so the old one is left open), each lane's result has every angle and its stroke exactly negated and every flag the same, and the record it leaves is
the mirrored one: the same health, runs, proximity and contact. -/
def Obligations.PassIsMirrorExact : Prop :=
  ∀ (s m : State) (p : Pass), m.channels = s.channels →
    (∀ c : Fin 8, { m.computation.records[c] with inUse := 0 } =
      { s.computation.records[c].mirror with inUse := 0 }) →
    (m.endA p.mirror).taken = (s.endA p).taken.map LaneResult.mirror ∧
    (m.endB p.mirror).taken = (s.endB p).taken.map LaneResult.mirror ∧
    (m.endA p.mirror).judged = (s.endA p).judged.mirror ∧ (m.endB p.mirror).judged = (s.endB p).judged.mirror ∧
    (m.endA p.mirror).record = (s.endA p).record.mirror ∧ (m.endB p.mirror).record = (s.endB p).record.mirror ∧
    (m.endA p.mirror).plausible = (s.endA p).plausible ∧ (m.endB p.mirror).plausible = (s.endB p).plausible

/-- Stages 9 and 10 of a result (R129 to R132): ψ_out moves from the last taken one to the new filter state (to 0 in a
returning result) where that is within rate × P, and else by exactly rate × P toward it, and the rate flag says so; the
stroke is the rounded product with the lever arm where that is within ±stroke_max, and else stroke_max on the product's
side, and the flag says so; with a filter shift of 0 the filter state of a steering result lies within ±ψ_max. -/
def Sys2Proof.Claims.ResultsStayWithinTheirBounds : Prop :=
  ∀ (p : Pass) (l : LaneRead) (r : ComputationRecord) (x : LaneResult), laneResult p l r = some x →
    let allowance := l.law.rate * p.sample.period
    let goal := if l.start = .steering then x.filter else 0
    let stroke := roundDiv (x.output * l.fields.lever) 10000
    (x.output - r.output).natAbs ≤ allowance ∧
    ((goal - r.output).natAbs ≤ allowance → x.output = goal) ∧
    (allowance < (goal - r.output).natAbs →
      x.output = if r.output < goal then r.output + allowance else r.output - allowance) ∧
    (x.flags.rate = true ↔ allowance < (goal - r.output).natAbs) ∧
    x.stroke.natAbs ≤ l.fields.strokeMax ∧
    (stroke.natAbs ≤ l.fields.strokeMax → x.stroke = stroke) ∧
    (l.fields.strokeMax < stroke.natAbs →
      x.stroke = if 0 < stroke then (l.fields.strokeMax : Int) else -(l.fields.strokeMax : Int)) ∧
    (x.flags.stroke = true ↔ l.fields.strokeMax < stroke.natAbs) ∧
    (l.start = .returning → x.filter = r.filter ∧ x.held = r.held ∧ x.substituted = r.substituted ∧
      x.flags.feedback = false ∧ (x.flags.angle = true ↔ l.law.angleMax < x.output.natAbs)) ∧
    (l.start = .steering → (if r.proximity then l.law.shiftWidened else l.law.shiftNormal) = 0 →
      x.filter.natAbs ≤ l.law.angleMax)

/-- The feedforward and the feedback of a steering result (R120 to R122, R127): from two samples the rounded mean times
the rounded offset difference, scaled by the confidence, equal to the unscaled value at C = 256 and 0 at C = 0; without
them from the held value by the substitution mode, which moves toward 0 and never past it; and no feedback below the
least speed. -/
def Sys2Proof.Claims.FeedforwardAndFeedbackFollowTheirStages : Prop :=
  ∀ (p : Pass) (l : LaneRead) (r : ComputationRecord),
    let x := steeringResult p l r
    (∀ a b, l.centreSample = some a → l.wheelSample = some b →
      x.substituted = false ∧
      (let mean := roundDiv (a + b) 2
       let plain := roundDiv (mean * (l.fields.offset - p.bogie.centre)) 1000
       x.held = roundDiv (plain * p.position.confidence) 256 ∧
       (p.position.confidence = 256 → x.held = plain) ∧ (p.position.confidence = 0 → x.held = 0))) ∧
    ((l.centreSample = none ∨ l.wheelSample = none) → x.substituted = true ∧
      match l.law.forwardMode with
      | .hold => x.held = r.held
      | .zero => x.held = 0
      | .decay => (r.held.natAbs ≤ l.law.decayStep → x.held = 0) ∧
          (l.law.decayStep < r.held.natAbs → x.held.natAbs + l.law.decayStep = r.held.natAbs ∧
            0 < x.held * r.held)) ∧
    (let feedback := if p.position.speed < l.law.feedbackMinSpeed then 0
       else -p.position.sign.toInt * roundDiv (l.law.kp * r.inUse) 256
     x.flags.feedback = true ↔ l.law.feedbackLimit < feedback.natAbs)

/-- Stages 6 to 8 of a steering result, and ANGLE_LIMITED (R127 to R129, R133): the feedback is clamped to its limit, the
target is the sum of feedforward and feedback clamped to ±ψ_max, and f moves by the rounded part of its way to the target
that the shift of the pass gives: to it at once with a shift of 0, and never away from it. ANGLE_LIMITED is set exactly
when the sum or the new ψ_out stands above ψ_max. A lane has a steering result when it starts in STEERING, a returning one
when it starts in RETURNING, and none otherwise (R115). -/
def Sys2Proof.Claims.SteeringResultFollowsItsTarget : Prop :=
  ∀ (p : Pass) (l : LaneRead) (r : ComputationRecord),
    let x := steeringResult p l r
    let clamped : Nat → Int → Int := fun limit i => max (-(limit : Int)) (min (limit : Int) i)
    let feedback := clamped l.law.feedbackLimit (if p.position.speed < l.law.feedbackMinSpeed then 0
      else -p.position.sign.toInt * roundDiv (l.law.kp * r.inUse) 256)
    let sum := x.held + feedback
    let target := clamped l.law.angleMax sum
    let shift := if r.proximity then l.law.shiftWidened else l.law.shiftNormal
    x.filter = r.filter + roundDiv (target - r.filter) (2 ^ shift) ∧
    (shift = 0 → x.filter = target) ∧
    (target - x.filter).natAbs ≤ (target - r.filter).natAbs ∧
    (x.flags.angle = true ↔ l.law.angleMax < sum.natAbs ∨ l.law.angleMax < x.output.natAbs) ∧
    (l.start = .steering → laneResult p l r = some x) ∧
    ((laneResult p l r).isSome = true ↔ l.start = .steering ∨ l.start = .returning)

/-- The results of a lane: the three statements above (R120 to R122, R127 to R133). -/
def Obligations.LaneResultsFollowTheirStages : Prop :=
  Claims.ResultsStayWithinTheirBounds ∧ Claims.FeedforwardAndFeedbackFollowTheirStages ∧
    Claims.SteeringResultFollowsItsTarget

/-- Stage 5 (R123 to R126): plausibility from the validity of both gaps and, where the clearance is found, from their
sum; the runs; health by its table; last good y; proximity and contact from plausible gaps alone; and y in use. -/
def Obligations.HealthFollowsItsTable : Prop :=
  ∀ (r : ComputationRecord) (law : LawRecord) (clearance : Option Nat) (g : Gaps) (partner : Health)
    (partnerGaps : Gaps),
    let a := r.afterGaps law clearance g
    let ok := g.left.valid = true ∧ g.right.valid = true ∧
      ∀ c, clearance = some c → (g.left.value + g.right.value - c).natAbs ≤ law.sumTolerance
    let y := roundDiv (g.right.value - g.left.value) 2
    (ok → a.implausibleRun = 0 ∧ a.plausibleRun = min 255 (r.plausibleRun + 1)) ∧
    (¬ok → a.plausibleRun = 0 ∧ a.implausibleRun = min 255 (r.implausibleRun + 1)) ∧
    (ok → (a.health = .good ↔ r.health ≠ .failed ∨ 10 ≤ a.plausibleRun) ∧ a.health ≠ .suspect) ∧
    (¬ok → a.health ≠ .good ∧
      (a.health = .failed ↔ r.health = .failed ∨ (r.health = .suspect ∧ 3 ≤ a.implausibleRun))) ∧
    (a.lastGood = if ok ∧ a.health = .good then y else r.lastGood) ∧
    (a.proximity = true ↔ ok ∧ min g.left.value g.right.value ≤ law.proximityGap) ∧
    (a.contact = true ↔ ok ∧ min g.left.value g.right.value ≤ law.contactGap) ∧
    yInUse a law g partner partnerGaps = (match a.health with
      | .good => y
      | .suspect => a.lastGood
      | .failed => match law.lateralMode with
        | .freeze => a.lastGood
        | .zero => 0
        | .partner => if partner = .good then roundDiv (partnerGaps.right.value - partnerGaps.left.value) 2
            else a.lastGood)

/-- What the completion of a pass holds for its two lanes (R107, R115, R116, R123 to R126): lane A has channel 2b, lane B
channel 2b + 1; each lane has its own reads, gaps and stroke, its channel's computation record and what stage 5 makes of
it, with the other lane as its partner; and its result is taken by a channel that stands in the start state, STEERING or
RETURNING, and has not entered either since the start. That the computation records are read as they stand at the
completion, and not at the pass's start, is the model's reading (log entry 15). -/
def Sys2Proof.Claims.LaneEndsHoldTheirLane : Prop :=
  ∀ (s : State) (p : Pass),
    let gapsA : Gaps := ⟨p.sample.gapLeftA, p.sample.gapRightA⟩
    let gapsB : Gaps := ⟨p.sample.gapLeftB, p.sample.gapRightB⟩
    let a := channelA p.sample.bogie
    let b := channelB p.sample.bogie
    a.val = 2 * p.sample.bogie.val ∧ b.val = 2 * p.sample.bogie.val + 1 ∧
    LaneEndHolds s p (s.endA p) a b p.laneA p.laneB gapsA gapsB p.sample.strokeA ∧
    LaneEndHolds s p (s.endB p) b a p.laneB p.laneA gapsB gapsA p.sample.strokeB

/-- The completion of a pass, in the computation records (R115 to R117). Both lanes' stage 5 fields are written. A
result is taken by a channel that stands in the start state and has not entered STEERING or RETURNING since the start;
then its values are written, over the computation and yaw records as they stand at the completion, the model's reading
(log entry 15). A zero result writes zeros whatever the channel's state. A lane that started in HOLDING, or
whose result is not taken, keeps these fields. The records of other channels stay. -/
def Sys2Proof.Claims.PassCompletionWritesTheRecords : Prop :=
  ∀ (s : State) (p : Pass), s.power = .running → s.computation.pass = some p → p.resetAfter = false →
    ∃ t, exec .passComplete s = .next t ∧
      t.clock = max s.clock p.endsAt ∧ t.computation.laws = s.computation.laws ∧
      (∀ c : Fin 8, bogieOf c ≠ p.sample.bogie → t.computation.records[c] = s.computation.records[c]) ∧
      (∀ b : Fin 4, t.computation.yaw[b] =
        if b = p.sample.bogie then yawAfter p s.computation.yaw[b] else s.computation.yaw[b]) ∧
      t.present (ofVehicle .geometryMismatch) = (allBogies.any fun b => t.computation.yaw[b].mismatch) ∧
      ∀ e ∈ [s.endA p, s.endB p],
        let before := s.computation.records[e.channel]
        let after := t.computation.records[e.channel]
        let standing := s.channels.bank[e.channel].state = e.read.start ∧
          s.channels.bank[e.channel].entered = false
        let written : Int → Int → Int → Bool → LimitFlags → Nat → Nat → Prop := fun f o h sub fl lim unl =>
          after = { e.judged with filter := f, output := o, held := h, substituted := sub, flags := fl,
                                  limitedRun := lim, unlimitedRun := unl }
        let kept := written before.filter before.output before.held before.substituted before.flags
          before.limitedRun before.unlimitedRun
        match e.read.start with
        | .locking | .locked | .unlocking | .fault => written 0 0 0 false ⟨false, false, false, false⟩ 0 0
        | .holding => kept
        | .steering | .returning =>
          (¬standing → kept) ∧
          (standing → ∃ x, laneResult p e.read e.judged = some x ∧
            if x.flags.angle = true ∨ x.flags.stroke = true then
              written x.filter x.output x.held x.substituted x.flags (min 255 (before.limitedRun + 1)) 0
            else written x.filter x.output x.held x.substituted x.flags 0 (min 255 (before.unlimitedRun + 1)))

/-- The completion of a pass in the computation records, and what it holds for its two lanes: both statements above (R107,
R115 to R117, R123 to R126), with the model's reading of log entry 15. -/
def Obligations.PassCompletionWritesTheRecords : Prop :=
  Claims.LaneEndsHoldTheirLane ∧ Claims.PassCompletionWritesTheRecords

/-- The completion of a pass, in the channels (R153, R156 to R158, R161): the stroke is recorded; in STEERING, HOLDING
and RETURNING the two runs move, compared with the demand before the result; in the other states they are 0. A run that
reaches its bound takes the channel to FAULT with demand 0; else a taken result sets the demand, and a returning one
that brought ψ_out to 0 with the wheelset at centre ends the return, where the levels of the lines are acted on at once.
TRACKING_ERROR is present exactly when the error is above the limit and the channel is not in FAULT; that it is not present
after a pass that takes the channel to FAULT, though its error was above the limit, is the model's reading (log entry 24). -/
def Obligations.PassCompletionSupervisesTheChannels : Prop :=
  ∀ (s : State) (p : Pass), s.power = .running → s.computation.pass = some p →
    ∃ t, exec .passComplete s = .next t ∧ t.channels.permit = s.channels.permit ∧
      (∀ c : Fin 8, bogieOf c ≠ p.sample.bogie →
        { t.channels.bank[c] with entered := false } = { s.channels.bank[c] with entered := false }) ∧
      ∀ e ∈ [s.endA p, s.endB p],
        let ch := s.channels.bank[e.channel]
        let after := t.channels.bank[e.channel]
        let lines := s.lines.drive[e.channel]
        let law := e.read.law
        let watched := ch.state = .steering ∨ ch.state = .holding ∨ ch.state = .returning
        let error := e.stroke.value - ch.demand
        let exceeds := watched ∧ e.stroke.valid = true ∧ law.trackingLimit < error.natAbs
        let trackingRun := if exceeds then min 255 (ch.trackingRun + 1)
          else if watched ∧ e.stroke.valid = false then ch.trackingRun else 0
        let strokeRun := if watched ∧ e.stroke.valid = false then min 255 (ch.strokeInvalidRun + 1) else 0
        let tracking := exceeds ∧ law.trackingPersistence ≤ trackingRun
        let sensor := watched ∧ e.stroke.valid = false ∧ 3 ≤ strokeRun
        let demand := match e.taken with
          | some x => x.stroke
          | none => ch.demand
        let ended := ch.state = .returning ∧ ∃ x, e.taken = some x ∧ x.output = 0 ∧ e.stroke.valid = true ∧
          e.stroke.value.natAbs ≤ law.centreTolerance
        after.measured = e.stroke.value ∧ after.measuredValid = e.stroke.valid ∧
        after.trackingError = (if watched ∧ e.stroke.valid = true then some error else none) ∧
        t.present (ofChannel .trackingError e.channel) =
          decide (exceeds ∧ after.state ≠ .fault) ∧
        (tracking → after.state = .fault ∧ after.cause = .tracking ∧ after.demand = 0 ∧ after.lockTimer = none ∧
          after.trackingRun = 0 ∧ after.strokeInvalidRun = 0 ∧
          t.present (ofChannel .channelFault e.channel) = true) ∧
        (sensor → after.state = .fault ∧ after.cause = .strokeSensor ∧ after.demand = 0 ∧
          after.lockTimer = none ∧ after.trackingRun = 0 ∧ after.strokeInvalidRun = 0 ∧
          t.present (ofChannel .channelFault e.channel) = true) ∧
        (¬tracking → ¬sensor → ¬ended → after.state = ch.state ∧ after.cause = ch.cause ∧ after.demand = demand ∧
          after.lockTimer = ch.lockTimer ∧ after.trackingRun = trackingRun ∧
          after.strokeInvalidRun = strokeRun) ∧
        (¬tracking → ¬sensor → ended → after.demand = 0 ∧
          after.state = (if lines.driveFault then .fault else if lines.lockEngaged then .locked else .locking) ∧
          after.lockTimer = (if lines.driveFault || lines.lockEngaged then none
            else some (t.clock + 1000 * s.computation.laws[e.channel].lockTime)))

/-- The yaw record a pass leaves (R135, R136): without a yaw field its reset values; with an invalid yaw or a failed
lookup as it was; else the predicted yaw is compared with the measured one, the one run counts up and the other is 0, and
the mismatch rises at the raise persistence and falls at the clear persistence. -/
def Sys2Proof.Claims.YawCheckMovesTheRuns : Prop :=
  ∀ (p : Pass) (r : YawRecord),
    let a := yawAfter p r
    (p.sample.yaw = none → a = ⟨0, 0, false⟩) ∧
    ∀ y, p.sample.yaw = some y →
      ((y.valid = false ∨ p.yawCentre = none ∨ p.yawBody = none) → a = r) ∧
      ∀ u w, y.valid = true → p.yawCentre = some u → p.yawBody = some w →
        let predicted := roundDiv (roundDiv (u + w) 2 * (p.bogie.centre - p.bogie.body)) 1000
        let disagrees := p.laneA.law.yawTolerance < (predicted - y.value).natAbs
        (disagrees → a.disagreeRun = min 255 (r.disagreeRun + 1) ∧ a.agreeRun = 0 ∧
          (a.mismatch = true ↔ r.mismatch = true ∨ p.criteria.mismatchRaise ≤ a.disagreeRun)) ∧
        (¬disagrees → a.agreeRun = min 255 (r.agreeRun + 1) ∧ a.disagreeRun = 0 ∧
          (a.mismatch = true ↔ r.mismatch = true ∧ a.agreeRun < p.criteria.mismatchClear))

/-- A bogie that ceases to be scheduled at STG.SET or VEH.SET (R100, R136), which is where its timer stops. With no scan
of it outstanding its records are reset in that act: the yaw record, and of each of its two channels the health, the runs,
proximity and contact, with LATERAL_SENSOR_FAILED and FLANGE_PROXIMITY not present, and GEOMETRY_MISMATCH is judged
again. With a scan outstanding the reset is due at that scan's pass. The records of other bogies stay. That a pass in
flight does not put the reset off is the model's reading (log entry 16). -/
def Sys2Proof.Claims.BogiesLeavingTheScheduleAreReset : Prop :=
  ∀ (c : Instr) (s t : State), (c = .stgSet ∨ c = .vehSet) → exec c s = .next t →
    let ceased : Fin 4 → Prop := fun b => s.acquisition.timers[b] ≠ none ∧ t.acquisition.timers[b] = none
    let now : Fin 4 → Prop := fun b => ceased b ∧ s.outstanding b = 0
    (∀ b : Fin 4, (now b → t.computation.yaw[b] = ⟨0, 0, false⟩) ∧
      (¬now b → t.computation.yaw[b] = s.computation.yaw[b]) ∧
      (t.computation.resetDue[b] = true ↔ s.computation.resetDue[b] = true ∨ (ceased b ∧ s.outstanding b ≠ 0))) ∧
    (∀ k : Fin 8, (¬now (bogieOf k) → t.computation.records[k] = s.computation.records[k]) ∧
      (now (bogieOf k) → t.computation.records[k] = { s.computation.records[k] with
        health := .good, implausibleRun := 0, plausibleRun := 0, proximity := false, contact := false })) ∧
    (∀ i : Fin 48,
      let ends := ∃ k : Fin 8, now (bogieOf k) ∧ (i = ofChannel .lateralSensorFailed k ∨ i = ofChannel .flangeProximity k)
      (ends → t.monitor.conditions[i] = { s.monitor.conditions[i] with present := false }) ∧
      (¬ends → i ≠ ofVehicle .geometryMismatch → t.monitor.conditions[i] = s.monitor.conditions[i])) ∧
    ((∃ b, now b) → t.present (ofVehicle .geometryMismatch) = allBogies.any fun b => t.computation.yaw[b].mismatch) ∧
    ((¬∃ b, now b) → t.monitor = s.monitor) ∧
    t.computation = { s.computation with records := t.computation.records, yaw := t.computation.yaw,
                                         resetDue := t.computation.resetDue } ∧
    t.monitor = { s.monitor with conditions := t.monitor.conditions }

/-- The completion of a pass whose bogie's reset is due (R136): everything is as at the completion of the same pass with
no reset due, and after that the bogie's yaw record and the health parts of its two channels' records are reset, with
their conditions not present and GEOMETRY_MISMATCH judged again; which notices these changes queue is left open. -/
def Sys2Proof.Claims.DueResetsFollowThePass : Prop :=
  ∀ (s : State) (p : Pass), s.power = .running → s.computation.pass = some p → p.resetAfter = true →
    ∃ t plain, exec .passComplete s = .next t ∧
      exec .passComplete { s with computation := { s.computation with pass := some { p with resetAfter := false } } } =
        .next plain ∧
      let b := p.sample.bogie
      (∀ d : Fin 4, t.computation.yaw[d] = if d = b then ⟨0, 0, false⟩ else plain.computation.yaw[d]) ∧
      (∀ k : Fin 8, t.computation.records[k] = if bogieOf k = b then { plain.computation.records[k] with
          health := .good, implausibleRun := 0, plausibleRun := 0, proximity := false, contact := false }
        else plain.computation.records[k]) ∧
      (∀ i : Fin 48, t.monitor.conditions[i] =
        if i = ofVehicle .geometryMismatch then
          { plain.monitor.conditions[i] with present := allBogies.any fun d => t.computation.yaw[d].mismatch }
        else if i ∈ [ofChannel .lateralSensorFailed (channelA b), ofChannel .lateralSensorFailed (channelB b),
            ofChannel .flangeProximity (channelA b), ofChannel .flangeProximity (channelB b)] then
          { plain.monitor.conditions[i] with present := false }
        else plain.monitor.conditions[i]) ∧
      t = { plain with
        computation := { plain.computation with records := t.computation.records, yaw := t.computation.yaw }
        monitor := { plain.monitor with conditions := t.monitor.conditions }
        link := { plain.link with notices := t.link.notices } }

/-- The yaw check, and the records of a bogie that ceases to be scheduled: the three statements above (R135, R136), with
the model's reading of log entry 16. -/
def Obligations.YawRecordsMoveAndAreReset : Prop :=
  Claims.YawCheckMovesTheRuns ∧ Claims.BogiesLeavingTheScheduleAreReset ∧ Claims.DueResetsFollowThePass

/-- The reports of a pass to the monitor (R126, R133, R137, R162, R173 to R175), for each lane: its six counters, each up
by one where its event came about; its two peaks, each the greater of itself and the candidate; and FLANGE_PROXIMITY,
LATERAL_SENSOR_FAILED and STEER_LIMITED. The counters and peaks of other channels and the vehicle's counters stay, and
COUNTER_SATURATED rises with a counter that reaches 65,535. That contact and the limited runs before the pass are those of
the records at its completion is the model's reading (log entry 15). -/
def Obligations.PassCompletionReportsToTheMonitor : Prop :=
  ∀ (s : State) (p : Pass), s.power = .running → s.computation.pass = some p →
    ∃ t, exec .passComplete s = .next t ∧
      let before := s.monitor.live
      let after := t.monitor.live
      let counts : Fin 52 → Prop → Prop := fun k event =>
        ((event ∧ before.counts[k] < 65535) → after.counts[k] = before.counts[k] + 1) ∧
        (¬(event ∧ before.counts[k] < 65535) → after.counts[k] = before.counts[k])
      let offers : Fin 16 → Prop → Nat → Prop := fun k made candidate =>
        (made → after.peaks[k] = max before.peaks[k] (min 65535 candidate)) ∧
        (¬made → after.peaks[k] = before.peaks[k])
      (∀ e ∈ [s.endA p, s.endB p],
        let c := e.channel
        let ch := s.channels.bank[c]
        let plausible := e.gaps.left.valid = true ∧ e.gaps.right.valid = true ∧
          ∀ w, e.read.clearance = some w → (e.gaps.left.value + e.gaps.right.value - w).natAbs ≤ e.read.law.sumTolerance
        let takes : (LaneResult → Prop) → Prop := fun what => ∃ x, e.taken = some x ∧ what x
        let compared := (ch.state = .steering ∨ ch.state = .holding ∨ ch.state = .returning) ∧ e.stroke.valid = true
        let error := (e.stroke.value - ch.demand).natAbs
        let limited := min 255 (e.before.limitedRun + 1)
        let unlimited := min 255 (e.before.unlimitedRun + 1)
        let steerLimited := s.present (ofChannel .steerLimited c)
        counts (counterOf .contact c) (e.judged.contact = true ∧ e.before.contact = false) ∧
        counts (counterOf .proximityPasses c) (e.judged.proximity = true) ∧
        counts (counterOf .implausiblePasses c) (¬plausible) ∧
        counts (counterOf .limitedPasses c) (takes fun x =>
          x.flags.feedback = true ∨ x.flags.angle = true ∨ x.flags.rate = true ∨ x.flags.stroke = true) ∧
        counts (counterOf .substitutedPasses c) (takes fun x =>
          e.read.start = .steering ∧ (x.substituted = true ∨ e.judged.health = .failed)) ∧
        counts (counterOf .trackingExceedPasses c) (compared ∧ e.read.law.trackingLimit < error) ∧
        offers (peakOffset c) plausible (roundDiv (e.gaps.right.value - e.gaps.left.value) 2).natAbs ∧
        offers (peakError c) compared error ∧
        (p.resetAfter = false →
          t.present (ofChannel .flangeProximity c) = e.judged.proximity ∧
          t.present (ofChannel .lateralSensorFailed c) = decide (e.judged.health = .failed)) ∧
        t.present (ofChannel .steerLimited c) = (match e.taken with
          | some x => if x.flags.angle = true ∨ x.flags.stroke = true then
              (steerLimited || decide (p.criteria.limitRaise ≤ limited))
            else (steerLimited && decide (unlimited < p.criteria.limitClear))
          | none => match e.read.start with
            | .locking | .locked | .unlocking | .fault => false
            | .steering | .holding | .returning => steerLimited)) ∧
      (∀ c : Fin 8, bogieOf c ≠ p.sample.bogie →
        (∀ k : ChannelCounter, after.counts[counterOf k c] = before.counts[counterOf k c]) ∧
        after.peaks[peakOffset c] = before.peaks[peakOffset c] ∧
        after.peaks[peakError c] = before.peaks[peakError c]) ∧
      (∀ k : VehicleCounter, after.counts[vehicleCounter k] = before.counts[vehicleCounter k]) ∧
      (t.present (ofVehicle .counterSaturated) = true ↔ s.present (ofVehicle .counterSaturated) = true ∨
        ∃ k : Fin 52, before.counts[k] < after.counts[k] ∧ after.counts[k] = 65535) ∧
      t.monitor = { s.monitor with live := t.monitor.live, conditions := t.monitor.conditions }

/-- LAW.SET (R110, R111): the fields of the body, each absent one at its default, are examined in ascending index against
the ranges of R110; the first outside its range gives OUT_OF_RANGE with its index; else they replace the channel's law
record whole. A body whose fields give a record within R110's ranges, with mode codes that are listed, is taken. -/
def Sys2Proof.Claims.LawSetReplacesTheRecord : Prop :=
  ∀ (s : State) (r : Frame) (fields : List Nat), s.canTake r → r.kind = 0x28 →
    r.body ≠ [] → trailing lawForm (r.body.drop 1) = some fields →
    ∃ t, exec .lawSet s = .next t ∧
      let inside : Nat → Prop := fun k => LawFieldInRange (fun j => fields.getD (j - 1) 0) (k + 1)
      (7 < fieldU r.body 0 1 → s.onlyAnswers t r .outOfRange [0]) ∧
      ∀ c : Fin 8, fieldU r.body 0 1 = c.val →
        (∀ k, k < 19 → (∀ j, j < k → inside j) → ¬inside k → s.onlyAnswers t r .outOfRange [u8 (k + 1)]) ∧
        ((∀ k, k < 19 → inside k) ↔
          LawInRange (lawOf fields) ∧ fields.getD 11 0 ≤ 2 ∧ fields.getD 12 0 ≤ 2) ∧
        (LawInRange (lawOf fields) → fields.getD 11 0 ≤ 2 → fields.getD 12 0 ≤ 2 →
          s.answeredOnly t r .ok [0] ∧
          t = { s with link := t.link, computation := { s.computation with
            laws := s.computation.laws.set c.val (lawOf fields) c.isLt } })

/-- A law record within its ranges, written as LAW.GET returns it, is 37 bytes and read back by LAW.SET as the same
record; the body with the channel alone is read as the default record (R110, R111, R205). -/
def Sys2Proof.Claims.LawRecordReadsBack : Prop :=
  (∀ l : LawRecord, LawInRange l → l.encode.length = 37 ∧
    ∃ fields, trailing lawForm l.encode = some fields ∧ lawOf fields = l) ∧
  ∃ fields, trailing lawForm [] = some fields ∧ lawOf fields = LawRecord.default ∧ LawInRange LawRecord.default

/-- LAW.SET, with the reading of its fields: both statements above (R110, R111). -/
def Obligations.LawSetReplacesTheLawRecord : Prop :=
  Claims.LawSetReplacesTheRecord ∧ Claims.LawRecordReadsBack

/-- LAW.GET (R113, R205): the channel's law record, its computation record and the yaw record of its bogie; nothing
changes. -/
def Sys2Proof.Claims.LawGetReadsTheRecords : Prop :=
  ∀ (s : State) (r : Frame), s.canTake r → r.kind = 0x29 → r.body.length = 1 →
    ∃ t, exec .lawGet s = .next t ∧
      (7 < fieldU r.body 0 1 → s.onlyAnswers t r .outOfRange []) ∧
      ∀ (c : Fin 8) (b : Fin 4), fieldU r.body 0 1 = c.val → c.val / 2 = b.val →
        s.onlyAnswers t r .ok (s.computation.laws[c].encode ++ s.computation.records[c].encode ++
          s.computation.yaw[b].encode)

/-! ## The steering channels (chapter 7) -/

/-- A CH.* request on a channel number of 8 or above is refused OUT_OF_RANGE with reason NONE and a record of zeros
(R147, R206), and changes nothing. -/
def Sys2Proof.Claims.ChannelNumberIsChecked : Prop :=
  ∀ (row : Instr × Byte) (s : State) (r : Frame), row ∈ [(Instr.chUnlock, (0x41 : Byte)), (.chHold, 0x42),
      (.chResume, 0x43), (.chReturn, 0x44), (.chClear, 0x45)] →
    s.canTake r → r.kind = row.2 → r.body.length = 1 → 8 ≤ fieldU r.body 0 1 →
    ∃ t, exec row.1 s = .next t ∧ s.onlyAnswers t r .outOfRange (List.replicate 24 0)

/-- CH.UNLOCK (R147 to R149): NO_VEHICLE without a record, else BAD_STATE with the reason of the first failing check;
taken, the channel is UNLOCKING with demand 0, its lock timer started and both runs 0, and an N.CHAN is queued. -/
def Obligations.ChUnlockChecksAndReleases : Prop :=
  ∀ (s : State) (r : Frame) (c : Fin 8), LevelsTaken s → s.canTake r → r.kind = 0x41 → r.body.length = 1 →
    fieldU r.body 0 1 = c.val →
    ∃ t, exec .chUnlock s = .next t ∧
      let ch := s.channels.bank[c]
      let refuses : Nat → Prop := fun reason =>
        s.onlyAnswers t r .badState (u8 reason :: (s.channelStatus c).encode)
      if s.vehicle = none then s.onlyAnswers t r .noVehicle (0 :: (s.channelStatus c).encode)
      else if ch.state ≠ .locked then refuses 1
      else if s.channels.permit = false then refuses 2
      else if s.tracker.state = .unlocated then refuses 3
      else if s.vehicleView.bogieCount ≤ c.val / 2 then refuses 4
      else if s.complete (bogieOf c) = false then refuses 5
      else if s.lines.drive[c].driveReady = false then refuses 6
      else if s.lines.drive[c].driveFault = true then refuses 7
      else
        s.answered t r .ok (0 :: (t.channelStatus c).encode) ∧
        .channel c .locked .unlock (t.channelStatus c) ∈ t.link.notices ∧
        t = { s with link := t.link, channels := { s.channels with bank := (s.channels.bank.set c.val
          { ch with state := .unlocking, demand := 0,
                    lockTimer := some (s.clock + 1000 * s.computation.laws[c].lockTime),
                    trackingRun := 0, strokeInvalidRun := 0 } c.isLt) } }

/-- CH.HOLD in STEERING freezes the demand, CH.RESUME in HOLDING goes on from it, and CH.RETURN in STEERING or HOLDING
starts the return from it (R150 to R152); the channel's N.CHAN is queued. In any other state (UNLOCKING apart, for
CH.RETURN) each is refused BAD_STATE with reason STATE. -/
def Sys2Proof.Claims.HoldResumeReturnKeepTheDemand : Prop :=
  ∀ (s : State) (r : Frame) (c : Fin 8) (row : Instr × Byte) (after : ChannelState) (event : ChannelEvent),
    (row, after, event) ∈ [((Instr.chHold, (0x42 : Byte)), ChannelState.holding, ChannelEvent.hold),
      ((.chResume, 0x43), .steering, .resume), ((.chReturn, 0x44), .returning, .returnTaken)] →
    s.canTake r → r.kind = row.2 → r.body.length = 1 → fieldU r.body 0 1 = c.val →
    ∃ t, exec row.1 s = .next t ∧
      let ch := s.channels.bank[c]
      let fits := match after with
        | .holding => ch.state = .steering
        | .steering => ch.state = .holding
        | _ => ch.state = .steering ∨ ch.state = .holding
      (fits →
        s.answered t r .ok (0 :: (t.channelStatus c).encode) ∧
        .channel c ch.state event (t.channelStatus c) ∈ t.link.notices ∧
        t = { s with link := t.link, channels := { s.channels with bank := (s.channels.bank.set c.val
          { ch with state := after
                    lockTimer := if after = .holding then ch.lockTimer else none
                    entered := if after = .holding then ch.entered else true } c.isLt) } }) ∧
      (¬fits → (after = .returning → ch.state ≠ .unlocking) →
        s.onlyAnswers t r .badState (1 :: (s.channelStatus c).encode))

/-- CH.RETURN in UNLOCKING (R144, R152): the release is abandoned, and the channel, which enters LOCKING with its lock
still home, stands LOCKED in the same act, its runs and demand 0. That it does not wait in LOCKING, as R152's first order has it,
is the model's choice (log entry 30). -/
def Sys2Proof.Claims.ReturnAbandonsTheRelease : Prop :=
  ∀ (s : State) (r : Frame) (c : Fin 8), LevelsTaken s → s.canTake r → r.kind = 0x44 → r.body.length = 1 →
    fieldU r.body 0 1 = c.val → s.channels.bank[c].state = .unlocking →
    ∃ t, exec .chReturn s = .next t ∧ s.answered t r .ok (0 :: (t.channelStatus c).encode) ∧
      .channel c .locking .lockEngaged (t.channelStatus c) ∈ t.link.notices ∧
      t = { s with link := t.link, channels := { s.channels with bank := (s.channels.bank.set c.val
        { s.channels.bank[c] with state := .locked, cause := .none, demand := 0, lockTimer := none,
                                  trackingRun := 0, strokeInvalidRun := 0 } c.isLt) } }

/-- CH.CLEAR (R154): the three checks in their order; taken, the channel is LOCKED with no fault cause, its demand and
runs 0, CHANNEL_FAULT is no longer present but stays latched, and an N.CHAN is queued. -/
def Sys2Proof.Claims.ChClearEndsTheFault : Prop :=
  ∀ (s : State) (r : Frame) (c : Fin 8), s.canTake r → r.kind = 0x45 → r.body.length = 1 →
    fieldU r.body 0 1 = c.val →
    ∃ t, exec .chClear s = .next t ∧
      let ch := s.channels.bank[c]
      let i := ofChannel .channelFault c
      let refuses : Nat → Prop := fun reason =>
        s.onlyAnswers t r .badState (u8 reason :: (s.channelStatus c).encode)
      if ch.state ≠ .fault then refuses 1
      else if s.lines.drive[c].driveFault = true then refuses 7
      else if s.lines.drive[c].lockEngaged = false then refuses 8
      else
        s.answered t r .ok (0 :: (t.channelStatus c).encode) ∧
        .channel c .fault .clear (t.channelStatus c) ∈ t.link.notices ∧
        t.monitor = { s.monitor with conditions := (s.monitor.conditions.set i.val
          { s.monitor.conditions[i] with present := false } i.isLt) } ∧
        t = { s with link := t.link, monitor := t.monitor,
                     channels := { s.channels with bank := (s.channels.bank.set c.val
          { ch with state := .locked, cause := .none, demand := 0, lockTimer := none, trackingRun := 0,
                    strokeInvalidRun := 0 } c.isLt) } }

/-- CH.HOLD, CH.RESUME, CH.RETURN and CH.CLEAR, and the channel number of every CH.* request: the four statements
above (R147, R150 to R152, R154), with the model's choice of log entry 30. -/
def Obligations.ChannelRequestsMoveTheChannel : Prop :=
  Claims.ChannelNumberIsChecked ∧ Claims.HoldResumeReturnKeepTheDemand ∧ Claims.ReturnAbandonsTheRelease ∧
    Claims.ChClearEndsTheFault

/-- CH.GET (R163): the status record of the named channel, or of all eight in order; a number above 7 is refused
OUT_OF_RANGE; nothing changes. That the record stands without a reason code is the model's reading (log entry 28). -/
def Sys2Proof.Claims.ChGetReadsTheStatus : Prop :=
  ∀ (s : State) (r : Frame), s.canTake r → r.kind = 0x46 →
    ∃ t, exec .chGet s = .next t ∧
      (r.body.length = 0 → s.onlyAnswers t r .ok
        ((List.finRange 8).map fun c : Fin 8 => (s.channelStatus c).encode).flatten) ∧
      (r.body.length = 1 → 7 < fieldU r.body 0 1 → s.onlyAnswers t r .outOfRange []) ∧
      (∀ c : Fin 8, r.body.length = 1 → fieldU r.body 0 1 = c.val →
        s.onlyAnswers t r .ok (s.channelStatus c).encode)

/-- The status record of a channel (R163): the values that stand, of the channel, its lines, its outputs, its lane's
computation record and the permit; the lock timer remaining is the time to its expiry in whole ms rounded up, and 0 while
it is stopped or its time is over. -/
def Sys2Proof.Claims.ChannelStatusShowsTheChannel : Prop :=
  ∀ (s : State) (c : Fin 8),
    let x := s.channelStatus c
    let ch := s.channels.bank[c]
    let driven := s.power = .running ∧
      (ch.state = .unlocking ∨ ch.state = .steering ∨ ch.state = .holding ∨ ch.state = .returning)
    x.channel = c ∧ x.state = ch.state ∧ x.cause = ch.cause ∧ x.demand = ch.demand ∧ x.measured = ch.measured ∧
    x.measuredValid = ch.measuredValid ∧ x.trackingError = ch.trackingError ∧ x.trackingRun = ch.trackingRun ∧
    x.strokeInvalidRun = ch.strokeInvalidRun ∧ (x.driveEnable = true ↔ driven) ∧ (x.lockRelease = true ↔ driven) ∧
    x.lines = s.lines.drive[c] ∧ x.permit = s.channels.permit ∧ x.output = s.computation.records[c].output ∧
    x.health = s.computation.records[c].health ∧
    (ch.lockTimer = none → x.remaining = 0) ∧
    ∀ at_, ch.lockTimer = some at_ →
      (at_ ≤ s.clock → x.remaining = 0) ∧
      (s.clock < at_ → at_ ≤ s.clock + 1000 * x.remaining ∧ s.clock + 1000 * x.remaining < at_ + 1000)

/-- PERMIT.SET (R155): ON sets the permit and moves no channel; a code above 1 is refused OUT_OF_RANGE; OFF with the
permit already OFF changes nothing, and with it ON moves every channel in the same act: STEERING and HOLDING to
RETURNING with the demand kept, and UNLOCKING to LOCKING, where the lock, still home, makes it LOCKED at once by R144,
which is the model's choice over R159 (log entry 30); the others stay. -/
def Obligations.PermitSetMovesTheChannels : Prop :=
  ∀ (s : State) (r : Frame), LevelsTaken s → s.canTake r → r.kind = 0x40 → r.body.length = 1 →
    (fieldU r.body 0 1 = 1 → ∃ t, exec .permitSetOn s = .next t ∧ s.answeredOnly t r .ok [] ∧
      t = { s with link := t.link, channels := { s.channels with permit := true } }) ∧
    (1 < fieldU r.body 0 1 → ∃ t, exec .permitSetOn s = .next t ∧ s.onlyAnswers t r .outOfRange []) ∧
    (fieldU r.body 0 1 = 0 → ∃ t, exec .permitSetOff s = .next t ∧
      (s.channels.permit = false → s.onlyAnswers t r .ok []) ∧
      (s.channels.permit = true → s.answered t r .ok [] ∧ t.channels.permit = false ∧
        t = { s with link := t.link, channels := t.channels } ∧
        ∀ c : Fin 8, match s.channels.bank[c].state with
          | .unlocking =>
            t.channels.bank[c] = { s.channels.bank[c] with
              state := .locked, cause := .none, demand := 0, lockTimer := none, trackingRun := 0,
              strokeInvalidRun := 0 } ∧
            .channel c .locking .lockEngaged (t.channelStatus c) ∈ t.link.notices
          | .steering | .holding =>
            t.channels.bank[c] = { s.channels.bank[c] with
              state := .returning, lockTimer := none, entered := true } ∧
            .channel c s.channels.bank[c].state .permitOff (t.channelStatus c) ∈ t.link.notices
          | .locking | .locked | .returning | .fault => t.channels.bank[c] = s.channels.bank[c]))

/-- A lock timer expires in LOCKING or UNLOCKING (R143, R146): the channel is in FAULT with cause LOCK_TIMEOUT, its timer
stopped, its demand and runs 0, CHANNEL_FAULT present and TRACKING_ERROR not, and its N.CHAN queued. That an expiry of
a stopped timer leaves the state is the model's choice (log entry 1). -/
def Sys2Proof.Claims.LockTimerExpiryFaults : Prop :=
  ∀ (s : State) (c : Fin 8), s.power = .running →
    (s.channels.bank[c].lockTimer = none → exec (.lockTimerExpiry c) s = .next s) ∧
    (∀ at_, s.channels.bank[c].lockTimer = some at_ →
      (s.channels.bank[c].state = .locking ∨ s.channels.bank[c].state = .unlocking) →
      ∃ t, exec (.lockTimerExpiry c) s = .next t ∧
        t.present (ofChannel .channelFault c) = true ∧ t.present (ofChannel .trackingError c) = false ∧
        .channel c s.channels.bank[c].state .fault (t.channelStatus c) ∈ t.link.notices ∧
        t = { s with clock := max s.clock at_
                     monitor := { s.monitor with conditions := t.monitor.conditions }
                     link := { s.link with notices := t.link.notices }
                     channels := { s.channels with bank := (s.channels.bank.set c.val
                       { s.channels.bank[c] with
                         state := .fault, cause := .lockTimeout, demand := 0, lockTimer := none, trackingRun := 0,
                         strokeInvalidRun := 0 } c.isLt) } })

/-- A change of a lock engaged line (R144, R145). In LOCKING a true line gives LOCKED; in LOCKED a false one LOCKING with
the lock timer started, or FAULT with cause DRIVE where the drive fault stands true; in UNLOCKING a false one STEERING
with demand 0 and f, ψ_out and h set to 0; in every other case only the line changes. That both runs are 0 from the
entry into LOCKED on is the model's reading (log entry 8), and so is that a standing drive fault acts at once (log entry
18). -/
def Sys2Proof.Claims.LockEngagedLineMovesTheChannel : Prop :=
  ∀ (s : State) (c : Fin 8) (level : Bool), s.power = .running → LevelsTaken s →
    ∃ t, exec (.lockEngagedChange c level) s = .next t ∧
      t.lines = { s.lines with
        drive := s.lines.drive.set c.val { s.lines.drive[c] with lockEngaged := level } c.isLt } ∧
      let ch := s.channels.bank[c]
      let record := s.computation.records[c]
      let onlyLines := t = { s with lines := t.lines }
      match ch.state, level with
      | .locking, true =>
        t = { s with lines := t.lines, link := { s.link with notices := t.link.notices }
                     channels := { s.channels with bank := (s.channels.bank.set c.val
          { ch with state := .locked, cause := .none, demand := 0, lockTimer := none, trackingRun := 0,
                    strokeInvalidRun := 0 } c.isLt) } } ∧
        .channel c .locking .lockEngaged (t.channelStatus c) ∈ t.link.notices
      | .locked, false =>
        if s.lines.drive[c].driveFault then
          t.channels.bank[c].state = .fault ∧ t.channels.bank[c].cause = .drive ∧ t.channels.bank[c].demand = 0 ∧
            t.channels.bank[c].lockTimer = none ∧ t.present (ofChannel .channelFault c) = true ∧
            .channel c .locking .fault (t.channelStatus c) ∈ t.link.notices
        else
          t = { s with lines := t.lines, link := { s.link with notices := t.link.notices }
                       channels := { s.channels with bank := (s.channels.bank.set c.val
            { ch with state := .locking, demand := 0,
                      lockTimer := some (s.clock + 1000 * s.computation.laws[c].lockTime) } c.isLt) } } ∧
          .channel c .locked .lockLost (t.channelStatus c) ∈ t.link.notices
      | .unlocking, false =>
        t = { s with lines := t.lines, link := { s.link with notices := t.link.notices }
                     channels := { s.channels with bank := (s.channels.bank.set c.val
                       { ch with state := .steering, demand := 0, lockTimer := none, entered := true } c.isLt) }
                     computation := { s.computation with records := (s.computation.records.set c.val
                       { record with filter := 0, output := 0, held := 0, substituted := false } c.isLt) } } ∧
        .channel c .unlocking .lockReleased (t.channelStatus c) ∈ t.link.notices
      | .locking, false => onlyLines
      | .locked, true => onlyLines
      | .unlocking, true => onlyLines
      | .steering, _ => onlyLines
      | .holding, _ => onlyLines
      | .returning, _ => onlyLines
      | .fault, _ => onlyLines

/-- A change of a drive fault line (R145, R146): a true line takes a channel in LOCKING, UNLOCKING, STEERING, HOLDING or
RETURNING to FAULT with cause DRIVE; in LOCKED and FAULT, and with the line false, only the lines change. That the level
of drive ready comes with it is the model's choice (log entry 4). -/
def Sys2Proof.Claims.DriveFaultLineFaultsTheChannel : Prop :=
  ∀ (s : State) (c : Fin 8) (fault ready : Bool), s.power = .running → LevelsTaken s →
    ∃ t, exec (.driveFaultChange c fault ready) s = .next t ∧
      t.lines = { s.lines with
        drive := s.lines.drive.set c.val
          { s.lines.drive[c] with driveFault := fault, driveReady := ready } c.isLt } ∧
      let ch := s.channels.bank[c]
      if fault = true ∧ ch.state ≠ .locked ∧ ch.state ≠ .fault then
        t.present (ofChannel .channelFault c) = true ∧ t.present (ofChannel .trackingError c) = false ∧
        .channel c ch.state .fault (t.channelStatus c) ∈ t.link.notices ∧
        t = { s with lines := t.lines
                     monitor := { s.monitor with conditions := t.monitor.conditions }
                     link := { s.link with notices := t.link.notices }
                     channels := { s.channels with bank := (s.channels.bank.set c.val
                       { ch with state := .fault, cause := .drive, demand := 0, lockTimer := none,
                                 trackingRun := 0, strokeInvalidRun := 0 } c.isLt) } }
      else t = { s with lines := t.lines }

/-- The lock timer, the lock engaged line and the drive fault line: the three statements above (R143 to R146), with the
model's choices of log entries 1, 4, 8 and 18. -/
def Obligations.LinesAndTimersMoveTheChannel : Prop :=
  Claims.LockTimerExpiryFaults ∧ Claims.LockEngagedLineMovesTheChannel ∧ Claims.DriveFaultLineFaultsTheChannel

/-! ## The monitor (chapter 8) -/

/-- A report of a condition instance (R165, R166): a rise sets present and latched, a fall clears present and keeps the
latch, a report with no edge changes nothing; an edge that the notice mode selects adds its instance to the risen or the
fallen set of the N.COND that waits, or queues one; no other instance changes. -/
def Sys2Proof.Claims.ReportsLatchAndNotify : Prop :=
  ∀ (s : State) (i : Fin 48) (value : Bool),
    let before := s.monitor.conditions[i]
    let t := s.report i value
    let selected := if value then before.mode = .rise ∨ before.mode = .both
      else before.mode = .fall ∨ before.mode = .both
    let bit : BitVec 48 := 1#48 <<< i.val
    (before.present = value → t = s) ∧
    (before.present ≠ value →
      t = { s with monitor := { s.monitor with conditions := (s.monitor.conditions.set i.val
                    { before with present := value, latched := before.latched || value } i.isLt) }
                   link := { s.link with notices := t.link.notices } } ∧
      (¬selected → t.link.notices = s.link.notices) ∧
      (selected → (∀ risen fallen, .condition risen fallen ∉ s.link.notices) →
        t.link.notices = s.link.notices ++
          [if value then .condition bit 0#48 else .condition 0#48 bit]) ∧
      (selected → ∀ front rest risen fallen, s.link.notices = front ++ .condition risen fallen :: rest →
        (∀ x y, .condition x y ∉ front) →
        t.link.notices = front ++
          (if value then .condition (risen ||| bit) fallen else .condition risen (fallen ||| bit)) :: rest))

/-- CND.GET (R168): the reply carries the present set, the latched set, the 48 notice modes and the criteria as they
stood, with the summary before the clearing; then every instance latched and not present becomes not latched. -/
def Sys2Proof.Claims.CndGetClearsTheLatches : Prop :=
  ∀ (s : State) (r : Frame), s.canTake r → r.kind = 0x50 → r.body.length = 0 →
    ∃ t, exec .cndGet s = .next t ∧
      let fields := encodeSet s.presentSet ++ encodeSet s.latchedSet ++
        ((List.finRange 48).map fun i : Fin 48 => u8 s.monitor.conditions[i].mode.code) ++ s.monitor.criteria.encode
      t = { s with
        link := { s.link with requests := s.link.requests.tail
                              replies := s.link.replies ++ [replyOf r .ok s.summary fields] }
        monitor := { s.monitor with conditions := t.monitor.conditions } } ∧
      ∀ i : Fin 48, t.monitor.conditions[i] = { s.monitor.conditions[i] with
        latched := s.monitor.conditions[i].latched && s.monitor.conditions[i].present }

/-- CND.ENABLE (R170): the code, the mode and the channel, 255 where absent, are checked; taken, the notice mode of every
selected instance is set, and nothing else changes. -/
def Sys2Proof.Claims.CndEnableSetsTheModes : Prop :=
  ∀ (s : State) (r : Frame), s.canTake r → r.kind = 0x51 → (r.body.length = 2 ∨ r.body.length = 3) →
    ∃ t, exec .cndEnable s = .next t ∧
      let code := fieldU r.body 0 1
      let channel := if r.body.length = 3 then fieldU r.body 2 1 else 255
      let listed := code ≤ 5 ∨ (16 ≤ code ∧ code ≤ 23)
      let fits := (channel ≤ 7 ∨ channel = 255) ∧ (16 ≤ code → channel = 255)
      ((¬listed ∨ 3 < fieldU r.body 1 1 ∨ ¬fits) → s.onlyAnswers t r .outOfRange []) ∧
      ∀ mode : NoticeMode, fieldU r.body 1 1 = mode.code → listed → fits →
        s.answeredOnly t r .ok [] ∧
        t = { s with link := t.link, monitor := { s.monitor with conditions := t.monitor.conditions } } ∧
        (∀ (k : ChannelCondition) (c : Fin 8), t.monitor.conditions[ofChannel k c] =
          { s.monitor.conditions[ofChannel k c] with
            mode := if (code = 0 ∨ code = k.index.val + 1) ∧ (channel = 255 ∨ channel = c.val) then mode
              else s.monitor.conditions[ofChannel k c].mode }) ∧
        ∀ k : VehicleCondition, t.monitor.conditions[ofVehicle k] =
          { s.monitor.conditions[ofVehicle k] with
            mode := if code = 0 ∨ code = k.index.val + 16 then mode else s.monitor.conditions[ofVehicle k].mode }

/-- CND.CRITERIA (R171): five optional fields, each absent one at its default; the first of 0 gives OUT_OF_RANGE with its
index, else all five are replaced. -/
def Sys2Proof.Claims.CndCriteriaReplacesTheCriteria : Prop :=
  ∀ (s : State) (r : Frame), s.canTake r → r.kind = 0x52 → r.body.length ≤ 5 →
    ∃ t, exec .cndCriteria s = .next t ∧
      let given : Nat → Nat → Nat := fun k dflt => if k < r.body.length then fieldU r.body k 1 else dflt
      let criteria : Criteria := ⟨given 0 10, given 1 10, given 2 5, given 3 20, given 4 100⟩
      (∀ k, k < r.body.length → fieldU r.body k 1 = 0 → (∀ j, j < k → fieldU r.body j 1 ≠ 0) →
        s.onlyAnswers t r .outOfRange [u8 (k + 1)]) ∧
      ((∀ k, k < r.body.length → fieldU r.body k 1 ≠ 0) → s.answeredOnly t r .ok [0] ∧
        t = { s with link := t.link, monitor := { s.monitor with criteria := criteria } })

/-- A notice that is queued (R195): it takes the place of the waiting one of its kind and subject, every other notice
staying where it stands, and else joins last; nothing else changes. N.COND and N.POS have no subject, that of an N.CHAN is
its channel. -/
def Sys2Proof.Claims.NoticesTakeTheirPlace : Prop :=
  (∀ (s : State) (n : Notice),
    NoticeJoins s.link.notices n (s.notify n).link.notices ∧
    s.notify n = { s with link := { s.link with notices := (s.notify n).link.notices } }) ∧
  ∀ a b : Notice, a.sameSubject b = true ↔ match a, b with
    | .condition _ _, .condition _ _ => True
    | .channel c _ _ _, .channel d _ _ _ => c = d
    | .position _ _ _ _ _, .position _ _ _ _ _ => True
    | .condition _ _, .channel _ _ _ _ | .condition _ _, .position _ _ _ _ _ | .channel _ _ _ _, .condition _ _
    | .channel _ _ _ _, .position _ _ _ _ _ | .position _ _ _ _ _, .condition _ _
    | .position _ _ _ _ _, .channel _ _ _ _ => False

/-- The report of a condition, the place of its notice, and CND.GET, CND.ENABLE and CND.CRITERIA: the five statements
above (R165, R166, R168, R170, R171, R195). -/
def Obligations.ConditionsLatchAndAreRead : Prop :=
  Claims.ReportsLatchAndNotify ∧ Claims.NoticesTakeTheirPlace ∧ Claims.CndGetClearsTheLatches ∧
    Claims.CndEnableSetsTheModes ∧ Claims.CndCriteriaReplacesTheCriteria

/-- A snapshot (R174, R176 to R178), at CNT.SNAP with cause REQUEST and at an expiry of the snapshot timer with cause
AUTO: the snapshot set takes the live set and the next sequence number, every live counter and peak is 0, a new interval
starts, COUNTER_SATURATED is not present and its latch stays, and in AUTO mode the timer runs with 1,000 ms. The length
of the interval is rounded to the ms, which is the model's choice (log entry 7), and so is that an expiry of a stopped timer
leaves the state (log entry 1). -/
def Sys2Proof.Claims.SnapshotsCloseTheInterval : Prop :=
  ∀ s : State,
    let k := ofVehicle .counterSaturated
    let closed : Nat → SnapshotCause → Monitor := fun now cause => { s.monitor with
      snapshot := { sequence := if s.monitor.snapshot.sequence = 65535 then 0 else s.monitor.snapshot.sequence + 1
                    interval := min 65535 (roundNat (now - s.monitor.intervalStart) 1000)
                    cause := cause
                    set := s.monitor.live }
      live := ⟨Vector.replicate 52 0, Vector.replicate 16 0⟩
      intervalStart := now
      timer := if s.monitor.auto then some (now + 1000000) else s.monitor.timer
      conditions := s.monitor.conditions.set k.val { s.monitor.conditions[k] with present := false } k.isLt }
    s.monitor.snapshot.sequence ≤ 65535 →
    (∀ r, s.canTake r → r.kind = 0x53 → r.body.length = 0 →
      ∃ t, exec .cntSnap s = .next t ∧ t.monitor = closed s.clock .request ∧
        s.answered t r .ok t.monitor.snapshot.encode ∧ t = { s with monitor := t.monitor, link := t.link }) ∧
    (∀ at_, s.power = .running → s.monitor.auto = true → s.monitor.timer = some at_ →
      ∃ t, exec .snapshotTimerExpiry s = .next t ∧ t.monitor = closed (max s.clock at_) .auto ∧
        t = { s with clock := max s.clock at_, monitor := t.monitor,
                     link := { s.link with notices := t.link.notices } }) ∧
    (s.monitor.timer = none → exec .snapshotTimerExpiry s = .next s)

/-- CNT.MODE (R177): a mode that stands already changes nothing; to MANUAL the timer stops, to AUTO it starts with 1,000
ms; another code is refused OUT_OF_RANGE; no snapshot is taken. -/
def Sys2Proof.Claims.CntModeStartsAndStopsTheTimer : Prop :=
  ∀ (s : State) (r : Frame), s.canTake r → r.kind = 0x54 → r.body.length = 1 →
    (fieldU r.body 0 1 = 0 → ∃ t, exec .cntModeAuto s = .next t ∧ s.answeredOnly t r .ok [] ∧
      t = { s with link := t.link, monitor := if s.monitor.auto then s.monitor
        else { s.monitor with auto := true, timer := some (s.clock + 1000000) } }) ∧
    (fieldU r.body 0 1 = 1 → ∃ t, exec .cntModeManual s = .next t ∧ s.answeredOnly t r .ok [] ∧
      t = { s with link := t.link, monitor := if s.monitor.auto then
        { s.monitor with auto := false, timer := none } else s.monitor }) ∧
    (1 < fieldU r.body 0 1 → ∃ t, exec .cntModeManual s = .next t ∧ s.onlyAnswers t r .outOfRange [])

/-- Snapshots and CNT.MODE: both statements above (R176 to R178), with the model's choices of log entries 1 and 7. -/
def Obligations.SnapshotsAndTheirTimer : Prop :=
  Claims.SnapshotsCloseTheInterval ∧ Claims.CntModeStartsAndStopsTheTimer

/-- CNT.GET (R179, R206): the snapshot set as it stands: sequence, length and cause, then each channel's six counters and
two peaks, then the four vehicle counters; nothing changes. -/
def Sys2Proof.Claims.CntGetReadsTheSnapshot : Prop :=
  ∀ (s : State) (r : Frame), s.canTake r → r.kind = 0x55 → r.body.length = 0 →
    ∃ t, exec .cntGet s = .next t ∧
      let shot := s.monitor.snapshot
      let counter : Fin 52 → List Byte := fun k => be 2 shot.set.counts[k]
      let peak : Fin 16 → List Byte := fun k => be 2 shot.set.peaks[k]
      s.onlyAnswers t r .ok (be 2 shot.sequence ++ be 2 shot.interval ++ [u8 shot.cause.code] ++
        ((List.finRange 8).map fun c : Fin 8 =>
          counter (counterOf .contact c) ++ counter (counterOf .proximityPasses c) ++
          counter (counterOf .limitedPasses c) ++ counter (counterOf .implausiblePasses c) ++
          counter (counterOf .trackingExceedPasses c) ++ counter (counterOf .substitutedPasses c) ++
          peak (peakOffset c) ++ peak (peakError c)).flatten ++
        counter (vehicleCounter .markerMatch) ++ counter (vehicleCounter .markerMiss) ++
        counter (vehicleCounter .scanOverrun) ++ counter (vehicleCounter .frameError))

/-- SEC.GET, VEH.GET, POS.GET, STG.GET, LAW.GET, CH.GET with its record, and CNT.GET: the eight statements above (R21, R38, R59, R96, R113,
R163, R179), with the model's choices of log entries 17, 27 and 28. -/
def Obligations.ReadsAnswerWhatStands : Prop :=
  Claims.SecGetReadsTheSection ∧ Claims.VehGetReadsTheRecord ∧ Claims.PosGetReadsPositionAndPath ∧
    Claims.StgGetReadsTheTable ∧ Claims.LawGetReadsTheRecords ∧ Claims.ChGetReadsTheStatus ∧
    Claims.ChannelStatusShowsTheChannel ∧ Claims.CntGetReadsTheSnapshot

/-! ## What the part writes it reads back (chapter 10) -/

/-- Records are written at the places that chapter 10 gives, each field in its width (R199, R202, R205, R206): an element
within its widths is read back from its 11 bytes and a marker from its 5, and every field of a channel status record, of
a computation record and of a yaw record is found at its offset, every flag at its bit. -/
def Sys2Proof.Claims.RecordsAreFoundAtTheirPlaces : Prop :=
  (∀ e : Element, e.start < 16777216 → -8388608 ≤ e.curvatureStart → e.curvatureStart < 8388608 →
    -8388608 ≤ e.curvatureEnd → e.curvatureEnd < 8388608 → (∀ c, e.clearance = some c → 0 < c ∧ c < 16384) →
    e.encode.length = 11 ∧ elementOf? e.encode = some e) ∧
  (∀ m : Marker, m.chainage < 16777216 → m.halfWidth < 65536 → m.encode.length = 5 ∧ markerOf m.encode = m) ∧
  (∀ c : ChannelStatus, c.remaining < 65536 → c.demand.natAbs < 32768 → c.measured.natAbs < 2147483648 →
    (∀ e, c.trackingError = some e → e.natAbs < 2147483648) → c.output.natAbs < 2147483648 →
    c.trackingRun ≤ 255 → c.strokeInvalidRun ≤ 255 →
    let b := c.encode
    let flagAt : Nat → Bool := fun k => (b.getD 17 0).getLsbD k
    b.length = 23 ∧ fieldU b 0 1 = c.channel.val ∧ fieldU b 1 1 = c.state.code ∧ fieldU b 2 1 = c.cause.code ∧
    fieldU b 3 2 = c.remaining ∧ fieldS b 5 2 = c.demand ∧ fieldS b 7 4 = c.measured ∧
    fieldS b 11 4 = c.trackingError.getD 0 ∧ fieldU b 15 1 = c.trackingRun ∧ fieldU b 16 1 = c.strokeInvalidRun ∧
    flagAt 0 = c.driveEnable ∧ flagAt 1 = c.lockRelease ∧ flagAt 2 = c.lines.driveReady ∧
    flagAt 3 = c.lines.driveFault ∧ flagAt 4 = c.lines.lockEngaged ∧ flagAt 5 = c.measuredValid ∧
    flagAt 6 = c.trackingError.isSome ∧ flagAt 7 = c.permit ∧
    fieldS b 18 4 = c.output ∧ fieldU b 22 1 = c.health.code) ∧
  (∀ r : ComputationRecord, r.filter.natAbs < 2147483648 → r.output.natAbs < 2147483648 →
    r.held.natAbs < 2147483648 → r.lastGood.natAbs < 8388608 → r.inUse.natAbs < 8388608 →
    r.implausibleRun ≤ 255 → r.plausibleRun ≤ 255 → r.limitedRun ≤ 255 → r.unlimitedRun ≤ 255 →
    let b := r.encode
    let flagAt : Nat → Bool := fun k => (b.getD 26 0).getLsbD k
    b.length = 27 ∧ fieldS b 0 4 = r.filter ∧ fieldS b 4 4 = r.output ∧ fieldS b 8 4 = r.held ∧
    fieldU b 12 1 = (if r.substituted then 1 else 0) ∧ fieldU b 13 1 = r.health.code ∧
    fieldU b 14 1 = r.implausibleRun ∧ fieldU b 15 1 = r.plausibleRun ∧ fieldS b 16 3 = r.lastGood ∧
    fieldS b 19 3 = r.inUse ∧ fieldU b 22 1 = (if r.proximity then 1 else 0) ∧
    fieldU b 23 1 = (if r.contact then 1 else 0) ∧ fieldU b 24 1 = r.limitedRun ∧ fieldU b 25 1 = r.unlimitedRun ∧
    flagAt 0 = r.flags.feedback ∧ flagAt 1 = r.flags.angle ∧ flagAt 2 = r.flags.rate ∧ flagAt 3 = r.flags.stroke ∧
    fieldU b 26 1 < 16) ∧
  (∀ y : YawRecord, y.disagreeRun ≤ 255 → y.agreeRun ≤ 255 →
    let b := y.encode
    b.length = 3 ∧ fieldU b 0 1 = y.disagreeRun ∧ fieldU b 1 1 = y.agreeRun ∧
    fieldU b 2 1 = if y.mismatch then 1 else 0)

/-- The summary byte that every reply carries (R192, R200): the published tracker state in bits 0 and 1, then the permit,
any channel in FAULT, any channel STEERING, any condition latched and standstill, one bit each, and bit 7 clear. -/
def Sys2Proof.Claims.SummaryShowsTheVehicle : Prop :=
  ∀ s : State,
    let b := s.summary
    b.toNat % 4 = (match s.tracker.published.state with
      | .unlocated => 0
      | .located => 1
      | .degraded => 2) ∧
    b.getLsbD 2 = s.channels.permit ∧
    (b.getLsbD 3 = true ↔ ∃ c : Fin 8, s.channels.bank[c].state = .fault) ∧
    (b.getLsbD 4 = true ↔ ∃ c : Fin 8, s.channels.bank[c].state = .steering) ∧
    (b.getLsbD 5 = true ↔ ∃ i : Fin 48, s.monitor.conditions[i].latched = true) ∧
    b.getLsbD 6 = s.tracker.published.standstill ∧ b.getLsbD 7 = false

/-- The vehicle record in its 149 bytes (R38, R204): every field that fits its width is found at its offset, 0 in every
slot beyond the references; and the bytes of a record that VEH.SET has written give that record again. -/
def Sys2Proof.Claims.VehicleRecordReadsBack : Prop :=
  (∀ v : VehicleRecord, VehicleInWidths v →
    let b := v.encode
    b.length = 149 ∧ fieldU b 0 1 = v.bogieCount ∧
    (∀ k : Fin 4, fieldS b (1 + 4 * k.val) 2 = v.bogies[k].centre ∧ fieldS b (3 + 4 * k.val) 2 = v.bogies[k].body) ∧
    (∀ c : Fin 8, fieldS b (17 + 6 * c.val) 2 = v.channels[c].offset ∧
      fieldU b (19 + 6 * c.val) 2 = v.channels[c].lever ∧ fieldU b (21 + 6 * c.val) 2 = v.channels[c].strokeMax) ∧
    (∀ w : Fin 16, fieldU b (65 + 4 * w.val) 2 = v.wheels[w].diameter ∧
      fieldU b (67 + 4 * w.val) 1 = v.wheels[w].teeth ∧ fieldU b (68 + 4 * w.val) 1 = v.wheels[w].mode.code) ∧
    fieldU b 129 1 = v.references.length ∧
    (∀ k : Fin 4, fieldU b (130 + k.val) 1 = match v.references[k.val]? with
      | some w => w.val
      | none => 0) ∧
    fieldS b 134 2 = v.markerOffset ∧ fieldU b 136 2 = v.drift ∧ fieldU b 138 2 = v.locateAccuracy ∧
    fieldU b 140 2 = v.markerAccuracy ∧ fieldU b 142 2 = v.uFull ∧ fieldU b 144 2 = v.uZero ∧
    fieldU b 146 2 = v.uDegrade ∧ fieldU b 148 1 = v.slip) ∧
  ∀ body : List Byte, body.length ∈ [136, 138, 140, 142, 144, 146, 148, 149] → vehFailure body = none →
    vehRecord (vehRecord body).encode = vehRecord body

/-- The stage record and the schedule records (R97, R99, R102, R203): a stage entry's 16 bytes hold every field at its
offset, with owner 255 and role 0 for none, and STG.SET reads an owned entry in its ranges, or a released one, back from
them; the four schedule records hold, bogie by bogie, the period, the four flags and the place of the outstanding scan. -/
def Sys2Proof.Claims.StageAndScheduleRecordsAreFound : Prop :=
  (∀ (i : Fin 32) (e : StageEntry), e.input < 256 → e.scale.natAbs < 8388608 → e.offset.natAbs < 8388608 →
    e.validLow.natAbs < 8388608 → e.validHigh.natAbs < 8388608 →
    let b := e.encode i
    b.length = 16 ∧ fieldU b 0 1 = i.val ∧ (e.owner = none → fieldU b 1 1 = 255) ∧
    (∀ k, e.owner = some k → fieldU b 1 1 = k.val) ∧ (e.role = none → fieldU b 2 1 = 0) ∧
    (∀ r, e.role = some r → fieldU b 2 1 = r.code) ∧ fieldU b 3 1 = e.input ∧ fieldS b 4 3 = e.scale ∧
    fieldS b 7 3 = e.offset ∧ fieldS b 10 3 = e.validLow ∧ fieldS b 13 3 = e.validHigh ∧
    (∀ k r, e.owner = some k → e.role = some r → e.inRange r = true → stageEntryOf? b = some e) ∧
    (e = StageEntry.released → stageEntryOf? b = some e)) ∧
  ∀ (s : State) (b : Fin 4), s.acquisition.periods[b] < 256 → s.outstanding b ≤ 1 →
    let r := s.scheduleRecords
    let flagAt : Nat → Bool := fun k => (r.getD (3 * b.val + 1) 0).getLsbD k
    let held : Role → Prop := fun role => ∃ i : Fin 32,
      s.acquisition.stages[i].owner = some b ∧ s.acquisition.stages[i].role = some role
    let scan := fieldU r (3 * b.val + 2) 1
    r.length = 12 ∧ fieldU r (3 * b.val) 1 = s.acquisition.periods[b] ∧ fieldU r (3 * b.val + 1) 1 < 16 ∧
    (flagAt 0 = true ↔ b.val < s.vehicleView.bogieCount) ∧
    (flagAt 1 = true ↔ held .gapLeftA ∧ held .gapRightA ∧ held .strokeA ∧ held .gapLeftB ∧ held .gapRightB ∧
      held .strokeB) ∧
    (flagAt 2 = true ↔ held .yaw) ∧ (flagAt 3 = true ↔ s.acquisition.timers[b] ≠ none) ∧ scan ≤ 3 ∧
    (scan = 1 ↔ ∃ q ∈ s.acquisition.queue, q.bogie = b) ∧
    (scan = 2 ↔ ∃ c, s.acquisition.converter = some c ∧ c.scan.bogie = b) ∧
    (scan = 3 ↔ ∃ q ∈ s.computation.queue, q.bogie = b)

/-- The position record, path entries and end links (R202, R206): the 16 bytes of a published position hold every field at
its offset, the datum's three 0 without one; a path entry and an end link hold their kind and what it names, 0 where it
names nothing. -/
def Sys2Proof.Claims.PositionAndLinkRecordsAreFound : Prop :=
  (∀ p : Published, PublishedInWidths p →
    let b := p.encode
    b.length = 16 ∧ fieldU b 0 1 = p.state.code ∧
    (p.datum = none → fieldU b 1 1 = 0 ∧ fieldU b 2 3 = 0 ∧ fieldU b 5 1 = 0) ∧
    (∀ d, p.datum = some d → fieldU b 1 1 = d.sec.val + 1 ∧
      (fieldU b 2 3 : Int) = roundDiv d.location.chainage 1000 ∧ fieldU b 5 1 = d.orientation.code) ∧
    fieldU b 6 2 = p.speed ∧ fieldS b 8 1 = p.sign.toInt ∧ fieldU b 9 1 = (if p.standstill then 1 else 0) ∧
    fieldU b 10 2 = roundNat p.uncertainty 1000 ∧ fieldU b 12 2 = p.confidence ∧ fieldU b 14 1 = p.missCount ∧
    fieldU b 15 1 = p.validReferences) ∧
  (∀ e : PathEntry,
    let b := e.encode
    b.length = 5 ∧ fieldU b 0 1 = e.sec.val + 1 ∧ fieldU b 1 1 = e.orientation.code ∧
    (e.via = none → b.drop 2 = [0, 0, 0]) ∧ (e.via = some .link → b.drop 2 = [1, 0, 0]) ∧
    ∀ id branch, e.via = some (.points id branch) →
      fieldU b 2 1 = 2 ∧ fieldU b 3 1 = id.val + 1 ∧ fieldU b 4 1 = branch.code) ∧
  Link.encode .none = [0, 0, 0] ∧
  (∀ (target : Fin 32) (end_ : SectionEnd),
    let b := Link.encode (.sec target end_)
    b.length = 3 ∧ fieldU b 0 1 = 1 ∧ fieldU b 1 1 = target.val + 1 ∧ fieldU b 2 1 = end_.code) ∧
  ∀ (id : Fin 16) (role : PointsRole),
    let b := Link.encode (.points id role)
    b.length = 3 ∧ fieldU b 0 1 = 2 ∧ fieldU b 1 1 = id.val + 1 ∧ fieldU b 2 1 = role.code

/-- The law record in its 37 bytes (R205): each of its nineteen fields, in R110's ranges, is found at its offset in its
width. -/
def Sys2Proof.Claims.LawRecordIsFoundAtItsPlaces : Prop :=
  ∀ l : LawRecord, LawInRange l →
    let b := l.encode
    b.length = 37 ∧ fieldU b 0 2 = l.previewTime ∧ fieldU b 2 2 = l.kp ∧ fieldU b 4 4 = l.feedbackLimit ∧
    fieldU b 8 4 = l.angleMax ∧ fieldU b 12 2 = l.rate ∧ fieldU b 14 1 = l.shiftNormal ∧
    fieldU b 15 1 = l.shiftWidened ∧ fieldU b 16 2 = l.proximityGap ∧ fieldU b 18 2 = l.contactGap ∧
    fieldU b 20 2 = l.sumTolerance ∧ fieldU b 22 2 = l.feedbackMinSpeed ∧ fieldU b 24 1 = l.lateralMode.code ∧
    fieldU b 25 1 = l.forwardMode.code ∧ fieldU b 26 2 = l.decayStep ∧ fieldU b 28 2 = l.yawTolerance ∧
    fieldU b 30 2 = l.trackingLimit ∧ fieldU b 32 1 = l.trackingPersistence ∧ fieldU b 33 2 = l.centreTolerance ∧
    fieldU b 35 2 = l.lockTime

/-- The codes of R147, R160, R193, R200 and R201, and the condition sets (R164, R206): bit c of byte k of a set is condition code k + 1 of channel c
for k below 5, byte 5 holds codes 16 to 23, and the present and latched sets hold the instances that are. -/
def Sys2Proof.Claims.CodesAndSetsFollowTheirTables : Prop :=
  [SectionEnd.low, .high].map SectionEnd.code = [0, 1] ∧ [PointsRole.toe, .left, .right].map PointsRole.code = [0, 1, 2] ∧
  [Setting.unknown, .left, .right].map Setting.code = [0, 1, 2] ∧ [Branch.left, .right].map Branch.code = [1, 2] ∧
  [SectionState.free, .loading, .checking, .ready].map SectionState.code = [0, 1, 2, 3] ∧
  [Orientation.up, .down].map Orientation.code = [0, 1] ∧
  [Role.gapLeftA, .gapRightA, .strokeA, .gapLeftB, .gapRightB, .strokeB, .yaw].map Role.code = [1, 2, 3, 4, 5, 6, 7] ∧
  [CountMode.rising, .both].map CountMode.code = [0, 1] ∧
  [ChannelState.locking, .locked, .unlocking, .steering, .holding, .returning, .fault].map ChannelState.code =
    [0, 1, 2, 3, 4, 5, 6] ∧
  [FaultCause.none, .lockTimeout, .drive, .tracking, .strokeSensor].map FaultCause.code = [0, 1, 2, 3, 4] ∧
  [Health.good, .suspect, .failed].map Health.code = [0, 1, 2] ∧
  [LateralMode.freeze, .partner, .zero].map LateralMode.code = [0, 1, 2] ∧
  [ForwardMode.hold, .decay, .zero].map ForwardMode.code = [0, 1, 2] ∧
  [NoticeMode.off, .rise, .fall, .both].map NoticeMode.code = [0, 1, 2, 3] ∧
  [PositionCause.locate, .matched, .missed, .state, .loss].map PositionCause.code = [1, 2, 3, 4, 5] ∧
  [SnapshotCause.none, .auto, .request].map SnapshotCause.code = [0, 1, 2] ∧
  [TrackerState.unlocated, .located, .degraded].map TrackerState.code = [0, 1, 2] ∧
  [Status.ok, .unknownKind, .badLength, .outOfRange, .badState, .notLocked, .notStandstill, .noVehicle, .noSection,
    .occupied, .inPoints, .linkConflict, .noSpace, .checkFailed, .duplicate, .noPath].map Status.code = List.range 16 ∧
  [Reason.none, .state, .permitOff, .unlocated, .notConfigured, .incomplete, .driveNotReady, .driveFault,
    .lockNotEngaged].map Reason.code = [0, 1, 2, 3, 4, 5, 6, 7, 8] ∧
  [ChannelEvent.lockEngaged, .lockLost, .unlock, .lockReleased, .hold, .resume, .returnTaken, .permitOff, .returnDone,
    .fault, .clear].map ChannelEvent.code = [1, 2, 3, 4, 5, 6, 7, 8, 9, 10, 11] ∧
  (∀ (set : BitVec 48) (c : Fin 8),
    (encodeSet set).length = 6 ∧
    (∀ k : ChannelCondition, ((encodeSet set).getD k.index.val 0).getLsbD c.val = set.getLsbD (ofChannel k c).val) ∧
    ∀ k : VehicleCondition, ((encodeSet set).getD 5 0).getLsbD k.index.val = set.getLsbD (ofVehicle k).val) ∧
  ∀ (s : State) (i : Fin 48), s.presentSet.getLsbD i.val = s.monitor.conditions[i].present ∧
    s.latchedSet.getLsbD i.val = s.monitor.conditions[i].latched

/-- The geometry, stage, schedule, vehicle, law, computation, yaw, channel status and position records, the codes, the
condition sets and the summary byte: the seven statements above (R38, R97, R147, R160, R164, R192, R193, R199 to R206). The
layouts of the replies and notices that carry them are with those, and the snapshot set's is with CNT.GET. -/
def Obligations.WrittenRecordsReadBack : Prop :=
  Claims.RecordsAreFoundAtTheirPlaces ∧ Claims.VehicleRecordReadsBack ∧ Claims.StageAndScheduleRecordsAreFound ∧
    Claims.PositionAndLinkRecordsAreFound ∧ Claims.LawRecordIsFoundAtItsPlaces ∧ Claims.CodesAndSetsFollowTheirTables ∧ Claims.SummaryShowsTheVehicle

/-! ## Invariants that every step keeps -/

/-- Every step keeps the geometry store sound (R1, R3, R8, R9). -/
def Sys2Proof.Claims.EveryStepKeepsTheStoreSound : Prop :=
  ∀ s t : State, StoreSound s.store → step s = .next t → StoreSound t.store

/-- Every step keeps every READY section as R17 has it. -/
def Sys2Proof.Claims.EveryStepKeepsReadySectionsSound : Prop :=
  ∀ s t : State, ReadySound s.store → step s = .next t → ReadySound t.store

/-- Every step keeps the store and its READY sections sound: both statements above (R1, R3, R8, R9, R17). -/
def Obligations.EveryStepKeepsTheGeometrySound : Prop :=
  Claims.EveryStepKeepsTheStoreSound ∧ Claims.EveryStepKeepsReadySectionsSound

/-- Every step keeps the path within 16 entries of READY sections, with every occupancy count that of the path (R68,
R69). -/
def Obligations.EveryStepKeepsThePathSound : Prop :=
  ∀ s t : State, PathSound s → step s = .next t → PathSound t

/-- Every step keeps the channels as R139, R141, R143 to R146, R155 and R161 have them, and leaves no channel in a state
that the level of one of its lines moves it out of (R144, R145). That this holds after an abandoned release and a
drive fault behind a lost lock too is the model's reading (log entries 18, 30). -/
def Sys2Proof.Claims.EveryStepKeepsTheChannels : Prop :=
  ∀ s t : State, ChannelsSound s → LevelsTaken s → step s = .next t → ChannelsSound t ∧ LevelsTaken t

/-- Every step keeps every channel's demand within ±stroke_max of the vehicle record, whatever a pass in flight has still
to give and through every change of the record, and every channel of a bogie outside the record in LOCKING, LOCKED or
FAULT (R36, R141). -/
def Sys2Proof.Claims.EveryStepKeepsTheDemandsBounded : Prop :=
  ∀ s t : State, ChannelsSound s → DemandsBounded s → step s = .next t → DemandsBounded t

/-- The output lines of a part that runs, in sound states (R140, R141): drive enable and lock release are asserted exactly
in UNLOCKING, STEERING, HOLDING and RETURNING; the stroke demand is the channel's demand, within ±stroke_max, and 0 in
LOCKING, LOCKED, UNLOCKING and FAULT. -/
def Sys2Proof.Claims.OutputsFollowTheChannels : Prop :=
  ∀ (s : State) (c : Fin 8), s.power = .running → ChannelsSound s → DemandsBounded s →
    let state := s.channels.bank[c].state
    let driven := state = .unlocking ∨ state = .steering ∨ state = .holding ∨ state = .returning
    (s.driveEnable c = true ↔ driven) ∧ (s.lockRelease c = true ↔ driven) ∧
    s.strokeDemand c = s.channels.bank[c].demand ∧
    (s.strokeDemand c).natAbs ≤ s.vehicleView.channels[c].strokeMax ∧
    ((state = .locking ∨ state = .locked ∨ state = .unlocking ∨ state = .fault) → s.strokeDemand c = 0)

/-- The channels, their demands and their output lines: the three statements above (R36, R139 to R146, R155, R161), with
the model's readings of log entries 18 and 30. -/
def Obligations.EveryStepKeepsTheChannelsSound : Prop :=
  Claims.EveryStepKeepsTheChannels ∧ Claims.EveryStepKeepsTheDemandsBounded ∧ Claims.OutputsFollowTheChannels

/-- Every step keeps every present condition latched, the counters and peaks within their ranges, COUNTER_SATURATED
present exactly while a live counter stands at 65,535, and the snapshot timer running exactly in AUTO (R165, R173 to
R175, R177). -/
def Sys2Proof.Claims.EveryStepKeepsTheMonitorSound : Prop :=
  ∀ s t : State, MonitorSound s.monitor → step s = .next t → MonitorSound t.monitor

/-- Every step keeps the queues of the link within their bounds, room for the reply a busy handler owes, and never two
waiting notices of the same kind and subject (R188, R189, R194, R195). -/
def Sys2Proof.Claims.EveryStepKeepsTheLinkSound : Prop :=
  ∀ s t : State, LinkSound s.link → step s = .next t → LinkSound t.link

/-- Every command but the arbiter's own and the resets changes the notice queue only by notices that join it, one after
the other, each by R195's rule: no waiting notice is lost or moved, and a newer one of the same kind and subject takes its
place. -/
def Sys2Proof.Claims.EveryCommandKeepsTheNoticesInOrder : Prop :=
  ∀ (c : Instr) (s t : State), exec c s = .next t → c ≠ .transmitBegin → c ≠ .frameSent → c ≠ .restartTakesEffect →
    c ≠ .startUpEnd → c ≠ .supplyLoss → NoticesJoin s.link.notices t.link.notices

/-- Every step keeps the monitor and the link sound, and the notices their places: the three statements above. -/
def Obligations.EveryStepKeepsMonitorAndLinkSound : Prop :=
  Claims.EveryStepKeepsTheMonitorSound ∧ Claims.EveryStepKeepsTheLinkSound ∧
    Claims.EveryCommandKeepsTheNoticesInOrder

/-- Every step keeps each period timer running exactly while its bogie is scheduled, each role of a bogie held by one
stage, at most one scan per bogie outstanding, and the converter and the computation unit never idle while something
waits for them (R93, R100 to R102, R105, R114). -/
def Obligations.EveryStepKeepsTheScansSound : Prop :=
  ∀ s t : State, ScansSound s → step s = .next t → ScansSound t

/-- Every step keeps the tracker as R40, R51, R54 and R55 have it, with its datum on the path. -/
def Obligations.EveryStepKeepsTheTrackerSound : Prop :=
  ∀ s t : State, TrackerSound s → DatumOnPath s → step s = .next t → TrackerSound t ∧ DatumOnPath t
end

