-- ==== Sys2Proof/Laws/Arith.lean ====
section
/-!
SUPPORT. The shared arithmetic and the operand forms: the rounding rule is odd, a clamp holds its bounds, the median is the middle, ids and the
numbers they name, and a field written is read back.
-/

namespace Sys2Proof.Machine

/-! ## Rounding and clamps (R108) -/

/-- The rounding rule is the same on both sides of zero. -/
theorem roundDiv_neg (a : Int) (b : Nat) : roundDiv (-a) b = -roundDiv a b := by
  unfold roundDiv
  rcases Int.lt_trichotomy a 0 with h | h | h
  · rw [if_pos (by omega), if_neg (by omega), Int.natAbs_neg, neg_neg]
  · subst h
    by_cases hb : b = 0
    · simp [hb]
    · simp [Nat.div_eq_of_lt (show b < 2 * b by omega)]
  · rw [if_neg (by omega), if_pos (by omega), Int.natAbs_neg]

/-- A clamp is the same on both sides of zero. -/
theorem clampAbs_neg (limit : Nat) (x : Int) : clampAbs limit (-x) = -clampAbs limit x := by
  unfold clampAbs; omega

/-- A clamp holds its bound. -/
theorem clampAbs_natAbs (limit : Nat) (x : Int) : (clampAbs limit x).natAbs ≤ limit := by
  unfold clampAbs; omega

/-- A value within the bound is not moved by the clamp. -/
theorem clampAbs_of_le {limit : Nat} {x : Int} (h : x.natAbs ≤ limit) : clampAbs limit x = x := by
  unfold clampAbs; omega

/-- Moving toward a target is the same on both sides of zero. -/
theorem approach_neg (step : Nat) (target x : Int) : approach step (-target) (-x) = -approach step target x := by
  unfold approach
  rw [show -target - -x = -(target - x) by ring, clampAbs_neg]
  ring

/-- A run saturates at 255. -/
theorem runUp_le (n : Nat) : runUp n ≤ 255 := by unfold runUp; omega

/-! ## Ranked numbers (R44, R45) -/

theorem rankIn_perm (n : Nat) (l : List Nat) : (rankIn n l).Perm (n :: l) := by
  induction l with
  | nil => exact List.Perm.refl _
  | cons m rest ih =>
    unfold rankIn
    split
    · exact List.Perm.refl _
    · exact (ih.cons m).trans (List.Perm.swap n m rest)

theorem rankIn_rises (n : Nat) {l : List Nat} (h : l.Pairwise (fun a b => a ≤ b)) :
    (rankIn n l).Pairwise (fun a b => a ≤ b) := by
  induction l with
  | nil => simp [rankIn]
  | cons m rest ih =>
    rw [List.pairwise_cons] at h
    unfold rankIn
    split
    case isTrue hm =>
      refine List.pairwise_cons.mpr ⟨fun b hb => ?_, List.pairwise_cons.mpr h⟩
      rcases List.mem_cons.mp hb with rfl | hb
      · exact hm
      · exact hm.trans (h.1 b hb)
    case isFalse hm =>
      refine List.pairwise_cons.mpr ⟨fun b hb => ?_, ih h.2⟩
      rcases List.mem_cons.mp ((rankIn_perm n rest).subset hb) with rfl | hb
      · omega
      · exact h.1 b hb

/-- Ranking keeps the numbers and puts them in rising order. -/
theorem ranked_spec (l : List Nat) : (ranked l).Perm l ∧ (ranked l).Pairwise (fun a b => a ≤ b) := by
  induction l with
  | nil => exact ⟨List.Perm.refl _, List.Pairwise.nil⟩
  | cons n rest ih => exact ⟨(rankIn_perm n _).trans (ih.1.cons n), rankIn_rises n ih.2⟩

/-- The median is the middle, whatever way the list is put in rising order. -/
theorem median_isMiddle (l : List Nat) : IsMiddle (median l) l := by
  intro r hr rises
  have same : r = ranked l :=
    List.Perm.eq_of_pairwise (fun a b _ _ h k => Nat.le_antisymm h k) rises (ranked_spec l).2
      (hr.trans (ranked_spec l).1.symm)
  subst same
  simp only [median, hr.length_eq]

/-! ## Ids -/

@[simp] theorem sectionOf?_id (i : Fin 32) : sectionOf? (i.val + 1) = some i := by
  unfold sectionOf?
  rw [dif_pos (by omega)]
  rfl

@[simp] theorem pointsOf?_id (i : Fin 16) : pointsOf? (i.val + 1) = some i := by
  unfold pointsOf?
  rw [dif_pos (by omega)]
  rfl

@[simp] theorem channelOf?_val (c : Fin 8) : channelOf? c.val = some c := by simp [channelOf?]

@[simp] theorem bogieOf?_val (b : Fin 4) : bogieOf? b.val = some b := by simp [bogieOf?]

@[simp] theorem stageOf?_val (i : Fin 32) : stageOf? i.val = some i := by simp [stageOf?]

@[simp] theorem wheelOf?_val (w : Fin 16) : wheelOf? w.val = some w := by simp [wheelOf?]

/-- A number that names no channel. -/
theorem channelOf?_none {n : Nat} (h : 8 ≤ n) : channelOf? n = none := by
  unfold channelOf?
  rw [dif_neg (by omega)]

/-! ## Fields (R199) -/

@[simp] theorem be_length (width n : Nat) : (be width n).length = width := by
  induction width with
  | zero => rfl
  | succ w ih => simp [be, ih]

/-- What reading adds to a number already read. -/
theorem beNat_foldl (l : List Byte) (acc : Nat) :
    l.foldl (fun acc b => acc * 256 + b.toNat) acc = acc * 256 ^ l.length + beNat l := by
  unfold beNat
  induction l generalizing acc with
  | nil => simp
  | cons b rest ih =>
    simp only [List.foldl_cons, List.length_cons]
    rw [ih, ih (0 * 256 + b.toNat)]
    ring

/-- A number written is read back, as far as the field's width holds it. -/
theorem beNat_be (width n : Nat) : beNat (be width n) = n % 256 ^ width := by
  induction width with
  | zero => simp [be, beNat, Nat.mod_one]
  | succ w ih =>
    have h : beNat (be (w + 1) n) = (BitVec.ofNat 8 (n / 256 ^ w)).toNat * 256 ^ w + beNat (be w n) := by
      conv => lhs; unfold beNat be
      rw [List.foldl_cons, beNat_foldl, be_length]
      simp
    have hm : n % (256 ^ w * 256) = n % 256 ^ w + 256 ^ w * (n / 256 ^ w % 256) := Nat.mod_mul
    rw [h, ih, BitVec.toNat_ofNat, show (256 : Nat) ^ (w + 1) = 256 ^ w * 256 from pow_succ _ _, hm,
      show (2 : Nat) ^ 8 = 256 from rfl]
    ring

/-- A field written at its place in a body is read back from there. -/
theorem fieldU_be (before after : List Byte) (width n : Nat) (h : n < 256 ^ width) :
    fieldU (before ++ be width n ++ after) before.length width = n := by
  unfold fieldU
  simp only [List.append_assoc, List.drop_left]
  rw [List.take_append_of_le_length (by simp), List.take_of_length_le (by simp), beNat_be, Nat.mod_eq_of_lt h]

end Sys2Proof.Machine
end

