-- ==== Sys2Proof/WellFormed.lean ====
section
/-!
DEFINITION. Which commands are well formed.

The operands' types already hold the bounds of 00_scope.md 5.5 (channels 0..7, bogies 0..3) and R28 (wheels 0..15) and
of the converter's range (R92). One bound is left: a length byte that ends a frame lies above 240 (R186).
-/

namespace Sys2Proof

/-- Whether the command is one the part can meet: the operand of FRAME_LENGTH_ABORT is a length above 240 (R186). -/
def Instr.wellFormed : Instr → Bool
  | .frameLengthAbort length => decide (Config.maxBody < length.toNat)
  | _ => true

end Sys2Proof
end

