-- ==== Sys2Proof/Laws/PerInstr.lean ====
section
/-!
SUPPORT. What holds of every command as syntax, one lemma for each: the commands that are not well formed are the
length aborts whose byte is a length a frame may have (R186).
-/

namespace Sys2Proof.Laws.WellFormedness

/-- A command is not well formed exactly when it is a length abort with a byte of at most 240 (R186). -/
def Statement (i : Sys2Proof.Instr) : Prop :=
  i.wellFormed = false ↔ ∃ n : Sys2Proof.Byte, i = .frameLengthAbort n ∧ n.toNat ≤ 240

open Sys2Proof

theorem startUpBegin : Statement (.startUpBegin) := by simp [Statement, Instr.wellFormed]
theorem startUpEnd : Statement (.startUpEnd) := by simp [Statement, Instr.wellFormed]
theorem supplyLoss : Statement (.supplyLoss) := by simp [Statement, Instr.wellFormed]
theorem frameReceived (crcLow : Byte) : Statement (.frameReceived crcLow) := by simp [Statement, Instr.wellFormed]
theorem frameLengthAbort (length : Byte) : Statement (.frameLengthAbort length) := by
  show decide (Config.maxBody < length.toNat) = false ↔ _
  rw [decide_eq_false_iff_not]
  simp [Config.maxBody]
theorem interByteGapTimeout : Statement (.interByteGapTimeout) := by simp [Statement, Instr.wellFormed]
theorem unknownKind : Statement (.unknownKind) := by simp [Statement, Instr.wellFormed]
theorem transmitBegin : Statement (.transmitBegin) := by simp [Statement, Instr.wellFormed]
theorem frameSent : Statement (.frameSent) := by simp [Statement, Instr.wellFormed]
theorem sysRestart : Statement (.sysRestart) := by simp [Statement, Instr.wellFormed]
theorem restartTakesEffect : Statement (.restartTakesEffect) := by simp [Statement, Instr.wellFormed]
theorem secOpen : Statement (.secOpen) := by simp [Statement, Instr.wellFormed]
theorem secPut : Statement (.secPut) := by simp [Statement, Instr.wellFormed]
theorem secMark : Statement (.secMark) := by simp [Statement, Instr.wellFormed]
theorem secClose : Statement (.secClose) := by simp [Statement, Instr.wellFormed]
theorem closeCheckComplete : Statement (.closeCheckComplete) := by simp [Statement, Instr.wellFormed]
theorem secJoin : Statement (.secJoin) := by simp [Statement, Instr.wellFormed]
theorem secJoinNone : Statement (.secJoinNone) := by simp [Statement, Instr.wellFormed]
theorem secDrop : Statement (.secDrop) := by simp [Statement, Instr.wellFormed]
theorem secGet : Statement (.secGet) := by simp [Statement, Instr.wellFormed]
theorem ptsDefine : Statement (.ptsDefine) := by simp [Statement, Instr.wellFormed]
theorem ptsRemove : Statement (.ptsRemove) := by simp [Statement, Instr.wellFormed]
theorem ptsSet : Statement (.ptsSet) := by simp [Statement, Instr.wellFormed]
theorem pointsChange : Statement (.pointsChange) := by simp [Statement, Instr.wellFormed]
theorem vehSet : Statement (.vehSet) := by simp [Statement, Instr.wellFormed]
theorem vehGet : Statement (.vehGet) := by simp [Statement, Instr.wellFormed]
theorem lawSet : Statement (.lawSet) := by simp [Statement, Instr.wellFormed]
theorem lawGet : Statement (.lawGet) := by simp [Statement, Instr.wellFormed]
theorem stgSet : Statement (.stgSet) := by simp [Statement, Instr.wellFormed]
theorem stgGet : Statement (.stgGet) := by simp [Statement, Instr.wellFormed]
theorem perSet : Statement (.perSet) := by simp [Statement, Instr.wellFormed]
theorem posLocate : Statement (.posLocate) := by simp [Statement, Instr.wellFormed]
theorem posGet : Statement (.posGet) := by simp [Statement, Instr.wellFormed]
theorem permitSetOn : Statement (.permitSetOn) := by simp [Statement, Instr.wellFormed]
theorem permitSetOff : Statement (.permitSetOff) := by simp [Statement, Instr.wellFormed]
theorem chUnlock : Statement (.chUnlock) := by simp [Statement, Instr.wellFormed]
theorem chHold : Statement (.chHold) := by simp [Statement, Instr.wellFormed]
theorem chResume : Statement (.chResume) := by simp [Statement, Instr.wellFormed]
theorem chReturn : Statement (.chReturn) := by simp [Statement, Instr.wellFormed]
theorem chClear : Statement (.chClear) := by simp [Statement, Instr.wellFormed]
theorem chGet : Statement (.chGet) := by simp [Statement, Instr.wellFormed]
theorem cndGet : Statement (.cndGet) := by simp [Statement, Instr.wellFormed]
theorem cndEnable : Statement (.cndEnable) := by simp [Statement, Instr.wellFormed]
theorem cndCriteria : Statement (.cndCriteria) := by simp [Statement, Instr.wellFormed]
theorem cntSnap : Statement (.cntSnap) := by simp [Statement, Instr.wellFormed]
theorem cntModeAuto : Statement (.cntModeAuto) := by simp [Statement, Instr.wellFormed]
theorem cntModeManual : Statement (.cntModeManual) := by simp [Statement, Instr.wellFormed]
theorem cntGet : Statement (.cntGet) := by simp [Statement, Instr.wellFormed]
theorem wheelCount (wheel : Fin 16) (edge : Edge) (secondHigh : Bool) : Statement (.wheelCount wheel edge secondHigh) := by simp [Statement, Instr.wellFormed]
theorem tick : Statement (.tick) := by simp [Statement, Instr.wellFormed]
theorem markerDetection : Statement (.markerDetection) := by simp [Statement, Instr.wellFormed]
theorem markerDebounceRelease : Statement (.markerDebounceRelease) := by simp [Statement, Instr.wellFormed]
theorem markerResolve : Statement (.markerResolve) := by simp [Statement, Instr.wellFormed]
theorem periodTimerExpiry (bogie : Fin 4) : Statement (.periodTimerExpiry bogie) := by simp [Statement, Instr.wellFormed]
theorem stageConversionComplete (raw : BitVec 12) : Statement (.stageConversionComplete raw) := by simp [Statement, Instr.wellFormed]
theorem passComplete : Statement (.passComplete) := by simp [Statement, Instr.wellFormed]
theorem lockTimerExpiry (channel : Fin 8) : Statement (.lockTimerExpiry channel) := by simp [Statement, Instr.wellFormed]
theorem lockEngagedChange (channel : Fin 8) (engaged : Bool) : Statement (.lockEngagedChange channel engaged) := by simp [Statement, Instr.wellFormed]
theorem driveFaultChange (channel : Fin 8) (fault ready : Bool) : Statement (.driveFaultChange channel fault ready) := by simp [Statement, Instr.wellFormed]
theorem snapshotTimerExpiry : Statement (.snapshotTimerExpiry) := by simp [Statement, Instr.wellFormed]
theorem byteTaken (value : Byte) : Statement (.byteTaken value) := by simp [Statement, Instr.wellFormed]
theorem markerInputChange (active : Bool) : Statement (.markerInputChange active) := by simp [Statement, Instr.wellFormed]

end Sys2Proof.Laws.WellFormedness
end

