-- ==== Sys2Proof/Tests/Slice0.lean ====
section
/-!
SUPPORT. Tests and witnesses. A test's expected values come from spec/: its worked examples, or its rules by hand. A
witness shows a state and operands that meet the hypotheses of the statement it is named after.
-/

/-! Each theorem is checked in turn, so that the kernel evaluations below do not run side by side. -/

set_option Elab.async false

namespace Sys2Proof.Tests

open Sys2Proof Sys2Proof.Machine

/-! ## Fixtures -/

/-- The state after a command. -/
def after (c : Instr) (s : State) : State :=
  match exec c s with
  | .next t => t
  | _ => s

/-- The state with one request waiting alone. -/
def asked (s : State) (kind : Byte) (body : List Byte) : State :=
  { s with link := { s.link with requests := [⟨kind, 7, body⟩] } }

/-- The status byte of the reply queued last, if there is one. -/
def lastStatus (s : State) : Option Byte := (s.link.replies.getLast?).bind fun r => r.frame.body.head?

/-- The status byte that a request row answers with. -/
def statusOf (c : Instr) (s : State) (kind : Byte) (body : List Byte) : Option Byte :=
  lastStatus (after c (asked s kind body))

/-- The body of the reply that a request row answers with, behind its status and summary. -/
def fieldsOf (c : Instr) (s : State) (kind : Byte) (body : List Byte) : List Byte :=
  ((after c (asked s kind body)).link.replies.flatMap fun r => r.frame.body).drop 2

theorem canTake_asked (s : State) (kind : Byte) (body : List Byte) (hp : s.power = .running)
    (hh : s.link.handler = .idle) (hr : s.link.restartPending = false) (hq : s.link.replies = []) :
    (asked s kind body).canTake ⟨kind, 7, body⟩ :=
  ⟨hp, hh, hr, by simp [asked, hq], rfl⟩

/-- The VEH.SET body of 2.8, with every bogie moved along the axis, channel 4's offset and the reference wheels. -/
def tramBodyAt (moved offset4 : Int) (references : List Nat) : List Byte :=
  [3] ++ (([-6000, -4000, 6000, 4000, 0, 0, 0, 0] : List Int).map fun o => beS 2 (o + moved)).flatten ++
    (([-5100, -6900, 6900, 5100, offset4, -900, 0, 0] : List Int).map fun o =>
      beS 2 (o + moved) ++ be 2 600 ++ be 2 4000).flatten ++
    ((List.range 16).map fun w => be 2 (if w = 5 then 588 else 600) ++ [80, 1]).flatten ++
    [4] ++ references.map u8 ++ beS 2 1200

/-- The same at the places of 2.8. -/
def tramBody (offset4 : Int) (references : List Nat) : List Byte := tramBodyAt 0 offset4 references

/-- The three-bogie record of 2.8. -/
def tram : VehicleRecord := vehRecord (tramBody 900 [1, 5, 8, 10])

/-- The section of 1.13 after its last SEC.CLOSE. -/
def curve : SectionRecord :=
  { state := .ready, length := 30000, clearance := 2600,
    elements := [⟨0, .straight, 0, 0, none⟩, ⟨8000, .spiral, 0, 55556, none⟩, ⟨20000, .arc, 55556, 55556, some 2650⟩,
      ⟨26000, .spiral, 55556, 0, none⟩, ⟨29000, .straight, 0, 0, none⟩],
    markers := [], low := .none, high := .none, occupancy := 0 }

/-- A section like that of 3.10 and 6.11: number 4, with the spiral from 40,000 to 52,000. -/
def section4 : SectionRecord :=
  { state := .ready, length := 60000, clearance := 2600,
    elements := [⟨0, .straight, 0, 0, none⟩, ⟨40000, .spiral, 0, 55556, none⟩, ⟨52000, .arc, 55556, 55556, none⟩],
    markers := [⟨45250, 500⟩, ⟨47000, 500⟩], low := .none, high := .none, occupancy := 1 }

/-- A store that holds one section, with this number. -/
def storeWith (i : Fin 32) (r : SectionRecord) : Store :=
  { Store.initial with sections := Store.initial.sections.set i.val r i.isLt
                       freePool := 1024 - r.elements.length }

/-- The vehicle of 3.10 before its tick, at the datum 44,200 mm of section 4. -/
def located : State :=
  { State.reset with
    store := storeWith 3 section4
    vehicle := some tram
    path := [⟨3, .up, none, false⟩]
    tracker := { State.reset.tracker with
      datum := some ⟨0, 44200000⟩, uncertainty := 120000, confidence := 256, state := .located,
      pendingCounts := ((State.reset.tracker.pendingCounts.set 1 1).set 10 1),
      windows := (((State.reset.tracker.windows.set 1 (List.replicate 11 0 ++ [1, 1, 1, 1, 1])).set 5
        (List.replicate 10 0 ++ [1, 1, 1, 1, 1, 1])).set 8 (List.replicate 11 0 ++ [1, 1, 1, 1, 1])).set 10
        (List.replicate 8 0 ++ [1, 1, 1, 1, 1, 1, 1, 1])
      published := { state := .located, datum := some ⟨⟨0, 44200000⟩, 3, .up⟩, speed := 4000, sign := .plus,
                     standstill := false, uncertainty := 120000, confidence := 256, missCount := 0,
                     validReferences := 4 } }
    monitor := { State.reset.monitor with conditions := Vector.replicate 48 ⟨false, false, .off⟩ } }

/-- Whether every one of these requests is answered with its status. -/
def answers (c : Instr) (kind : Byte) (cases : List (State × List Byte × Status)) : Bool :=
  cases.all fun (s, body, st) => statusOf c s kind body = some (u8 st.code)

/-! ## WellFormed -/

theorem test_wellFormed_refuses_a_length_of_240 : (Instr.frameLengthAbort 240).wellFormed = false := by decide +kernel

theorem test_wellFormed_takes_a_length_of_241 : (Instr.frameLengthAbort 241).wellFormed = true := by decide +kernel

/-- The table gives its rows no bits, so no word spells a command. -/
theorem test_no_word_spells_a_command : decodeTableWord 8 0 = none := by decide +kernel

/-! ## The machine as a whole -/

theorem witness_stepRunsTheFrontCommand :
    ({ State.reset with pending := [.tick, .transmitBegin] } : State).pending = .tick :: [.transmitBegin] ∧
      State.reset.pending = [] := by decide +kernel

theorem witness_everyCommandAnswersANextState :
    (∀ l b, Instr.tick ≠ .lockEngagedChange l b) ∧ (∀ l f g, Instr.tick ≠ .driveFaultChange l f g) ∧
      ∀ b, Instr.tick ≠ .markerInputChange b := by simp

/-- A part without its supply, and one in start-up. -/
def offState : State := { State.reset with power := .off }
def startingState : State := { State.reset with power := .starting 5000 }

theorem witness_nothingRunsWithoutSupply :
    offState.power ≠ .running ∧ startingState.power ≠ .running ∧ Instr.tick ≠ .startUpBegin ∧
      Instr.tick ≠ .startUpEnd ∧ Instr.tick ≠ .supplyLoss := by decide +kernel

theorem witness_startUpGivesThePowerOnState :
    offState.power = .off ∧ startingState.power = .starting 5000 ∧ State.reset.power ≠ .off := by decide +kernel

theorem test_startUp_lasts_5ms : (after .startUpBegin offState).power = .starting 5000 := by decide +kernel

theorem test_startUp_ends_running : (after .startUpEnd startingState).power = .running ∧
    (after .startUpEnd startingState).clock = 5000 := by decide +kernel

theorem test_supplyLoss_disables_drives : (after .supplyLoss State.reset).power = .off := by decide +kernel

/-- The SYS.RESTART reply in transmission. -/
def restarting : State :=
  { located with link := { located.link with transmitter := .sending ⟨0x81, 7, [0, 0]⟩ true 180,
                                             restartPending := true } }

theorem witness_restartResetsAllButTheVehicleRecord :
    restarting.power = .running ∧ restarting.link.transmitter = .sending ⟨0x81, 7, [0, 0]⟩ true 180 := by decide +kernel

theorem test_restart_keeps_the_vehicle_record :
    (after .restartTakesEffect restarting).vehicle = restarting.vehicle ∧
      (after .restartTakesEffect restarting).path = [] := by decide +kernel

theorem witness_configurationChangesOnlyAtItsOwnCommand :
    exec .tick located = .next (after .tick located) ∧ located.link.handler = .idle ∧
      located.store.sections[3].state = .ready := by
  refine ⟨rfl, by decide +kernel, by decide +kernel⟩

/-! ## The serial line -/

/-- A link with the receiver in a state and these bytes since the sync pair. -/
def receiving (st : ReceiverState) (got : Option (List Byte)) : State :=
  { State.reset with link := { State.reset.link with receiver := st, reception := got } }

/-- The receiver and the reception after a byte. -/
def afterByte (s : State) (b : Byte) : ReceiverState × Option (List Byte) :=
  ((after (.byteTaken b) s).link.receiver, (after (.byteTaken b) s).link.reception)

theorem witness_byteTakenMovesTheReceiver :
    State.reset.power = .running ∧ State.reset.link.transmitter = .idle ∧
      restarting.link.transmitter = .sending ⟨0x81, 7, [0, 0]⟩ true 180 ∧
      ¬(ReceiverState.hunt = .crc ∧ 0 = fieldU [] 0 1 + 4) := by decide +kernel

/-- The table of R184, a byte for each of its rows, with the length byte at 240 and at 241 (R186). -/
theorem test_byteTaken_rows :
    afterByte (receiving .hunt none) 0xC3 = (.sync2, none) ∧ afterByte (receiving .hunt none) 0x3C = (.hunt, none) ∧
      afterByte (receiving .sync2 none) 0x3C = (.header, some []) ∧
      afterByte (receiving .sync2 none) 0xC3 = (.sync2, none) ∧ afterByte (receiving .sync2 none) 0 = (.hunt, none) ∧
      afterByte (receiving .header (some [])) 240 = (.header, some [240]) ∧
      afterByte (receiving .header (some [])) 241 = (.hunt, none) ∧
      afterByte (receiving .header (some [1])) 0x13 = (.header, some [1, 0x13]) ∧
      afterByte (receiving .header (some [0, 0x39])) 12 = (.crc, some [0, 0x39, 12]) ∧
      afterByte (receiving .header (some [1, 0x13])) 11 = (.body, some [1, 0x13, 11]) ∧
      afterByte (receiving .body (some [1, 0x13, 11])) 9 = (.crc, some [1, 0x13, 11, 9]) ∧
      afterByte (receiving .crc (some [0, 0x39, 12])) 0xAB = (.crc, some [0, 0x39, 12, 0xAB]) := by decide +kernel

/-- A gap of 1 ms is no gap, one of more than 1 ms is (R185): the byte ends 20 µs after the gap. -/
theorem test_gap_boundary :
    (afterByte { receiving .header (some []) with clock := 1020 } 1).1 = .header ∧
      (afterByte { receiving .header (some []) with clock := 1021 } 1).1 = .hunt := by decide +kernel

/-- A frame whose last byte comes next: CH.GET without a channel. -/
def frameEnd (crcHigh : Byte) (kind : Byte) (requests : List Frame) (restartPending : Bool) : State :=
  let s := receiving .crc (some [0, kind, 14, crcHigh])
  { s with link := { s.link with requests := requests, restartPending := restartPending } }

/-- The two CRC bytes of a frame without a body, tag 14. -/
def crcHigh (kind : Byte) : Byte := (crcOf [0, kind, 14]).extractLsb' 8 8
def crcLow (kind : Byte) : Byte := (crcOf [0, kind, 14]).extractLsb' 0 8

/-- What is waiting, and what is counted, after the last byte of a frame: a good frame, one with a wrong CRC, one of a
kind of 0x80, one that finds eight waiting, and one while restart is pending (R187, R188). -/
def frameOutcome (s : State) (b : Byte) : Nat × Nat :=
  ((after (.frameReceived b) s).link.requests.length,
    (after (.frameReceived b) s).monitor.live.counts[vehicleCounter .frameError])

theorem witness_frameReceivedIsCheckedAndQueued :
    let s := frameEnd (crcHigh 0x46) 0x46 [] false
    s.power = .running ∧ s.link.transmitter = .idle ∧ s.clock ≤ s.link.lineAt + 1020 ∧ s.link.receiver = .crc ∧
      s.link.reception = some [0, 0x46, 14, crcHigh 0x46] ∧ [0, 0x46, 14, crcHigh 0x46].length = 0 + 4 := by decide +kernel

theorem test_frameReceived_clauses :
    frameOutcome (frameEnd (crcHigh 0x46) 0x46 [] false) (crcLow 0x46) = (1, 0) ∧
      frameOutcome (frameEnd (crcHigh 0x46) 0x46 [] false) (crcLow 0x46 + 1) = (0, 1) ∧
      frameOutcome (frameEnd (crcHigh 0x80) 0x80 [] false) (crcLow 0x80) = (0, 0) ∧
      frameOutcome (frameEnd (crcHigh 0x7F) 0x7F [] false) (crcLow 0x7F) = (1, 0) ∧
      frameOutcome (frameEnd (crcHigh 0x46) 0x46 (List.replicate 7 ⟨0, 0, []⟩) false) (crcLow 0x46) = (8, 0) ∧
      frameOutcome (frameEnd (crcHigh 0x46) 0x46 (List.replicate 8 ⟨0, 0, []⟩) false) (crcLow 0x46) = (8, 1) ∧
      frameOutcome (frameEnd (crcHigh 0x46) 0x46 [] true) (crcLow 0x46) = (0, 0) := by decide +kernel

/-- R183's check value over the nine bytes 0x31 to 0x39. -/
theorem test_crc_check_value : crcOf [0x31, 0x32, 0x33, 0x34, 0x35, 0x36, 0x37, 0x38, 0x39] = 0x29B1#16 := by decide +kernel

theorem witness_abortedFramesLeaveNoTrace :
    let s := receiving .header (some [])
    s.power = .running ∧ s.link.transmitter = .idle ∧ s.clock ≤ s.link.lineAt + 1020 ∧ s.link.receiver = .header ∧
      s.link.reception = some [] ∧ 240 < (241 : Byte).toNat ∧ State.reset.link.receiver = .hunt := by decide +kernel

theorem test_interByteGapTimeout_hunts :
    (after .interByteGapTimeout (receiving .body (some [1, 2, 3]))).link.receiver = .hunt := by decide +kernel

/-- A SEC.CLOSE frame to be fed (9.10), and the part it is fed to. -/
def fed : Frame := ⟨0x13, 11, [9]⟩
def fedState : State := { State.reset with pending := fed.wire.map Instr.byteTaken ++ [.transmitBegin] }

theorem witness_fedFrameArrivesWhole :
    fedState.power = .running ∧ fedState.link.transmitter = .idle ∧ fedState.link.receiver = .hunt ∧
      fedState.link.reception = none ∧ fedState.link.restartPending = false ∧ fedState.link.requests.length < 8 ∧
      fed.body.length ≤ 240 ∧ fed.kind.toNat < 0x80 ∧
      fedState.pending = fed.wire.map Instr.byteTaken ++ [.transmitBegin] := by decide +kernel

/-- A link with one reply and one notice waiting, one with the notice alone. -/
def withNotice : State :=
  { State.reset with link := { State.reset.link with notices := [.condition 1 0], sequence := 57 } }
def withReply : State :=
  { withNotice with link := { withNotice.link with replies := [⟨⟨0xB9, 12, [0, 0]⟩, false⟩] } }

theorem witness_transmitBeginChoosesReplyThenNotice :
    withReply.power = .running ∧ withReply.link.transmitter = .idle ∧ withReply.link.receiver = .hunt ∧
      withReply.link.replies = ⟨⟨0xB9, 12, [0, 0]⟩, false⟩ :: [] ∧ withNotice.link.replies = [] ∧
      withNotice.link.notices = .condition 1 0 :: [] ∧ State.reset.link.notices = [] ∧
      restarting.link.transmitter ≠ .idle ∧ (receiving .sync2 none).link.receiver ≠ .hunt := by decide +kernel

/-- A reply of 2 bytes lasts 9 characters; the notice takes tag 57, and the next one 58 (9.10). -/
theorem test_transmitBegin :
    (after .transmitBegin withReply).link.transmitter = .sending ⟨0xB9, 12, [0, 0]⟩ false 180 ∧
      (after .transmitBegin withReply).link.sequence = 57 ∧ (after .transmitBegin withNotice).link.sequence = 58 := by
  decide +kernel

/-- A POS.GET reply in transmission. -/
def sendingState : State :=
  { State.reset with link := { State.reset.link with transmitter := .sending ⟨0xB9, 12, [0, 0]⟩ false 180 } }

theorem witness_frameSentFreesTheLine :
    sendingState.power = .running ∧ sendingState.link.transmitter = .sending ⟨0xB9, 12, [0, 0]⟩ false 180 := by decide +kernel

theorem test_frameSent_frees_the_line : (after .frameSent sendingState).link.transmitter = .idle := by decide +kernel

theorem witness_unknownKindIsRefused :
    (asked State.reset 0x17 []).canTake ⟨0x17, 7, []⟩ ∧ (0x17 : Byte) ∉ requestRows.map (fun p => p.2) :=
  ⟨canTake_asked _ _ _ rfl rfl rfl rfl, by decide +kernel⟩

theorem test_unknownKind_status :
    answers .unknownKind 0x17 [(State.reset, [], .unknownKind), (State.reset, [1, 2], .unknownKind)] = true := by
  decide +kernel

theorem witness_badLengthIsRefused :
    (Instr.secOpen, (0x10 : Byte)) ∈ requestRows ∧ (asked State.reset 0x10 [1]).canTake ⟨0x10, 7, [1]⟩ ∧
      lengthFits 0x10 1 = false :=
  ⟨by decide +kernel, canTake_asked _ _ _ rfl rfl rfl rfl, by decide +kernel⟩

/-- A body a byte short or long of each kind's form is refused BAD_LENGTH. -/
theorem test_badLength_status :
    requestRows.all (fun row => [239, 150].all fun n =>
      statusOf row.1 State.reset row.2 (List.replicate n 0) = some (u8 Status.badLength.code)) = true := by
  decide +kernel

/-- A handler at work, eight replies waiting, a pending restart, and no request. -/
def busyState : State :=
  { State.reset with link := { State.reset.link with handler := .closing 11 8 690, requests := [⟨0x39, 12, []⟩] } }
def fullState : State :=
  { State.reset with link := { State.reset.link with replies := List.replicate 8 ⟨⟨0xB9, 12, [0, 0]⟩, false⟩,
                                                     requests := [⟨0x39, 12, []⟩] } }

theorem witness_requestsWaitForTheHandler :
    Instr.posGet ∈ requestRows.map (fun p => p.1) ∧ busyState.link.handler ≠ .idle ∧
      restarting.link.restartPending = true ∧ 8 ≤ fullState.link.replies.length ∧
      State.reset.link.requests = [] := by decide +kernel

theorem test_posGet_waits_for_the_close_check :
    (after .posGet busyState).link.requests = [⟨0x39, 12, []⟩] ∧
      (after .posGet busyState).link.replies = [] := by decide +kernel

theorem witness_refusalsChangeNothing :
    (asked State.reset 0x39 [1]).canTake ⟨0x39, 7, [1]⟩ ∧
      exec .posGet (asked State.reset 0x39 [1]) = .next (after .posGet (asked State.reset 0x39 [1])) ∧
      (after .posGet (asked State.reset 0x39 [1])).link.replies =
        [] ++ [⟨⟨0xB9, 7, [2, State.reset.summary]⟩, false⟩] ∧
      (some 2 : Option Byte) ≠ some (u8 Status.ok.code) ∧
      (some 2 : Option Byte) ≠ some (u8 Status.noSpace.code) :=
  ⟨canTake_asked _ _ _ rfl rfl rfl rfl, rfl, by decide +kernel, by decide +kernel, by decide +kernel⟩

theorem witness_sysRestartAnswersAndWaits : (asked State.reset 0x01 []).canTake ⟨0x01, 7, []⟩ :=
  canTake_asked _ _ _ rfl rfl rfl rfl

theorem test_sysRestart_waits :
    (after .sysRestart (asked State.reset 0x01 [])).link.restartPending = true := by decide +kernel

theorem witness_fieldsOutOfRangeAreRefused :
    (asked State.reset 0x13 [33]).canTake ⟨0x13, 7, [33]⟩ ∧ lengthFits 0x13 1 = true ∧ 32 < fieldU [33] 0 1 ∧
      (asked State.reset 0x14 [1, 0, 2, 1, 0]).canTake ⟨0x14, 7, [1, 0, 2, 1, 0]⟩ ∧
      1 < fieldU [1, 0, 2, 1, 0] 2 1 ∧ (asked State.reset 0x19 [17]).canTake ⟨0x19, 7, [17]⟩ ∧
      16 < fieldU [17] 0 1 :=
  ⟨canTake_asked _ _ _ rfl rfl rfl rfl, by decide, by decide, canTake_asked _ _ _ rfl rfl rfl rfl, by decide,
    canTake_asked _ _ _ rfl rfl rfl rfl, by decide⟩

/-- One request of each clause, at a boundary of its range. -/
theorem test_fields_out_of_range :
    (answers .secPut 0x11 [(State.reset, 0 :: List.replicate 12 0, .outOfRange),
        (State.reset, 1 :: 0 :: List.replicate 9 0 ++ [0xC0, 0], .outOfRange)] &&
      answers .secMark 0x12 [(State.reset, [33], .outOfRange)] && answers .secDrop 0x15 [(State.reset, [0], .outOfRange)] &&
      answers .secGet 0x16 [(State.reset, [33, 0, 1], .outOfRange)] &&
      answers .secJoin 0x14 [(State.reset, [1, 0, 2, 1, 0], .outOfRange), (State.reset, [1, 0, 1, 33, 0], .outOfRange),
        (State.reset, [1, 0, 1, 2, 2], .outOfRange)] &&
      answers .secJoinNone 0x14 [(State.reset, [1, 2, 0, 0, 0], .outOfRange)] &&
      answers .ptsDefine 0x18 [(State.reset, [17, 1, 0, 2, 0, 3, 0], .outOfRange),
        (State.reset, [16, 1, 0, 2, 0, 33, 0], .outOfRange)] &&
      answers .ptsRemove 0x19 [(State.reset, [0], .outOfRange)] && answers .ptsSet 0x1A [(State.reset, [1, 3], .outOfRange)] &&
      answers .posLocate 0x38 [(State.reset, [1, 0, 0, 0, 2], .outOfRange)] &&
      answers .stgSet 0x30 [(State.reset, 32 :: 255 :: List.replicate 14 0, .outOfRange),
        (State.reset, 31 :: 4 :: List.replicate 14 0, .outOfRange),
        (State.reset, 31 :: 3 :: 8 :: List.replicate 13 0, .outOfRange)]) = true := by decide +kernel

/-! ## The geometry store -/

/-- Section 7 of 1.13, in each of its states, and in section 4's state of 3.10: READY and occupied. -/
def ready7 : State := { State.reset with store := storeWith 6 curve }
def loading7 : State := { State.reset with store := storeWith 6 { curve with state := .loading } }
def checking7 : State := { State.reset with store := storeWith 6 { curve with state := .checking } }

/-- A SEC.OPEN body. -/
def openBody (id length clearance : Nat) : List Byte := [u8 id] ++ be 3 length ++ be 2 clearance

theorem witness_secOpenPreparesASection :
    (asked State.reset 0x10 (openBody 1 3000 500)).canTake ⟨0x10, 7, openBody 1 3000 500⟩ ∧
      (openBody 1 3000 500).length = 6 ∧ fieldU (openBody 1 3000 500) 0 1 = 0 + 1 :=
  ⟨canTake_asked _ _ _ rfl rfl rfl rfl, by decide +kernel⟩

theorem test_secOpen_clauses :
    answers .secOpen 0x10 [(State.reset, openBody 1 3000 500, .ok), (State.reset, openBody 32 16000000 6000, .ok),
      (State.reset, openBody 0 3000 500, .outOfRange), (State.reset, openBody 33 3000 500, .outOfRange),
      (State.reset, openBody 1 2999 500, .outOfRange), (State.reset, openBody 1 16000001 500, .outOfRange),
      (State.reset, openBody 1 3000 499, .outOfRange), (State.reset, openBody 1 3000 6001, .outOfRange),
      (loading7, openBody 7 30000 2600, .badState), (checking7, openBody 7 30000 2600, .badState),
      (located, openBody 4 30000 2600, .occupied), (ready7, openBody 7 30000 2600, .ok)] = true := by decide +kernel

/-- Section 7 of 1.13 after its first SEC.PUT: four elements and one free slot. -/
def short7 : State :=
  { State.reset with store := { storeWith 6 { curve with state := .loading, elements := curve.elements.take 4 } with
                                  freePool := 1 } }

/-- The records of 1.13's second SEC.PUT, and its body. -/
def runOffs : List Element := [⟨29950, .straight, 0, 0, none⟩, ⟨29980, .straight, 0, 0, none⟩]
def putBody (id start : Nat) (records : List Element) : List Byte :=
  [u8 id, u8 start] ++ (records.map Element.encode).flatten

theorem witness_secPutStoresWhatFits :
    (asked short7 0x11 (putBody 7 4 runOffs)).canTake ⟨0x11, 7, putBody 7 4 runOffs⟩ ∧
      1 ≤ runOffs.length ∧ runOffs.length ≤ 16 ∧ (putBody 7 4 runOffs).length = 2 + 11 * runOffs.length ∧
      fieldU (putBody 7 4 runOffs) 0 1 = 6 + 1 ∧
      ∀ (j : Fin runOffs.length),
        elementOf? (((putBody 7 4 runOffs).drop (2 + 11 * j.val)).take 11) = some runOffs[j] :=
  ⟨canTake_asked _ _ _ rfl rfl rfl rfl, by decide +kernel⟩

/-- 1.13: one of the two is stored, the element count is 5 and the pool empty. -/
theorem test_secPut_example :
    statusOf .secPut short7 0x11 (putBody 7 4 runOffs) = some 12 ∧
      fieldsOf .secPut short7 0x11 (putBody 7 4 runOffs) = [1, 5, 0, 0] := by decide +kernel

theorem test_secPut_clauses :
    answers .secPut 0x11 [(short7, putBody 7 4 [⟨29950, .straight, 0, 0, none⟩], .ok),
      (short7, putBody 7 5 runOffs, .outOfRange), (ready7, putBody 7 0 runOffs, .badState)] = true := by
  decide +kernel

/-- A SEC.MARK body with one marker. -/
def markBody (id chainage half : Nat) : List Byte := [u8 id] ++ be 3 chainage ++ be 2 half

theorem witness_secMarkReplacesTheMarkers :
    (asked loading7 0x12 (markBody 7 500 100)).canTake ⟨0x12, 7, markBody 7 500 100⟩ ∧
      (markBody 7 500 100).length = 1 + 5 * 1 ∧ fieldU (markBody 7 500 100) 0 1 = 6 + 1 :=
  ⟨canTake_asked _ _ _ rfl rfl rfl rfl, by decide +kernel⟩

theorem test_secMark_clauses :
    answers .secMark 0x12 [(loading7, markBody 7 500 100, .ok), (loading7, markBody 7 500 5000, .ok),
      (loading7, [7], .ok), (loading7, markBody 7 500 99, .outOfRange), (loading7, markBody 7 500 5001, .outOfRange),
      (ready7, markBody 7 500 100, .badState)] = true := by decide +kernel

theorem witness_secCloseStartsTheCheck :
    (asked loading7 0x13 [7]).canTake ⟨0x13, 7, [7]⟩ ∧ fieldU [7] 0 1 = 6 + 1 ∧
      loading7.store.sections[6].state = .loading ∧ ready7.store.sections[6].state ≠ .loading :=
  ⟨canTake_asked _ _ _ rfl rfl rfl rfl, by decide +kernel⟩

/-- 1.13: the check of five elements lasts 75 µs, and no reply waits meanwhile. -/
theorem test_secClose_lasts_75us :
    (after .secClose (asked loading7 0x13 [7])).link.handler = .closing 7 6 75 ∧
      lastStatus (after .secClose (asked loading7 0x13 [7])) = none := by decide +kernel

/-- The close check of 1.13's section 7 in progress, as it passes and as it fails with a last element of 50 mm. -/
def passing7 : State := { checking7 with link := { checking7.link with handler := .closing 11 6 75 } }
def failing7 : State :=
  { passing7 with store := storeWith 6 { curve with state := .checking, elements := curve.elements.take 4 ++
                                                      [⟨29950, .straight, 0, 0, none⟩] } }

theorem witness_closeCheckDecidesTheSection :
    passing7.power = .running ∧ passing7.link.handler = .closing 11 6 75 ∧
      closeCheck passing7.store.sections[6] = none ∧ failing7.link.handler = .closing 11 6 75 ∧
      closeCheck failing7.store.sections[6] = some (3, 4) := by decide +kernel

/-- 1.13: CHECK_FAILED with reason 3 and index 4, then OK with the element count of 5. -/
theorem test_closeCheck_replies :
    (after .closeCheckComplete failing7).link.replies = [⟨⟨0x93, 11, [13, State.reset.summary, 3, 4]⟩, false⟩] ∧
      (after .closeCheckComplete passing7).link.replies = [⟨⟨0x93, 11, [0, State.reset.summary, 5]⟩, false⟩] ∧
      (after .closeCheckComplete passing7).store.sections[6].state = .ready := by decide +kernel

theorem witness_closeCheckReportsTheFirstFailure :
    closeCheck failing7.store.sections[6] = some (3, 4) ∧
      closeCheck { curve with elements := [] } = some (11, 0) ∧
      closeCheck { curve with elements := ⟨1, .straight, 0, 0, none⟩ :: curve.elements.tail } = some (1, 0) := by
  decide +kernel

/-- R16's rows 2, 4 to 10, each failing alone at index 1. -/
theorem test_closeCheck_codes :
    let bad (e : Element) : Option (Nat × Nat) := closeCheck { curve with elements := [⟨0, .straight, 0, 0, none⟩, e] }
    let marks (m n : Nat) : Option (Nat × Nat) := closeCheck { curve with markers := [⟨m, 500⟩, ⟨n, 500⟩] }
    [bad ⟨0, .straight, 0, 0, none⟩, bad ⟨99, .straight, 0, 0, none⟩, bad ⟨200, .straight, 1, 0, none⟩,
      bad ⟨200, .arc, 5, 6, none⟩, bad ⟨200, .spiral, 0, 100001, none⟩, bad ⟨200, .straight, 0, 0, some 499⟩,
      marks 1000 30001, marks 1000 1000, marks 1000 1999, marks 1000 2000] =
    [some (2, 1), some (3, 0), some (4, 1), some (5, 1), some (6, 1), some (7, 1), some (8, 1), some (9, 1),
      some (10, 1), none] := by decide +kernel

theorem witness_elementsGiveTheCurvature :
    (8000 : Nat) ≤ 9000 ∧ 9000 ≤ 20000 ∧ 8000 < 20000 := by decide

/-- Section 7 of 1.13 looks like a READY section (R17). -/
theorem readySection_curve : ReadySection curve := by
  refine ⟨by decide, ?_, ?_, ?_⟩
  · intro e he; cases he; rfl
  · intro j hj
    have hj' : j < 4 := by simp [curve] at hj; omega
    interval_cases j <;> simp [curve]
  · intro e he; cases he; decide

theorem witness_sectionsFindTheElement : ReadySection curve ∧ 0 ≤ curve.length ∧ 30000 ≤ curve.length :=
  ⟨readySection_curve, by decide, by decide⟩

/-- R5: 0 to 100 over 1,000 mm gives 100 from 995 on. -/
theorem test_spiral_reaches_its_end :
    [(⟨0, .spiral, 0, 100, none⟩ : Element).curvatureAt 1000 994,
      (⟨0, .spiral, 0, 100, none⟩ : Element).curvatureAt 1000 995] = [99, 100] := by decide

/-- The table of 1.13: curvatures of section 7. -/
theorem test_curvature_table :
    ([8000, 9000, 14000, 23000, 27500, 28999, 29000, 30000].map curve.curvature) =
      [some 0, some 4630, some 27778, some 55556, some 27778, some 19, some 0, some 0] := by decide +kernel

theorem test_clearance_table :
    ([8000, 23000, 27500].map curve.clearanceAt) = [some 2600, some 2650, some 2600] := by decide +kernel

/-- Two sections, 12 and 13, without links, and the same linked HIGH to HIGH as in 4.9. -/
def straight (length : Nat) (low high : Link) : SectionRecord :=
  { state := .ready, length := length, clearance := 2600, elements := [⟨0, .straight, 0, 0, none⟩], markers := [],
    low := low, high := high, occupancy := 0 }
def two (high12 high13 : Link) : State :=
  { State.reset with store := { Store.initial with
      sections := (Store.initial.sections.set 11 (straight 20000 .none high12)).set 12 (straight 9000 .none high13)
      freePool := 1022 } }
def apart : State := two .none .none
def joined : State := two (.sec 12 .high) (.sec 11 .high)

theorem witness_secJoinLinksBothEnds :
    (asked apart 0x14 [12, 1, 1, 13, 1]).canTake ⟨0x14, 7, [12, 1, 1, 13, 1]⟩ ∧
      fieldU [12, 1, 1, 13, 1] 0 1 = 11 + 1 ∧ fieldU [12, 1, 1, 13, 1] 1 1 = SectionEnd.high.code ∧
      fieldU [12, 1, 1, 13, 1] 2 1 = 1 ∧ fieldU [12, 1, 1, 13, 1] 3 1 = 12 + 1 ∧
      fieldU [12, 1, 1, 13, 1] 4 1 = SectionEnd.high.code :=
  ⟨canTake_asked _ _ _ rfl rfl rfl rfl, by decide +kernel⟩

/-- Section 13's LOW end in points, and section 12 occupied. -/
def inPoints : State := { apart with store := { apart.store with
  sections := apart.store.sections.set 12 (straight 9000 (.points 2 .toe) .none) } }
def occupied : State := { apart with store := { apart.store with
  sections := apart.store.sections.set 11 { straight 20000 .none .none with occupancy := 1 } } }

theorem test_secJoin_clauses :
    answers .secJoin 0x14 [(apart, [12, 1, 1, 13, 1], .ok), (joined, [12, 1, 1, 13, 1], .ok),
      (apart, [12, 1, 1, 12, 1], .outOfRange), (apart, [12, 1, 1, 14, 1], .noSection),
      (inPoints, [12, 1, 1, 13, 0], .inPoints), (occupied, [12, 1, 1, 13, 1], .occupied),
      (joined, [12, 1, 1, 13, 0], .linkConflict), (apart, [12, 2, 1, 13, 1], .outOfRange),
      (apart, [12, 1, 2, 13, 1], .outOfRange)] = true := by decide +kernel

theorem witness_secJoinNoneUnlinksBothEnds :
    (asked joined 0x14 [12, 1, 0, 0, 0]).canTake ⟨0x14, 7, [12, 1, 0, 0, 0]⟩ ∧
      fieldU [12, 1, 0, 0, 0] 0 1 = 11 + 1 ∧ fieldU [12, 1, 0, 0, 0] 1 1 = SectionEnd.high.code ∧
      fieldU [12, 1, 0, 0, 0] 2 1 = 0 :=
  ⟨canTake_asked _ _ _ rfl rfl rfl rfl, by decide +kernel⟩

theorem test_secJoinNone_clauses :
    answers .secJoinNone 0x14 [(joined, [12, 1, 0, 0, 0], .ok), (apart, [12, 1, 0, 0, 0], .ok),
      (apart, [14, 1, 0, 0, 0], .noSection), (inPoints, [13, 0, 0, 0, 0], .inPoints),
      (occupied, [12, 1, 0, 0, 0], .occupied)] = true := by decide +kernel

theorem test_secJoinNone_unlinks_the_partner :
    (after .secJoinNone (asked joined 0x14 [12, 1, 0, 0, 0])).store.sections[12].high = .none := by decide +kernel

/-- Four sections for points: 13's LOW end, 14's LOW end and 15's LOW end, not yet linked. -/
def yard (low13 low14 low15 : Link) (p : Option PointsRecord) : State :=
  { State.reset with store := { Store.initial with
      sections := (((Store.initial.sections.set 11 (straight 20000 .none (.sec 12 .high))).set 12
        { straight 9000 low13 (.sec 11 .high) with elements := [⟨0, .arc, 40000, 40000, none⟩] }).set 13
        (straight 12000 low14 .none)).set 14 (straight 12000 low15 .none)
      freePool := 1020
      points := Store.initial.points.set 2 p } }
def points3 (setting : Setting) : PointsRecord := ⟨⟨12, .low⟩, ⟨13, .low⟩, ⟨14, .low⟩, setting⟩
def open3 : State := yard .none .none .none none
def set3 (setting : Setting) : State :=
  yard (.points 2 .toe) (.points 2 .left) (.points 2 .right) (some (points3 setting))

/-- The ends of a section, listed. -/
def ends : List SectionEnd := [.low, .high]

/-- A finite check that a store is sound. -/
def soundCheck (g : Store) : Bool :=
  decide (g.freePool + g.slotsUsed = 1024) &&
  decide (∀ i : Fin 32, g.sections[i].state = .free →
    g.sections[i].elements = [] ∧ g.sections[i].markers = [] ∧ g.sections[i].low = .none ∧
      g.sections[i].high = .none) &&
  decide (∀ i : Fin 32, ∀ e ∈ ends, (match g.linkOf ⟨i, e⟩ with
    | .sec j f => decide ((i ≠ j ∨ e ≠ f) ∧ g.linkOf ⟨j, f⟩ = .sec i e)
    | _ => true) = true) &&
  decide (∀ i : Fin 32, ∀ e ∈ ends, ∀ id : Fin 16, ∀ role ∈ allRoles,
    decide (g.linkOf ⟨i, e⟩ = .points id role) = g.points[id].any fun p => p.member role = ⟨i, e⟩)

theorem storeSound_of_check {g : Store} (h : soundCheck g = true) : StoreSound g := by
  simp only [soundCheck, Bool.and_eq_true, decide_eq_true_eq] at h
  obtain ⟨⟨⟨pool, free⟩, links⟩, members⟩ := h
  have ofEnds : ∀ e : SectionEnd, e ∈ ends := by intro e; cases e <;> decide
  have ofRoles : ∀ r : PointsRole, r ∈ allRoles := by intro r; cases r <;> decide
  refine ⟨pool, free, ?_, ?_, ?_⟩
  · intro ⟨i, e⟩ h
    have := links i e (ofEnds e)
    rw [h] at this
    simp at this
  · intro ⟨i, e⟩ ⟨j, f⟩ h
    have := links i e (ofEnds e)
    rw [h] at this
    exact (of_decide_eq_true this).2
  · intro ⟨i, e⟩ id role
    have := members i e (ofEnds e) id role (ofRoles role)
    rw [← decide_eq_true_iff (p := g.linkOf ⟨i, e⟩ = .points id role), this, Option.any_eq_true]
    simp

/-- 4.9's joined sections with section 12 occupied. -/
def joinedOccupied : State := { joined with store := { joined.store with
  sections := joined.store.sections.set 11 { straight 20000 .none (.sec 12 .high) with occupancy := 1 } } }

theorem witness_secDropFreesTheSection :
    StoreSound joined.store ∧ StoreSound (set3 .left).store ∧ StoreSound joinedOccupied.store ∧
      (asked joined 0x15 [12]).canTake ⟨0x15, 7, [12]⟩ ∧ (asked joined 0x15 [14]).canTake ⟨0x15, 7, [14]⟩ ∧
      (asked (set3 .left) 0x15 [15]).canTake ⟨0x15, 7, [15]⟩ ∧
      (asked joinedOccupied 0x15 [13]).canTake ⟨0x15, 7, [13]⟩ ∧ fieldU [12] 0 1 = 11 + 1 :=
  ⟨storeSound_of_check (by decide +kernel), storeSound_of_check (by decide +kernel),
    storeSound_of_check (by decide +kernel), canTake_asked _ _ _ rfl rfl rfl rfl, canTake_asked _ _ _ rfl rfl rfl rfl,
    canTake_asked _ _ _ rfl rfl rfl rfl, canTake_asked _ _ _ rfl rfl rfl rfl, by decide +kernel⟩

theorem test_secDrop_clauses :
    answers .secDrop 0x15 [(ready7, [7], .ok), (joined, [12], .ok), (apart, [14], .noSection),
      (set3 .left, [15], .inPoints), (occupied, [12], .occupied), (joinedOccupied, [13], .occupied),
      (apart, [33], .outOfRange)] = true := by decide +kernel

theorem test_secDrop_frees_partner_and_pool :
    fieldsOf .secDrop joined 0x15 [12] = [3, 255] ∧
      (after .secDrop (asked joined 0x15 [12])).store.sections[12].high = .none ∧
      (after .secDrop (asked joined 0x15 [12])).store.sections[11] = SectionRecord.initial := by decide +kernel

theorem witness_secGetReadsTheSection :
    (asked ready7 0x16 [7, 1, 1]).canTake ⟨0x16, 7, [7, 1, 1]⟩ ∧ fieldU [7, 1, 1] 0 1 = 6 + 1 :=
  ⟨canTake_asked _ _ _ rfl rfl rfl rfl, by decide +kernel⟩

/-- 10: the SPIRAL at 8,000 from 0 to 55,556 without a clearance, as SEC.GET returns it. -/
theorem test_secGet_element_bytes :
    (fieldsOf .secGet ready7 0x16 [7, 1, 1]).drop 17 =
      [1, 0x00, 0x1F, 0x40, 0x00, 0x00, 0x00, 0x00, 0xD9, 0x04, 0x80, 0x00] := by decide +kernel

theorem test_secGet_clauses :
    answers .secGet 0x16 [(ready7, [7, 0, 16], .ok), (ready7, [7, 0, 0], .outOfRange),
      (ready7, [7, 0, 17], .outOfRange), (ready7, [8, 0, 1], .noSection)] = true := by decide +kernel

theorem witness_ptsDefineLinksItsMembers :
    (asked open3 0x18 [3, 13, 0, 14, 0, 15, 0]).canTake ⟨0x18, 7, [3, 13, 0, 14, 0, 15, 0]⟩ ∧
      fieldU [3, 13, 0, 14, 0, 15, 0] 0 1 = 2 + 1 ∧ (points3 .unknown).setting = .unknown ∧
      fieldU [3, 13, 0, 14, 0, 15, 0] 1 1 = (points3 .unknown).toe.sec.val + 1 ∧
      fieldU [3, 13, 0, 14, 0, 15, 0] 3 1 = (points3 .unknown).left.sec.val + 1 ∧
      fieldU [3, 13, 0, 14, 0, 15, 0] 5 1 = (points3 .unknown).right.sec.val + 1 :=
  ⟨canTake_asked _ _ _ rfl rfl rfl rfl, by decide +kernel⟩

theorem test_ptsDefine_clauses :
    answers .ptsDefine 0x18 [(open3, [3, 13, 0, 14, 0, 15, 0], .ok), (open3, [3, 13, 0, 14, 0, 14, 0], .outOfRange),
      (open3, [17, 13, 0, 14, 0, 15, 0], .outOfRange), (set3 .left, [3, 13, 0, 14, 0, 15, 0], .badState),
      (open3, [3, 13, 0, 14, 0, 16, 0], .noSection), (occupied, [3, 13, 0, 13, 1, 12, 0], .occupied),
      (open3, [3, 13, 1, 14, 0, 15, 0], .linkConflict)] = true := by decide +kernel

theorem witness_ptsRemoveUnlinksItsMembers :
    (asked (set3 .left) 0x19 [3]).canTake ⟨0x19, 7, [3]⟩ ∧ fieldU [3] 0 1 = 2 + 1 :=
  ⟨canTake_asked _ _ _ rfl rfl rfl rfl, by decide +kernel⟩

theorem test_ptsRemove_clauses :
    answers .ptsRemove 0x19 [(set3 .left, [3], .ok), (open3, [3], .badState), (open3, [17], .outOfRange)] = true ∧
      (after .ptsRemove (asked (set3 .left) 0x19 [3])).store.sections[14].low = .none := by decide +kernel

theorem witness_ptsSetHandsTheChangeOver :
    (asked (set3 .left) 0x1A [3, 2]).canTake ⟨0x1A, 7, [3, 2]⟩ ∧ fieldU [3, 2] 0 1 = 2 + 1 ∧
      fieldU [3, 2] 1 1 = Setting.right.code :=
  ⟨canTake_asked _ _ _ rfl rfl rfl rfl, by decide +kernel⟩

theorem test_ptsSet_clauses :
    answers .ptsSet 0x1A [(set3 .left, [3, 2], .ok), (set3 .left, [3, 1], .ok), (open3, [3, 1], .badState),
      (open3, [3, 3], .outOfRange)] = true ∧
      (after .ptsSet (asked (set3 .left) 0x1A [3, 2])).store.changes = [⟨2, .left, .right⟩] ∧
      (after .ptsSet (asked (set3 .left) 0x1A [3, 1])).store.changes = [] := by decide +kernel

/-! ## The vehicle record -/

/-- A channel at home in LOCKED, and the levels of its lines. -/
def homeChannel : Channel :=
  { state := .locked, cause := .none, lockTimer := none, demand := 0, measured := 0, measuredValid := false,
    trackingError := none, trackingRun := 0, strokeInvalidRun := 0, entered := false }
def homeLines : Lines := { drive := Vector.replicate 8 ⟨true, false, true⟩, marker := false }

/-- The tram with every channel LOCKED, moving and standing. -/
def moving : State :=
  { State.reset with vehicle := some tram, channels := ⟨Vector.replicate 8 homeChannel, false⟩, lines := homeLines }
def standing : State := { moving with tracker := { moving.tracker with standstill := true } }

theorem witness_roundingGoesToTheNearest : (0 : Nat) < 2 := by decide

/-- R108, and the roundings of 6.11. -/
theorem test_roundings :
    [roundDiv 986 4, roundDiv (-265) 4, roundDiv 275 2, roundDiv (-275) 2, roundDiv 104167 2,
      roundDiv (-166612444) 3000] = [247, -66, 138, -138, 52084, -55537] := by decide +kernel

theorem witness_distancePerCountIsNearest :
    (400 : Nat) ≤ 400 ∧ (800 : Nat) ≤ 800 ∧ (20 : Nat) ≤ 20 ∧ (200 : Nat) ≤ 200 := by decide

/-- R34's range, 3,142 to 125,664, at its ends, and the wheels of 2.8. -/
theorem test_distances :
    [distancePerCount 400 200 .both, distancePerCount 800 20 .rising, distancePerCount 600 80 .both,
      distancePerCount 588 80 .both, distancePerCount 582 80 .both] = [3142, 125664, 11781, 11545, 11428] := by
  decide +kernel

theorem witness_vehicleRecordTakesTheFields :
    (tramBody 900 [1, 5, 8, 10]).length = 136 ∧ vehFailure (tramBody 900 [1, 5, 8, 10]) = none ∧
      tram.encode.length = 149 ∧ vehFailure tram.encode = none := by decide +kernel

/-- 2.8: the first attempt fails at field 22, the second at 85, the third passes. -/
theorem test_vehFailure_example :
    [vehFailure (tramBody 200 [1, 5, 13, 10]), vehFailure (tramBody 900 [1, 5, 13, 10]),
      vehFailure (tramBody 900 [1, 5, 8, 10])] = [some 22, some 85, none] := by decide +kernel

theorem witness_vehicleFieldsFailByTheirTables :
    (tramBody 200 [1, 5, 8, 10]).length ∈ [136, 138, 140, 142, 144, 146, 148, 149] ∧
      tram.encode.length ∈ [136, 138, 140, 142, 144, 146, 148, 149] := by decide +kernel

/-- R32: the span check reports channel 1, the B-most, once it stands above 0, and channel 2, the A-most, below 0. -/
theorem test_span_check :
    ([6900, 6901, -6900, -6901].map fun moved => vehFailure (tramBodyAt moved 900 [1, 5, 8, 10])) =
      [none, some 13, none, some 16] := by decide +kernel

theorem witness_vehSetReplacesTheRecord :
    (asked standing 0x20 (tramBody 900 [1, 5, 8, 10])).canTake ⟨0x20, 7, tramBody 900 [1, 5, 8, 10]⟩ ∧
      (tramBody 900 [1, 5, 8, 10]).length ∈ [136, 138, 140, 142, 144, 146, 148, 149] ∧
      standing.vehicle ≠ none ∧ standing.tracker.standstill = true ∧ moving.tracker.standstill = false ∧
      (∀ c : Fin 8, standing.channels.bank[c].state = .locked) ∧ located.channels.bank[0].state ≠ .locked :=
  ⟨canTake_asked _ _ _ rfl rfl rfl rfl, by decide +kernel⟩

theorem test_vehSet_clauses :
    answers .vehSet 0x20 [(State.reset, tramBody 900 [1, 5, 8, 10], .ok),
      (standing, tramBody 900 [1, 5, 8, 10], .ok), (moving, tramBody 900 [1, 5, 8, 10], .notStandstill),
      (located, tramBody 900 [1, 5, 8, 10], .notLocked), (standing, tramBody 200 [1, 5, 8, 10], .outOfRange),
      (standing, tram.encode, .ok)] = true := by decide +kernel

theorem witness_vehGetReadsTheRecord :
    (asked standing 0x21 []).canTake ⟨0x21, 7, []⟩ ∧ standing.vehicle = some tram ∧ State.reset.vehicle = none :=
  ⟨canTake_asked _ _ _ rfl rfl rfl rfl, by decide +kernel⟩

/-- 2.8: the distances of wheels 4, 5 and 12 in the reply, after the flag, the 149 bytes and 3 bytes for each wheel. -/
theorem test_vehGet_distances :
    fieldsOf .vehGet State.reset 0x21 [] = [0] ∧
      ([4, 5, 12].map fun w => fieldU (fieldsOf .vehGet standing 0x21 []) (150 + 3 * w) 3) = [11781, 11545, 0] := by
  decide +kernel

/-! ## The tracker -/

theorem witness_wheelCountMovesThePendingCount : State.reset.power = .running := rfl

/-- Without a record a wheel counts as RISING; the tram's wheels count both edges. Rising with the second line low is
+1, falling with it low is −1 (R41). -/
theorem test_wheelCount_edges :
    [(after (.wheelCount 1 .rising false) State.reset).tracker.pendingCounts[1],
      (after (.wheelCount 1 .rising true) State.reset).tracker.pendingCounts[1],
      (after (.wheelCount 1 .falling false) State.reset).tracker.pendingCounts[1],
      (after (.wheelCount 2 .falling false) standing).tracker.pendingCounts[2],
      (after (.wheelCount 2 .falling true) standing).tracker.pendingCounts[2]] = [1, -1, 0, -1, 1] := by decide +kernel

theorem witness_tickMeasuresTheWheels : located.power = .running ∧ IsMiddle 151 [100, 201] :=
  ⟨rfl, by have h := median_isMiddle [100, 201]; rwa [show median [100, 201] = 151 by decide +kernel] at h⟩

/-- R44: with speeds 100 and 201 the median is 151 and the band 50, so that the wheel at 201 alone is valid; the tick
distance is its own (R45). -/
def uneven : State :=
  { located with
    vehicle := some { tram with references := [1, 5], wheels :=
      (tram.wheels.set 1 { tram.wheels[1] with distance := 1600 }).set 5 { tram.wheels[5] with distance := 3216 } }
    tracker := { State.reset.tracker with
      pendingCounts := (State.reset.tracker.pendingCounts.set 1 1).set 5 1 } }

theorem test_uneven_pair :
    let t := (after .tick uneven).tracker
    (t.wheelSpeeds[1], t.wheelSpeeds[5], t.referenceValid[0], t.referenceValid[1], t.validReferences, t.speed) =
      (100, 201, false, true, 1, 201) := by decide +kernel

/-- 3.10: the wheel speeds, the vehicle speed of the two valid wheels, and the validity of the slots. -/
theorem test_tick_speeds :
    let t := (after .tick located).tracker
    [t.wheelSpeeds[1], t.wheelSpeeds[5], t.wheelSpeeds[8], t.wheelSpeeds[10], t.speed] =
      [4418, 4329, 3682, 6627, 4374] ∧
    [t.referenceValid[0], t.referenceValid[1], t.referenceValid[2], t.referenceValid[3]] =
      [true, true, false, false] := by decide +kernel

/-- A tracker that is sound, UNLOCATED. -/
theorem trackerSound_reset : TrackerSound State.reset :=
  ⟨by decide +kernel, by decide +kernel, by decide +kernel, by decide +kernel, by decide +kernel, by decide +kernel⟩

theorem witness_tickInUnlocatedKeepsThePosition :
    State.reset.power = .running ∧ TrackerSound State.reset ∧ State.reset.tracker.state = .unlocated :=
  ⟨rfl, trackerSound_reset, rfl⟩

/-- The vehicle of 3.10 with its front-most wheelset beyond the end of the section. -/
def overrun : State := { located with tracker := { located.tracker with datum := some ⟨0, 53100000⟩ } }

theorem witness_tickAdvancesOrLosesTheDatum :
    located.power = .running ∧ located.tracker.state ≠ .unlocated ∧ located.tracker.datum = some ⟨0, 44200000⟩ ∧
      overrun.tracker.state ≠ .unlocated ∧ overrun.tracker.datum = some ⟨0, 53100000⟩ := by decide +kernel

/-- 3.10: the datum, U and C after the tick; and a loss where the front-most wheelset stands beyond the path (R51). -/
theorem test_tick_datum :
    (after .tick located).tracker.datum = some ⟨0, 44205891⟩ ∧ (after .tick located).tracker.uncertainty = 120092 ∧
      (after .tick located).tracker.confidence = 256 ∧ (after .tick located).tracker.state = .located ∧
      (after .tick overrun).tracker.state = .unlocated ∧ (after .tick overrun).path = [] := by decide +kernel

theorem witness_confidenceAndStateFollowTheTables :
    tram.uFull = 200 ∧ tram.uZero = 2000 ∧ roundNat 200000 1000 ≤ tram.uFull ∧ tram.uFull < roundNat 201000 1000 ∧
      roundNat 1999000 1000 < tram.uZero ∧ tram.uZero ≤ roundNat 2000000 1000 := by decide +kernel

/-- R53 with the default U_full and U_zero, and R54 with the default U_degrade of 1,000. -/
theorem test_confidence_and_state :
    ([200000, 500000, 1000000, 2000000].map (confidenceOf tram false)) = [256, 213, 142, 0] ∧
      ([200000, 1900000].map (confidenceOf tram true)) = [64, 14] ∧
      [trackerStateOf tram false 1000000 2, trackerStateOf tram false 1001000 0, trackerStateOf tram false 0 3,
        trackerStateOf tram true 0 0] = [.located, .degraded, .degraded, .degraded] := by decide +kernel

/-- The tram in the yard of 4.9. -/
def yardTram : State := { set3 .left with vehicle := some tram }

/-- A POS.LOCATE body. -/
def locateBody (id chainage orientation : Nat) : List Byte := [u8 id] ++ be 3 chainage ++ [u8 orientation]

theorem witness_posLocateSetsTheDatum :
    (asked yardTram 0x38 (locateBody 12 14000 0)).canTake ⟨0x38, 7, locateBody 12 14000 0⟩ ∧
      (locateBody 12 14000 0).length = 5 ∧ fieldU (locateBody 12 14000 0) 0 1 = 11 + 1 ∧
      fieldU (locateBody 12 14000 0) 4 1 = Orientation.up.code :=
  ⟨canTake_asked _ _ _ rfl rfl rfl rfl, by decide +kernel⟩

theorem test_posLocate_clauses :
    answers .posLocate 0x38 [(yardTram, locateBody 12 14000 0, .ok), (yardTram, locateBody 12 16000001 0, .outOfRange),
      (set3 .left, locateBody 12 14000 0, .noVehicle), (yardTram, locateBody 16 0 0, .noPath),
      (yardTram, locateBody 12 20001 0, .outOfRange), (yardTram, locateBody 12 6899 0, .noPath),
      (yardTram, locateBody 12 6900 0, .ok)] = true := by decide +kernel

/-- 4.9: the path after POS.LOCATE (12, 14,000, UP). -/
theorem test_posLocate_example :
    (after .posLocate (asked yardTram 0x38 (locateBody 12 14000 0))).path =
      [⟨11, .up, none, false⟩, ⟨12, .down, some .link, false⟩] ∧
    (after .posLocate (asked yardTram 0x38 (locateBody 12 14000 0))).tracker.datum = some ⟨0, 14000000⟩ := by
  decide +kernel

theorem witness_candidateCourseKeepsItsSeed :
    candidateCourse yardTram.store tram .plus 11 14000 .up =
      some ⟨[⟨11, .up, none, false⟩, ⟨12, .down, some .link, false⟩], ⟨0, 14000000⟩, false⟩ := by decide +kernel

theorem witness_posGetReadsPositionAndPath : (asked located 0x39 []).canTake ⟨0x39, 7, []⟩ :=
  canTake_asked _ _ _ rfl rfl rfl rfl

/-- The position record of the published position: LOCATED, section 4, 44,200, UP, v 4,000, σ, U 120, C 256. -/
theorem test_posGet_position :
    (fieldsOf .posGet located 0x39 []).take 16 =
      [1, 4, 0x00, 0xAC, 0xA8, 0, 0x0F, 0xA0, 1, 0, 0, 120, 1, 0, 0, 4] := by decide +kernel

/-- The marker input active with its wait running, and inactive after a detection with its wait running. -/
def markerOn : State :=
  { located with tracker := { located.tracker with debounceEnd := some 2000 }, lines := { located.lines with marker := true } }
def markerOff : State :=
  { located with tracker := { located.tracker with debounce := .waitInactive, debounceEnd := some 9000 } }

theorem witness_markerInputIsDebounced :
    located.power = .running ∧ located.lines.marker ≠ true ∧ located.lines.marker = false ∧
      markerOn.tracker.debounceEnd = some 2000 ∧ markerOn.tracker.debounce = .waitActive ∧
      markerOff.tracker.debounceEnd = some 9000 ∧ markerOff.tracker.debounce = .waitInactive := by decide +kernel

theorem test_marker_debounce :
    (after (.markerInputChange true) located).tracker.debounceEnd = some 2000 ∧
      (after .markerDetection markerOn).tracker.detections = 1 ∧
      (after .markerDebounceRelease markerOff).tracker.debounce = .waitActive := by decide +kernel

/-- 3.10 after its tick, with a detection; the same far from a marker; and a detection in UNLOCATED. -/
def detected : State :=
  let s := after .tick located
  { s with tracker := { s.tracker with detections := 1 } }
def detectedFar : State :=
  { located with tracker := { located.tracker with detections := 1, missCount := 2
                                                   published := { located.tracker.published with
                                                     datum := some ⟨⟨0, 20000000⟩, 3, .up⟩ } } }
def detectedUnlocated : State := { State.reset with tracker := { State.reset.tracker with detections := 1 } }

theorem witness_markerResolveMatchesOrMisses :
    detected.power = .running ∧ 0 < detected.tracker.detections ∧ 0 < detectedFar.tracker.detections ∧
      0 < detectedUnlocated.tracker.detections ∧ detectedUnlocated.tracker.state = .unlocated := by decide +kernel

/-- 3.10: the match of marker 0 and its notice; R64: a third miss gives DEGRADED; R62: UNLOCATED counts the miss. -/
theorem test_markerResolve :
    (after .markerResolve detected).tracker.datum = some ⟨0, 44050000⟩ ∧
      (after .markerResolve detected).tracker.uncertainty = 50000 ∧
      ((after .markerResolve detected).link.notices.map fun n => match n with
        | .position c m i d _ => (c, m, i, d)
        | _ => (.loss, 0, 0, 0)) = [(.matched, 4, 0, -156)] ∧
      (after .markerResolve detectedFar).tracker.state = .degraded ∧
      (after .markerResolve detectedUnlocated).monitor.live.counts[vehicleCounter .markerMiss] = 1 := by decide +kernel

theorem witness_nearestMarkerIsTaken : [(⟨0, 3, 0, -155891⟩ : Candidate)] ≠ [] := by decide

/-- R63: of two candidates at the same |Δ|, the one ahead. -/
theorem test_nearest_is_ahead :
    bestCandidate .plus [⟨0, 3, 0, -500⟩, ⟨0, 3, 1, 500⟩] = some ⟨0, 3, 1, 500⟩ ∧
      bestCandidate .minus [⟨0, 3, 0, -500⟩, ⟨0, 3, 1, 500⟩] = some ⟨0, 3, 0, -500⟩ := by decide +kernel

/-- 3.10: the detector stands at 45,405.891 of section 4 with U 120, and marker 0 is its one candidate. -/
theorem witness_candidatesLieInTheWindow :
    candidates detected.store detected.path ⟨0, 45405891⟩ 120 = [⟨0, 3, 0, -155891⟩] := by decide +kernel

/-- R62: marker 1 at 47,000 is a candidate at exactly its half-width of 500, and not 1 µm further on, until U reaches. -/
theorem test_window_boundary :
    [candidates detected.store detected.path ⟨0, 46500000⟩ 120, candidates detected.store detected.path ⟨0, 46499999⟩ 120,
      candidates detected.store detected.path ⟨0, 46499999⟩ 501] =
      [[⟨0, 3, 1, 500000⟩], [], [⟨0, 3, 1, 500001⟩]] := by decide +kernel

theorem witness_matchWalksTheDatum :
    matchMarker detected.store tram detected.path detected.tracker.published =
      some (⟨0, 3, 0, -155891⟩, ⟨0, 44050000⟩) := by decide +kernel

/-! ## The path -/

/-- The path of 4.9 across points 3. -/
def path49 : List PathEntry :=
  [⟨11, .up, none, false⟩, ⟨12, .down, some .link, false⟩, ⟨13, .up, some (.points 2 .left), false⟩]

/-- The yard with a path, its occupancy counts, a datum and a handed-over change of points 3. -/
def onYard (path : List PathEntry) (datum : Location) (after_ : Setting) : State :=
  let s := set3 after_
  { s with
    vehicle := some tram
    path := path
    store := { s.store with
      sections := Vector.ofFn fun i : Fin 32 => { s.store.sections[i] with occupancy := path.countP fun e => e.sec = i }
      changes := [⟨2, .unknown, after_⟩] }
    tracker := { s.tracker with datum := some datum, state := .located }
    monitor := { s.monitor with conditions := Vector.replicate 48 ⟨false, false, .off⟩ } }

/-- The datum at 13, 8,000, DOWN with RIGHT thrown ahead; at 13, 1,000, DOWN with RIGHT thrown under the vehicle; the
datum beyond the joint; and a change to the branch the path holds. -/
def thrownAhead : State := onYard path49 ⟨1, 8000000⟩ .right
def thrownUnder : State := onYard path49 ⟨1, 1000000⟩ .right
def thrownBehind : State := onYard path49 ⟨2, 7000000⟩ .right
def thrownBack : State := onYard path49 ⟨1, 8000000⟩ .left

theorem witness_walkEndsAtItsPathDistance :
    path49[1]? = some ⟨12, .down, some .link, false⟩ ∧ (0 : Int) ≤ 8000000 ∧
      (8000000 : Int) ≤ 1000 * (thrownAhead.store.sections[12].length : Int) := by decide +kernel

/-- 4.9: locations walked from the datum at 13, 8,000, DOWN. -/
theorem test_walk_table :
    ([-6900000, -900000, 900000, 6900000, 9900000].map (walk thrownAhead.store path49 ⟨1, 8000000⟩)) =
      [some ⟨0, 14100000⟩, some ⟨1, 8900000⟩, some ⟨1, 7100000⟩, some ⟨1, 1100000⟩, some ⟨2, 1900000⟩] := by
  decide +kernel

theorem witness_pathDistanceFollowsTheEntries :
    path49[0]? = some ⟨11, .up, none, false⟩ ∧ path49[1]? = some ⟨12, .down, some .link, false⟩ ∧
      (0 : Nat) < 1 ∧ Orientation.up ≠ .down := by decide +kernel

/-- R74: within 13, DOWN, and from 12 at 14,100 across the joint to 13 at 8,000, and back. -/
theorem test_path_distance :
    [pathDistance thrownAhead.store path49 ⟨1, 8000000⟩ ⟨1, 7100000⟩,
      pathDistance thrownAhead.store path49 ⟨0, 14100000⟩ ⟨1, 8000000⟩,
      pathDistance thrownAhead.store path49 ⟨1, 8000000⟩ ⟨0, 14100000⟩] = [900000, 6900000, -6900000] := by decide +kernel

theorem witness_walkStopsAtTheEndItReaches :
    path49[1]? = some ⟨12, .down, some .link, false⟩ ∧ (0 : Int) ≤ 8000000 ∧
      (8000000 : Int) ≤ 1000 * (thrownAhead.store.sections[12].length : Int) ∧
      (walk thrownAhead.store path49 ⟨1, 8000000⟩ (-6900000)).isSome = true ∧
      (walk thrownAhead.store path49 ⟨1, 8000000⟩ 9900000).isSome = true ∧
      0 < thrownAhead.store.sections[11].length ∧ 0 < thrownAhead.store.sections[13].length := by decide +kernel

/-- R72: the joint of 12 and 13 is the A-side end of 12 when reached toward A, and the B-side end of 13 when reached
toward B; 1 µm on, the walk stands in the neighbour. -/
theorem test_walk_stops_at_the_joint :
    [walk thrownAhead.store path49 ⟨0, 14100000⟩ 5900000, walk thrownAhead.store path49 ⟨0, 14100000⟩ 5900001,
      walk thrownAhead.store path49 ⟨1, 8000000⟩ (-1000000), walk thrownAhead.store path49 ⟨1, 8000000⟩ (-1000001)] =
      [some ⟨0, 20000000⟩, some ⟨1, 8999999⟩, some ⟨1, 9000000⟩, some ⟨0, 19999999⟩] := by decide +kernel

theorem pathSound_of_unmarked (s : State) (length : s.path.length ≤ 16)
    (ready : ∀ e ∈ s.path, s.store.sections[e.sec].state = .ready ∧ e.moved = false)
    (idle : s.link.handler = .idle)
    (occupancy : ∀ i : Fin 32, s.store.sections[i].occupancy = s.path.countP fun e => e.sec = i)
    (head : s.path.head?.all (fun e => decide (e.via = none ∧ e.moved = false)) = true) : PathSound s where
  length := length
  ready := fun e he => (ready e he).1
  marks := fun e he hm => by simp [(ready e he).2] at hm
  closing := fun tag i endsAt h => by simp [idle] at h
  occupancy := occupancy
  head := fun e he => by simpa [he] using head

theorem pathSound_thrown : PathSound thrownAhead ∧ PathSound thrownBack ∧ PathSound State.reset :=
  ⟨pathSound_of_unmarked _ (by decide) (by decide +kernel) rfl (by decide +kernel) (by decide +kernel),
    pathSound_of_unmarked _ (by decide) (by decide +kernel) rfl (by decide +kernel) (by decide +kernel),
    pathSound_of_unmarked _ (by decide) (by decide +kernel) rfl (by decide +kernel) (by decide +kernel)⟩

/-- Points that no joint of the path passes, with a change of theirs. -/
def otherPoints : State := { thrownAhead with store := { thrownAhead.store with changes := [⟨5, .unknown, .left⟩] } }
def noDatum : State := { State.reset with store := { State.reset.store with changes := [⟨5, .unknown, .left⟩] } }

theorem witness_pointsChangeMayLeaveThePath :
    thrownBack.power = .running ∧ PathSound thrownBack ∧
      (thrownBack.present (ofVehicle .pointsMovedUnder) = true ↔ ∃ e ∈ thrownBack.path, e.moved = true) ∧
      State.reset.store.changes = [] ∧ thrownBack.store.changes = ⟨2, .unknown, .left⟩ :: [] ∧
      Setting.left.code = Branch.left.code ∧ otherPoints.store.points[(5 : Fin 16)] = none ∧
      noDatum.tracker.datum = none :=
  ⟨rfl, pathSound_thrown.2.1, by decide +kernel, by decide +kernel⟩

theorem test_pointsChange_of_the_held_branch :
    (after .pointsChange thrownBack).path = path49 ∧ (after .pointsChange thrownBack).store.changes = [] ∧
      (after .pointsChange otherPoints).path = path49 := by decide +kernel

/-- The same track run the other way: section 14 behind, the toe on the A-side, all wheelsets in section 12. -/
def reversed : List PathEntry :=
  [⟨13, .down, none, false⟩, ⟨12, .up, some (.points 2 .left), false⟩, ⟨11, .down, some .link, false⟩]
def thrownRear : State := onYard reversed ⟨2, 13000000⟩ .right

theorem witness_pointsChangeClassifiesTheJoint :
    thrownAhead.store.changes = ⟨2, .unknown, .right⟩ :: [] ∧ thrownAhead.tracker.datum = some ⟨1, 8000000⟩ ∧
      thrownAhead.store.points[(2 : Fin 16)] = some (points3 .right) ∧
      thrownAhead.path = path49.take 2 ++ ⟨13, .up, some (.points 2 .left), false⟩ :: [] ∧ path49.take 2 ≠ [] ∧
      Setting.right.code ≠ Branch.left.code ∧ (∀ f ∈ path49.take 2 ++ [], f.via ≠ some (.points 2 .left) ∧
        f.via ≠ some (.points 2 .right)) ∧
      heldPlaces thrownAhead.store tram path49 ⟨1, 8000000⟩ ≠ [] ∧
      (∀ n ∈ heldPlaces thrownAhead.store tram path49 ⟨1, 8000000⟩, n < 2) ∧
      (∃ n ∈ heldPlaces thrownUnder.store tram path49 ⟨1, 1000000⟩, n < 2) ∧
      (∃ n ∈ heldPlaces thrownUnder.store tram path49 ⟨1, 1000000⟩, 2 ≤ n) ∧
      thrownRear.path = [⟨13, .down, none, false⟩] ++ ⟨12, .up, some (.points 2 .left), false⟩ ::
        [⟨11, .down, some .link, false⟩] ∧
      (points3 .right).toe = ⟨12, Orientation.up.bSide⟩ ∧
      (∀ n ∈ heldPlaces thrownRear.store tram reversed ⟨2, 13000000⟩, 1 ≤ n) := by decide +kernel

/-- 4.9: the branch ahead leaves and GEOMETRY_UNKNOWN_AHEAD is present; the throw under the vehicle marks the entry and
POINTS_MOVED_UNDER is present. And the branch behind leaves at the B-end, with the datum's place moved. -/
theorem test_pointsChange_example :
    (after .pointsChange thrownAhead).path = path49.take 2 ∧
      (after .pointsChange thrownAhead).present (ofVehicle .geometryUnknownAhead) = true ∧
      (after .pointsChange thrownAhead).store.sections[13].occupancy = 0 ∧
      (after .pointsChange thrownUnder).path =
        path49.take 2 ++ [⟨13, .up, some (.points 2 .left), true⟩] ∧
      (after .pointsChange thrownUnder).present (ofVehicle .pointsMovedUnder) = true ∧
      (after .pointsChange thrownRear).path = [⟨12, .up, none, false⟩, ⟨11, .down, some .link, false⟩] ∧
      (after .pointsChange thrownRear).tracker.datum = some ⟨1, 13000000⟩ := by decide +kernel

/-- A balloon loop: out over points 3 by LEFT and back over them by RIGHT. -/
def balloon : List PathEntry :=
  [⟨12, .down, none, false⟩, ⟨13, .up, some (.points 2 .left), false⟩, ⟨14, .down, some .link, false⟩,
    ⟨12, .up, some (.points 2 .right), false⟩]
def balloonAt (entry : Nat) (chainage : Int) (setting : Setting) : State := onYard balloon ⟨entry, chainage⟩ setting

theorem witness_pointsChangeClassifiesEveryJoint :
    (balloonAt 0 7000000 .unknown).store.changes = ⟨2, .unknown, .unknown⟩ :: [] ∧
      (balloonAt 0 7000000 .unknown).tracker.datum = some ⟨0, 7000000⟩ ∧
      (balloonAt 0 7000000 .unknown).store.points[(2 : Fin 16)] = some (points3 .unknown) ∧
      balloon[1]? = some ⟨13, .up, some (.points 2 .left), false⟩ ∧
      balloon[3]? = some ⟨12, .up, some (.points 2 .right), false⟩ ∧
      (points3 .unknown).toe ≠ ⟨13, Orientation.up.bSide⟩ ∧ (points3 .unknown).toe = ⟨12, Orientation.up.bSide⟩ ∧
      Setting.unknown.code ≠ Branch.left.code ∧ Setting.unknown.code ≠ Branch.right.code := by decide +kernel

/-- R86 at each of the two joints, over the same points. Before the first: it leaves, with all behind it, and a change
to its own branch leaves the path, since the second joint's toe side holds nothing. Astride the first: it is marked.
Beyond the second: the way out leaves, and the entry via of the last entry with it. -/
theorem test_balloon :
    [(after .pointsChange (balloonAt 0 7000000 .unknown)).path, (after .pointsChange (balloonAt 0 7000000 .left)).path,
      (after .pointsChange (balloonAt 1 1000000 .unknown)).path, (after .pointsChange (balloonAt 3 8000000 .left)).path] =
      [[⟨12, .down, none, false⟩], balloon,
        [⟨12, .down, none, false⟩, ⟨13, .up, some (.points 2 .left), true⟩, ⟨14, .down, some .link, false⟩,
          ⟨12, .up, some (.points 2 .right), false⟩],
        [⟨12, .up, none, false⟩]] ∧
    (after .pointsChange (balloonAt 3 8000000 .left)).tracker.datum = some ⟨0, 8000000⟩ := by decide +kernel

theorem witness_spanFollowsTheWheelsets : 1 ≤ tram.bogieCount := by decide +kernel

/-- 4.9: the span of the three-bogie record and its reach targets. -/
theorem test_span :
    [tram.bMost, tram.aMost, tram.reachTarget .plus, tram.reachTarget .minus] = [-6900, 6900, 9900, -9900] := by
  decide +kernel

/-- What an extension gives: the longer path, or the reason of its stop. -/
def extended (g : Store) (side : Side) (path : List PathEntry) : List PathEntry × Option StopReason :=
  match extendOnce g side path with
  | .ok longer => (longer, none)
  | .error reason => ([], some reason)

theorem witness_extensionFollowsTheEndLink :
    path49.getLast? = some ⟨13, .up, some (.points 2 .left), false⟩ ∧ path49.head? = some ⟨11, .up, none, false⟩ ∧
      (set3 .left).store.sections[11].high = .sec 12 .high ∧ (set3 .left).store.sections[12].low = .points 2 .toe ∧
      (set3 .left).store.sections[13].low = .points 2 .left ∧ (set3 .left).store.sections[14].low = .points 2 .right ∧
      (set3 .left).store.points[(2 : Fin 16)] = some (points3 .left) ∧
      (set3 .left).store.sections[11].low = .none := by decide +kernel

/-- 4.9: section 13 is entered at HIGH, so it is DOWN, over a LINK; the points decide what follows it; section 14 meets
the toe from its branch; and an end with link NONE is the end of the line. The first path is extended at the B-end. -/
theorem test_extension_example :
    extended (set3 .left).store .bEnd [⟨12, .down, none, false⟩] = (path49.take 2, none) ∧
      extended (set3 .left).store .aEnd (path49.take 1) = (path49.take 2, none) ∧
      extended (set3 .left).store .aEnd (path49.take 2) = (path49, none) ∧
      extended (set3 .right).store .aEnd (path49.take 2) =
        (path49.take 2 ++ [⟨14, .up, some (.points 2 .right), false⟩], none) ∧
      extended (set3 .unknown).store .aEnd (path49.take 2) = ([], some .pointsUnknown) ∧
      extended (set3 .right).store .aEnd [⟨13, .down, none, false⟩] =
        ([⟨13, .down, none, false⟩, ⟨12, .up, some (.points 2 .left), false⟩], none) ∧
      extended (set3 .left).store .bEnd path49 = ([], some .endOfLine) := by decide +kernel

/-- 4.9, leaving section 12: at the datum 13, 2,100, DOWN the rear-most wheelset stands in section 13, and 1 µm before
that still in section 12. -/
theorem test_trimming_example :
    (Course.mk path49 ⟨1, 2100000⟩ false).trim (set3 .left).store tram .plus =
      ⟨[⟨12, .down, none, false⟩, ⟨13, .up, some (.points 2 .left), false⟩], ⟨0, 2100000⟩, false⟩ ∧
    (Course.mk path49 ⟨1, 2100001⟩ false).trim (set3 .left).store tram .plus = ⟨path49, ⟨1, 2100001⟩, false⟩ ∧
    (Course.mk path49 ⟨0, 13100000⟩ false).trim (set3 .left).store tram .minus =
      ⟨path49.take 1, ⟨0, 13100000⟩, false⟩ := by decide +kernel

/-! ## The acquisition unit -/

/-- Bogie 1's stages of 5.8, at indices 8 to 14. -/
def stages1 : List StageEntry :=
  [⟨some 1, some .gapLeftA, 8, 4001, 0, 50, 3900⟩, ⟨some 1, some .gapRightA, 9, 4001, 0, 50, 3900⟩,
    ⟨some 1, some .strokeA, 10, 12000, -6000, -5500, 5500⟩, ⟨some 1, some .gapLeftB, 11, 4001, 0, 50, 3900⟩,
    ⟨some 1, some .gapRightB, 12, 4001, 0, 50, 3900⟩, ⟨some 1, some .strokeB, 13, 12000, -6000, -5500, 5500⟩,
    ⟨some 1, some .yaw, 14, 300000, -150000, -140000, 140000⟩]
def table1 : Vector StageEntry 32 :=
  Vector.ofFn fun i : Fin 32 => if 8 ≤ i.val then (stages1[i.val - 8]?).getD StageEntry.released else StageEntry.released

/-- The tram at home with bogie 1 scheduled, idle and with a scan in conversion. -/
def scheduled : State :=
  { standing with acquisition := { standing.acquisition with
      stages := table1, timers := standing.acquisition.timers.set 1 (some 10000) } }
def scan1 : Scan := ⟨1, 10, stages1⟩
def converting : State :=
  { scheduled with acquisition := { scheduled.acquisition with
      converter := some ⟨scan1, 0, SampleRecord.blank 1 10, 20⟩ } }

/-- A finite check of the scans' invariant. -/
def scansCheck (s : State) : Bool :=
  decide (∀ b : Fin 4, s.acquisition.timers[b].isSome = s.schedulable b) &&
  decide (∀ b : Fin 4, 2 ≤ s.acquisition.periods[b] ∧ s.acquisition.periods[b] ≤ 50) &&
  decide (∀ i j : Fin 32, s.acquisition.stages[i].owner.isSome = true →
    s.acquisition.stages[i].owner = s.acquisition.stages[j].owner →
    s.acquisition.stages[i].role = s.acquisition.stages[j].role → i = j) &&
  decide (∀ b : Fin 4, s.outstanding b ≤ 1) &&
  (s.acquisition.converter.all fun c => c.record.bogie = c.scan.bogie) &&
  decide (s.acquisition.converter = none → s.acquisition.queue = []) &&
  decide (s.computation.pass = none → s.computation.queue = [])

theorem scansSound_of_check {s : State} (h : scansCheck s = true) : ScansSound s := by
  simp only [scansCheck, Bool.and_eq_true, decide_eq_true_eq] at h
  obtain ⟨⟨⟨⟨⟨⟨timers, periods⟩, roles⟩, outstanding⟩, record⟩, converter⟩, pass⟩ := h
  exact ⟨timers, periods, roles, outstanding, fun c hc => by simpa [hc] using record, converter, pass⟩

/-- An STG.SET body. -/
def stageBody (i : Fin 32) (e : StageEntry) : List Byte := e.encode i

theorem witness_stgSetReplacesTheEntry :
    ScansSound scheduled ∧ ScansSound standing ∧ ScansSound State.reset ∧
      (asked scheduled 0x30 (stageBody 8 stages1[0])).canTake ⟨0x30, 7, stageBody 8 stages1[0]⟩ ∧
      (asked standing 0x30 (stageBody 0 StageEntry.released)).canTake ⟨0x30, 7, stageBody 0 StageEntry.released⟩ ∧
      (stageBody 8 stages1[0]).length = 16 ∧ fieldU (stageBody 8 stages1[0]) 0 1 = 8 ∧
      fieldU (stageBody 0 StageEntry.released) 1 1 = 255 ∧
      stages1[0] = ⟨some 1, some .gapLeftA, fieldU (stageBody 8 stages1[0]) 3 1,
        fieldS (stageBody 8 stages1[0]) 4 3, fieldS (stageBody 8 stages1[0]) 7 3, fieldS (stageBody 8 stages1[0]) 10 3,
        fieldS (stageBody 8 stages1[0]) 13 3⟩ :=
  ⟨scansSound_of_check (by decide +kernel), scansSound_of_check (by decide +kernel),
    scansSound_of_check (by decide +kernel), canTake_asked _ _ _ rfl rfl rfl rfl, canTake_asked _ _ _ rfl rfl rfl rfl,
    by decide +kernel⟩

/-- 5.8's refusal DUPLICATE, a new calibration of the same entry, a release, and the bounds of the fields. -/
theorem test_stgSet_clauses :
    answers .stgSet 0x30 [(scheduled, stageBody 15 stages1[0], .duplicate), (scheduled, stageBody 8 stages1[0], .ok),
      (scheduled, stageBody 8 StageEntry.released, .ok), (State.reset, stageBody 8 stages1[0], .noVehicle),
      (located, stageBody 8 stages1[0], .notLocked),
      (standing, stageBody 0 ⟨some 0, some .yaw, 31, 1048575, 1000000, -1000000, 1000000⟩, .ok),
      (standing, stageBody 0 ⟨some 0, some .yaw, 32, 0, 0, 0, 0⟩, .outOfRange),
      (standing, stageBody 0 ⟨some 0, some .yaw, 31, 1048576, 0, 0, 0⟩, .outOfRange),
      (standing, stageBody 0 ⟨some 0, some .yaw, 31, 0, 1000001, 0, 0⟩, .outOfRange),
      (standing, stageBody 0 ⟨some 0, some .gapLeftA, 0, 0, 0, -1, 0⟩, .outOfRange),
      (standing, stageBody 0 ⟨some 0, some .yaw, 0, 0, 0, 1, 0⟩, .outOfRange)] = true := by decide +kernel

theorem test_stgSet_release_stops_the_timer :
    (after .stgSet (asked scheduled 0x30 (stageBody 8 StageEntry.released))).acquisition.timers[1] = none := by
  decide +kernel

theorem witness_stgGetReadsTheTable : (asked scheduled 0x31 [8, 1]).canTake ⟨0x31, 7, [8, 1]⟩ :=
  canTake_asked _ _ _ rfl rfl rfl rfl

theorem test_stgGet_clauses :
    answers .stgGet 0x31 [(scheduled, [31, 8], .ok), (scheduled, [32, 1], .outOfRange),
      (scheduled, [0, 0], .outOfRange), (scheduled, [0, 9], .outOfRange)] = true := by decide +kernel

theorem witness_perSetRestartsTheTimer :
    (asked scheduled 0x32 [1, 20]).canTake ⟨0x32, 7, [1, 20]⟩ ∧ fieldU [1, 20] 0 1 = (1 : Fin 4).val ∧
      2 ≤ fieldU [1, 20] 1 1 ∧ fieldU [1, 20] 1 1 ≤ 50 :=
  ⟨canTake_asked _ _ _ rfl rfl rfl rfl, by decide +kernel⟩

theorem test_perSet_clauses :
    answers .perSet 0x32 [(scheduled, [1, 2], .ok), (scheduled, [1, 50], .ok), (scheduled, [3, 20], .ok),
      (scheduled, [4, 20], .outOfRange), (scheduled, [1, 1], .outOfRange), (scheduled, [1, 51], .outOfRange),
      (State.reset, [1, 20], .noVehicle)] = true ∧
      (after .perSet (asked scheduled 0x32 [1, 20])).acquisition.timers[1] = some 20000 := by decide +kernel

theorem witness_periodExpiryCreatesAScan :
    scheduled.power = .running ∧ ScansSound scheduled ∧ ScansSound converting ∧
      scheduled.acquisition.timers[1] = some 10000 ∧ converting.acquisition.timers[1] = some 10000 ∧
      scheduled.outstanding 1 = 0 ∧ converting.outstanding 1 ≠ 0 :=
  ⟨rfl, scansSound_of_check (by decide +kernel), scansSound_of_check (by decide +kernel), by decide +kernel⟩

theorem test_periodExpiry :
    (after (.periodTimerExpiry 1) scheduled).acquisition.converter =
      some ⟨scan1, 0, SampleRecord.blank 1 10, 10020⟩ ∧
    (after (.periodTimerExpiry 1) converting).monitor.live.counts[vehicleCounter .scanOverrun] = 1 := by decide +kernel

theorem witness_stageValueAndValidity : (4095 : Nat) ≤ 4095 ∧ (0 : Nat) ≤ 4095 := by decide

/-- 5.8: bogie 1's scan, stage by stage. -/
theorem test_stage_values :
    (List.zipWith StageEntry.sample stages1 [1208, 1490, 2979, 1330, 4095, 1096, 2700]) =
      [⟨1180, true⟩, ⟨1455, true⟩, ⟨2728, true⟩, ⟨1299, true⟩, ⟨4000, false⟩, ⟨-2789, true⟩, ⟨47754, true⟩] := by
  decide +kernel

/-! ## The computation unit -/

/-- 6.11: the vehicle with channels 2 and 3 STEERING, their records, and the last stage of bogie 1's scan in
conversion. -/
def steeringChannel (demand : Int) : Channel := { homeChannel with state := .steering, demand := demand }
def record6 (out held good : Int) : ComputationRecord :=
  { ComputationRecord.initial with filter := out, output := out, held := held, lastGood := good }
def lastStage : State :=
  { located with
    channels := ⟨(Vector.replicate 8 homeChannel |>.set 2 (steeringChannel 2712)).set 3 (steeringChannel (-2556)), true⟩
    lines := { homeLines with drive := (homeLines.drive.set 2 ⟨true, false, false⟩).set 3 ⟨true, false, false⟩ }
    acquisition := { scheduled.acquisition with converter := some ⟨scan1, 6,
      { SampleRecord.blank 1 10 with gapLeftA := ⟨1180, true⟩, gapRightA := ⟨1455, true⟩, strokeA := ⟨2728, true⟩,
                                     gapLeftB := ⟨1299, true⟩, gapRightB := ⟨4000, false⟩,
                                     strokeB := ⟨-2789, true⟩ }, 280⟩ }
    computation := { located.computation with
      records := (located.computation.records.set 2 (record6 45200 46600 140)).set 3 (record6 (-42600) (-43000) (-52)) } }

/-- The same with a second scan queued and a pass in flight. -/
def inPass : State := after (.stageConversionComplete 2700#12) lastStage
def queuedBehind : State :=
  { lastStage with acquisition := { lastStage.acquisition with queue := [⟨2, 10, stages1⟩] }
                   computation := inPass.computation }

theorem witness_conversionEndWritesTheStage :
    converting.power = .running ∧ converting.acquisition.converter = some ⟨scan1, 0, SampleRecord.blank 1 10, 20⟩ ∧
      scan1.stages[0]? = some stages1[0] ∧ stages1[0].role = some .gapLeftA ∧ 0 + 1 < scan1.stages.length ∧
      scan1.stages[6]? = some stages1[6] ∧ stages1[6].role = some .yaw ∧ scan1.stages.length ≤ 6 + 1 ∧
      lastStage.acquisition.queue = [] ∧ lastStage.computation.pass = none ∧
      queuedBehind.acquisition.queue ≠ [] ∧ queuedBehind.computation.pass ≠ none := by decide +kernel

/-- The pass that starts lasts 10 + 12 + 12 + 6 µs (R138), from 280 µs on. -/
theorem test_conversion_starts_the_pass :
    inPass.computation.pass.map (fun p => (p.endsAt, p.laneA.centreSample, p.laneA.wheelSample, p.laneB.wheelSample)) =
      some (320, some 50000, some 54167, some 45834) := by decide +kernel

/-- The pass of 6.11, as it stands in flight. -/
def pass6 : Pass := inPass.computation.pass.getD
  { sample := SampleRecord.blank 1 10, position := Published.initial, bogie := ⟨0, 0⟩,
    laneA := ⟨.locked, LawRecord.default, ⟨0, 0, 0⟩, none, none, none⟩,
    laneB := ⟨.locked, LawRecord.default, ⟨0, 0, 0⟩, none, none, none⟩, yawCentre := none, yawBody := none,
    criteria := Criteria.default, endsAt := 0, resetAfter := false }

/-- A pass in flight with a record of bogie 2 behind it. -/
def twoDeep : State :=
  { inPass with computation := { inPass.computation with queue := [SampleRecord.blank 2 10] } }

theorem witness_passesReadWhatStandsAtTheirStart :
    lastStage.power = .running ∧ exec (.stageConversionComplete 2700#12) lastStage = .next inPass ∧
      lastStage.computation.pass = none ∧ inPass.computation.pass = some pass6 ∧
      exec .passComplete twoDeep = .next (after .passComplete twoDeep) ∧ twoDeep.computation.pass ≠ none ∧
      ((after .passComplete twoDeep).computation.pass.map fun p => p.sample) = some (SampleRecord.blank 2 10) := by
  refine ⟨rfl, rfl, by decide +kernel, by decide +kernel, rfl, by decide +kernel, by decide +kernel⟩

/-- R114 and R138: the pass of bogie 2, LOCKED in both lanes and without a yaw field, starts at 320 µs and lasts 18 µs. -/
theorem test_next_pass_starts :
    (after .passComplete twoDeep).computation.pass.map (fun p => p.endsAt) = some 338 ∧
      (after .passComplete inPass).computation.pass = none := by decide +kernel

/-- The pass's computation records mirrored. -/
def mirrored : State :=
  { inPass with computation := { inPass.computation with
      records := Vector.ofFn fun c : Fin 8 => inPass.computation.records[c].mirror } }

theorem witness_passIsMirrorExact :
    mirrored.channels = inPass.channels ∧
      ∀ c : Fin 8, { mirrored.computation.records[c] with inUse := 0 } =
        { inPass.computation.records[c].mirror with inUse := 0 } := by decide +kernel

theorem witness_resultsStayWithinTheirBounds :
    (laneResult pass6 pass6.laneA (inPass.endA pass6).judged).isSome = true ∧
      (laneResult pass6 { pass6.laneA with start := .returning } (inPass.endA pass6).judged).isSome = true ∧
      (laneResult pass6 { pass6.laneA with start := .returning } (record6 1000 0 0)).isSome = true ∧
      pass6.laneA.law.rate * pass6.sample.period < (0 - (record6 1000 0 0).output).natAbs ∧
      pass6.laneA.start = .steering ∧ pass6.laneA.law.shiftWidened = 0 := by decide +kernel

/-- R130 to R132: beyond the allowance of 400 ψ_out moves by 400 toward the goal from either side, and a stroke of 36 or
−36 beyond a stroke_max of 20 is 20 or −20. -/
theorem test_limited_results :
    let lane : LaneRead := { pass6.laneA with start := .returning, fields := { pass6.laneA.fields with strokeMax := 20 } }
    let of := fun out => returningResult pass6 lane (record6 out 0 0)
    [(of 1000).output, (of (-1000)).output, (of 400).output, (of 401).output] = [600, -600, 0, 1] ∧
      [(of 1000).stroke, (of (-1000)).stroke] = [20, -20] := by decide +kernel

/-- 6.11: the pass of bogie 1: the new f, ψ_out and stroke of both lanes, and channel 3's health and last good y. -/
theorem test_pass_example :
    let t := after .passComplete inPass
    [t.computation.records[2].filter, t.computation.records[2].output, t.computation.records[2].held,
      t.channels.bank[2].demand] = [45447, 45447, 46876, 2727] ∧
    [t.computation.records[3].filter, t.computation.records[3].output, t.computation.records[3].held,
      t.channels.bank[3].demand, t.computation.records[3].inUse] = [-42666, -42666, -43125, -2560, -52] ∧
    t.computation.records[2].lastGood = 138 ∧ t.computation.records[3].health = .suspect := by decide +kernel

/-- R120: with two lookups, with one lost, and by the three modes. -/
theorem witness_feedforwardAndFeedbackFollowTheirStages :
    pass6.laneA.centreSample = some 50000 ∧ pass6.laneA.wheelSample = some 54167 ∧
      pass6.position.confidence = 256 ∧ ({ pass6.laneA with centreSample := none }).centreSample = none := by
  decide +kernel

/-- R120: with the default step, 46,876 reaches 0 on the 94th substituted pass. -/
theorem test_decay_reaches_zero :
    [Nat.repeat (substituteForward .decay 500) 93 46876, Nat.repeat (substituteForward .decay 500) 94 46876] =
      [376, 0] := by decide +kernel

/-- 7.10: the returning passes of a channel with ψ_out 1,000, allowance 400 and lever arm 600. -/
def returning (out : Int) : LaneResult :=
  returningResult pass6 { pass6.laneA with start := .returning } (record6 out 0 0)

theorem test_returning_example :
    [(returning 1000).output, (returning 1000).stroke, (returning 600).output, (returning 600).stroke,
      (returning 200).output, (returning 200).stroke] = [600, 36, 200, 12, 0, 0] ∧
    [(returning 600).flags.rate, (returning 200).flags.rate] = [true, false] := by decide +kernel

/-- R124: the third implausible pass fails a sensor, and the tenth plausible one heals it. -/
theorem test_health_table :
    [healthAfter .good false 1 0, healthAfter .suspect false 2 0, healthAfter .suspect false 3 0,
      healthAfter .suspect true 0 1, healthAfter .failed true 0 9, healthAfter .failed true 0 10,
      healthAfter .failed false 1 0] = [.suspect, .suspect, .failed, .good, .failed, .good, .failed] := by decide

theorem witness_healthFollowsItsTable :
    (inPass.endA pass6).gaps.left.valid = true ∧ (inPass.endA pass6).gaps.right.valid = true ∧
      (inPass.endB pass6).gaps.right.valid = false ∧ pass6.laneA.clearance = some 2600 := by decide +kernel

/-- A pass whose lanes meet their channels elsewhere: HOLDING, LOCKED, and RETURNING since the pass started. -/
def passWith (start now : ChannelState) : State :=
  { inPass with
    computation := { inPass.computation with pass := some { pass6 with laneA := { pass6.laneA with start := start } } }
    channels := { inPass.channels with bank := inPass.channels.bank.set 2 { steeringChannel 2712 with state := now } } }

theorem witness_passCompletionWritesTheRecords :
    inPass.power = .running ∧ inPass.computation.pass = some pass6 ∧ pass6.resetAfter = false ∧
      (inPass.endA pass6).read.start = .steering ∧ inPass.channels.bank[2].state = .steering ∧
      inPass.channels.bank[2].entered = false ∧
      (passWith .locked .unlocking).computation.pass ≠ none ∧ (passWith .holding .holding).computation.pass ≠ none ∧
      (passWith .returning .returning).channels.bank[2].state = .returning := by decide +kernel

theorem test_pass_by_start_state :
    (after .passComplete (passWith .locked .unlocking)).computation.records[2].filter = 0 ∧
      (after .passComplete (passWith .holding .holding)).computation.records[2].filter = 45200 ∧
      (after .passComplete (passWith .steering .returning)).computation.records[2].filter = 45200 ∧
      (after .passComplete (passWith .returning .returning)).computation.records[2].output = 44800 := by decide +kernel

/-- 7.10: a jammed actuator at its 20th pass; a stroke sensor invalid for the third time; a return at its end. -/
def supervised (ch : Channel) (stroke : Sample) (out : Int) : State :=
  { inPass with
    computation := { inPass.computation with
      records := inPass.computation.records.set 2 (record6 out 0 0)
      pass := some { pass6 with sample := { pass6.sample with strokeA := stroke }
                                laneA := { pass6.laneA with start := .returning } } }
    channels := { inPass.channels with bank := inPass.channels.bank.set 2 { ch with state := .returning } } }
def jammed : State := supervised { homeChannel with trackingRun := 19 } ⟨420, true⟩ 0
def sensorLost : State := supervised { homeChannel with strokeInvalidRun := 2 } ⟨0, false⟩ 1000
def returned : State := supervised { homeChannel with demand := 12 } ⟨13, true⟩ 200

theorem witness_passCompletionSupervisesTheChannels :
    jammed.power = .running ∧ jammed.computation.pass.isSome = true ∧ sensorLost.computation.pass.isSome = true ∧
      returned.computation.pass.isSome = true ∧ LawRecord.default.trackingLimit < (420 - 0 : Int).natAbs ∧
      LawRecord.default.trackingPersistence ≤ 20 ∧ (13 : Int).natAbs ≤ LawRecord.default.centreTolerance := by
  decide +kernel

theorem test_supervision_example :
    let jam := (after .passComplete jammed).channels.bank[2]
    let lost := (after .passComplete sensorLost).channels.bank[2]
    let home := (after .passComplete returned).channels.bank[2]
    (jam.state, jam.cause, jam.trackingRun) = (.fault, .tracking, 0) ∧
      (lost.state, lost.cause) = (.fault, .strokeSensor) ∧
      (home.state, home.demand, home.lockTimer) = (.locking, 0, some 800320) := by decide +kernel

theorem witness_yawCheckMovesTheRuns :
    pass6.sample.yaw = some ⟨47754, true⟩ ∧ pass6.yawCentre = some 47223 ∧ pass6.yawBody = some 37963 ∧
      pass6.laneA.law.yawTolerance < (85186 - 47754 : Int).natAbs ∧ (SampleRecord.blank 2 10).yaw = none := by
  decide +kernel

/-- The pass of 6.11 with another measured yaw. -/
def yawPass (value : Int) : Pass := { pass6 with sample := { pass6.sample with yaw := some ⟨value, true⟩ } }

/-- 6.11: a disagreeing pass, and the fifth in a row; at 8,000 from the predicted yaw the pass agrees, and the twentieth
in a row clears the mismatch (R136, R171). -/
theorem test_yaw_example :
    (after .passComplete inPass).computation.yaw[1] = ⟨1, 0, false⟩ ∧
      [yawAfter pass6 ⟨4, 0, false⟩, yawAfter (yawPass 77186) ⟨0, 19, true⟩, yawAfter (yawPass 77186) ⟨0, 18, true⟩,
        yawAfter (yawPass 77185) ⟨0, 19, true⟩] = [⟨5, 0, true⟩, ⟨0, 20, false⟩, ⟨0, 19, true⟩, ⟨1, 0, true⟩] := by
  decide +kernel

/-- Bogie 1 with a failed sensor, a mismatch and its conditions: idle, with a scan in conversion, and with the pass of
its scan in flight. -/
def ailing (s : State) : State :=
  { s with
    computation := { s.computation with
      records := s.computation.records.set 3 { ComputationRecord.initial with health := .failed, implausibleRun := 9,
                                                                               proximity := true }
      yaw := s.computation.yaw.set 1 ⟨7, 0, true⟩ }
    monitor := { s.monitor with conditions := ((s.monitor.conditions.set (ofChannel .lateralSensorFailed 3).val
      ⟨true, true, .off⟩ (by decide)).set (ofVehicle .geometryMismatch).val ⟨true, true, .off⟩ (by decide)) } }
def released (s : State) : State := asked (ailing s) 0x30 (stageBody 8 StageEntry.released)
def resetDue : State :=
  { inPass with computation := { inPass.computation with pass := some { pass6 with resetAfter := true } } }

/-- VEH.SET with a bogie scheduled whose stages are gone. -/
def unscheduling : State :=
  asked { standing with acquisition := { standing.acquisition with timers := standing.acquisition.timers.set 2 (some 5) } }
    0x20 (tramBody 900 [1, 5, 8, 10])

theorem witness_bogiesLeavingTheScheduleAreReset :
    exec .stgSet (released scheduled) = .next (after .stgSet (released scheduled)) ∧
      (released scheduled).acquisition.timers[1] ≠ none ∧ (released scheduled).outstanding 1 = 0 ∧
      (after .stgSet (released scheduled)).acquisition.timers[1] = none ∧
      (released converting).acquisition.timers[1] ≠ none ∧ (released converting).outstanding 1 ≠ 0 ∧
      (after .stgSet (released converting)).acquisition.timers[1] = none ∧
      exec .vehSet unscheduling = .next (after .vehSet unscheduling) ∧
      unscheduling.acquisition.timers[2] ≠ none ∧ (after .vehSet unscheduling).acquisition.timers[2] = none := by
  refine ⟨rfl, by decide +kernel, by decide +kernel, by decide +kernel, by decide +kernel, by decide +kernel,
    by decide +kernel, rfl, by decide +kernel, by decide +kernel⟩

/-- R136: at once without a scan outstanding; with one, the records stand until its pass has completed. -/
theorem test_bogie_reset :
    (after .stgSet (released scheduled)).computation.records[3] = ComputationRecord.initial ∧
      (after .stgSet (released scheduled)).computation.yaw[1] = ⟨0, 0, false⟩ ∧
      (after .stgSet (released scheduled)).present (ofChannel .lateralSensorFailed 3) = false ∧
      (after .stgSet (released scheduled)).present (ofVehicle .geometryMismatch) = false ∧
      (after .stgSet (released converting)).computation.records[3].health = .failed ∧
      (after .stgSet (released converting)).computation.resetDue[1] = true := by decide +kernel

theorem witness_dueResetsFollowThePass :
    resetDue.power = .running ∧ resetDue.computation.pass = some { pass6 with resetAfter := true } := by decide +kernel

/-- The pass of 6.11 with the reset due: its results stand, its health and its yaw record do not. -/
theorem test_due_reset :
    let t := after .passComplete resetDue
    (t.computation.records[2].filter, t.computation.records[3].health, t.computation.records[3].implausibleRun) =
      (45447, .good, 0) ∧ t.computation.yaw[1] = ⟨0, 0, false⟩ := by decide +kernel

theorem witness_passCompletionReportsToTheMonitor :
    inPass.power = .running ∧ inPass.computation.pass = some pass6 ∧ pass6.resetAfter = false ∧
      ((inPass.endA pass6).taken.isSome = true) ∧ ((inPass.endB pass6).taken.isSome = true) ∧
      jammed.computation.pass.isSome = true := by decide +kernel

/-- 6.11: channel 3 counts an implausible pass and no substituted one, and channel 2's peak is 138. 7.10: the jammed
actuator counts a pass above the tracking limit, with the peak 420. -/
theorem test_pass_reports :
    let live := (after .passComplete inPass).monitor.live
    let jam := (after .passComplete jammed).monitor.live
    [live.counts[counterOf .implausiblePasses 2], live.counts[counterOf .implausiblePasses 3],
      live.counts[counterOf .substitutedPasses 3], live.counts[counterOf .limitedPasses 2], live.peaks[peakOffset 2],
      live.peaks[peakOffset 3]] = [0, 1, 0, 0, 138, 0] ∧
    [jam.counts[counterOf .trackingExceedPasses 2], jam.peaks[peakError 2]] = [1, 420] := by decide +kernel

/-- A LAW.SET body that ends after field 1, and one with all fields. -/
theorem witness_lawSetReplacesTheRecord :
    (asked State.reset 0x28 (2 :: LawRecord.default.encode)).canTake ⟨0x28, 7, 2 :: LawRecord.default.encode⟩ ∧
      2 :: LawRecord.default.encode ≠ [] ∧
      trailing lawForm ((2 :: LawRecord.default.encode).drop 1) = some (lawForm.map fun p => p.2) ∧
      fieldU (2 :: LawRecord.default.encode) 0 1 = (2 : Fin 8).val ∧
      LawInRange (lawOf (lawForm.map fun p => p.2)) ∧ (lawForm.map fun p => p.2).getD 11 0 ≤ 2 ∧
      (lawForm.map fun p => p.2).getD 12 0 ≤ 2 :=
  ⟨canTake_asked _ _ _ rfl rfl rfl rfl, by decide, by decide +kernel, by decide +kernel,
    by constructor <;> decide +kernel, by decide, by decide⟩

/-- R110: a record with every field at the top of its range is taken, and one with every field at the bottom. -/
theorem test_lawSet_takes_the_ends :
    let top : LawRecord := ⟨500, 65535, 100000, 150000, 500, 7, 7, 3000, 3000, 1000, 25000, .zero, .zero, 20000, 50000,
      8000, 255, 1000, 3000⟩
    let bottom : LawRecord := ⟨0, 0, 0, 1000, 1, 0, 0, 0, 0, 0, 0, .freeze, .hold, 1, 100, 10, 1, 1, 100⟩
    (after .lawSet (asked State.reset 0x28 (7 :: top.encode))).computation.laws[7] = top ∧
      (after .lawSet (asked State.reset 0x28 (0 :: bottom.encode))).computation.laws[0] = bottom := by decide +kernel

theorem test_lawSet_clauses :
    fieldsOf .lawSet State.reset 0x28 [2, 1, 0xF4] = [0] ∧ fieldsOf .lawSet State.reset 0x28 [7] = [0] ∧
      fieldsOf .lawSet State.reset 0x28 [2, 1, 0xF5] = [1] ∧
      fieldsOf .lawSet State.reset 0x28 (2 :: ({ LawRecord.default with shiftWidened := 3 }).encode) = [7] ∧
      fieldsOf .lawSet State.reset 0x28 (2 :: ({ LawRecord.default with lockTime := 3001 }).encode) = [19] ∧
      answers .lawSet 0x28 [(State.reset, [2, 1, 0xF4], .ok), (State.reset, [2, 1, 0xF5], .outOfRange),
        (State.reset, [8], .outOfRange), (State.reset, [2, 1], .badLength)] = true := by decide +kernel

theorem witness_lawRecordReadsBack : LawInRange LawRecord.default := by
  constructor <;> decide

theorem witness_lawGetReadsTheRecords :
    (asked inPass 0x29 [2]).canTake ⟨0x29, 7, [2]⟩ ∧ fieldU [2] 0 1 = (2 : Fin 8).val ∧ (2 : Fin 8).val / 2 = (1 : Fin 4).val :=
  ⟨canTake_asked _ _ _ rfl rfl rfl rfl, by decide +kernel⟩

theorem test_lawGet_fields :
    fieldS (fieldsOf .lawGet inPass 0x29 [2]) 37 4 = 45200 ∧
      answers .lawGet 0x29 [(inPass, [7], .ok), (inPass, [8], .outOfRange)] = true := by decide +kernel

/-! ## The steering channels -/

/-- Whether a channel's state is one that the levels of its lines leave it in. -/
def levelFits (st : ChannelState) (l : DriveLines) : Bool :=
  match st with
  | .locking => !l.lockEngaged && !l.driveFault
  | .locked => l.lockEngaged
  | .unlocking => l.lockEngaged && !l.driveFault
  | .steering | .holding | .returning => !l.driveFault
  | .fault => true

theorem levelsTaken_of_fits {s : State}
    (h : ∀ c : Fin 8, levelFits s.channels.bank[c].state s.lines.drive[c] = true) : LevelsTaken s := by
  intro _ c
  have := h c
  revert this
  cases s.channels.bank[c].state <;> simp [levelFits]

/-- Channel 2 in a state, with the permit and the line levels that go with it, in 6.11's vehicle. -/
def channelIn (st : ChannelState) (l : DriveLines) : State :=
  { lastStage with
    channels := ⟨(Vector.replicate 8 homeChannel).set 2
      { homeChannel with state := st, demand := 60,
                         lockTimer := if st = .locking ∨ st = .unlocking then some 800000 else none }, true⟩
    lines := { homeLines with drive := homeLines.drive.set 2 l } }
def locking2 : State := channelIn .locking ⟨true, false, false⟩
def locked2 : State := channelIn .locked ⟨true, false, true⟩
def lockedFaulty2 : State := channelIn .locked ⟨true, true, true⟩
def unlocking2 : State := channelIn .unlocking ⟨true, false, true⟩
def steering2 : State := channelIn .steering ⟨true, false, false⟩
def holding2 : State := channelIn .holding ⟨true, false, false⟩
def returning2 : State := channelIn .returning ⟨true, false, false⟩
def fault2 : State := channelIn .fault ⟨true, false, true⟩

theorem levelsTaken_fixtures :
    LevelsTaken locking2 ∧ LevelsTaken locked2 ∧ LevelsTaken lockedFaulty2 ∧ LevelsTaken unlocking2 ∧
      LevelsTaken steering2 ∧ LevelsTaken holding2 ∧ LevelsTaken returning2 ∧ LevelsTaken fault2 :=
  ⟨levelsTaken_of_fits (by decide +kernel), levelsTaken_of_fits (by decide +kernel),
    levelsTaken_of_fits (by decide +kernel), levelsTaken_of_fits (by decide +kernel),
    levelsTaken_of_fits (by decide +kernel), levelsTaken_of_fits (by decide +kernel),
    levelsTaken_of_fits (by decide +kernel), levelsTaken_of_fits (by decide +kernel)⟩

theorem witness_channelNumberIsChecked :
    (Instr.chHold, (0x42 : Byte)) ∈ [(Instr.chUnlock, (0x41 : Byte)), (.chHold, 0x42), (.chResume, 0x43),
        (.chReturn, 0x44), (.chClear, 0x45)] ∧
      (asked State.reset 0x42 [8]).canTake ⟨0x42, 7, [8]⟩ ∧ 8 ≤ fieldU [8] 0 1 :=
  ⟨by decide, canTake_asked _ _ _ rfl rfl rfl rfl, by decide +kernel⟩

/-- The status and the reason of a CH.* request. -/
def reasonOf (c : Instr) (s : State) (kind : Byte) (body : List Byte) : Option Byte × Option Byte :=
  (statusOf c s kind body, (fieldsOf c s kind body).head?)

/-- Channel 2 LOCKED with one check of R148 failing at a time. -/
def permitOff2 : State := { locked2 with channels := { locked2.channels with permit := false } }
def unlocated2 : State := { locked2 with tracker := { locked2.tracker with state := .unlocated, datum := none } }
def incomplete2 : State := { locked2 with acquisition := State.reset.acquisition }
def notReady2 : State := channelIn .locked ⟨false, false, true⟩

theorem witness_chUnlockChecksAndReleases :
    LevelsTaken locked2 ∧ LevelsTaken fault2 ∧ LevelsTaken lockedFaulty2 ∧
      (asked locked2 0x41 [2]).canTake ⟨0x41, 7, [2]⟩ ∧ fieldU [2] 0 1 = (2 : Fin 8).val ∧
      fieldU [6] 0 1 = (6 : Fin 8).val ∧ locked2.vehicle ≠ none ∧ locked2.vehicleView.bogieCount = 6 / 2 :=
  ⟨levelsTaken_fixtures.2.1, levelsTaken_fixtures.2.2.2.2.2.2.2, levelsTaken_fixtures.2.2.1,
    canTake_asked _ _ _ rfl rfl rfl rfl, by decide +kernel⟩

/-- R148: each check in turn; channel 6 is not configured in a vehicle of three bogies. -/
theorem test_chUnlock_clauses :
    [reasonOf .chUnlock locked2 0x41 [2], reasonOf .chUnlock State.reset 0x41 [2], reasonOf .chUnlock fault2 0x41 [2],
      reasonOf .chUnlock permitOff2 0x41 [2], reasonOf .chUnlock unlocated2 0x41 [2],
      reasonOf .chUnlock locked2 0x41 [6], reasonOf .chUnlock incomplete2 0x41 [2],
      reasonOf .chUnlock notReady2 0x41 [2], reasonOf .chUnlock lockedFaulty2 0x41 [2]] =
    [(some 0, some 0), (some 7, some 0), (some 4, some 1), (some 4, some 2), (some 4, some 3), (some 4, some 4),
      (some 4, some 5), (some 4, some 6), (some 4, some 7)] := by decide +kernel

theorem test_chUnlock_starts_the_timer :
    (after .chUnlock (asked locked2 0x41 [2])).channels.bank[2].state = .unlocking ∧
      (after .chUnlock (asked locked2 0x41 [2])).channels.bank[2].lockTimer = some 800000 := by decide +kernel

theorem witness_holdResumeReturnKeepTheDemand :
    (asked steering2 0x42 [2]).canTake ⟨0x42, 7, [2]⟩ ∧ (asked holding2 0x43 [2]).canTake ⟨0x43, 7, [2]⟩ ∧
      (asked steering2 0x44 [2]).canTake ⟨0x44, 7, [2]⟩ ∧ (asked locked2 0x44 [2]).canTake ⟨0x44, 7, [2]⟩ ∧
      ((Instr.chHold, (0x42 : Byte)), ChannelState.holding, ChannelEvent.hold) ∈
        [((Instr.chHold, (0x42 : Byte)), ChannelState.holding, ChannelEvent.hold),
          ((.chResume, 0x43), .steering, .resume), ((.chReturn, 0x44), .returning, .returnTaken)] ∧
      fieldU [2] 0 1 = (2 : Fin 8).val ∧ steering2.channels.bank[2].state = .steering :=
  ⟨canTake_asked _ _ _ rfl rfl rfl rfl, canTake_asked _ _ _ rfl rfl rfl rfl, canTake_asked _ _ _ rfl rfl rfl rfl,
    canTake_asked _ _ _ rfl rfl rfl rfl, by decide +kernel⟩

/-- The state and the demand of channel 2 after a request. -/
def channelAfter (c : Instr) (kind : Byte) (s : State) : ChannelState × Int :=
  ((after c (asked s kind [2])).channels.bank[2].state, (after c (asked s kind [2])).channels.bank[2].demand)

theorem test_hold_resume_return :
    [channelAfter .chHold 0x42 steering2, channelAfter .chResume 0x43 holding2, channelAfter .chReturn 0x44 steering2,
      channelAfter .chReturn 0x44 holding2, channelAfter .chReturn 0x44 unlocking2] =
      [(.holding, 60), (.steering, 60), (.returning, 60), (.returning, 60), (.locked, 0)] ∧
    [reasonOf .chHold holding2 0x42 [2], reasonOf .chResume steering2 0x43 [2],
      reasonOf .chReturn returning2 0x44 [2]] = [(some 4, some 1), (some 4, some 1), (some 4, some 1)] := by
  decide +kernel

theorem witness_returnAbandonsTheRelease :
    LevelsTaken unlocking2 ∧ (asked unlocking2 0x44 [2]).canTake ⟨0x44, 7, [2]⟩ ∧
      unlocking2.channels.bank[2].state = .unlocking :=
  ⟨levelsTaken_fixtures.2.2.2.1, canTake_asked _ _ _ rfl rfl rfl rfl, by decide +kernel⟩

theorem witness_chClearEndsTheFault :
    (asked fault2 0x45 [2]).canTake ⟨0x45, 7, [2]⟩ ∧ (asked locked2 0x45 [2]).canTake ⟨0x45, 7, [2]⟩ ∧
      fault2.channels.bank[2].state = .fault ∧ fault2.lines.drive[2].driveFault = false ∧
      fault2.lines.drive[2].lockEngaged = true :=
  ⟨canTake_asked _ _ _ rfl rfl rfl rfl, canTake_asked _ _ _ rfl rfl rfl rfl, by decide +kernel⟩

theorem test_chClear_clauses :
    [reasonOf .chClear fault2 0x45 [2], reasonOf .chClear locked2 0x45 [2],
      reasonOf .chClear (channelIn .fault ⟨true, true, true⟩) 0x45 [2],
      reasonOf .chClear (channelIn .fault ⟨true, false, false⟩) 0x45 [2]] =
      [(some 0, some 0), (some 4, some 1), (some 4, some 7), (some 4, some 8)] ∧
    channelAfter .chClear 0x45 fault2 = (.locked, 0) := by decide +kernel

theorem witness_chGetReadsTheStatus :
    (asked steering2 0x46 []).canTake ⟨0x46, 7, []⟩ ∧ (asked steering2 0x46 [2]).canTake ⟨0x46, 7, [2]⟩ ∧
      (asked steering2 0x46 [8]).canTake ⟨0x46, 7, [8]⟩ ∧ 7 < fieldU [8] 0 1 ∧ fieldU [2] 0 1 = (2 : Fin 8).val :=
  ⟨canTake_asked _ _ _ rfl rfl rfl rfl, canTake_asked _ _ _ rfl rfl rfl rfl, canTake_asked _ _ _ rfl rfl rfl rfl,
    by decide +kernel⟩

theorem witness_channelStatusShowsTheChannel :
    steering2.channels.bank[2].lockTimer = none ∧ locking2.channels.bank[2].lockTimer = some 800000 ∧
      locking2.clock < 800000 := by decide +kernel

/-- R163: 800 ms less 280 µs remain as 800 whole ms, and 1 µs as 1. -/
theorem test_lock_remaining :
    [(State.reset.channelStatus 2).remaining, ({ State.reset with clock := 280 }.channelStatus 2).remaining,
      ({ State.reset with clock := 799999 }.channelStatus 2).remaining,
      ({ State.reset with clock := 799000 }.channelStatus 2).remaining,
      ({ State.reset with clock := 800000 }.channelStatus 2).remaining] = [800, 800, 1, 1, 0] := by decide +kernel

/-- R206: the record of a steering channel: state 3 with the demand 60 at its bytes, and the flags drive enable, lock
release, drive ready and permit. -/
theorem test_chGet_record :
    (fieldsOf .chGet steering2 0x46 [2]).take 18 =
      [2, 3, 0, 0, 0, 0, 60, 0, 0, 0, 0, 0, 0, 0, 0, 0, 0, 0x87] ∧
    (fieldsOf .chGet steering2 0x46 []).length = 184 ∧
    answers .chGet 0x46 [(steering2, [7], .ok), (steering2, [8], .outOfRange)] = true := by decide +kernel

theorem witness_permitSetMovesTheChannels :
    LevelsTaken steering2 ∧ LevelsTaken unlocking2 ∧ LevelsTaken holding2 ∧
      (asked steering2 0x40 [1]).canTake ⟨0x40, 7, [1]⟩ ∧ (asked steering2 0x40 [2]).canTake ⟨0x40, 7, [2]⟩ ∧
      (asked unlocking2 0x40 [0]).canTake ⟨0x40, 7, [0]⟩ ∧ (asked permitOff2 0x40 [0]).canTake ⟨0x40, 7, [0]⟩ ∧
      steering2.channels.permit = true ∧ permitOff2.channels.permit = false :=
  ⟨levelsTaken_fixtures.2.2.2.2.1, levelsTaken_fixtures.2.2.2.1, levelsTaken_fixtures.2.2.2.2.2.1,
    canTake_asked _ _ _ rfl rfl rfl rfl, canTake_asked _ _ _ rfl rfl rfl rfl, canTake_asked _ _ _ rfl rfl rfl rfl,
    canTake_asked _ _ _ rfl rfl rfl rfl, by decide +kernel⟩

theorem test_permitSetOff_moves :
    [(after .permitSetOff (asked steering2 0x40 [0])).channels.bank[2].state,
      (after .permitSetOff (asked holding2 0x40 [0])).channels.bank[2].state,
      (after .permitSetOff (asked unlocking2 0x40 [0])).channels.bank[2].state,
      (after .permitSetOff (asked returning2 0x40 [0])).channels.bank[2].state] =
      [.returning, .returning, .locked, .returning] := by decide +kernel

theorem test_permitSetOn_keeps_the_channels :
    (after .permitSetOn (asked permitOff2 0x40 [1])).channels.permit = true ∧
      answers .permitSetOn 0x40 [(State.reset, [1], .ok), (State.reset, [2], .outOfRange)] = true := by decide +kernel

theorem witness_lockTimerExpiryFaults :
    locking2.power = .running ∧ locking2.channels.bank[2].lockTimer = some 800000 ∧
      locking2.channels.bank[2].state = .locking ∧ unlocking2.channels.bank[2].lockTimer = some 800000 ∧
      steering2.channels.bank[2].lockTimer = none := by decide +kernel

theorem test_lockTimer_faults :
    [(after (.lockTimerExpiry 2) locking2).channels.bank[2].cause,
      (after (.lockTimerExpiry 2) unlocking2).channels.bank[2].cause,
      (after (.lockTimerExpiry 2) steering2).channels.bank[2].cause] = [.lockTimeout, .lockTimeout, .none] := by
  decide +kernel

theorem witness_lockEngagedLineMovesTheChannel :
    locking2.power = .running ∧ LevelsTaken locking2 ∧ LevelsTaken locked2 ∧ LevelsTaken lockedFaulty2 ∧
      LevelsTaken unlocking2 ∧ LevelsTaken steering2 :=
  ⟨rfl, levelsTaken_fixtures.1, levelsTaken_fixtures.2.1, levelsTaken_fixtures.2.2.1, levelsTaken_fixtures.2.2.2.1,
    levelsTaken_fixtures.2.2.2.2.1⟩

/-- R144: the lock's line in each state. -/
theorem test_lockEngaged_moves :
    [(after (.lockEngagedChange 2 true) locking2).channels.bank[2].state,
      (after (.lockEngagedChange 2 false) locked2).channels.bank[2].state,
      (after (.lockEngagedChange 2 false) lockedFaulty2).channels.bank[2].state,
      (after (.lockEngagedChange 2 false) unlocking2).channels.bank[2].state,
      (after (.lockEngagedChange 2 true) steering2).channels.bank[2].state] =
      [.locked, .locking, .fault, .steering, .steering] := by decide +kernel

theorem witness_driveFaultLineFaultsTheChannel :
    steering2.power = .running ∧ LevelsTaken steering2 ∧ LevelsTaken locked2 ∧
      steering2.channels.bank[2].state ≠ .locked ∧ steering2.channels.bank[2].state ≠ .fault :=
  ⟨rfl, levelsTaken_fixtures.2.2.2.2.1, levelsTaken_fixtures.2.1, by decide +kernel⟩

theorem test_driveFault_faults :
    [(after (.driveFaultChange 2 true true) steering2).channels.bank[2].cause,
      (after (.driveFaultChange 2 true true) locked2).channels.bank[2].cause,
      (after (.driveFaultChange 2 false true) steering2).channels.bank[2].cause] = [.drive, .none, .none] := by
  decide +kernel

/-! ## The monitor -/

/-- The condition LATERAL_SENSOR_FAILED of channel 3 with a notice mode, as in 8.8, and with an N.COND waiting. -/
def lsf3 : Fin 48 := ofChannel .lateralSensorFailed 3
def watching (present : Bool) (mode : NoticeMode) : State :=
  { State.reset with monitor := { State.reset.monitor with
      conditions := (Vector.replicate 48 ⟨false, false, .off⟩).set lsf3.val ⟨present, present, mode⟩ lsf3.isLt } }
def waiting : State :=
  { watching false .both with link := { State.reset.link with notices := [.channel 0 .locking .lockEngaged
      (State.reset.channelStatus 0), .condition 1 2] } }

theorem witness_reportsLatchAndNotify :
    (watching true .both).monitor.conditions[lsf3].present = true ∧
      (watching false .both).monitor.conditions[lsf3].present ≠ true ∧
      (watching false .fall).monitor.conditions[lsf3].mode ≠ .rise ∧
      waiting.link.notices = [.channel 0 .locking .lockEngaged (State.reset.channelStatus 0)] ++ .condition 1 2 :: [] ∧
      (watching false .both).link.notices = [] := by decide +kernel

/-- 8.8: LATERAL_SENSOR_FAILED of channel 3 is bit 11; a rise in BOTH is noticed, in FALL it is not. -/
theorem test_report_edges :
    ((watching false .both).report lsf3 true).link.notices = [.condition (1 <<< 11) 0] ∧
      ((watching false .fall).report lsf3 true).link.notices = [] ∧
      ((watching true .fall).report lsf3 false).link.notices = [.condition 0 (1 <<< 11)] ∧
      ((watching true .both).report lsf3 false).monitor.conditions[lsf3] = ⟨false, true, .both⟩ := by decide +kernel

/-- R195: a newer N.CHAN of channel 0 and a newer N.COND stand where the older ones stood, and an N.CHAN of channel 1
joins last. -/
theorem test_notices_take_their_place :
    let older := Notice.channel 0 .locking .lockEngaged (State.reset.channelStatus 0)
    let newer := Notice.channel 0 .locked .unlock (State.reset.channelStatus 0)
    let other := Notice.channel 1 .locked .unlock (State.reset.channelStatus 1)
    (waiting.notify newer).link.notices = [newer, .condition 1 2] ∧
      (waiting.notify other).link.notices = [older, .condition 1 2, other] ∧
      (waiting.notify (.condition 4 8)).link.notices = [older, .condition 5 10] := by decide +kernel

theorem witness_cndGetClearsTheLatches : (asked State.reset 0x50 []).canTake ⟨0x50, 7, []⟩ :=
  canTake_asked _ _ _ rfl rfl rfl rfl

/-- Right after power-on UNLOCATED is present and latched: bit 0 of byte 5 of each set (R206). -/
theorem test_cndGet_sets :
    (fieldsOf .cndGet State.reset 0x50 []).take 12 = [0, 0, 0, 0, 0, 1, 0, 0, 0, 0, 0, 1] ∧
      (fieldsOf .cndGet State.reset 0x50 []).drop 60 = [10, 10, 5, 20, 100] := by decide +kernel

theorem witness_cndEnableSetsTheModes :
    (asked State.reset 0x51 [2, 3]).canTake ⟨0x51, 7, [2, 3]⟩ ∧
      (asked State.reset 0x51 [2, 3, 7]).canTake ⟨0x51, 7, [2, 3, 7]⟩ ∧ fieldU [2, 3] 1 1 = NoticeMode.both.code ∧
      fieldU [2, 3, 7] 2 1 ≤ 7 :=
  ⟨canTake_asked _ _ _ rfl rfl rfl rfl, canTake_asked _ _ _ rfl rfl rfl rfl, by decide +kernel⟩

theorem test_cndEnable_clauses :
    answers .cndEnable 0x51 [(State.reset, [2, 3], .ok), (State.reset, [5, 3, 7], .ok), (State.reset, [23, 1], .ok),
      (State.reset, [6, 1], .outOfRange), (State.reset, [15, 1], .outOfRange), (State.reset, [24, 1], .outOfRange),
      (State.reset, [2, 4], .outOfRange), (State.reset, [2, 3, 8], .outOfRange),
      (State.reset, [16, 3, 0], .outOfRange), (State.reset, [16, 3, 255], .ok)] = true ∧
      (after .cndEnable (asked State.reset 0x51 [2, 3])).monitor.conditions[lsf3].mode = .both := by decide +kernel

theorem witness_cndCriteriaReplacesTheCriteria :
    (asked State.reset 0x52 [1, 0]).canTake ⟨0x52, 7, [1, 0]⟩ ∧ (asked State.reset 0x52 []).canTake ⟨0x52, 7, []⟩ ∧
      fieldU [1, 0] 1 1 = 0 ∧ fieldU [1, 0] 0 1 ≠ 0 :=
  ⟨canTake_asked _ _ _ rfl rfl rfl rfl, canTake_asked _ _ _ rfl rfl rfl rfl, by decide +kernel⟩

theorem test_cndCriteria_clauses :
    fieldsOf .cndCriteria State.reset 0x52 [1, 0] = [2] ∧ fieldsOf .cndCriteria State.reset 0x52 [255] = [0] ∧
      (after .cndCriteria (asked State.reset 0x52 [1, 2, 3])).monitor.criteria = ⟨1, 2, 3, 20, 100⟩ := by
  decide +kernel

/-- The snapshot before at the greatest sequence number (R176). -/
def lastSequence : State :=
  { State.reset with monitor := { State.reset.monitor with
      snapshot := { State.reset.monitor.snapshot with sequence := 65535 } } }
def manual : State := { State.reset with monitor := { State.reset.monitor with auto := false, timer := none } }

theorem witness_snapshotsCloseTheInterval :
    lastSequence.monitor.snapshot.sequence ≤ 65535 ∧ (asked lastSequence 0x53 []).canTake ⟨0x53, 7, []⟩ ∧
      State.reset.power = .running ∧ State.reset.monitor.auto = true ∧
      State.reset.monitor.timer = some 1000000 ∧ manual.monitor.timer = none :=
  ⟨by decide +kernel, canTake_asked _ _ _ rfl rfl rfl rfl, by decide +kernel⟩

/-- R177: at 1,000 ms the timer's snapshot has sequence 1, length 1,000 ms and cause AUTO, and the next is 1,000 ms on. -/
theorem test_snapshotTimer :
    let m := (after .snapshotTimerExpiry State.reset).monitor
    (m.snapshot.sequence, m.snapshot.interval, m.snapshot.cause, m.timer) = (1, 1000, .auto, some 2000000) := by
  decide +kernel

theorem test_cntSnap_wraps : (fieldsOf .cntSnap lastSequence 0x53 []).take 5 = [0, 0, 0, 0, 2] ∧
    (fieldsOf .cntSnap lastSequence 0x53 []).length = 141 := by decide +kernel

theorem witness_cntModeStartsAndStopsTheTimer :
    (asked manual 0x54 [0]).canTake ⟨0x54, 7, [0]⟩ ∧ (asked State.reset 0x54 [1]).canTake ⟨0x54, 7, [1]⟩ ∧
      (asked State.reset 0x54 [2]).canTake ⟨0x54, 7, [2]⟩ :=
  ⟨canTake_asked _ _ _ rfl rfl rfl rfl, canTake_asked _ _ _ rfl rfl rfl rfl, canTake_asked _ _ _ rfl rfl rfl rfl⟩

theorem test_cntMode_clauses :
    (after .cntModeAuto (asked manual 0x54 [0])).monitor.timer = some 1000000 ∧
      (after .cntModeManual (asked State.reset 0x54 [1])).monitor.timer = none ∧
      answers .cntModeManual 0x54 [(State.reset, [2], .outOfRange)] = true := by decide +kernel

theorem witness_cntGetReadsTheSnapshot : (asked State.reset 0x55 []).canTake ⟨0x55, 7, []⟩ :=
  canTake_asked _ _ _ rfl rfl rfl rfl

theorem test_cntGet_length : (fieldsOf .cntGet State.reset 0x55 []).length = 141 := by decide +kernel

/-! ## Records and invariants -/

theorem witness_recordsAreFoundAtTheirPlaces :
    (⟨20000, .arc, 55556, 55556, some 2650⟩ : Element).start < 16777216 ∧
      (∀ c, (⟨20000, .arc, 55556, 55556, some 2650⟩ : Element).clearance = some c → 0 < c ∧ c < 16384) ∧
      (⟨45250, 500⟩ : Marker).chainage < 16777216 ∧ (⟨45250, 500⟩ : Marker).halfWidth < 65536 ∧
      (steering2.channelStatus 2).remaining < 65536 ∧ (steering2.channelStatus 2).demand.natAbs < 32768 ∧
      (steering2.channelStatus 2).trackingRun ≤ 255 ∧ (steering2.channelStatus 2).strokeInvalidRun ≤ 255 ∧
      (record6 45200 46600 140).output.natAbs < 2147483648 ∧ (record6 45200 46600 140).lastGood.natAbs < 8388608 ∧
      (record6 45200 46600 140).limitedRun ≤ 255 := by
  refine ⟨by decide, ?_, by decide +kernel⟩
  intro c h
  cases h
  decide

theorem witness_vehicleRecordReadsBack :
    VehicleInWidths tram ∧ (tramBody 900 [1, 5, 8, 10]).length ∈ [136, 138, 140, 142, 144, 146, 148, 149] ∧
      vehFailure (tramBody 900 [1, 5, 8, 10]) = none :=
  ⟨⟨by decide +kernel, by decide +kernel, by decide +kernel, by decide +kernel, by decide +kernel, by decide +kernel,
    by decide +kernel⟩, by decide +kernel, by decide +kernel⟩

theorem witness_stageAndScheduleRecordsAreFound :
    (scheduled.acquisition.stages[0].input < 256 ∧ scheduled.acquisition.stages[0].scale.natAbs < 8388608) ∧
      scheduled.acquisition.periods[1] < 256 ∧ scheduled.outstanding 1 ≤ 1 ∧ converting.outstanding 1 ≤ 1 ∧
      (∃ k r, stages1[0].owner = some k ∧ stages1[0].role = some r ∧ stages1[0].inRange r = true) :=
  ⟨by decide +kernel, by decide +kernel, by decide +kernel, by decide +kernel, 1, .gapLeftA, by decide +kernel⟩

/-- R203: bogie 1 of the table, with its YAW stage, is configured, complete and scheduled, first with no scan, then with
one in conversion. -/
theorem test_schedule_record :
    scheduled.scheduleRecord 1 = [10, 0x0F, 0] ∧ converting.scheduleRecord 1 = [10, 0x0F, 2] := by decide +kernel

theorem witness_positionAndLinkRecordsAreFound :
    PublishedInWidths located.tracker.published ∧ PublishedInWidths Published.initial := by
  refine ⟨⟨?_, by decide +kernel, by decide +kernel, by decide +kernel⟩, ⟨?_, by decide +kernel, by decide +kernel,
    by decide +kernel⟩⟩
  · intro d h
    cases h
    decide +kernel
  · intro d h
    cases h

theorem witness_lawRecordIsFoundAtItsPlaces : LawInRange LawRecord.default := witness_lawRecordReadsBack

/-- R205: the default ψ_max of 80,000 at byte 8, k_n and k_w at 14 and 15, and the lock time of 800 at 35. -/
theorem test_law_bytes :
    (LawRecord.default.encode.drop 8).take 8 = [0x00, 0x01, 0x38, 0x80, 0, 40, 2, 0] ∧
      LawRecord.default.encode.drop 35 = [0x03, 0x20] := by decide +kernel

/-- R206: LOCATED at 4, 44,200, UP, with 4,000 mm/s, σ +1, U 120 mm, C 256 and four valid wheels. -/
theorem test_position_bytes :
    located.tracker.published.encode = [1, 4, 0x00, 0xAC, 0xA8, 0, 0x0F, 0xA0, 1, 0, 0, 120, 1, 0, 0, 4] := by
  decide +kernel

/-- 10: an ARC of 55,556 carrying a clearance of 2,650 ends with 0x4A5A. -/
theorem test_arc_bytes :
    (⟨20000, .arc, 55556, 55556, some 2650⟩ : Element).encode =
      [0x00, 0x4E, 0x20, 0x00, 0xD9, 0x04, 0x00, 0xD9, 0x04, 0x4A, 0x5A] := by decide +kernel

/-- R200: LOCATED, permit ON, one channel STEERING, no condition latched and in motion. And 11.1's summary 0x60 after
its VEH.SET: UNLOCATED latched, and standstill. -/
theorem test_summary_example :
    ({ steering2 with
      tracker := { steering2.tracker with published := { steering2.tracker.published with
        state := .located, standstill := false } }
      monitor := { steering2.monitor with conditions := Vector.replicate 48 ⟨false, false, .off⟩ } } : State).summary =
      0x15 ∧
    ({ standing with tracker := { standing.tracker with published := { standing.tracker.published with
        standstill := true } } } : State).summary = 0x60 := by decide +kernel

/-- A state with one command waiting. -/
def before (s : State) (c : Instr) : State := { s with pending := [c] }

theorem witness_everyStepKeepsTheStoreSound :
    StoreSound (before joined .tick).store ∧ ∃ t, step (before joined .tick) = .next t :=
  ⟨storeSound_of_check (by decide +kernel), _, rfl⟩

/-- Section 7 of 1.13 is READY and sound; the other sections are FREE. -/
theorem witness_everyStepKeepsReadySectionsSound :
    ReadySound (before ready7 .tick).store ∧ ∃ t, step (before ready7 .tick) = .next t := by
  refine ⟨⟨by decide +kernel, ?_⟩, _, rfl⟩
  have : ∀ i : Fin 32, ready7.store.sections[i].state = .ready → ready7.store.sections[i] = curve := by decide +kernel
  intro i h
  change ReadySection ready7.store.sections[i]
  rw [this i h]
  exact readySection_curve

theorem witness_everyStepKeepsThePathSound :
    PathSound (before thrownAhead .pointsChange) ∧ ∃ t, step (before thrownAhead .pointsChange) = .next t :=
  ⟨pathSound_of_unmarked _ (by decide) (by decide +kernel) rfl (by decide +kernel) (by decide +kernel), _, rfl⟩

theorem witness_everyStepKeepsTheChannels :
    ChannelsSound (before standing .tick) ∧ LevelsTaken (before standing .tick) ∧
      ∃ t, step (before standing .tick) = .next t :=
  ⟨⟨by decide +kernel, by decide +kernel, by decide +kernel, by decide +kernel, by decide +kernel, by decide +kernel,
    by decide +kernel⟩, levelsTaken_of_fits (by decide +kernel), _, rfl⟩

/-- The pass of 6.11 in flight, both channels of its bogie able to take their results. -/
theorem demandsBounded_inPass : DemandsBounded (before inPass .passComplete) := by
  refine ⟨by decide +kernel, ?_, by decide +kernel⟩
  intro p c l hp hl _ _ _
  have h : some pass6 = some p := (by decide +kernel : inPass.computation.pass = some pass6).symm.trans hp
  cases h
  rcases hl with ⟨rfl, rfl⟩ | ⟨rfl, rfl⟩ <;> decide +kernel

theorem witness_everyStepKeepsTheDemandsBounded :
    ChannelsSound (before inPass .passComplete) ∧ DemandsBounded (before inPass .passComplete) ∧
      (inPass.endA pass6).taken.isSome = true ∧ ∃ t, step (before inPass .passComplete) = .next t :=
  ⟨⟨by decide +kernel, by decide +kernel, by decide +kernel, by decide +kernel, by decide +kernel, by decide +kernel,
    by decide +kernel⟩, demandsBounded_inPass, by decide +kernel, _, rfl⟩

theorem witness_outputsFollowTheChannels :
    (before inPass .passComplete).power = .running ∧ ChannelsSound (before inPass .passComplete) ∧
      DemandsBounded (before inPass .passComplete) ∧ inPass.channels.bank[2].state = .steering ∧
      inPass.channels.bank[0].state = .locked :=
  ⟨rfl, witness_everyStepKeepsTheDemandsBounded.1, demandsBounded_inPass, by decide +kernel, by decide +kernel⟩

theorem witness_everyStepKeepsTheMonitorSound :
    MonitorSound (before (watching true .both) .tick).monitor ∧ ∃ t, step (before (watching true .both) .tick) = .next t :=
  ⟨⟨by decide +kernel, by decide +kernel, by decide +kernel, by decide +kernel, by decide +kernel⟩, _, rfl⟩

theorem witness_everyStepKeepsTheLinkSound :
    LinkSound (before waiting .transmitBegin).link ∧ ∃ t, step (before waiting .transmitBegin) = .next t :=
  ⟨⟨by decide +kernel, by decide +kernel, by decide +kernel, by decide +kernel, by decide +kernel⟩, _, rfl⟩

theorem witness_everyCommandKeepsTheNoticesInOrder :
    exec (.driveFaultChange 2 true true) steering2 = .next (after (.driveFaultChange 2 true true) steering2) ∧
      (after (.driveFaultChange 2 true true) steering2).link.notices ≠ steering2.link.notices := ⟨rfl, by decide +kernel⟩

theorem witness_everyStepKeepsTheScansSound :
    ScansSound (before converting (.stageConversionComplete 1208#12)) ∧
      ∃ t, step (before converting (.stageConversionComplete 1208#12)) = .next t :=
  ⟨scansSound_of_check (by decide +kernel), _, rfl⟩

theorem witness_everyStepKeepsTheTrackerSound :
    TrackerSound (before located .tick) ∧ DatumOnPath (before located .tick) ∧
      ∃ t, step (before located .tick) = .next t := by
  refine ⟨⟨by decide +kernel, by decide +kernel, by decide +kernel, by decide +kernel, by decide +kernel,
    by decide +kernel⟩, ?_, _, rfl⟩
  intro l h
  cases h
  decide +kernel

/-- The front command runs and leaves it. -/
theorem test_step_takes_the_front :
    (match step (before State.reset .tick) with
      | .next t => (t.pending, t.clock)
      | _ => ([], 0)) = ([], 1000) := by decide +kernel

end Sys2Proof.Tests
end

