-- ==== Sys2Proof/Proofs/Requests.lean ====
section
/-!
SUPPORT. The taking of a request, and what its reply leaves alone (R189, R191).
-/
namespace Sys2Proof.Machine

/-! ## Requests taken (R189, R191) -/

section Taking
variable {s t : State} {r : Frame} {kind : Byte} {mine fits : List Byte → Bool}

/-- A request row whose owner refuses, or only reads, queues its answer and changes nothing else. -/
theorem State.onlyAnswers_of_owner {act : List Byte → State → State × Answer} {st : Status} {fields : List Byte}
    (h : s.canTake r) (hk : r.kind = kind) (hf : fits r.body = true) (hm : mine r.body = true)
    (ha : act r.body s.popRequest = (s.popRequest, ⟨st, fields⟩)) :
    s.onlyAnswers (s.serveAct kind mine fits act) r st fields := by
  rw [State.serveAct_taken h hk hf hm, ha]
  rfl

/-- A request row whose owner acts on the store queues its answer and changes nothing else. -/
theorem State.serveAct_store {act : List Byte → State → State × Answer} {u : State} {st : Status}
    {fields : List Byte} (h : s.canTake r) (hk : r.kind = kind) (hf : fits r.body = true) (hm : mine r.body = true)
    (ha : act r.body s.popRequest = (u, ⟨st, fields⟩)) (hu : u = { s.popRequest with store := u.store }) :
    let t := s.serveAct kind mine fits act
    s.answeredOnly t r st fields ∧ t = { s with link := t.link, store := t.store } ∧ t.store = u.store := by
  dsimp only
  rw [State.serveAct_taken h hk hf hm, ha, hu]
  exact ⟨⟨rfl, rfl⟩, rfl, rfl⟩

end Taking

/-- Whether a body has the length that a row asks for. -/
theorem lengthIs_iff {n : Nat} {body : List Byte} : lengthIs n body = true ↔ body.length = n := by
  simp [lengthIs]

/-- A body of the row's length fits it. -/
theorem lengthIs_of_eq {n : Nat} {body : List Byte} (h : body.length = n) : lengthIs n body = true :=
  lengthIs_iff.2 h

/-! ## Ids and codes that name nothing (R1, R9, R201) -/

/-- A number that names no section. -/
theorem sectionOf?_eq_none {n : Nat} (h : n = 0 ∨ 32 < n) : sectionOf? n = none := dif_neg (by omega)

/-- A number that names no points record. -/
theorem pointsOf?_eq_none {n : Nat} (h : n = 0 ∨ 16 < n) : pointsOf? n = none := dif_neg (by omega)

/-- A code of an end is read back. -/
theorem sectionEndOf?_code (e : SectionEnd) : sectionEndOf? e.code = some e := by cases e <;> rfl

/-- A code of a setting is read back. -/
theorem settingOf?_code (x : Setting) : settingOf? x.code = some x := by cases x <;> rfl

/-- A code above 1 is no end's. -/
theorem sectionEndOf?_eq_none {n : Nat} (h : 1 < n) : sectionEndOf? n = none := by
  obtain ⟨m, rfl⟩ : ∃ m, n = m + 2 := ⟨n - 2, by omega⟩
  rfl

/-- A section end named at an offset (R202). -/
theorem endRefOf?_eq_some {body : List Byte} {o : Nat} {e : EndRef} (hs : fieldU body o 1 = e.sec.val + 1)
    (he : fieldU body (o + 1) 1 = e.side.code) : endRefOf? body o = some e := by
  simp [endRefOf?, hs, he, sectionEndOf?_code]

/-- No section end is named at an offset. -/
theorem endRefOf?_eq_none {body : List Byte} {o : Nat}
    (h : fieldU body o 1 = 0 ∨ 32 < fieldU body o 1 ∨ 1 < fieldU body (o + 1) 1) : endRefOf? body o = none := by
  unfold endRefOf?
  rcases or_assoc.2 h with h | h
  · rw [sectionOf?_eq_none h]
  · rw [sectionEndOf?_eq_none h]
    cases sectionOf? (fieldU body o 1) <;> rfl

/-- A field of one byte is below 256. -/
theorem beNat_singleton (b : Byte) : beNat [b] = b.toNat := by simp [beNat]

/-! ## The links of the section ends (R8) -/

/-- What a written link leaves at each end. -/
theorem State.linkOf_setLink (s : State) (e x : EndRef) (l : Link) :
    (s.setLink e l).store.linkOf x = if x = e then l else s.store.linkOf x := by
  obtain ⟨i, a⟩ := e
  obtain ⟨j, b⟩ := x
  by_cases hij : i = j
  · subst hij
    cases a <;> cases b <;>
      simp [State.setLink, Store.linkOf, SectionRecord.withLink, SectionRecord.linkAt]
  · have hv : i.val ≠ j.val := fun h => hij (Fin.ext h)
    simp [State.setLink, Store.linkOf, hv, Ne.symm hij]

/-- The second store is the first but for the links of its section ends. -/
def Store.SameButLinks (g h : Store) : Prop :=
  h = { g with sections := h.sections } ∧
  ∀ i : Fin 32, h.sections[i] = { g.sections[i] with low := h.sections[i].low, high := h.sections[i].high }

theorem Store.SameButLinks.refl (g : Store) : g.SameButLinks g := ⟨rfl, fun _ => rfl⟩

theorem Store.SameButLinks.trans {g h k : Store} (a : g.SameButLinks h) (b : h.SameButLinks k) :
    g.SameButLinks k := by
  refine ⟨?_, fun i => ?_⟩
  · rw [b.1, a.1]
  · rw [b.2 i, a.2 i]

/-- A link written changes nothing of the store but a link. -/
theorem State.setLink_sameButLinks (s : State) (e : EndRef) (l : Link) :
    s.store.SameButLinks (s.setLink e l).store := by
  refine ⟨rfl, fun i => ?_⟩
  obtain ⟨j, a⟩ := e
  by_cases hij : j.val = i.val <;> cases a <;> simp [State.setLink, SectionRecord.withLink, hij]

/-- A link written changes nothing of the state but the store. -/
theorem State.setLink_eq (s : State) (e : EndRef) (l : Link) :
    s.setLink e l = { s with store := (s.setLink e l).store } := rfl

end Sys2Proof.Machine
end

