-- ==== Sys2Proof/Proofs/Joins.lean ====
section
/-!
SUPPORT. SEC.JOIN (R18, R19): settles O17.
-/
namespace Sys2Proof.Machine

/-- An end unlinked, and with it the end that it was linked to (R8, R19); a link to itself (R8 has none) is the
same end. -/
theorem State.linkOf_unlink (s : State) (e x : EndRef) (h : (s.store.linkOf e).isPoints = false) :
    (s.unlink e).store.linkOf x =
      if x = e ∨ s.store.linkOf e = .sec x.sec x.side then .none else s.store.linkOf x := by
  unfold State.unlink
  cases hl : s.store.linkOf e with
  | none =>
    by_cases hx : x = e
    · simp [hx, hl]
    · simp [hx]
  | sec target f =>
    have hx : (Link.sec target f = .sec x.sec x.side) ↔ x = ⟨target, f⟩ := by
      obtain ⟨j, b⟩ := x
      simp [eq_comm]
    simp only [State.linkOf_setLink, hx]
    by_cases h1 : x = e <;> by_cases h2 : x = ⟨target, f⟩ <;> simp [h1, h2]
  | points id role => simp [hl, Link.isPoints] at h

/-- An end unlinked changes nothing of the store but links. -/
theorem State.unlink_sameButLinks (s : State) (e : EndRef) : s.store.SameButLinks (s.unlink e).store := by
  unfold State.unlink
  split
  · exact (s.setLink_sameButLinks _ _).trans (State.setLink_sameButLinks _ _ _)
  · exact Store.SameButLinks.refl _

/-- An end unlinked changes nothing of the state but the store. -/
theorem State.unlink_eq (s : State) (e : EndRef) : s.unlink e = { s with store := (s.unlink e).store } := by
  unfold State.unlink
  split <;> rfl

/-- SEC.JOIN with two ends named (R18). -/
theorem ownSecJoin_eq {body : List Byte} {a b : EndRef} {s : State} {g : Store} (hg : s.store = g)
    (hk : fieldU body 2 1 = 1) (ha : endRefOf? body 0 = some a) (hb : endRefOf? body 3 = some b) :
    ownSecJoin body s =
      if a = b then (s, Answer.plain .outOfRange)
      else if g.sections[a.sec].state = .free ∨ g.sections[b.sec].state = .free then (s, Answer.plain .noSection)
      else if (g.linkOf a).isPoints ∨ (g.linkOf b).isPoints then (s, Answer.plain .inPoints)
      else if 0 < g.sections[a.sec].occupancy ∨ 0 < g.sections[b.sec].occupancy then (s, Answer.plain .occupied)
      else if (g.linkOf a ≠ .none ∧ g.linkOf a ≠ .sec b.sec b.side) ∨
          (g.linkOf b ≠ .none ∧ g.linkOf b ≠ .sec a.sec a.side) then (s, Answer.plain .linkConflict)
      else ((s.setLink a (.sec b.sec b.side)).setLink b (.sec a.sec a.side), Answer.plain .ok) := by
  subst hg
  simp [ownSecJoin, hk, ha, hb, Store.occupied]

/-- SEC.JOIN with NONE and an end named (R19). -/
theorem ownSecJoinNone_eq {body : List Byte} {a : EndRef} {s : State} {g : Store} (hg : s.store = g)
    (ha : endRefOf? body 0 = some a) : ownSecJoinNone body s =
      if g.sections[a.sec].state = .free then (s, Answer.plain .noSection)
      else if (g.linkOf a).isPoints then (s, Answer.plain .inPoints)
      else if 0 < g.sections[a.sec].occupancy ∨ g.partnerOccupied (g.linkOf a) then (s, Answer.plain .occupied)
      else (s.unlink a, Answer.plain .ok) := by
  subst hg
  simp [ownSecJoinNone, ha, Store.occupied]

/-- Two ends joined link to each other, and no other link changes (R18). -/
theorem State.joined_links (s : State) {a b : EndRef} (hab : a ≠ b) :
    let t := (s.setLink a (.sec b.sec b.side)).setLink b (.sec a.sec a.side)
    t.store.linkOf a = .sec b.sec b.side ∧ t.store.linkOf b = .sec a.sec a.side ∧
      ∀ e, e ≠ a → e ≠ b → t.store.linkOf e = s.store.linkOf e := by
  refine ⟨?_, ?_, fun e ha hb => ?_⟩
  · simp [State.linkOf_setLink, hab]
  · simp [State.linkOf_setLink]
  · simp [State.linkOf_setLink, ha, hb]

theorem secJoinLinksBothEnds : Claims.SecJoinLinksBothEnds := by
  intro s r a b hc hk hl ha1 ha2 hn hb1 hb2
  have own := ownSecJoin_eq s.popRequest_store hn (endRefOf?_eq_some ha1 ha2) (endRefOf?_eq_some hb1 hb2)
  have hf := lengthIs_of_eq hl
  have hm : (!joinsNone r.body) = true := by simp [joinsNone, hn]
  refine ⟨_, rfl, ?_⟩
  split_ifs at own ⊢ with hab
  case neg =>
    obtain ⟨answered, rest, store⟩ := State.serveAct_store (mine := fun body => !joinsNone body) hc hk hf hm own rfl
    obtain ⟨atA, atB, others⟩ := s.popRequest.joined_links hab
    have same := (s.popRequest.setLink_sameButLinks a (.sec b.sec b.side)).trans
      (State.setLink_sameButLinks _ b (.sec a.sec a.side))
    rw [← store] at atA atB others same
    exact ⟨answered, rest, same.1, atA, atB, others, same.2⟩
  all_goals exact State.onlyAnswers_of_owner hc hk hf hm own

theorem secJoinNoneUnlinksBothEnds : Claims.SecJoinNoneUnlinksBothEnds := by
  intro s r a hc hk hl ha1 ha2 hn
  have own := ownSecJoinNone_eq s.popRequest_store (endRefOf?_eq_some ha1 ha2)
  have hf := lengthIs_of_eq hl
  have hm : joinsNone r.body = true := by simp [joinsNone, hn]
  refine ⟨_, rfl, ?_⟩
  split_ifs at own ⊢ with _ hp
  case neg =>
    obtain ⟨answered, rest, store⟩ := State.serveAct_store hc hk hf hm own (State.unlink_eq _ _)
    have links := fun e => s.popRequest.linkOf_unlink a e (by simpa using hp)
    have same := s.popRequest.unlink_sameButLinks a
    rw [← store] at links same
    exact ⟨answered, rest, same.1, links, same.2⟩
  all_goals exact State.onlyAnswers_of_owner hc hk hf hm own

/-- Settles O17: each SEC.JOIN row from its owner's equation, with what the written links leave at each end. -/
theorem joinsKeepBothEndsAlike : Obligations.JoinsKeepBothEndsAlike :=
  ⟨secJoinLinksBothEnds, secJoinNoneUnlinksBothEnds⟩

end Sys2Proof.Machine
end

