-- ==== Sys2Proof/Proofs/Sections.lean ====
section
/-!
SUPPORT. SEC.OPEN and SEC.DROP (R10, R11, R20): settles O18.
-/
namespace Sys2Proof.Machine

/-! ## SEC.OPEN (R10, R11) -/

/-- The ranges that SEC.OPEN asks for (R10). -/
def OpenInRange (length clearance : Nat) : Prop :=
  3000 ≤ length ∧ length ≤ 16000000 ∧ 500 ≤ clearance ∧ clearance ≤ 6000

/-- SEC.OPEN with no section named, or a field outside its range (R10). -/
theorem ownSecOpen_outOfRange {body : List Byte} (s : State)
    (h : fieldU body 0 1 = 0 ∨ 32 < fieldU body 0 1 ∨ ¬OpenInRange (fieldU body 1 3) (fieldU body 4 2)) :
    ownSecOpen body s = (s, Answer.plain .outOfRange) := by
  unfold OpenInRange at h
  unfold ownSecOpen
  rcases or_assoc.2 h with h | h
  · rw [sectionOf?_eq_none h]
  · cases sectionOf? (fieldU body 0 1) with
    | none => rfl
    | some i => exact if_pos (by omega)

/-- SEC.OPEN with a section named and fields in their ranges (R10, R11). -/
theorem ownSecOpen_eq {body : List Byte} {i : Fin 32} {s : State} {g : Store} (hg : s.store = g)
    (hi : fieldU body 0 1 = i.val + 1) (h : OpenInRange (fieldU body 1 3) (fieldU body 4 2)) :
    ownSecOpen body s =
      match g.sections[i].state with
      | .loading | .checking => (s, Answer.plain .badState)
      | .free => (s.openFree i (fieldU body 1 3) (fieldU body 4 2), ⟨.ok, be 2 g.freePool⟩)
      | .ready =>
        if 0 < g.sections[i].occupancy then (s, Answer.plain .occupied)
        else (s.reopen i (fieldU body 1 3) (fieldU body 4 2),
          ⟨.ok, be 2 (g.freePool + g.sections[i].elements.length)⟩) := by
  subst hg
  obtain ⟨h1, h2, h3, h4⟩ := h
  have hr : ¬(fieldU body 1 3 < 3000 ∨ 16000000 < fieldU body 1 3 ∨ fieldU body 4 2 < 500 ∨
      6000 < fieldU body 4 2) := by omega
  simp only [ownSecOpen, hi, sectionOf?_id, if_neg hr]
  cases s.store.sections[i].state <;> simp [Store.occupied, State.openFree, State.reopen, State.poolField]

theorem secOpenPreparesASection : Claims.SecOpenPreparesASection := by
  intro s r hc hk hl
  have hf := lengthIs_of_eq hl
  refine ⟨_, rfl, fun h => State.onlyAnswers_of_owner hc hk hf rfl (ownSecOpen_outOfRange _ h), fun i hi hr => ?_⟩
  have own := ownSecOpen_eq s.popRequest_store hi hr
  cases hs : s.store.sections[i].state <;> rw [hs] at own
  case loading | checking => exact State.onlyAnswers_of_owner hc hk hf rfl own
  case free =>
    obtain ⟨answered, rest, store⟩ := State.serveAct_store (mine := anyBody) hc hk hf rfl own rfl
    exact ⟨answered, by rw [rest, store]; rfl⟩
  case ready =>
    dsimp only at own ⊢
    split_ifs at own ⊢
    · exact State.onlyAnswers_of_owner hc hk hf rfl own
    · obtain ⟨answered, rest, store⟩ := State.serveAct_store (mine := anyBody) hc hk hf rfl own rfl
      exact ⟨answered, by rw [rest, store]; rfl⟩

/-! ## SEC.DROP (R20) -/

/-- SEC.DROP with a section named (R20). -/
theorem ownSecDrop_eq {body : List Byte} {i : Fin 32} {s : State} {g : Store} (hg : s.store = g)
    (hi : fieldU body 0 1 = i.val + 1) : ownSecDrop body s =
      if g.sections[i].state = .free then (s, Answer.plain .noSection)
      else if g.sections[i].low.isPoints ∨ g.sections[i].high.isPoints then (s, Answer.plain .inPoints)
      else if 0 < g.sections[i].occupancy ∨ g.partnerOccupied g.sections[i].low ∨
          g.partnerOccupied g.sections[i].high then (s, Answer.plain .occupied)
      else (s.dropSection i, ⟨.ok, (s.dropSection i).poolField⟩) := by
  subst hg
  simp [ownSecDrop, hi, Store.occupied]

/-- Both ends of a section unlinked. -/
def State.unlinkBoth (s : State) (i : Fin 32) : State := (s.unlink ⟨i, .low⟩).unlink ⟨i, .high⟩

/-- Both ends of a section unlinked changes nothing of the store but links. -/
theorem State.unlinkBoth_sameButLinks (s : State) (i : Fin 32) :
    s.store.SameButLinks (s.unlinkBoth i).store :=
  (s.unlink_sameButLinks _).trans (State.unlink_sameButLinks _ _)

/-- Both ends of a section unlinked changes nothing of the state but the store. -/
theorem State.unlinkBoth_eq (s : State) (i : Fin 32) :
    s.unlinkBoth i = { s with store := (s.unlinkBoth i).store } := by
  unfold State.unlinkBoth
  rw [State.unlink_eq, s.unlink_eq]

/-- An end of a section is linked to an end. -/
def Store.LinkedTo (g : Store) (i : Fin 32) (e : EndRef) : Prop :=
  g.linkOf ⟨i, .low⟩ = .sec e.sec e.side ∨ g.linkOf ⟨i, .high⟩ = .sec e.sec e.side

/-- What both ends of a section unlinked leave at each end, the low end first. -/
theorem State.linkOf_unlinkBoth_eq (s : State) (i : Fin 32) (hl : (s.store.linkOf ⟨i, .low⟩).isPoints = false)
    (hh : (s.store.linkOf ⟨i, .high⟩).isPoints = false) (e : EndRef) : (s.unlinkBoth i).store.linkOf e =
      if e = ⟨i, .high⟩ ∨
          (s.store.linkOf ⟨i, .low⟩ ≠ .sec i .high ∧ s.store.linkOf ⟨i, .high⟩ = .sec e.sec e.side) then .none
      else if e = ⟨i, .low⟩ ∨ s.store.linkOf ⟨i, .low⟩ = .sec e.sec e.side then .none
      else s.store.linkOf e := by
  have high : (s.unlink ⟨i, .low⟩).store.linkOf ⟨i, .high⟩ =
      if s.store.linkOf ⟨i, .low⟩ = .sec i .high then .none else s.store.linkOf ⟨i, .high⟩ := by
    rw [s.linkOf_unlink _ _ hl]
    simp
  have bare : ((s.unlink ⟨i, .low⟩).store.linkOf ⟨i, .high⟩).isPoints = false := by
    rw [high]
    split_ifs
    · rfl
    · exact hh
  unfold State.unlinkBoth
  rw [State.linkOf_unlink _ _ _ bare, high, s.linkOf_unlink _ _ hl]
  by_cases hx : s.store.linkOf ⟨i, .low⟩ = .sec i .high <;> simp [hx]

/-- Both ends of a section unlinked: they are NONE, and so are the ends they were linked to; other links stay (R20). -/
theorem State.linkOf_unlinkBoth (s : State) (i : Fin 32) (hl : (s.store.linkOf ⟨i, .low⟩).isPoints = false)
    (hh : (s.store.linkOf ⟨i, .high⟩).isPoints = false)
    (loop : s.store.linkOf ⟨i, .low⟩ = .sec i .high → s.store.linkOf ⟨i, .high⟩ = .sec i .low) (e : EndRef) :
    ((e.sec = i ∨ s.store.LinkedTo i e) → (s.unlinkBoth i).store.linkOf e = .none) ∧
      (e.sec ≠ i → ¬s.store.LinkedTo i e → (s.unlinkBoth i).store.linkOf e = s.store.linkOf e) := by
  rw [s.linkOf_unlinkBoth_eq i hl hh]
  obtain ⟨j, side⟩ := e
  unfold Store.LinkedTo
  refine ⟨fun h => ?_, fun hj h => ?_⟩
  · rcases h with rfl | h | h
    · cases side <;> simp
    · simp [h]
    · by_cases hx : s.store.linkOf ⟨i, .low⟩ = .sec i .high
      · obtain ⟨rfl, rfl⟩ : i = j ∧ SectionEnd.low = side := by simpa [loop hx] using h
        simp
      · simp [hx, h]
  · obtain ⟨notLow, notHigh⟩ := not_or.1 h
    dsimp only at hj notLow notHigh ⊢
    rw [if_neg (by simp [hj, notHigh]), if_neg (by simp [hj, notLow])]

/-- A section dropped (R20): the section is FREE and empty, its slots are back in the pool, and every other section is as
the unlinking of both ends leaves it. -/
theorem State.dropSection_store (s : State) (i : Fin 32) : (s.dropSection i).store =
    { s.store with
      freePool := s.store.freePool + s.store.sections[i].elements.length
      sections := changeAt (s.unlinkBoth i).store.sections i fun r =>
        { r with state := .free, length := 0, clearance := 0, elements := [], markers := [] } } := by
  obtain ⟨rest, sections⟩ := s.unlinkBoth_sameButLinks i
  have elements : (s.unlinkBoth i).store.sections[i].elements = s.store.sections[i].elements := by rw [sections i]
  show { (s.unlinkBoth i).store with
      freePool := (s.unlinkBoth i).store.freePool + (s.unlinkBoth i).store.sections[i].elements.length
      sections := changeAt (s.unlinkBoth i).store.sections i fun r =>
        { r with state := .free, length := 0, clearance := 0, elements := [], markers := [] } } = _
  rw [elements, rest]

/-- A section dropped changes nothing of the state but the store. -/
theorem State.dropSection_eq (s : State) (i : Fin 32) :
    s.dropSection i = { s with store := (s.dropSection i).store } := by
  show ({ (s.unlinkBoth i) with store := (s.dropSection i).store } : State) = _
  rw [s.unlinkBoth_eq i]

/-- The links after a section is dropped are those of the unlinking of both its ends. -/
theorem State.linkOf_dropSection (s : State) (i : Fin 32) (e : EndRef) :
    (s.dropSection i).store.linkOf e = (s.unlinkBoth i).store.linkOf e := by
  obtain ⟨j, side⟩ := e
  rw [State.dropSection_store]
  by_cases hij : i.val = j.val <;> cases side <;> simp [Store.linkOf, SectionRecord.linkAt, hij]

/-- A section dropped is a FREE section but for its occupancy count (R20). -/
theorem State.dropSection_dropped (s : State) (i : Fin 32) (hl : (s.store.linkOf ⟨i, .low⟩).isPoints = false)
    (hh : (s.store.linkOf ⟨i, .high⟩).isPoints = false) : (s.dropSection i).store.sections[i] =
      { SectionRecord.initial with occupancy := s.store.sections[i].occupancy } := by
  have low : (s.unlinkBoth i).store.sections[i].low = .none := by
    show (s.unlinkBoth i).store.linkOf ⟨i, .low⟩ = _
    simp [s.linkOf_unlinkBoth_eq i hl hh]
  have high : (s.unlinkBoth i).store.sections[i].high = .none := by
    show (s.unlinkBoth i).store.linkOf ⟨i, .high⟩ = _
    simp [s.linkOf_unlinkBoth_eq i hl hh]
  obtain ⟨-, sections⟩ := s.unlinkBoth_sameButLinks i
  rw [State.dropSection_store]
  show (changeAt _ i _)[i] = _
  rw [changeAt_same, sections i, low, high]
  rfl

/-- Every other section than the one dropped changes by its links alone (R20). -/
theorem State.dropSection_others (s : State) {i j : Fin 32} (hj : j ≠ i) : (s.dropSection i).store.sections[j] =
    { s.store.sections[j] with low := (s.dropSection i).store.sections[j].low
                               high := (s.dropSection i).store.sections[j].high } := by
  have same : (s.dropSection i).store.sections[j] = (s.unlinkBoth i).store.sections[j] := by
    rw [State.dropSection_store]
    exact changeAt_other _ _ _ _ hj
  rw [same]
  exact (s.unlinkBoth_sameButLinks i).2 j

theorem secDropFreesTheSection : Claims.SecDropFreesTheSection := by
  intro s r i sound hc hk hl hi
  have own := ownSecDrop_eq s.popRequest_store hi
  have hf := lengthIs_of_eq hl
  refine ⟨_, rfl, ?_⟩
  dsimp only
  split_ifs at own ⊢ with _ hp
  case neg =>
    obtain ⟨notLow, notHigh⟩ : s.store.sections[i].low.isPoints = false ∧
        s.store.sections[i].high.isPoints = false := by simpa using hp
    have links := s.popRequest.linkOf_unlinkBoth i notLow notHigh (sound.links ⟨i, .low⟩ ⟨i, .high⟩)
    have dropped := s.popRequest.dropSection_dropped i notLow notHigh
    have others := fun j => s.popRequest.dropSection_others (i := i) (j := j)
    have whole := s.popRequest.dropSection_store i
    simp only [← State.linkOf_dropSection] at links
    rw [State.poolField, whole] at own
    obtain ⟨answered, rest, store⟩ :=
      State.serveAct_store (mine := anyBody) hc hk hf rfl own (State.dropSection_eq _ _)
    rw [← store] at links dropped others
    refine ⟨answered, rest, ?_, dropped, fun e he => ⟨fun h => (links e).1 (.inr h), (links e).2 he⟩, others⟩
    rw [store, whole]
    rfl
  all_goals exact State.onlyAnswers_of_owner hc hk hf rfl own

/-- Settles O18: SEC.OPEN from its owner's equation, SEC.DROP from what the unlinking of both ends leaves at each end. -/
theorem sectionsAreOpenedAndDropped : Obligations.SectionsAreOpenedAndDropped :=
  ⟨secOpenPreparesASection, secDropFreesTheSection⟩

end Sys2Proof.Machine
end

