-- ==== Sys2Proof/Proofs/Points.lean ====
section
/-!
SUPPORT. PTS.DEFINE, PTS.REMOVE and PTS.SET (R22 to R24): settles O19.
-/
namespace Sys2Proof.Machine

/-! ## The links of three member ends (R8) -/

/-- The links of the member ends of points written, each by its role. -/
def State.setMembers (s : State) (p : PointsRecord) (l : PointsRole → Link) : State :=
  ((s.setLink p.toe (l .toe)).setLink p.left (l .left)).setLink p.right (l .right)

theorem State.definePoints_eq (s : State) (i : Fin 16) (p : PointsRecord) (h : p.setting = .unknown) :
    s.definePoints i p.toe p.left p.right = (s.setPoints i (some p)).setMembers p (.points i) := by
  obtain ⟨toe, left, right, setting⟩ := p
  subst h
  rfl

theorem State.removePoints_eq (s : State) (i : Fin 16) (p : PointsRecord) :
    s.removePoints i p = (s.setPoints i none).setMembers p fun _ => .none := rfl

/-- Member links written change nothing of the store but links. -/
theorem State.setMembers_sameButLinks (s : State) (p : PointsRecord) (l : PointsRole → Link) :
    s.store.SameButLinks (s.setMembers p l).store :=
  ((s.setLink_sameButLinks _ _).trans (State.setLink_sameButLinks _ _ _)).trans (State.setLink_sameButLinks _ _ _)

/-- The three ends of a points record are different ends (R22). -/
def PointsRecord.Apart (p : PointsRecord) : Prop := p.toe ≠ p.left ∧ p.toe ≠ p.right ∧ p.left ≠ p.right

/-- Member links written leave every other end's link. -/
theorem State.linkOf_setMembers_other (s : State) (p : PointsRecord) (l : PointsRole → Link) (e : EndRef)
    (h : ∀ role, e ≠ p.member role) : (s.setMembers p l).store.linkOf e = s.store.linkOf e := by
  have toe : e ≠ p.toe := h .toe
  have left : e ≠ p.left := h .left
  have right : e ≠ p.right := h .right
  simp [State.setMembers, State.linkOf_setLink, toe, left, right]

/-- Member links written stand at their ends. -/
theorem State.linkOf_setMembers_member (s : State) (p : PointsRecord) (l : PointsRole → Link) (h : p.Apart)
    (role : PointsRole) : (s.setMembers p l).store.linkOf (p.member role) = l role := by
  obtain ⟨h1, h2, h3⟩ := h
  cases role <;> simp [State.setMembers, State.linkOf_setLink, PointsRecord.member, h1, h2, h3]

/-- Member links cleared are NONE at each member end. -/
theorem State.linkOf_clearMembers (s : State) (p : PointsRecord) (role : PointsRole) :
    (s.setMembers p fun _ => .none).store.linkOf (p.member role) = .none := by
  cases role <;> simp [State.setMembers, State.linkOf_setLink, PointsRecord.member]

/-! ## PTS.DEFINE (R22) -/

/-- Some member end of a points record meets a test. -/
theorem exists_member_iff (p : PointsRecord) (test : EndRef → Prop) :
    (∃ role ∈ allRoles, test (p.member role)) ↔ test p.toe ∨ test p.left ∨ test p.right := by
  simp [allRoles, PointsRecord.member]

/-- PTS.DEFINE with points and three ends named (R22). -/
theorem ownPtsDefine_eq {body : List Byte} {i : Fin 16} {p : PointsRecord} {s : State} {g : Store} (hg : s.store = g)
    (hi : fieldU body 0 1 = i.val + 1) (hp : p.setting = .unknown) (toe : endRefOf? body 1 = some p.toe)
    (left : endRefOf? body 3 = some p.left) (right : endRefOf? body 5 = some p.right) : ownPtsDefine body s =
      if p.toe = p.left ∨ p.toe = p.right ∨ p.left = p.right then (s, Answer.plain .outOfRange)
      else if g.points[i] ≠ none then (s, Answer.plain .badState)
      else if ∃ role ∈ allRoles, g.sections[(p.member role).sec].state = .free then (s, Answer.plain .noSection)
      else if ∃ role ∈ allRoles, 0 < g.sections[(p.member role).sec].occupancy then (s, Answer.plain .occupied)
      else if ∃ role ∈ allRoles, g.linkOf (p.member role) ≠ .none then (s, Answer.plain .linkConflict)
      else ((s.setPoints i (some p)).setMembers p (.points i), Answer.plain .ok) := by
  subst hg
  rw [← State.definePoints_eq _ _ _ hp]
  simp only [exists_member_iff p fun e => s.store.sections[e.sec].state = .free,
    exists_member_iff p fun e => 0 < s.store.sections[e.sec].occupancy,
    exists_member_iff p fun e => s.store.linkOf e ≠ .none]
  simp [ownPtsDefine, hi, toe, left, right, Store.occupied, Option.isSome_iff_ne_none]

theorem ptsDefineLinksItsMembers : Claims.PtsDefineLinksItsMembers := by
  intro s r i p hc hk hl hi hp toeSec toeSide leftSec leftSide rightSec rightSide
  have own := ownPtsDefine_eq s.popRequest_store hi hp (endRefOf?_eq_some toeSec toeSide)
    (endRefOf?_eq_some leftSec leftSide) (endRefOf?_eq_some rightSec rightSide)
  have hf := lengthIs_of_eq hl
  refine ⟨_, rfl, ?_⟩
  split_ifs at own ⊢ with ends
  case neg =>
    have apart : p.Apart := by simpa [PointsRecord.Apart, not_or] using ends
    obtain ⟨answered, rest, store⟩ := State.serveAct_store (mine := anyBody) hc hk hf rfl own rfl
    have atMembers := (s.popRequest.setPoints i (some p)).linkOf_setMembers_member p (.points i) apart
    have others := (s.popRequest.setPoints i (some p)).linkOf_setMembers_other p (.points i)
    have same := (s.popRequest.setPoints i (some p)).setMembers_sameButLinks p (.points i)
    rw [← store] at atMembers others same
    exact ⟨answered, rest, same.1, atMembers, others, same.2⟩
  all_goals exact State.onlyAnswers_of_owner hc hk hf rfl own

/-! ## PTS.REMOVE (R23) -/

/-- PTS.REMOVE with points named (R23). -/
theorem ownPtsRemove_eq {body : List Byte} {i : Fin 16} {s : State} {g : Store} (hg : s.store = g)
    (hi : fieldU body 0 1 = i.val + 1) : ownPtsRemove body s =
      match g.points[i] with
      | none => (s, Answer.plain .badState)
      | some p =>
        if ∃ role ∈ allRoles, 0 < g.sections[(p.member role).sec].occupancy then (s, Answer.plain .occupied)
        else ((s.setPoints i none).setMembers p fun _ => .none, Answer.plain .ok) := by
  subst hg
  simp only [ownPtsRemove, hi, pointsOf?_id]
  cases s.store.points[i] with
  | none => rfl
  | some p =>
    simp only [exists_member_iff p fun e => 0 < s.store.sections[e.sec].occupancy]
    simp [Store.occupied, State.removePoints_eq]

theorem ptsRemoveUnlinksItsMembers : Claims.PtsRemoveUnlinksItsMembers := by
  intro s r i hc hk hl hi
  have own := ownPtsRemove_eq s.popRequest_store hi
  have hf := lengthIs_of_eq hl
  refine ⟨_, rfl, ?_⟩
  cases hp : s.store.points[i] with
  | none =>
    rw [hp] at own
    exact State.onlyAnswers_of_owner hc hk hf rfl own
  | some p =>
    rw [hp] at own
    dsimp only at own ⊢
    split_ifs at own ⊢
    · exact State.onlyAnswers_of_owner hc hk hf rfl own
    · obtain ⟨answered, rest, store⟩ := State.serveAct_store (mine := anyBody) hc hk hf rfl own rfl
      have atMembers := (s.popRequest.setPoints i none).linkOf_clearMembers p
      have others := (s.popRequest.setPoints i none).linkOf_setMembers_other p fun _ => .none
      have same := (s.popRequest.setPoints i none).setMembers_sameButLinks p fun _ => .none
      rw [← store] at atMembers others same
      exact ⟨answered, rest, same.1, atMembers, others, same.2⟩

/-! ## PTS.SET (R24) -/

/-- PTS.SET with points and a setting named (R24). -/
theorem ownPtsSet_eq {body : List Byte} {i : Fin 16} {setting : Setting} {s : State} {g : Store} (hg : s.store = g)
    (hi : fieldU body 0 1 = i.val + 1) (hs : fieldU body 1 1 = setting.code) : ownPtsSet body s =
      match g.points[i] with
      | none => (s, Answer.plain .badState)
      | some p =>
        if p.setting = setting then (s, Answer.plain .ok)
        else ((s.setPoints i (some { p with setting := setting })).handOver ⟨i, p.setting, setting⟩,
          Answer.plain .ok) := by
  subst hg
  simp only [ownPtsSet, hi, hs, pointsOf?_id, settingOf?_code] <;> rfl

theorem ptsSetHandsTheChangeOver : Claims.PtsSetHandsTheChangeOver := by
  intro s r i setting hc hk hl hi hs
  have own := ownPtsSet_eq s.popRequest_store hi hs
  have hf := lengthIs_of_eq hl
  refine ⟨_, rfl, ?_⟩
  cases hp : s.store.points[i] with
  | none =>
    rw [hp] at own
    exact State.onlyAnswers_of_owner hc hk hf rfl own
  | some p =>
    rw [hp] at own
    dsimp only at own ⊢
    split_ifs at own ⊢
    · exact State.onlyAnswers_of_owner hc hk hf rfl own
    · obtain ⟨answered, rest, store⟩ := State.serveAct_store (mine := anyBody) hc hk hf rfl own rfl
      exact ⟨answered, by rw [rest, store]; rfl⟩

/-- Settles O19: each PTS.* row from its owner's equation, with what the member links leave at each end. -/
theorem pointsRequestsWriteTheRecord : Obligations.PointsRequestsWriteTheRecord :=
  ⟨ptsDefineLinksItsMembers, ptsRemoveUnlinksItsMembers, ptsSetHandsTheChangeOver⟩

end Sys2Proof.Machine
end

