-- ==== Sys2Proof/Proofs/Configuration.lean ====
section
/-!
SUPPORT. Which commands change which part of the configuration: settles O5. An operation that leaves the configuration
alone is invisible to `Keeps`, and each such operation says so once, as an equivalence that simp peels off.
-/
namespace Sys2Proof.Machine

/-! ## The parts of the configuration -/

/-- The parts of the configuration: the nine records that requests write, what a READY section holds, and the geometry
store but for its occupancy counts and the changes handed over. -/
inductive ConfigPart where
  | vehicle
  | stages
  | periods
  | laws
  | modes
  | criteria
  | snapshotMode
  | permit
  | points
  | readySections
  | geometry

/-- The commands that a part of the configuration is changed by, outside resets (R26, R27, R93, R101, R110, R155, R170,
R171, R177). -/
def ConfigPart.owners : ConfigPart → List Instr
  | .vehicle => [.vehSet]
  | .stages => [.stgSet]
  | .periods => [.perSet]
  | .laws => [.lawSet]
  | .modes => [.cndEnable]
  | .criteria => [.cndCriteria]
  | .snapshotMode => [.cntModeAuto, .cntModeManual]
  | .permit => [.permitSetOn, .permitSetOff]
  | .points => [.ptsDefine, .ptsRemove, .ptsSet]
  | .readySections => [.secOpen, .secDrop]
  | .geometry =>
    [.secOpen, .secPut, .secMark, .secClose, .closeCheckComplete, .secJoin, .secJoinNone, .secDrop, .ptsDefine,
      .ptsRemove, .ptsSet]

/-- A section record holds the geometry that another holds (R26). -/
def SectionRecord.HoldsSame (r q : SectionRecord) : Prop :=
  q.length = r.length ∧ q.clearance = r.clearance ∧ q.elements = r.elements ∧ q.markers = r.markers

/-- The second store is the first but for the occupancy counts (R69) and the changes handed over (R24). -/
def Store.SameGeometry (g h : Store) : Prop :=
  h.freePool = g.freePool ∧ h.points = g.points ∧
    ∀ i : Fin 32, h.sections[i] = { g.sections[i] with occupancy := h.sections[i].occupancy }

/-- From `s` to `t` a part of the configuration stays as it is. -/
def Keeps (p : ConfigPart) (s t : State) : Prop :=
  match p with
  | .vehicle => t.vehicle = s.vehicle
  | .stages => t.acquisition.stages = s.acquisition.stages
  | .periods => t.acquisition.periods = s.acquisition.periods
  | .laws => t.computation.laws = s.computation.laws
  | .modes => ∀ i : Fin 48, t.monitor.conditions[i].mode = s.monitor.conditions[i].mode
  | .criteria => t.monitor.criteria = s.monitor.criteria
  | .snapshotMode => t.monitor.auto = s.monitor.auto
  | .permit => t.channels.permit = s.channels.permit
  | .points => t.store.points = s.store.points
  | .readySections => ∀ i : Fin 32, s.store.sections[i].state = .ready →
      t.store.sections[i].state = .ready ∧ s.store.sections[i].HoldsSame t.store.sections[i]
  | .geometry => s.store.SameGeometry t.store

variable {p : ConfigPart} {s t u : State}

@[simp] theorem Keeps.refl (p : ConfigPart) (s : State) : Keeps p s s := by
  cases p <;> simp [Keeps, SectionRecord.HoldsSame, Store.SameGeometry]

theorem Keeps.trans (h : Keeps p s t) (k : Keeps p t u) : Keeps p s u := by
  cases p with
  | vehicle | stages | periods | laws | criteria | snapshotMode | permit | points => exact Eq.trans k h
  | modes => exact fun i => (k i).trans (h i)
  | readySections =>
    intro i ready
    obtain ⟨ready', length, clearance, elements, markers⟩ := h i ready
    obtain ⟨ready'', length', clearance', elements', markers'⟩ := k i ready'
    exact ⟨ready'', length'.trans length, clearance'.trans clearance, elements'.trans elements, markers'.trans markers⟩
  | geometry =>
    obtain ⟨pool, points, sections⟩ := h
    obtain ⟨pool', points', sections'⟩ := k
    refine ⟨pool'.trans pool, points'.trans points, fun i => ?_⟩
    rw [sections' i, sections i]

/-! ## What each operation of the monitor leaves of its settings -/

@[simp] theorem State.report_mode (s : State) (i : Fin 48) (v : Bool) (j : Nat) (h : j < 48) :
    (s.report i v).monitor.conditions[j].mode = s.monitor.conditions[j].mode := by
  have := s.report_condition i ⟨j, h⟩ v
  simp only [Fin.getElem_fin] at this
  rw [this]
  split_ifs with hij
  · subst hij; rfl
  · rfl

@[simp] theorem State.report_criteria (s : State) (i : Fin 48) (v : Bool) :
    (s.report i v).monitor.criteria = s.monitor.criteria := by rw [State.report_monitor]

@[simp] theorem State.report_auto (s : State) (i : Fin 48) (v : Bool) :
    (s.report i v).monitor.auto = s.monitor.auto := by rw [State.report_monitor]

/-! ## Operations that leave the configuration alone -/

@[simp] theorem keeps_reach (n : Nat) : Keeps p s (t.reach n) ↔ Keeps p s t := by
  cases p <;> simp [Keeps]

@[simp] theorem keeps_notify (n : Notice) : Keeps p s (t.notify n) ↔ Keeps p s t := by
  cases p <;> simp [Keeps]

@[simp] theorem keeps_report (i : Fin 48) (v : Bool) : Keeps p s (t.report i v) ↔ Keeps p s t := by
  cases p <;> simp [Keeps]

@[simp] theorem keeps_reportIf (i : Fin 48) (v : Option Bool) : Keeps p s (t.reportIf i v) ↔ Keeps p s t := by
  cases v <;> simp [State.reportIf]

@[simp] theorem keeps_setLive (l : CounterSet) : Keeps p s (t.setLive l) ↔ Keeps p s t := by
  cases p <;> simp [Keeps]

@[simp] theorem keeps_count (k : Fin 52) : Keeps p s (t.count k) ↔ Keeps p s t := by
  unfold State.count
  dsimp only
  split <;> [split; skip] <;> simp

@[simp] theorem keeps_countIf (b : Bool) (k : Fin 52) : Keeps p s (t.countIf b k) ↔ Keeps p s t := by
  cases b <;> simp [State.countIf]

@[simp] theorem keeps_offerPeak (k : Fin 16) (n : Nat) : Keeps p s (t.offerPeak k n) ↔ Keeps p s t := by
  simp [State.offerPeak]

@[simp] theorem keeps_snapshot (c : SnapshotCause) : Keeps p s (t.snapshot c) ↔ Keeps p s t := by
  cases p <;> simp [Keeps, State.snapshot]

@[simp] theorem keeps_queueReply (r : Frame) (a : Answer) (b : Bool) :
    Keeps p s (t.queueReply r a b) ↔ Keeps p s t := by
  cases p <;> simp [Keeps]

@[simp] theorem keeps_popRequest : Keeps p s t.popRequest ↔ Keeps p s t := by
  cases p <;> simp [Keeps]

@[simp] theorem keeps_of_popRequest : Keeps p s.popRequest t ↔ Keeps p s t := by
  cases p <;> simp [Keeps]

@[simp] theorem keeps_changeLink (f : LinkState → LinkState) : Keeps p s (t.changeLink f) ↔ Keeps p s t := by
  cases p <;> simp [Keeps]

@[simp] theorem keeps_setLines (c : Fin 8) (f : DriveLines → DriveLines) :
    Keeps p s (t.setLines c f) ↔ Keeps p s t := by
  cases p <;> simp [Keeps]

@[simp] theorem keeps_setTracker (f : Tracker → Tracker) : Keeps p s (t.setTracker f) ↔ Keeps p s t := by
  cases p <;> simp [Keeps]

@[simp] theorem keeps_setChannel (c : Fin 8) (f : Channel → Channel) :
    Keeps p s (t.setChannel c f) ↔ Keeps p s t := by
  cases p <;> simp [Keeps]

@[simp] theorem keeps_setRecord (c : Fin 8) (f : ComputationRecord → ComputationRecord) :
    Keeps p s (t.setRecord c f) ↔ Keeps p s t := by
  cases p <;> simp [Keeps]

@[simp] theorem keeps_notifyChannel (c : Fin 8) (b : ChannelState) (e : ChannelEvent) :
    Keeps p s (t.notifyChannel c b e) ↔ Keeps p s t := by
  simp [State.notifyChannel]

/-- A change of the computation unit that leaves the law records. -/
theorem keeps_setComputation {f : Computation → Computation} (h : ∀ k, (f k).laws = k.laws) :
    Keeps p s (t.setComputation f) ↔ Keeps p s t := by
  cases p <;> simp [Keeps, h]

/-- A change of the acquisition unit that leaves the stage table and the periods. -/
theorem keeps_setAcquisition {f : Acquisition → Acquisition} (h : ∀ k, (f k).stages = k.stages)
    (h' : ∀ k, (f k).periods = k.periods) : Keeps p s (t.setAcquisition f) ↔ Keeps p s t := by
  cases p <;> simp [Keeps, h, h']

@[simp] theorem keeps_startTimer (b : Fin 4) : Keeps p s (t.startTimer b) ↔ Keeps p s t :=
  keeps_setAcquisition (fun _ => rfl) fun _ => rfl

@[simp] theorem keeps_stopTimer (b : Fin 4) : Keeps p s (t.stopTimer b) ↔ Keeps p s t :=
  keeps_setAcquisition (fun _ => rfl) fun _ => rfl

/-- A path put in force changes the occupancy counts alone (R69). -/
theorem Store.recount_section (g : Store) (l : List PathEntry) (i : Fin 32) :
    (g.recount l).sections[i] = { g.sections[i] with occupancy := namedBy l i } := by
  simp [Store.recount]

@[simp] theorem Store.recount_freePool (g : Store) (l : List PathEntry) : (g.recount l).freePool = g.freePool := by
  simp only [Store.recount]
@[simp] theorem Store.recount_points (g : Store) (l : List PathEntry) : (g.recount l).points = g.points := by
  simp only [Store.recount]

/-- The occupancy counts, which no part of the configuration holds, do not show in the geometry. -/
theorem Store.sameGeometry_recount (g h : Store) (l : List PathEntry) :
    g.SameGeometry (h.recount l) ↔ g.SameGeometry h := by
  simp only [Store.SameGeometry, Store.recount_freePool, Store.recount_points, Store.recount_section]
  refine and_congr_right' (and_congr_right' (forall_congr' fun i => ?_))
  cases h.sections[i]
  cases g.sections[i]
  simp

@[simp] theorem keeps_setPath (l : List PathEntry) : Keeps p s (t.setPath l) ↔ Keeps p s t := by
  cases p with
  | readySections => simp only [Keeps, State.setPath_store, Store.recount_section, SectionRecord.HoldsSame]
  | geometry => simp only [Keeps, State.setPath_store, Store.sameGeometry_recount]
  | _ => simp [Keeps, Store.recount]

/-! ## Moves of the channels -/

@[simp] theorem keeps_enterFault (c : Fin 8) (k : FaultCause) : Keeps p s (t.enterFault c k) ↔ Keeps p s t := by
  simp [State.enterFault]

@[simp] theorem keeps_enterLocking (c : Fin 8) (e : ChannelEvent) :
    Keeps p s (t.enterLocking c e) ↔ Keeps p s t := by
  simp [State.enterLocking]

@[simp] theorem keeps_enterLocked (c : Fin 8) (e : ChannelEvent) : Keeps p s (t.enterLocked c e) ↔ Keeps p s t := by
  simp [State.enterLocked]

@[simp] theorem keeps_enterSteering (c : Fin 8) : Keeps p s (t.enterSteering c) ↔ Keeps p s t := by
  simp [State.enterSteering]

@[simp] theorem keeps_enterReturning (c : Fin 8) (e : ChannelEvent) :
    Keeps p s (t.enterReturning c e) ↔ Keeps p s t := by
  simp [State.enterReturning]

@[simp] theorem keeps_settleOnce (c : Fin 8) : Keeps p s (t.settleOnce c) ↔ Keeps p s t := by
  rcases t.settleOnce_cases c with ⟨-, -, h⟩ | ⟨-, -, -, h⟩ | ⟨-, -, h⟩ | ⟨-, -, -, h⟩ | h <;> simp [h]

@[simp] theorem keeps_settle (c : Fin 8) : Keeps p s (t.settle c) ↔ Keeps p s t := by
  simp [State.settle]

@[simp] theorem keeps_bringBack (e : ChannelEvent) (c : Fin 8) : Keeps p s (t.bringBack e c) ↔ Keeps p s t := by
  unfold State.bringBack
  split <;> simp

/-! ## The path and the tracker -/

@[simp] theorem keeps_judgeMoved : Keeps p s t.judgeMoved ↔ Keeps p s t := by
  simp [State.judgeMoved]

@[simp] theorem keeps_judgePath (reached full : Bool) : Keeps p s (t.judgePath reached full) ↔ Keeps p s t := by
  simp [State.judgePath]

@[simp] theorem keeps_publish : Keeps p s t.publish ↔ Keeps p s t := by
  simp [State.publish]

@[simp] theorem keeps_notifyPosition (c : PositionCause) : Keeps p s (t.notifyPosition c) ↔ Keeps p s t := by
  simp [State.notifyPosition]

@[simp] theorem keeps_tickLost : Keeps p s t.tickLost ↔ Keeps p s t := by
  simp [State.tickLost, State.clearPath]

@[simp] theorem keeps_tickOn (v : VehicleRecord) (m : Bool) (d : Nat) (k : Course) :
    Keeps p s (t.tickOn v m d k) ↔ Keeps p s t := by
  unfold State.tickOn
  dsimp only
  split <;> simp

@[simp] theorem keeps_doTick : Keeps p s t.doTick ↔ Keeps p s t := by
  unfold State.doTick
  dsimp only
  split
  · simp
  · split <;> simp

@[simp] theorem keeps_locate (v : VehicleRecord) (k : Course) : Keeps p s (t.locate v k) ↔ Keeps p s t := by
  simp [State.locate]

@[simp] theorem keeps_wheelEdge (w : Fin 16) (e : Edge) (b : Bool) :
    Keeps p s (t.wheelEdge w e b) ↔ Keeps p s t := by
  unfold State.wheelEdge
  split <;> simp

@[simp] theorem keeps_debounceOver (w : Debounce) : Keeps p s (t.debounceOver w) ↔ Keeps p s t := by
  unfold State.debounceOver
  split
  · rfl
  · split <;> simp

@[simp] theorem keeps_resolveMarker : Keeps p s t.resolveMarker ↔ Keeps p s t := by
  unfold State.resolveMarker State.markerMatch State.markerMiss
  dsimp only
  split
  · rfl
  · split
    · simp
    · split <;> simp

/-- A points change applied to the path (R86 to R88). -/
@[simp] theorem keeps_applyChange (c : PointsChange) (r : PointsRecord) (l : Location) :
    Keeps p s (t.applyChange c r l) ↔ Keeps p s t := by
  have tracked : ∀ k : Tracker, Keeps p s { t with tracker := k } ↔ Keeps p s t :=
    fun k => keeps_setTracker fun _ => k
  unfold State.applyChange
  dsimp only
  split <;> simp [tracked]

@[simp] theorem keeps_takeChange : Keeps p s t.takeChange ↔ Keeps p s t := by
  have taken : ∀ l : List PointsChange, Keeps p s { t with store := { t.store with changes := l } } ↔ Keeps p s t := by
    intro l
    cases p <;> rfl
  unfold State.takeChange
  split
  · rfl
  · dsimp only
    split <;> simp [taken]

/-! ## Scans and passes -/

@[simp] theorem keeps_takeScan : Keeps p s t.takeScan ↔ Keeps p s t := by
  unfold State.takeScan
  split
  · exact keeps_setAcquisition (fun _ => rfl) fun _ => rfl
  · rfl

@[simp] theorem keeps_startPass : Keeps p s t.startPass ↔ Keeps p s t := by
  unfold State.startPass
  split
  · simp [keeps_setComputation]
  · rfl

@[simp] theorem keeps_supervise (c : Fin 8) (law : LawRecord) (x : Sample) (taken : Option LaneResult) :
    Keeps p s (t.supervise c law x taken) ↔ Keeps p s t := by
  unfold State.supervise
  dsimp only
  cases comparison t.channels.bank[c] x <;> simp only [keeps_offerPeak, keeps_countIf, keeps_report]
  all_goals
    split
    · simp
    · split
      · split <;> simp
      · simp

@[simp] theorem keeps_finishLane (e : LaneEnd) : Keeps p s (t.finishLane e) ↔ Keeps p s t := by
  simp [State.finishLane]

@[simp] theorem keeps_reportLane (k : Criteria) (e : LaneEnd) : Keeps p s (t.reportLane k e) ↔ Keeps p s t := by
  unfold State.reportLane
  dsimp only
  cases e.taken with
  | none => dsimp only; split <;> simp <;> split <;> simp
  | some x => dsimp only; split <;> simp

@[simp] theorem keeps_setYaw (b : Fin 4) (r : YawRecord) : Keeps p s (t.setYaw b r) ↔ Keeps p s t := by
  simp [State.setYaw, keeps_setComputation]

@[simp] theorem keeps_resetBogie (b : Fin 4) : Keeps p s (t.resetBogie b) ↔ Keeps p s t := by
  simp [State.resetBogie, State.resetLane]

@[simp] theorem keeps_completePass : Keeps p s t.completePass ↔ Keeps p s t := by
  unfold State.completePass
  split
  · rfl
  · simp only [keeps_startPass]
    split <;> simp [keeps_setComputation]

@[simp] theorem keeps_reschedule (b : Fin 4) : Keeps p s (t.reschedule b) ↔ Keeps p s t := by
  unfold State.reschedule State.unscheduled
  split
  · simp
  · split <;> simp [keeps_setComputation]
  · rfl

@[simp] theorem keeps_rescheduleOwner (b : Option (Fin 4)) : Keeps p s (t.rescheduleOwner b) ↔ Keeps p s t := by
  cases b <;> simp [State.rescheduleOwner]

@[simp] theorem keeps_periodExpiry (b : Fin 4) : Keeps p s (t.periodExpiry b) ↔ Keeps p s t := by
  unfold State.periodExpiry State.createScan State.overrun
  split
  · rfl
  · dsimp only
    split
    · simp only [keeps_takeScan]
      split <;> simp [keeps_setAcquisition]
    · simp [keeps_setAcquisition]

@[simp] theorem keeps_conversionEnd (raw : Nat) : Keeps p s (t.conversionEnd raw) ↔ Keeps p s t := by
  unfold State.conversionEnd
  split
  · rfl
  · dsimp only
    split <;> simp [keeps_setAcquisition, keeps_setComputation]

/-! ## The line and the supply -/

@[simp] theorem keeps_arrive (r : Frame) : Keeps p s (t.arrive r) ↔ Keeps p s t := by
  unfold State.arrive
  split
  · exact keeps_changeLink fun l => { l with requests := l.requests ++ [r] }
  · simp

@[simp] theorem keeps_checkFrame (covered : List Byte) (crc : BitVec 16) :
    Keeps p s (t.checkFrame covered crc) ↔ Keeps p s t := by
  unfold State.checkFrame
  split
  · rfl
  · split
    · simp
    · split <;> simp

@[simp] theorem keeps_takeByte (b : Byte) : Keeps p s (t.takeByte b) ↔ Keeps p s t := by
  have heard : ∀ (n : Nat) (l : LinkState), Keeps p s { t with clock := n, link := l } ↔ Keeps p s t := by
    intro n l
    cases p <;> rfl
  unfold State.takeByte
  split
  · rfl
  · dsimp only
    split <;> simp [State.completeFrame, heard]

@[simp] theorem keeps_beginFrame : Keeps p s t.beginFrame ↔ Keeps p s t := by
  unfold State.beginFrame
  split
  · split <;> simp
  · rfl

@[simp] theorem keeps_refuseKind : Keeps p s t.refuseKind ↔ Keeps p s t := by
  unfold State.refuseKind
  split
  · rfl
  · split <;> simp

@[simp] theorem keeps_beginStartUp : Keeps p s t.beginStartUp ↔ Keeps p s t := by
  unfold State.beginStartUp
  split
  · cases p <;> rfl
  · rfl
  · rfl

/-! ## Rows -/

/-- What a block does while the part runs keeps what it keeps. -/
theorem Keeps.whileRunning {f : State → State} (h : Keeps p s (f s)) : Keeps p s (s.whileRunning f) := by
  unfold State.whileRunning
  split
  · exact h
  · exact Keeps.refl p s

/-- A request row keeps what its owner keeps (R189). -/
theorem Keeps.serve {kind : Byte} {mine fits : List Byte → Bool} {owner : Frame → State → State}
    (h : ∀ r u, Keeps p u (owner r u)) : Keeps p s (s.serve kind mine fits owner) := by
  rcases State.serve_cases (s := s) (kind := kind) (mine := mine) (fits := fits) owner with e | ⟨r, -, -, ⟨-, -, e⟩ | ⟨-, e⟩⟩ <;>
    rw [e]
  · exact Keeps.refl p s
  · simpa using h r s.popRequest
  · simp

/-- A request row whose owner answers keeps what the owner's act keeps. -/
theorem Keeps.serveAct {kind : Byte} {mine fits : List Byte → Bool} {act : List Byte → State → State × Answer}
    (h : ∀ body u, Keeps p u (act body u).1) : Keeps p s (s.serveAct kind mine fits act) :=
  Keeps.serve fun r u => by simpa using h r.body u

/-! ## Owners that read alone -/

/-- An owner that reads: it answers and leaves the state as it is. -/
def ReadsOnly (act : List Byte → State → State × Answer) : Prop := ∀ body s, (act body s).1 = s

theorem ReadsOnly.keeps {act : List Byte → State → State × Answer} (h : ReadsOnly act) (body : List Byte)
    (u : State) : Keeps p u (act body u).1 := by
  rw [h]
  exact Keeps.refl p u

theorem readsOnly_secGet : ReadsOnly ownSecGet := by
  intro body s
  unfold ownSecGet
  dsimp only
  split
  · rfl
  · split
    · rfl
    · split <;> rfl

theorem readsOnly_vehGet : ReadsOnly ownVehGet := by
  intro body s
  unfold ownVehGet
  split <;> rfl

theorem readsOnly_lawGet : ReadsOnly ownLawGet := by
  intro body s
  unfold ownLawGet
  split <;> rfl

theorem readsOnly_stgGet : ReadsOnly ownStgGet := by
  intro body s
  unfold ownStgGet
  dsimp only
  split <;> rfl

theorem readsOnly_posGet : ReadsOnly ownPosGet := fun _ _ => rfl

theorem readsOnly_chGet : ReadsOnly ownChGet := by
  intro body s
  unfold ownChGet
  split
  · rfl
  · split <;> rfl

theorem readsOnly_cntGet : ReadsOnly ownCntGet := fun _ _ => rfl

/-! ## What the writing operations leave alone -/

theorem keeps_writeVehicle (h : p ≠ .vehicle) (v : Option VehicleRecord) :
    Keeps p s { t with vehicle := v } ↔ Keeps p s t := by
  cases p with
  | vehicle => exact absurd rfl h
  | _ => rfl

theorem keeps_writeStages (h : p ≠ .stages) {f : Acquisition → Acquisition} (hf : ∀ k, (f k).periods = k.periods) :
    Keeps p s (t.setAcquisition f) ↔ Keeps p s t := by
  cases p with
  | stages => exact absurd rfl h
  | periods => simp [Keeps, hf]
  | _ => rfl

theorem keeps_writePeriods (h : p ≠ .periods) {f : Acquisition → Acquisition} (hf : ∀ k, (f k).stages = k.stages) :
    Keeps p s (t.setAcquisition f) ↔ Keeps p s t := by
  cases p with
  | periods => exact absurd rfl h
  | stages => simp [Keeps, hf]
  | _ => rfl

theorem keeps_writeLaws (h : p ≠ .laws) (f : Computation → Computation) :
    Keeps p s (t.setComputation f) ↔ Keeps p s t := by
  cases p with
  | laws => exact absurd rfl h
  | _ => rfl

theorem keeps_setPermit (h : p ≠ .permit) (b : Bool) : Keeps p s (t.setPermit b) ↔ Keeps p s t := by
  cases p with
  | permit => exact absurd rfl h
  | _ => rfl

/-- A change of the monitor that leaves its settings but those of one part. -/
theorem Keeps.setMonitor (h : Keeps p s t) {f : Monitor → Monitor}
    (modes : p = .modes → ∀ (m : Monitor) (i : Fin 48), (f m).conditions[i].mode = m.conditions[i].mode)
    (criteria : p = .criteria → ∀ m, (f m).criteria = m.criteria)
    (auto : p = .snapshotMode → ∀ m, (f m).auto = m.auto) : Keeps p s (t.setMonitor f) := by
  cases p with
  | modes => exact fun i => (modes rfl t.monitor i).trans (h i)
  | criteria => exact (criteria rfl t.monitor).trans h
  | snapshotMode => exact (auto rfl t.monitor).trans h
  | _ => exact h

theorem keeps_setPool (h : p ≠ .geometry) (n : Nat) : Keeps p s (t.setPool n) ↔ Keeps p s t := by
  cases p with
  | geometry => exact absurd rfl h
  | _ => rfl

/-- A section that is not READY can change without a part but the geometry changing. -/
theorem keeps_setSection (h : p ≠ .geometry) {i : Fin 32} (f : SectionRecord → SectionRecord)
    (hr : p = .readySections → s.store.sections[i].state ≠ .ready) : Keeps p s (s.setSection i f) := by
  cases p with
  | geometry => exact absurd rfl h
  | readySections =>
    intro j ready
    have hij : j ≠ i := fun e => hr rfl (e ▸ ready)
    rw [State.setSection_store]
    exact (changeAt_other _ i j f hij).symm ▸ Keeps.refl .readySections s j ready
  | _ => simp [Keeps]

/-- Links change without a part but the geometry changing. -/
theorem keeps_of_sameButLinks (h : p ≠ .geometry) (he : t = { s with store := t.store })
    (same : s.store.SameButLinks t.store) : Keeps p s t := by
  obtain ⟨rest, sections⟩ := same
  rw [he]
  cases p with
  | geometry => exact absurd rfl h
  | points =>
    show t.store.points = s.store.points
    rw [rest]
  | readySections =>
    intro i ready
    show t.store.sections[i].state = .ready ∧ s.store.sections[i].HoldsSame t.store.sections[i]
    rw [sections i]
    exact ⟨ready, rfl, rfl, rfl, rfl⟩
  | _ => simp [Keeps]

/-- The points records change without a part but themselves and the geometry changing. -/
theorem keeps_setPoints (h : p ≠ .points) (h' : p ≠ .geometry) (i : Fin 16) (r : Option PointsRecord) :
    Keeps p s (t.setPoints i r) ↔ Keeps p s t := by
  cases p with
  | points => exact absurd rfl h
  | geometry => exact absurd rfl h'
  | _ => rfl

@[simp] theorem keeps_handOver (c : PointsChange) : Keeps p s (t.handOver c) ↔ Keeps p s t := by
  cases p <;> rfl

/-! ## Owners that act -/

/-- A fold of operations that a part does not see is an operation that it does not see. -/
theorem keeps_foldl {α : Type} {f : State → α → State} (h : ∀ u a, Keeps p s (f u a) ↔ Keeps p s u) (l : List α) :
    Keeps p s (l.foldl f t) ↔ Keeps p s t := by
  induction l generalizing t with
  | nil => rfl
  | cons a rest ih => rw [List.foldl_cons, ih, h]

theorem keeps_ownVehSet (h : p ≠ .vehicle) (body : List Byte) (u : State) : Keeps p u (ownVehSet body u).1 := by
  unfold ownVehSet State.setVehicle
  split
  · simp
  · split
    · simp
    · exact (keeps_foldl (fun _ b => keeps_reschedule b) _).2 ((keeps_writeVehicle h _).2 (Keeps.refl p u))

theorem keeps_ownLawSet (h : p ≠ .laws) (body : List Byte) (u : State) : Keeps p u (ownLawSet body u).1 := by
  unfold ownLawSet
  split
  · split <;> simp [keeps_writeLaws h]
  · simp

theorem keeps_ownStgSet (h : p ≠ .stages) (body : List Byte) (u : State) : Keeps p u (ownStgSet body u).1 := by
  have written : ∀ i e, Keeps p u (u.writeStage i e) := by
    intro i e
    simp only [State.writeStage, keeps_rescheduleOwner]
    exact (keeps_writeStages h fun _ => by rfl).2 (Keeps.refl p u)
  unfold ownStgSet State.stageAnswer
  split
  · split
    · simp
    · split
      · simp
      · split
        · simp
        · exact written _ _
  · simp

theorem keeps_ownPerSet (h : p ≠ .periods) (body : List Byte) (u : State) : Keeps p u (ownPerSet body u).1 := by
  have written : ∀ b n, Keeps p u (u.setPeriod b n) := by
    intro b n
    unfold State.setPeriod
    dsimp only
    split <;> simp [keeps_writePeriods h]
  unfold ownPerSet
  dsimp only
  split
  · simp
  · split
    · simp
    · split
      · simp
      · exact written _ _

theorem keeps_ownPosLocate (body : List Byte) (u : State) : Keeps p u (ownPosLocate body u).1 := by
  unfold ownPosLocate
  dsimp only
  split
  · split
    · simp
    · split
      · simp
      · split
        · simp
        · split
          · simp
          · split <;> simp
  · simp

/-- A CH.* request keeps what its act keeps (R147). -/
theorem keeps_channelRequest {reason : Option Reason} {act : State → State} (c : Fin 8) (u : State)
    (h : Keeps p u (act u)) : Keeps p u (channelRequest reason act c u).1 := by
  cases reason
  · exact h
  · exact Keeps.refl p u

theorem keeps_ownChUnlock (body : List Byte) (u : State) : Keeps p u (ownChUnlock body u).1 := by
  unfold ownChUnlock
  split
  · simp
  · split
    · simp
    · exact keeps_channelRequest _ u (by simp [State.unlock])

theorem keeps_ownChHold (body : List Byte) (u : State) : Keeps p u (ownChHold body u).1 := by
  unfold ownChHold
  split
  · simp
  · exact keeps_channelRequest _ u (by simp [State.hold])

theorem keeps_ownChResume (body : List Byte) (u : State) : Keeps p u (ownChResume body u).1 := by
  unfold ownChResume
  split
  · simp
  · exact keeps_channelRequest _ u (by simp [State.resume])

theorem keeps_ownChReturn (body : List Byte) (u : State) : Keeps p u (ownChReturn body u).1 := by
  unfold ownChReturn
  split
  · simp
  · exact keeps_channelRequest _ u (by simp)

theorem keeps_ownChClear (body : List Byte) (u : State) : Keeps p u (ownChClear body u).1 := by
  unfold ownChClear
  split
  · simp
  · exact keeps_channelRequest _ u (by simp [State.clearFault])

theorem keeps_ownPermitSetOn (h : p ≠ .permit) (body : List Byte) (u : State) :
    Keeps p u (ownPermitSetOn body u).1 := by
  unfold ownPermitSetOn
  split <;> simp [keeps_setPermit h]

theorem keeps_ownPermitSetOff (h : p ≠ .permit) (body : List Byte) (u : State) :
    Keeps p u (ownPermitSetOff body u).1 := by
  unfold ownPermitSetOff State.permitOff
  dsimp only
  split
  · exact (keeps_foldl (fun _ c => keeps_bringBack _ c) _).2 ((keeps_setPermit h _).2 (Keeps.refl p u))
  · simp

theorem keeps_clearLatches (u : State) : Keeps p u u.clearLatches := by
  refine (Keeps.refl p u).setMonitor (fun _ m i => ?_) (fun _ _ => ?_) fun _ _ => ?_
  · simp
  · rfl
  · rfl

theorem keeps_ownCndGet (r : Frame) (u : State) : Keeps p u (ownCndGet r u) :=
  Keeps.trans (by simp) (keeps_clearLatches _)

theorem keeps_setModes (h : p ≠ .modes) (u : State) (code channel : Nat) (mode : NoticeMode) :
    Keeps p u (u.setModes code channel mode) := by
  refine (Keeps.refl p u).setMonitor (absurd · h) (fun _ _ => ?_) fun _ _ => ?_
  · rfl
  · rfl

theorem keeps_ownCndEnable (h : p ≠ .modes) (body : List Byte) (u : State) : Keeps p u (ownCndEnable body u).1 := by
  unfold ownCndEnable
  dsimp only
  split
  · split
    · exact keeps_setModes h _ _ _ _
    · simp
  · simp

theorem keeps_ownCndCriteria (h : p ≠ .criteria) (body : List Byte) (u : State) :
    Keeps p u (ownCndCriteria body u).1 := by
  unfold ownCndCriteria
  split
  · simp
  · split
    · simp
    · refine (Keeps.refl p u).setMonitor (fun _ _ _ => ?_) (absurd · h) fun _ _ => ?_
      · rfl
      · rfl

theorem keeps_modeAuto (h : p ≠ .snapshotMode) (u : State) : Keeps p u u.modeAuto := by
  unfold State.modeAuto
  split
  · simp
  · refine (Keeps.refl p u).setMonitor (fun _ _ _ => ?_) (fun _ _ => ?_) (absurd · h)
    · rfl
    · rfl

theorem keeps_modeManual (h : p ≠ .snapshotMode) (u : State) : Keeps p u u.modeManual := by
  unfold State.modeManual
  split
  · refine (Keeps.refl p u).setMonitor (fun _ _ _ => ?_) (fun _ _ => ?_) (absurd · h)
    · rfl
    · rfl
  · simp

theorem keeps_ownCntModeManual (h : p ≠ .snapshotMode) (body : List Byte) (u : State) :
    Keeps p u (ownCntModeManual body u).1 := by
  unfold ownCntModeManual
  split
  · exact keeps_modeManual h u
  · simp

/-! ## Owners of the geometry store -/

theorem keeps_ownSecOpen (h : p ≠ .geometry) (h' : p ≠ .readySections) (body : List Byte) (u : State) :
    Keeps p u (ownSecOpen body u).1 := by
  unfold ownSecOpen State.openFree State.reopen
  dsimp only
  split
  · simp
  · split
    · simp
    · split
      · simp
      · simp
      · exact keeps_setSection h _ (absurd · h')
      · split
        · simp
        · exact ((keeps_setPool h _).2 (Keeps.refl p u)).trans (keeps_setSection h _ (absurd · h'))

theorem keeps_ownSecPut (h : p ≠ .geometry) (body : List Byte) (u : State) : Keeps p u (ownSecPut body u).1 := by
  unfold ownSecPut
  dsimp only
  split
  · split
    · simp
    · split
      · simp
      · next loading _ =>
        refine ((keeps_setPool h _).2 (Keeps.refl p u)).trans (keeps_setSection h _ fun _ ready => ?_)
        exact absurd (ready.symm.trans (not_not.1 loading)) (by decide)
  · simp

theorem keeps_ownSecMark (h : p ≠ .geometry) (body : List Byte) (u : State) : Keeps p u (ownSecMark body u).1 := by
  unfold ownSecMark
  dsimp only
  split
  · simp
  · split
    · simp
    · split
      · simp
      · next loading =>
        refine keeps_setSection h _ fun _ ready => ?_
        exact absurd (ready.symm.trans (not_not.1 loading)) (by decide)

theorem keeps_ownSecClose (h : p ≠ .geometry) (r : Frame) (u : State) : Keeps p u (ownSecClose r u) := by
  unfold ownSecClose
  split
  · simp
  · split
    · simp
    · next i _ loading =>
      refine (keeps_changeLink fun _ => _).2 (keeps_setSection h _ fun _ ready => ?_)
      exact absurd (ready.symm.trans (not_not.1 loading)) (by decide)

/-- The close check changes the section it checks, which is CHECKING (R15, R17). -/
theorem keeps_completeClose (h : p ≠ .geometry)
    (checking : p = .readySections → ∀ tag i endsAt, s.link.handler = .closing tag i endsAt →
      s.store.sections[i].state = .checking) : Keeps p s s.completeClose := by
  unfold State.completeClose
  split
  · simp
  · next tag i endsAt handler =>
    have decided : ∀ f, Keeps p s (((s.reach endsAt).changeLink fun l => { l with handler := .idle }).setSection i f) := by
      intro f
      refine Keeps.trans (by simp) (keeps_setSection h f fun hp => ?_)
      show s.store.sections[i].state ≠ .ready
      rw [checking hp tag i endsAt handler]
      decide
    dsimp only
    split
    · exact (keeps_queueReply _ _ _).2 (decided _)
    · exact (keeps_queueReply _ _ _).2 (decided _)

theorem keeps_ownSecJoin (h : p ≠ .geometry) (body : List Byte) (u : State) : Keeps p u (ownSecJoin body u).1 := by
  have joined : ∀ a b l m, Keeps p u ((u.setLink a l).setLink b m) := fun a b l m =>
    keeps_of_sameButLinks h rfl ((u.setLink_sameButLinks a l).trans (State.setLink_sameButLinks _ b m))
  unfold ownSecJoin
  dsimp only
  split
  · simp
  · split
    · split
      · simp
      · split
        · simp
        · split
          · simp
          · split
            · simp
            · split
              · simp
              · exact joined _ _ _ _
    · simp

theorem keeps_ownSecJoinNone (h : p ≠ .geometry) (body : List Byte) (u : State) :
    Keeps p u (ownSecJoinNone body u).1 := by
  unfold ownSecJoinNone
  dsimp only
  split
  · simp
  · split
    · simp
    · split
      · simp
      · split
        · simp
        · exact keeps_of_sameButLinks h (State.unlink_eq _ _) (State.unlink_sameButLinks _ _)

theorem keeps_dropSection (h : p ≠ .geometry) (h' : p ≠ .readySections) (u : State) (i : Fin 32) :
    Keeps p u (u.dropSection i) := by
  refine (keeps_of_sameButLinks h (u.unlinkBoth_eq i) (u.unlinkBoth_sameButLinks i)).trans ?_
  exact ((keeps_setPool h _).2 (Keeps.refl p _)).trans (keeps_setSection h _ (absurd · h'))

theorem keeps_ownSecDrop (h : p ≠ .geometry) (h' : p ≠ .readySections) (body : List Byte) (u : State) :
    Keeps p u (ownSecDrop body u).1 := by
  unfold ownSecDrop
  dsimp only
  split
  · simp
  · split
    · simp
    · split
      · simp
      · split
        · simp
        · exact keeps_dropSection h h' _ _

/-- Member links written change no part but the geometry. -/
theorem keeps_setMembers (h : p ≠ .geometry) (u : State) (r : PointsRecord) (l : PointsRole → Link) :
    Keeps p u (u.setMembers r l) := keeps_of_sameButLinks h rfl (u.setMembers_sameButLinks r l)

theorem keeps_ownPtsDefine (h : p ≠ .geometry) (h' : p ≠ .points) (body : List Byte) (u : State) :
    Keeps p u (ownPtsDefine body u).1 := by
  have defined : ∀ (i : Fin 16) (r : PointsRecord), r.setting = .unknown → Keeps p u (u.definePoints i r.toe r.left r.right) := by
    intro i r hr
    rw [u.definePoints_eq i r hr]
    exact ((keeps_setPoints h' h _ _).2 (Keeps.refl p u)).trans (keeps_setMembers h _ _ _)
  unfold ownPtsDefine
  dsimp only
  split
  · split
    · simp
    · split
      · simp
      · split
        · simp
        · split
          · simp
          · split
            · simp
            · next toe left right _ _ _ _ _ _ _ _ _ => exact defined _ ⟨toe, left, right, .unknown⟩ rfl
  · simp

theorem keeps_ownPtsRemove (h : p ≠ .geometry) (h' : p ≠ .points) (body : List Byte) (u : State) :
    Keeps p u (ownPtsRemove body u).1 := by
  have removed : ∀ (i : Fin 16) (r : PointsRecord), Keeps p u (u.removePoints i r) := by
    intro i r
    rw [u.removePoints_eq i r]
    exact ((keeps_setPoints h' h _ _).2 (Keeps.refl p u)).trans (keeps_setMembers h _ _ _)
  unfold ownPtsRemove
  split
  · simp
  · split
    · simp
    · split
      · simp
      · exact removed _ _

theorem keeps_ownPtsSet (h : p ≠ .geometry) (h' : p ≠ .points) (body : List Byte) (u : State) :
    Keeps p u (ownPtsSet body u).1 := by
  unfold ownPtsSet
  split
  · split
    · simp
    · split
      · simp
      · exact (keeps_handOver _).2 ((keeps_setPoints h' h _ _).2 (Keeps.refl p u))
  · simp

@[simp] theorem keeps_gapTimeout : Keeps p s t.gapTimeout ↔ Keeps p s t := by
  unfold State.gapTimeout
  split <;> simp

@[simp] theorem keeps_snapshotExpiry : Keeps p s t.snapshotExpiry ↔ Keeps p s t := by
  unfold State.snapshotExpiry
  split
  · rfl
  · split <;> simp

@[simp] theorem keeps_lockExpiry (c : Fin 8) : Keeps p s (t.lockExpiry c) ↔ Keeps p s t := by
  unfold State.lockExpiry
  split
  · rfl
  · split <;> simp

theorem keeps_markerLevel (b : Bool) : Keeps p s (s.markerLevel b) := by
  have levelled : Keeps p s { s with lines := { s.lines with marker := b } } := by
    cases p <;> simp [Keeps, SectionRecord.HoldsSame, Store.SameGeometry]
  unfold State.markerLevel
  split
  · exact Keeps.refl p s
  · exact levelled.trans (Keeps.whileRunning (by simp))

/-! ## Every command -/

/-- Outside resets, a command keeps every part of the configuration but the ones it owns. That a READY section stays rests
on the section of a running close check being CHECKING (R15). -/
theorem exec_keeps {c : Instr} (h : exec c s = .next t) (startUp : c ≠ .startUpEnd) (loss : c ≠ .supplyLoss)
    (sent : c ≠ .frameSent) (restart : c ≠ .restartTakesEffect) (owned : c ∉ p.owners)
    (checking : p = .readySections → ∀ tag i endsAt, s.link.handler = .closing tag i endsAt →
      s.store.sections[i].state = .checking) : Keeps p s t := by
  have other : ∀ {q : ConfigPart}, c ∈ q.owners → p ≠ q := fun hq e => owned (e ▸ hq)
  cases c <;> cases h
  case startUpEnd => exact absurd rfl startUp
  case supplyLoss => exact absurd rfl loss
  case frameSent => exact absurd rfl sent
  case restartTakesEffect => exact absurd rfl restart
  case startUpBegin => simp
  case frameReceived b => exact Keeps.whileRunning (by split <;> simp)
  case frameLengthAbort b => exact Keeps.whileRunning (by split <;> simp)
  case unknownKind | transmitBegin | pointsChange | wheelCount | tick | markerDetection | markerDebounceRelease
      | markerResolve | periodTimerExpiry | stageConversionComplete | passComplete | byteTaken | interByteGapTimeout
      | snapshotTimerExpiry | lockTimerExpiry =>
    exact Keeps.whileRunning (by simp)
  case lockEngagedChange | driveFaultChange => exact Keeps.trans (by simp) (Keeps.whileRunning (by simp))
  case markerInputChange b => exact keeps_markerLevel b
  case sysRestart => exact Keeps.serve fun r u => by simp [ownSysRestart]
  case cndGet => exact Keeps.serve keeps_ownCndGet
  case secGet => exact Keeps.serveAct readsOnly_secGet.keeps
  case vehGet => exact Keeps.serveAct readsOnly_vehGet.keeps
  case lawGet => exact Keeps.serveAct readsOnly_lawGet.keeps
  case stgGet => exact Keeps.serveAct readsOnly_stgGet.keeps
  case posGet => exact Keeps.serveAct readsOnly_posGet.keeps
  case chGet => exact Keeps.serveAct readsOnly_chGet.keeps
  case cntGet => exact Keeps.serveAct readsOnly_cntGet.keeps
  case cntSnap => exact Keeps.serveAct fun body u => by simp [ownCntSnap]
  case posLocate => exact Keeps.serveAct keeps_ownPosLocate
  case chUnlock => exact Keeps.serveAct keeps_ownChUnlock
  case chHold => exact Keeps.serveAct keeps_ownChHold
  case chResume => exact Keeps.serveAct keeps_ownChResume
  case chReturn => exact Keeps.serveAct keeps_ownChReturn
  case chClear => exact Keeps.serveAct keeps_ownChClear
  case vehSet => exact Keeps.serveAct (keeps_ownVehSet (other (by simp [ConfigPart.owners])))
  case stgSet => exact Keeps.serveAct (keeps_ownStgSet (other (by simp [ConfigPart.owners])))
  case perSet => exact Keeps.serveAct (keeps_ownPerSet (other (by simp [ConfigPart.owners])))
  case lawSet => exact Keeps.serveAct (keeps_ownLawSet (other (by simp [ConfigPart.owners])))
  case cndEnable => exact Keeps.serveAct (keeps_ownCndEnable (other (by simp [ConfigPart.owners])))
  case cndCriteria => exact Keeps.serveAct (keeps_ownCndCriteria (other (by simp [ConfigPart.owners])))
  case permitSetOn => exact Keeps.serveAct (keeps_ownPermitSetOn (other (by simp [ConfigPart.owners])))
  case permitSetOff => exact Keeps.serveAct (keeps_ownPermitSetOff (other (by simp [ConfigPart.owners])))
  case cntModeManual => exact Keeps.serveAct (keeps_ownCntModeManual (other (by simp [ConfigPart.owners])))
  case secPut => exact Keeps.serveAct (keeps_ownSecPut (other (by simp [ConfigPart.owners])))
  case secMark => exact Keeps.serveAct (keeps_ownSecMark (other (by simp [ConfigPart.owners])))
  case secJoin => exact Keeps.serveAct (keeps_ownSecJoin (other (by simp [ConfigPart.owners])))
  case secJoinNone => exact Keeps.serveAct (keeps_ownSecJoinNone (other (by simp [ConfigPart.owners])))
  case secOpen =>
    exact Keeps.serveAct (keeps_ownSecOpen (other (by simp [ConfigPart.owners])) (other (by simp [ConfigPart.owners])))
  case secDrop =>
    exact Keeps.serveAct (keeps_ownSecDrop (other (by simp [ConfigPart.owners])) (other (by simp [ConfigPart.owners])))
  case ptsDefine =>
    exact Keeps.serveAct (keeps_ownPtsDefine (other (by simp [ConfigPart.owners])) (other (by simp [ConfigPart.owners])))
  case ptsRemove =>
    exact Keeps.serveAct (keeps_ownPtsRemove (other (by simp [ConfigPart.owners])) (other (by simp [ConfigPart.owners])))
  case ptsSet =>
    exact Keeps.serveAct (keeps_ownPtsSet (other (by simp [ConfigPart.owners])) (other (by simp [ConfigPart.owners])))
  case cntModeAuto => exact Keeps.serveAct fun _ => keeps_modeAuto (other (by simp [ConfigPart.owners]))
  case secClose => exact Keeps.serve (keeps_ownSecClose (other (by simp [ConfigPart.owners])))
  case closeCheckComplete =>
    exact Keeps.whileRunning (keeps_completeClose (other (by simp [ConfigPart.owners])) checking)

/-- Settles O5: each part of the configuration is kept by every command that does not own it. -/
theorem configurationChangesOnlyAtItsOwnCommand : Obligations.ConfigurationChangesOnlyAtItsOwnCommand := by
  intro c s t h startUp loss sent restart
  have keeps : ∀ p : ConfigPart, p ≠ .readySections → c ∉ p.owners → Keeps p s t := fun p hp owned =>
    exec_keeps h startUp loss sent restart owned (absurd · hp)
  refine ⟨fun a => keeps .vehicle (by simp) (by simpa [ConfigPart.owners] using a),
    fun a => keeps .stages (by simp) (by simpa [ConfigPart.owners] using a),
    fun a => keeps .periods (by simp) (by simpa [ConfigPart.owners] using a),
    fun a => keeps .laws (by simp) (by simpa [ConfigPart.owners] using a),
    fun a => keeps .modes (by simp) (by simpa [ConfigPart.owners] using a),
    fun a => keeps .criteria (by simp) (by simpa [ConfigPart.owners] using a),
    fun a b => keeps .snapshotMode (by simp) (by simp [ConfigPart.owners, a, b]),
    fun a b => keeps .permit (by simp) (by simp [ConfigPart.owners, a, b]),
    fun a b d => keeps .points (by simp) (by simp [ConfigPart.owners, a, b, d]),
    fun a b checking => exec_keeps (p := .readySections) h startUp loss sent restart
      (by simp [ConfigPart.owners, a, b]) fun _ => checking⟩

end Sys2Proof.Machine
end

