-- ==== Sys2Proof/Proofs/Refusals.lean ====
section
/-!
SUPPORT. What a refusal leaves (R2, R193): settles O11. Each owner says once that it changes the state only where it
answers OK or NO_SPACE.
-/
namespace Sys2Proof.Machine

/-! ## Owners that refuse and change nothing -/

/-- A status other than OK and NO_SPACE is a refusal (R193). -/
def Status.Refuses (st : Status) : Prop := st ≠ .ok ∧ st ≠ .noSpace

/-- An owner changes the state only where its answer is no refusal (R2). -/
def RefusesCleanly (act : List Byte → State → State × Answer) : Prop :=
  ∀ body s, (act body s).1 = s ∨ ¬(act body s).2.status.Refuses

theorem ReadsOnly.refusesCleanly {act : List Byte → State → State × Answer} (h : ReadsOnly act) :
    RefusesCleanly act := fun body s => .inl (h body s)

@[simp] theorem Status.refuses_ok : ¬Status.ok.Refuses := fun h => h.1 rfl

@[simp] theorem Status.refuses_noSpace : ¬Status.noSpace.Refuses := fun h => h.2 rfl

/-- A CH.* request that is not taken changes nothing (R147). -/
theorem channelRequest_refusesCleanly (reason : Option Reason) (act : State → State) (c : Fin 8) (s : State) :
    (channelRequest reason act c s).1 = s ∨ ¬(channelRequest reason act c s).2.status.Refuses := by
  cases reason
  · exact .inr Status.refuses_ok
  · exact .inl rfl

theorem ownSecOpen_refusesCleanly : RefusesCleanly ownSecOpen := by
  intro body s
  unfold ownSecOpen
  dsimp only
  repeat' split
  all_goals simp

theorem ownSecPut_refusesCleanly : RefusesCleanly ownSecPut := by
  intro body s
  unfold ownSecPut
  dsimp only
  repeat' split
  all_goals simp

theorem ownSecMark_refusesCleanly : RefusesCleanly ownSecMark := by
  intro body s
  unfold ownSecMark
  dsimp only
  repeat' split
  all_goals simp

theorem ownSecJoin_refusesCleanly : RefusesCleanly ownSecJoin := by
  intro body s
  unfold ownSecJoin Answer.plain
  dsimp only
  repeat' split
  all_goals simp

theorem ownSecJoinNone_refusesCleanly : RefusesCleanly ownSecJoinNone := by
  intro body s
  unfold ownSecJoinNone Answer.plain
  dsimp only
  repeat' split
  all_goals simp

theorem ownSecDrop_refusesCleanly : RefusesCleanly ownSecDrop := by
  intro body s
  unfold ownSecDrop
  dsimp only
  repeat' split
  all_goals simp

theorem ownPtsDefine_refusesCleanly : RefusesCleanly ownPtsDefine := by
  intro body s
  unfold ownPtsDefine Answer.plain
  dsimp only
  repeat' split
  all_goals simp

theorem ownPtsRemove_refusesCleanly : RefusesCleanly ownPtsRemove := by
  intro body s
  unfold ownPtsRemove Answer.plain
  repeat' split
  all_goals simp

theorem ownPtsSet_refusesCleanly : RefusesCleanly ownPtsSet := by
  intro body s
  unfold ownPtsSet Answer.plain
  repeat' split
  all_goals simp

theorem ownVehSet_refusesCleanly : RefusesCleanly ownVehSet := by
  intro body s
  unfold ownVehSet
  repeat' split
  all_goals simp

theorem ownLawSet_refusesCleanly : RefusesCleanly ownLawSet := by
  intro body s
  unfold ownLawSet
  repeat' split
  all_goals simp

theorem ownStgSet_refusesCleanly : RefusesCleanly ownStgSet := by
  intro body s
  unfold ownStgSet State.stageAnswer
  repeat' split
  all_goals simp

theorem ownPerSet_refusesCleanly : RefusesCleanly ownPerSet := by
  intro body s
  unfold ownPerSet
  dsimp only
  repeat' split
  all_goals simp

theorem ownPosLocate_refusesCleanly : RefusesCleanly ownPosLocate := by
  intro body s
  unfold ownPosLocate
  dsimp only
  repeat' split
  all_goals simp

theorem ownChUnlock_refusesCleanly : RefusesCleanly ownChUnlock := by
  intro body s
  unfold ownChUnlock
  repeat' split
  · exact .inl rfl
  · exact .inl rfl
  · exact channelRequest_refusesCleanly _ _ _ s

theorem ownChHold_refusesCleanly : RefusesCleanly ownChHold := by
  intro body s
  unfold ownChHold
  split
  · exact .inl rfl
  · exact channelRequest_refusesCleanly _ _ _ s

theorem ownChResume_refusesCleanly : RefusesCleanly ownChResume := by
  intro body s
  unfold ownChResume
  split
  · exact .inl rfl
  · exact channelRequest_refusesCleanly _ _ _ s

theorem ownChReturn_refusesCleanly : RefusesCleanly ownChReturn := by
  intro body s
  unfold ownChReturn
  split
  · exact .inl rfl
  · exact channelRequest_refusesCleanly _ _ _ s

theorem ownChClear_refusesCleanly : RefusesCleanly ownChClear := by
  intro body s
  unfold ownChClear
  split
  · exact .inl rfl
  · exact channelRequest_refusesCleanly _ _ _ s

theorem ownPermitSetOn_refusesCleanly : RefusesCleanly ownPermitSetOn := by
  intro body s
  unfold ownPermitSetOn Answer.plain
  split
  all_goals simp

theorem ownPermitSetOff_refusesCleanly : RefusesCleanly ownPermitSetOff :=
  fun _ _ => .inr Status.refuses_ok

theorem ownCndEnable_refusesCleanly : RefusesCleanly ownCndEnable := by
  intro body s
  unfold ownCndEnable Answer.plain
  dsimp only
  repeat' split
  all_goals simp

theorem ownCndCriteria_refusesCleanly : RefusesCleanly ownCndCriteria := by
  intro body s
  unfold ownCndCriteria
  repeat' split
  all_goals simp

theorem ownCntSnap_refusesCleanly : RefusesCleanly ownCntSnap := fun _ _ => .inr Status.refuses_ok

theorem ownCntModeAuto_refusesCleanly : RefusesCleanly ownCntModeAuto := fun _ _ => .inr Status.refuses_ok

theorem ownCntModeManual_refusesCleanly : RefusesCleanly ownCntModeManual := by
  intro body s
  unfold ownCntModeManual Answer.plain
  split
  all_goals simp

/-! ## Rows that refuse and change nothing -/

/-- From `s` to `t` a request is refused with a reply whose status is neither OK nor NO_SPACE (R193). -/
structure RefusedWith (s t : State) (reply : Reply) : Prop where
  queued : t.link.replies = s.link.replies ++ [reply]
  ok : reply.frame.body.head? ≠ some (u8 Status.ok.code)
  noSpace : reply.frame.body.head? ≠ some (u8 Status.noSpace.code)

/-- The request has left the receive queue, its reply waits last, and everything else is as it was (R2, R191). -/
def LeftAsItWas (s t : State) (r : Frame) (reply : Reply) : Prop :=
  reply.frame.kind = r.kind + 0x80 ∧ reply.frame.tag = r.tag ∧
    t = { s with link := { s.link with requests := s.link.requests.tail, replies := s.link.replies ++ [reply] } }

variable {s t u : State} {r : Frame} {reply : Reply}

/-- A state with no new reply refuses nothing. -/
theorem RefusedWith.absurd_of_kept (h : RefusedWith s t reply) (kept : t.link.replies = s.link.replies) : False := by
  have := h.queued
  simp [kept] at this

/-- The reply that was queued is the one waiting last, and its status refuses. -/
theorem RefusedWith.of_queueReply {a : Answer} {final : Bool} (h : RefusedWith s (u.queueReply r a final) reply) :
    reply = ⟨u.replyTo r a, final⟩ ∧ a.status.Refuses := by
  obtain ⟨-, rfl⟩ : u.link.replies = s.link.replies ∧ ⟨u.replyTo r a, final⟩ = reply := by
    simpa [List.append_eq_append_iff] using List.append_inj' h.queued rfl
  exact ⟨rfl, fun e => h.ok (by rw [← e]; rfl), fun e => h.noSpace (by rw [← e]; rfl)⟩

/-- A refusal queued behind a request that has left the receive queue leaves the rest as it was. -/
theorem leftAsItWas_of_queueReply {a : Answer} (h : RefusedWith s (s.popRequest.queueReply r a false) reply) :
    LeftAsItWas s (s.popRequest.queueReply r a false) r reply := by
  obtain ⟨rfl, -⟩ := h.of_queueReply
  exact ⟨rfl, rfl, rfl⟩

section Rows
variable {kind : Byte} {mine fits : List Byte → Bool}

/-- A request row refuses and changes nothing where its owner does. -/
theorem leftAsItWas_of_serve {owner : Frame → State → State}
    (own : RefusedWith s (owner r s.popRequest) reply → LeftAsItWas s (owner r s.popRequest) r reply)
    (hc : s.canTake r) (h : RefusedWith s (s.serve kind mine fits owner) reply) :
    LeftAsItWas s (s.serve kind mine fits owner) r reply := by
  rcases State.serve_cases (s := s) (kind := kind) (mine := mine) (fits := fits) owner with
    e | ⟨q, hq, -, ⟨-, -, e⟩ | ⟨-, e⟩⟩
  · rw [e] at h
    exact (h.absurd_of_kept rfl).elim
  all_goals
    obtain rfl : r = q := Option.some.inj ((State.frontRequest_of_canTake hc).symm.trans (State.frontRequest_of_canTake hq))
    rw [e] at h ⊢
  · exact own h
  · exact leftAsItWas_of_queueReply h

/-- A request row whose owner refuses cleanly changes nothing where it refuses. -/
theorem RefusesCleanly.serveAct {act : List Byte → State → State × Answer} (clean : RefusesCleanly act)
    (hc : s.canTake r) (h : RefusedWith s (s.serveAct kind mine fits act) reply) :
    LeftAsItWas s (s.serveAct kind mine fits act) r reply := by
  refine leftAsItWas_of_serve (fun h => ?_) hc h
  rcases clean r.body s.popRequest with same | taken
  · rw [same] at h ⊢
    exact leftAsItWas_of_queueReply h
  · exact absurd h.of_queueReply.2 taken

end Rows

/-! ## Owners that answer in their own way -/

/-- SEC.CLOSE: a taking queues no reply, so that a refusal was one at once (R15). -/
theorem ownSecClose_leftAsItWas (h : RefusedWith s (ownSecClose r s.popRequest) reply) :
    LeftAsItWas s (ownSecClose r s.popRequest) r reply := by
  unfold ownSecClose at h ⊢
  split
  · next hn =>
    rw [hn] at h
    exact leftAsItWas_of_queueReply h
  · next i hi =>
    rw [hi] at h
    dsimp only at h
    split
    · next hs =>
      rw [if_pos hs] at h
      exact leftAsItWas_of_queueReply h
    · next hs =>
      rw [if_neg hs] at h
      exact (h.absurd_of_kept rfl).elim

/-- A refusal shows in the reply queue alone. -/
theorem RefusedWith.of_replies_eq (h : RefusedWith s t reply) (e : t.link.replies = u.link.replies) :
    RefusedWith s u reply := ⟨e ▸ h.queued, h.ok, h.noSpace⟩

/-- CND.GET answers OK (R168). -/
theorem ownCndGet_answersOk (h : RefusedWith s (ownCndGet r u) reply) : False := by
  have queued : (ownCndGet r u).link.replies = (u.queueReply r ⟨.ok, u.conditionReport⟩ false).link.replies := by
    simp only [ownCndGet, State.clearLatches, State.setMonitor_link]
  exact (h.of_replies_eq queued).of_queueReply.2.1 rfl

/-- SYS.RESTART answers OK (R197). -/
theorem ownSysRestart_answersOk (h : RefusedWith s (ownSysRestart r u) reply) : False := by
  have queued : (ownSysRestart r u).link.replies = (u.queueReply r (Answer.plain .ok) true).link.replies := by
    simp only [ownSysRestart, State.changeLink_link]
  exact (h.of_replies_eq queued).of_queueReply.2.1 rfl

/-- An unlisted kind is refused (R190). -/
theorem refuseKind_leftAsItWas (hc : s.canTake r) (h : RefusedWith s s.refuseKind reply) :
    LeftAsItWas s s.refuseKind r reply := by
  have front := State.frontRequest_of_canTake hc
  unfold State.refuseKind at h ⊢
  rw [front] at h ⊢
  dsimp only at h ⊢
  split
  · next listed =>
    rw [if_pos listed] at h
    exact (h.absurd_of_kept rfl).elim
  · next unlisted =>
    rw [if_neg unlisted] at h
    exact leftAsItWas_of_queueReply h

/-- Settles O11: a request row changes nothing where its owner refuses, and every owner refuses cleanly. -/
theorem refusalsChangeNothing : Obligations.RefusalsChangeNothing := by
  intro c s t r reply row hc h queued ok noSpace
  have refused : RefusedWith s t reply := ⟨queued, ok, noSpace⟩
  show LeftAsItWas s t r reply
  clear queued ok noSpace
  cases c <;> cases h
  case unknownKind =>
    rw [State.whileRunning_of_running hc.1] at refused ⊢
    exact refuseKind_leftAsItWas hc refused
  case secClose => exact leftAsItWas_of_serve ownSecClose_leftAsItWas hc refused
  case cndGet => exact leftAsItWas_of_serve (fun h => (ownCndGet_answersOk h).elim) hc refused
  case sysRestart => exact leftAsItWas_of_serve (fun h => (ownSysRestart_answersOk h).elim) hc refused
  case secOpen => exact ownSecOpen_refusesCleanly.serveAct hc refused
  case secPut => exact ownSecPut_refusesCleanly.serveAct hc refused
  case secMark => exact ownSecMark_refusesCleanly.serveAct hc refused
  case secJoin => exact ownSecJoin_refusesCleanly.serveAct hc refused
  case secJoinNone => exact ownSecJoinNone_refusesCleanly.serveAct hc refused
  case secDrop => exact ownSecDrop_refusesCleanly.serveAct hc refused
  case ptsDefine => exact ownPtsDefine_refusesCleanly.serveAct hc refused
  case ptsRemove => exact ownPtsRemove_refusesCleanly.serveAct hc refused
  case ptsSet => exact ownPtsSet_refusesCleanly.serveAct hc refused
  case vehSet => exact ownVehSet_refusesCleanly.serveAct hc refused
  case lawSet => exact ownLawSet_refusesCleanly.serveAct hc refused
  case stgSet => exact ownStgSet_refusesCleanly.serveAct hc refused
  case perSet => exact ownPerSet_refusesCleanly.serveAct hc refused
  case posLocate => exact ownPosLocate_refusesCleanly.serveAct hc refused
  case chUnlock => exact ownChUnlock_refusesCleanly.serveAct hc refused
  case chHold => exact ownChHold_refusesCleanly.serveAct hc refused
  case chResume => exact ownChResume_refusesCleanly.serveAct hc refused
  case chReturn => exact ownChReturn_refusesCleanly.serveAct hc refused
  case chClear => exact ownChClear_refusesCleanly.serveAct hc refused
  case permitSetOn => exact ownPermitSetOn_refusesCleanly.serveAct hc refused
  case permitSetOff => exact ownPermitSetOff_refusesCleanly.serveAct hc refused
  case cndEnable => exact ownCndEnable_refusesCleanly.serveAct hc refused
  case cndCriteria => exact ownCndCriteria_refusesCleanly.serveAct hc refused
  case cntSnap => exact ownCntSnap_refusesCleanly.serveAct hc refused
  case cntModeAuto => exact ownCntModeAuto_refusesCleanly.serveAct hc refused
  case cntModeManual => exact ownCntModeManual_refusesCleanly.serveAct hc refused
  case secGet => exact readsOnly_secGet.refusesCleanly.serveAct hc refused
  case vehGet => exact readsOnly_vehGet.refusesCleanly.serveAct hc refused
  case lawGet => exact readsOnly_lawGet.refusesCleanly.serveAct hc refused
  case stgGet => exact readsOnly_stgGet.refusesCleanly.serveAct hc refused
  case posGet => exact readsOnly_posGet.refusesCleanly.serveAct hc refused
  case chGet => exact readsOnly_chGet.refusesCleanly.serveAct hc refused
  case cntGet => exact readsOnly_cntGet.refusesCleanly.serveAct hc refused
  all_goals simp [requestRows] at row

end Sys2Proof.Machine
end

