-- ==== Sys2Proof/Proofs/Closing.lean ====
section
/-!
SUPPORT. SEC.CLOSE and its close check (R15 to R17): settles O15.
-/
namespace Sys2Proof.Machine

/-! ## First failures -/

/-- The first failure of a list: one that fails, with none before it. -/
theorem firstFailure_eq_some_iff (l : List Bool) (k : Nat) :
    firstFailure l = some k ↔ l[k]? = some true ∧ ∀ n, n < k → l[n]? ≠ some true := by
  induction l generalizing k with
  | nil => simp [firstFailure]
  | cons b rest ih =>
    cases b with
    | true =>
      simp only [firstFailure, Option.some.injEq]
      refine ⟨?_, fun ⟨_, h⟩ => ?_⟩
      · rintro rfl
        simp
      · by_contra hk
        exact h 0 (Nat.pos_of_ne_zero (Ne.symm hk)) rfl
    | false =>
      cases k with
      | zero => simp [firstFailure]
      | succ k =>
        simp only [firstFailure, Option.map_eq_some_iff, Nat.add_right_cancel_iff, exists_eq_right, ih,
          List.getElem?_cons_succ]
        refine and_congr_right' ⟨fun h n hn => ?_, fun h n hn => h (n + 1) (by omega)⟩
        cases n with
        | zero => simp
        | succ n => exact h n (by omega)

/-- A list without a failure. -/
theorem firstFailure_eq_none_iff (l : List Bool) : firstFailure l = none ↔ ∀ n : Nat, l[n]? ≠ some true := by
  induction l with
  | nil => simp [firstFailure]
  | cons b rest ih =>
    cases b with
    | true => simpa [firstFailure] using ⟨0, rfl⟩
    | false =>
      simp only [firstFailure, Option.map_eq_none_iff, ih]
      refine ⟨fun h n => ?_, fun h n => h (n + 1)⟩
      cases n with
      | zero => simp
      | succ n => exact h n

/-- Some item with the given code fails at the given index. -/
def FailsAt (items : List (Nat × List Bool)) (code n : Nat) : Prop :=
  ∃ item ∈ items, item.1 = code ∧ item.2[n]? = some true

/-- The first failure of items whose codes rise: of the failing codes the least, and of its indices the least. -/
theorem findSome_firstFailure_iff (items : List (Nat × List Bool)) (rises : items.Pairwise fun a b => a.1 < b.1)
    (code k : Nat) :
    items.findSome? (fun item => (firstFailure item.2).map fun i => (item.1, i)) = some (code, k) ↔
      FailsAt items code k ∧ (∀ c, c < code → ∀ n, ¬FailsAt items c n) ∧ ∀ n, n < k → ¬FailsAt items code n := by
  induction items with
  | nil => simp [FailsAt]
  | cons item rest ih =>
    obtain ⟨above, rises⟩ := List.pairwise_cons.1 rises
    have later : ∀ {c n}, FailsAt rest c n → item.1 < c := fun ⟨x, hx, hc, _⟩ => hc ▸ above x hx
    have split : ∀ c n, FailsAt (item :: rest) c n ↔ (item.1 = c ∧ item.2[n]? = some true) ∨ FailsAt rest c n := by
      intro c n
      simp [FailsAt]
    simp only [split]
    cases hf : firstFailure item.2 with
    | none =>
      have never := (firstFailure_eq_none_iff _).1 hf
      simp only [List.findSome?_cons, hf, Option.map_none, ih rises, never, and_false, false_or]
    | some i =>
      obtain ⟨fails, least⟩ := (firstFailure_eq_some_iff _ _).1 hf
      simp only [List.findSome?_cons, hf, Option.map_some, Option.some.injEq, Prod.mk.injEq]
      constructor
      · rintro ⟨rfl, rfl⟩
        refine ⟨.inl ⟨rfl, fails⟩, fun c hc n h => ?_, fun n hn h => ?_⟩
        · rcases h with ⟨rfl, -⟩ | h
          · omega
          · exact absurd (later h) (by omega)
        · rcases h with ⟨-, h⟩ | h
          · exact least n hn h
          · exact absurd (later h) (by omega)
      · rintro ⟨h, leastCode, leastIndex⟩
        have code_eq : item.1 = code := by
          rcases h with ⟨e, -⟩ | h
          · exact e
          · exact absurd (.inl ⟨rfl, fails⟩) (leastCode item.1 (later h) i)
        subst code_eq
        refine ⟨rfl, ?_⟩
        have at_k : item.2[k]? = some true := by
          rcases h with ⟨-, h⟩ | h
          · exact h
          · exact absurd (later h) (by omega)
        rcases Nat.lt_trichotomy i k with hik | rfl | hik
        · exact absurd (.inl ⟨rfl, fails⟩) (leastIndex i hik)
        · rfl
        · exact absurd at_k (least k hik)

/-- Items without a failure. -/
theorem findSome_firstFailure_eq_none_iff (items : List (Nat × List Bool)) :
    items.findSome? (fun item => (firstFailure item.2).map fun i => (item.1, i)) = none ↔
      ∀ code n, ¬FailsAt items code n := by
  simp only [List.findSome?_eq_none_iff, Option.map_eq_none_iff, firstFailure_eq_none_iff]
  exact ⟨fun h code n ⟨item, mem, _, fails⟩ => h item mem n fails, fun h item mem n fails => h _ n ⟨item, mem, rfl, fails⟩⟩

/-! ## The rows of the close check's table (R16) -/

/-- An element or marker fails against the one before it. -/
theorem againstBefore_iff {α : Type} (test : α → α → Bool) (l : List α) (n : Nat) :
    (againstBefore test l)[n]? = some true ↔
      0 < n ∧ ∃ a b, l[n - 1]? = some a ∧ l[n]? = some b ∧ test a b = true := by
  cases l with
  | nil => simp [againstBefore]
  | cons a rest =>
    cases n with
    | zero => simp [againstBefore]
    | succ n => simp [againstBefore, List.getElem?_zipWith_eq_some]

/-- Where an element ends: at the start of the next, the last at the section length (R4). -/
def endOf (r : SectionRecord) (n : Nat) : Nat :=
  match r.elements[n + 1]? with
  | some f => f.start
  | none => r.length

theorem elementEnds_eq (r : SectionRecord) (n : Nat) (h : n < r.elements.length) :
    (elementEnds r.length r.elements)[n]? = some (endOf r n) := by
  unfold elementEnds endOf
  by_cases last : n + 1 < r.elements.length
  · rw [List.getElem?_append_left (by simp; omega)]
    simp [last]
  · rw [List.getElem?_append_right (by simp; omega)]
    have : n - (r.elements.length - 1) = 0 := by omega
    simp [this, List.getElem?_eq_none (show r.elements.length ≤ n + 1 by omega)]

/-- The table of R16: the item of a code fails at an index. -/
def CheckRow (r : SectionRecord) (code n : Nat) : Prop :=
  match code with
  | 1 => n = 0 ∧ ∃ e, r.elements[n]? = some e ∧ e.start ≠ 0
  | 2 => 0 < n ∧ ∃ a b, r.elements[n - 1]? = some a ∧ r.elements[n]? = some b ∧ b.start ≤ a.start
  | 3 => ∃ e, r.elements[n]? = some e ∧ endOf r n < e.start + 100
  | 4 => ∃ e, r.elements[n]? = some e ∧ e.kind = .straight ∧ (e.curvatureStart ≠ 0 ∨ e.curvatureEnd ≠ 0)
  | 5 => ∃ e, r.elements[n]? = some e ∧ e.kind = .arc ∧ (e.curvatureStart ≠ e.curvatureEnd ∨ e.curvatureStart = 0)
  | 6 => ∃ e, r.elements[n]? = some e ∧ (100000 < e.curvatureStart.natAbs ∨ 100000 < e.curvatureEnd.natAbs)
  | 7 => ∃ e, r.elements[n]? = some e ∧ ∃ c, e.clearance = some c ∧ (c < 500 ∨ 6000 < c)
  | 8 => ∃ m, r.markers[n]? = some m ∧ r.length < m.chainage
  | 9 => 0 < n ∧ ∃ a b, r.markers[n - 1]? = some a ∧ r.markers[n]? = some b ∧ b.chainage ≤ a.chainage
  | 10 => 0 < n ∧ ∃ a b, r.markers[n - 1]? = some a ∧ r.markers[n]? = some b ∧ b.chainage < a.chainage + 1000
  | 11 => n = 0 ∧ r.elements = []
  | _ => False

/-- An element fails a test of its own. -/
theorem map_fails_iff {α : Type} (test : α → Bool) (l : List α) (n : Nat) :
    (l.map test)[n]? = some true ↔ ∃ e, l[n]? = some e ∧ test e = true := by
  simp [List.getElem?_map]

/-- An element fails a test against its end. -/
theorem lengths_fail_iff (r : SectionRecord) (n : Nat) :
    (List.zipWith (fun e stop => decide (stop < e.start + 100)) r.elements (elementEnds r.length r.elements))[n]? =
      some true ↔ ∃ e, r.elements[n]? = some e ∧ endOf r n < e.start + 100 := by
  rw [List.getElem?_zipWith_eq_some]
  constructor
  · rintro ⟨e, stop, he, hstop, short⟩
    rw [elementEnds_eq r n (List.getElem?_eq_some_iff.1 he).1] at hstop
    obtain rfl := Option.some.inj hstop
    exact ⟨e, he, of_decide_eq_true short⟩
  · rintro ⟨e, he, short⟩
    exact ⟨e, endOf r n, he, elementEnds_eq r n (List.getElem?_eq_some_iff.1 he).1, decide_eq_true short⟩

/-- The codes of the items rise, from 1 to 11. -/
theorem checkItems_rise (r : SectionRecord) : (checkItems r).Pairwise fun a b => a.1 < b.1 := by
  simp [checkItems]

theorem checkItems_code (r : SectionRecord) (item : Nat × List Bool) (h : item ∈ checkItems r) :
    1 ≤ item.1 ∧ item.1 ≤ 11 := by
  have codes : item.1 ∈ (checkItems r).map (·.1) := List.mem_map_of_mem h
  have table : (checkItems r).map (·.1) = [1, 2, 3, 4, 5, 6, 7, 8, 9, 10, 11] := rfl
  rw [table] at codes
  simp only [List.mem_cons, List.not_mem_nil, or_false] at codes
  omega

/-- Where codes rise, only the item of a code fails at it. -/
theorem failsAt_getElem_iff {items : List (Nat × List Bool)} (rises : items.Pairwise fun a b => a.1 < b.1) (j : Nat)
    (h : j < items.length) (n : Nat) : FailsAt items items[j].1 n ↔ items[j].2[n]? = some true := by
  constructor
  · rintro ⟨item, mem, code, fails⟩
    obtain ⟨i, hi, rfl⟩ := List.getElem_of_mem mem
    rcases Nat.lt_trichotomy i j with hij | rfl | hij
    · exact absurd code (List.pairwise_iff_getElem.1 rises i j hi h hij).ne
    · exact fails
    · exact absurd code (List.pairwise_iff_getElem.1 rises j i h hi hij).ne'
  · exact fun fails => ⟨items[j], List.getElem_mem h, rfl, fails⟩

/-- The model's items are the rows of the table. -/
theorem failsAt_checkItems_iff (r : SectionRecord) (code n : Nat) :
    FailsAt (checkItems r) code n ↔ CheckRow r code n := by
  have item := fun j (h : j < (checkItems r).length) => failsAt_getElem_iff (checkItems_rise r) j h n
  have none_of (h : code < 1 ∨ 11 < code) : ¬FailsAt (checkItems r) code n := by
    rintro ⟨x, mem, rfl, -⟩
    have := checkItems_code r x mem
    omega
  match code with
  | 0 => exact iff_of_false (none_of (by omega)) id
  | 1 =>
    refine (item 0 (by simp [checkItems])).trans ?_
    show (match r.elements with | [] => [] | e :: _ => [decide (e.start ≠ 0)])[n]? = some true ↔ _
    cases he : r.elements <;> cases n <;> simp [CheckRow, he]
  | 2 =>
    refine (item 1 (by simp [checkItems])).trans ((againstBefore_iff _ _ n).trans ?_)
    simp [CheckRow]
  | 3 => exact (item 2 (by simp [checkItems])).trans (lengths_fail_iff r n)
  | 4 =>
    refine (item 3 (by simp [checkItems])).trans ((map_fails_iff _ _ n).trans ?_)
    simp [CheckRow]
  | 5 =>
    refine (item 4 (by simp [checkItems])).trans ((map_fails_iff _ _ n).trans ?_)
    simp [CheckRow]
  | 6 =>
    refine (item 5 (by simp [checkItems])).trans ((map_fails_iff _ _ n).trans ?_)
    simp [CheckRow, curvatureBeyond]
  | 7 =>
    refine (item 6 (by simp [checkItems])).trans ((map_fails_iff _ _ n).trans ?_)
    refine exists_congr fun e => and_congr_right' ?_
    cases e.clearance <;> simp
  | 8 =>
    refine (item 7 (by simp [checkItems])).trans ((map_fails_iff _ _ n).trans ?_)
    simp [CheckRow]
  | 9 =>
    refine (item 8 (by simp [checkItems])).trans ((againstBefore_iff _ _ n).trans ?_)
    simp [CheckRow]
  | 10 =>
    refine (item 9 (by simp [checkItems])).trans ((againstBefore_iff _ _ n).trans ?_)
    simp [CheckRow]
  | 11 =>
    refine (item 10 (by simp [checkItems])).trans ?_
    show (if r.elements = [] then [true] else [])[n]? = some true ↔ _
    split_ifs with he <;> cases n <;> simp [CheckRow, he]
  | m + 12 => exact iff_of_false (none_of (by omega)) id

theorem closeCheckReportsTheFirstFailure : Claims.CloseCheckReportsTheFirstFailure := by
  intro r code k
  have first := findSome_firstFailure_iff (checkItems r) (checkItems_rise r) code k
  simp only [failsAt_checkItems_iff] at first
  exact first

/-! ## What the check lets pass (R16) -/

/-- The check finds nothing exactly where no row of the table fails. -/
theorem closeCheck_eq_none_iff (r : SectionRecord) : closeCheck r = none ↔ ∀ code n, ¬CheckRow r code n := by
  have none := findSome_firstFailure_eq_none_iff (checkItems r)
  simp only [failsAt_checkItems_iff] at none
  exact none

/-- The end of an element with one after it. -/
theorem endOf_of_lt {r : SectionRecord} {n : Nat} (h : n + 1 < r.elements.length) :
    endOf r n = r.elements[n + 1].start := by simp [endOf, h]

/-- The end of the last element. -/
theorem endOf_last {r : SectionRecord} {n : Nat} (h : r.elements.length ≤ n + 1) : endOf r n = r.length := by
  simp [endOf, List.getElem?_eq_none h]

/-- The elements' extent as R16 asks for it: from 0, each at least 100 mm long (items 1, 2, 3 and 11). -/
structure ElementsFit (r : SectionRecord) : Prop where
  nonempty : r.elements ≠ []
  first : ∀ e, r.elements.head? = some e → e.start = 0
  lengths : ∀ (j : Nat) (h : j + 1 < r.elements.length), r.elements[j].start + 100 ≤ r.elements[j + 1].start
  last : ∀ e, r.elements.getLast? = some e → e.start + 100 ≤ r.length

theorem elementsFit_iff (r : SectionRecord) :
    ElementsFit r ↔ ∀ n, ¬CheckRow r 1 n ∧ ¬CheckRow r 2 n ∧ ¬CheckRow r 3 n ∧ ¬CheckRow r 11 n := by
  constructor
  · rintro ⟨nonempty, first, lengths, last⟩ n
    refine ⟨?_, ?_, ?_, fun h => nonempty h.2⟩
    · rintro ⟨rfl, e, he, start⟩
      exact start (first e (by rwa [List.head?_eq_getElem?]))
    · rintro ⟨pos, a, b, ha, hb, start⟩
      obtain ⟨hn, rfl⟩ := List.getElem?_eq_some_iff.1 hb
      obtain ⟨hm, rfl⟩ := List.getElem?_eq_some_iff.1 ha
      obtain ⟨m, rfl⟩ : ∃ m, n = m + 1 := ⟨n - 1, by omega⟩
      have := lengths m hn
      simp only [Nat.add_sub_cancel] at start
      omega
    · rintro ⟨e, he, short⟩
      obtain ⟨hn, rfl⟩ := List.getElem?_eq_some_iff.1 he
      by_cases hl : n + 1 < r.elements.length
      · rw [endOf_of_lt hl] at short
        have := lengths n hl
        omega
      · rw [endOf_last (by omega)] at short
        have := last r.elements[n] (by rw [List.getLast?_eq_getElem?, ← he]; congr 1; omega)
        omega
  · intro h
    refine ⟨fun he => (h 0).2.2.2 ⟨rfl, he⟩, fun e he => ?_, fun j hj => ?_, fun e he => ?_⟩
    · by_contra start
      exact (h 0).1 ⟨rfl, e, by rwa [← List.head?_eq_getElem?], start⟩
    · by_contra short
      refine (h j).2.2.1 ⟨r.elements[j], List.getElem?_eq_getElem _, ?_⟩
      rw [endOf_of_lt hj]
      omega
    · by_contra short
      rw [List.getLast?_eq_getElem?] at he
      refine (h _).2.2.1 ⟨e, he, ?_⟩
      rw [endOf_last (by omega)]
      omega

/-- An element's own fields as R16 asks for them (items 4 to 7). -/
def Element.FieldsFit (e : Element) : Prop :=
  e.curvatureStart.natAbs ≤ 100000 ∧ e.curvatureEnd.natAbs ≤ 100000 ∧
    (e.kind = .straight → e.curvatureStart = 0 ∧ e.curvatureEnd = 0) ∧
    (e.kind = .arc → e.curvatureStart = e.curvatureEnd ∧ e.curvatureStart ≠ 0) ∧
    ∀ c, e.clearance = some c → 500 ≤ c ∧ c ≤ 6000

theorem fieldsFit_iff (r : SectionRecord) : (∀ e ∈ r.elements, e.FieldsFit) ↔
    ∀ n, ¬CheckRow r 4 n ∧ ¬CheckRow r 5 n ∧ ¬CheckRow r 6 n ∧ ¬CheckRow r 7 n := by
  constructor
  · intro h n
    refine ⟨?_, ?_, ?_, ?_⟩ <;> rintro ⟨e, he, fails⟩ <;>
      obtain ⟨starts, ends, straight, arc, clearance⟩ := h e (List.mem_of_getElem? he)
    · have := straight fails.1
      omega
    · have := arc fails.1
      omega
    · omega
    · obtain ⟨c, hc, bad⟩ := fails
      have := clearance c hc
      omega
  · intro h e he
    obtain ⟨n, hn⟩ := List.mem_iff_getElem?.1 he
    obtain ⟨straight, arc, beyond, clearance⟩ := h n
    have notBeyond : ¬(100000 < e.curvatureStart.natAbs ∨ 100000 < e.curvatureEnd.natAbs) :=
      fun bad => beyond ⟨e, hn, bad⟩
    refine ⟨by omega, by omega, fun hk => ?_, fun hk => ?_, fun c hc => ?_⟩
    · have : ¬(e.curvatureStart ≠ 0 ∨ e.curvatureEnd ≠ 0) := fun bad => straight ⟨e, hn, hk, bad⟩
      omega
    · have : ¬(e.curvatureStart ≠ e.curvatureEnd ∨ e.curvatureStart = 0) := fun bad => arc ⟨e, hn, hk, bad⟩
      omega
    · have : ¬(c < 500 ∨ 6000 < c) := fun bad => clearance ⟨e, hn, c, hc, bad⟩
      omega

/-- The markers as R16 asks for them: within the section and 1,000 mm apart (items 8 to 10). -/
def SectionRecord.MarkersFit (r : SectionRecord) : Prop :=
  (∀ m ∈ r.markers, m.chainage ≤ r.length) ∧
    ∀ (j : Nat) (h : j + 1 < r.markers.length), r.markers[j].chainage + 1000 ≤ r.markers[j + 1].chainage

theorem markersFit_iff (r : SectionRecord) :
    r.MarkersFit ↔ ∀ n, ¬CheckRow r 8 n ∧ ¬CheckRow r 9 n ∧ ¬CheckRow r 10 n := by
  constructor
  · rintro ⟨within, apart⟩ n
    have spaced : ∀ a b, 0 < n → r.markers[n - 1]? = some a → r.markers[n]? = some b →
        a.chainage + 1000 ≤ b.chainage := by
      intro a b pos ha hb
      obtain ⟨hn, rfl⟩ := List.getElem?_eq_some_iff.1 hb
      obtain ⟨hm, rfl⟩ := List.getElem?_eq_some_iff.1 ha
      obtain ⟨m, rfl⟩ : ∃ m, n = m + 1 := ⟨n - 1, by omega⟩
      simpa using apart m hn
    refine ⟨?_, ?_, ?_⟩
    · rintro ⟨m, hm, beyond⟩
      have := within m (List.mem_of_getElem? hm)
      omega
    all_goals
      rintro ⟨pos, a, b, ha, hb, near⟩
      have := spaced a b pos ha hb
      omega
  · intro h
    refine ⟨fun m hm => ?_, fun j hj => ?_⟩
    · obtain ⟨n, hn⟩ := List.mem_iff_getElem?.1 hm
      by_contra beyond
      exact (h n).1 ⟨m, hn, by omega⟩
    · by_contra near
      exact (h (j + 1)).2.2 ⟨by omega, r.markers[j], r.markers[j + 1], List.getElem?_eq_getElem (by omega),
        List.getElem?_eq_getElem hj, by omega⟩

theorem closeCheckPassesExactly : Claims.CloseCheckPassesExactly := by
  intro r
  rw [closeCheck_eq_none_iff]
  constructor
  · intro h
    obtain ⟨nonempty, first, lengths, last⟩ := (elementsFit_iff r).2 fun n => ⟨h 1 n, h 2 n, h 3 n, h 11 n⟩
    have fields := (fieldsFit_iff r).2 fun n => ⟨h 4 n, h 5 n, h 6 n, h 7 n⟩
    have markers := (markersFit_iff r).2 fun n => ⟨h 8 n, h 9 n, h 10 n⟩
    exact ⟨nonempty, first, lengths, last, fields, markers⟩
  · rintro ⟨nonempty, first, lengths, last, fields, markers⟩ code n
    obtain ⟨row1, row2, row3, row11⟩ := (elementsFit_iff r).1 ⟨nonempty, first, lengths, last⟩ n
    obtain ⟨row4, row5, row6, row7⟩ := (fieldsFit_iff r).1 fields n
    obtain ⟨row8, row9, row10⟩ := (markersFit_iff r).1 markers n
    match code with
    | 0 => exact id
    | 1 => exact row1
    | 2 => exact row2
    | 3 => exact row3
    | 4 => exact row4
    | 5 => exact row5
    | 6 => exact row6
    | 7 => exact row7
    | 8 => exact row8
    | 9 => exact row9
    | 10 => exact row10
    | 11 => exact row11
    | m + 12 => exact id

/-! ## SEC.CLOSE and the end of its check (R15, R17) -/

theorem secCloseStartsTheCheck : Claims.SecCloseStartsTheCheck := by
  intro s r i hc hk hl hi
  have served := State.serve_taken (mine := anyBody) (owner := ownSecClose) hc hk (lengthIs_of_eq hl) rfl
  have named : sectionOf? (fieldU r.body 0 1) = some i := by rw [hi, sectionOf?_id]
  refine ⟨_, rfl, fun hs => ?_, fun hs => ?_⟩
  · rw [served, ownSecClose, named]
    show s.onlyAnswers (if s.store.sections[i].state ≠ .loading then _ else _) r _ _
    rw [if_pos hs]
    rfl
  · rw [served, ownSecClose, named]
    show (if s.store.sections[i].state ≠ .loading then _ else _) = _
    rw [if_neg (not_not.2 hs)]
    simp only [closeDuration, ← Nat.add_assoc]
    rfl

theorem closeCheckDecidesTheSection : Claims.CloseCheckDecidesTheSection := by
  intro s tag i endsAt hp hh
  refine ⟨_, rfl, ?_⟩
  rw [State.whileRunning_of_running hp, State.completeClose, hh]
  dsimp only
  cases closeCheck s.store.sections[i] with
  | none => rfl
  | some found => rfl

/-- Settles O15: the close check from the rows of its table, SEC.CLOSE and the check's end from their definitions. -/
theorem closeChecksTheSection : Obligations.CloseChecksTheSection :=
  ⟨secCloseStartsTheCheck, closeCheckDecidesTheSection, closeCheckPassesExactly, closeCheckReportsTheFirstFailure⟩

end Sys2Proof.Machine
end

