-- ==== Sys2Proof/Proofs/Loading.lean ====
section
/-!
SUPPORT. SEC.PUT and SEC.MARK (R12 to R14): settles O14.
-/
namespace Sys2Proof.Machine

/-! ## Records stored in order (R13) -/

/-- The first `n` records written over a list from an index on: the first of them in place of old elements, the others
behind them (R13). -/
def overwrite (records : List Element) (n index : Nat) (els : List Element) : List Element :=
  els.take index ++ records.take n ++ els.drop (index + n)

@[simp] theorem overwrite_zero (records : List Element) (index : Nat) (els : List Element) :
    overwrite records 0 index els = els := by simp [overwrite]

/-- The first record replaces the element of its index. -/
theorem overwrite_replaces (e : Element) (rest : List Element) (n : Nat) {index : Nat} {els : List Element}
    (h : index < els.length) :
    overwrite (e :: rest) (n + 1) index els = overwrite rest n (index + 1) (els.set index e) := by
  have taken : (els.set index e).take (index + 1) = els.take index ++ [e] := by
    rw [List.take_add_one, List.take_set_of_le (Nat.le_refl index)]
    simp [h]
  have dropped : (els.set index e).drop (index + 1 + n) = els.drop (index + (n + 1)) := by
    rw [List.drop_set_of_lt (by omega), Nat.add_right_comm, Nat.add_assoc]
  simp [overwrite, taken, dropped]

/-- The first record joins a list behind its last element. -/
theorem overwrite_appends (e : Element) (rest : List Element) (n : Nat) (els : List Element) :
    overwrite (e :: rest) (n + 1) els.length els = overwrite rest n (els.length + 1) (els ++ [e]) := by
  have dropped : (els ++ [e]).drop (els.length + 1 + n) = els.drop (els.length + (n + 1)) := by
    rw [List.drop_of_length_le (by simp), List.drop_of_length_le (by omega)]
  simp [overwrite, dropped, List.take_of_length_le]

/-- Records written over a list do not shorten it. -/
theorem length_le_overwrite {records : List Element} {n index : Nat} {els : List Element}
    (hn : n ≤ records.length) (hi : index ≤ els.length) : els.length ≤ (overwrite records n index els).length := by
  simp only [overwrite, List.length_append, List.length_take, List.length_drop]
  omega

/-- How many of `n` records are stored from an index on, over `len` elements with `pool` free slots (R13). -/
def storedOf (n index len pool : Nat) : Nat := min n (min (128 - index) (len - index + pool))

/-- What SEC.PUT stores (R13): the records that have an index below 128 and find a place among the old elements or the
free slots. -/
theorem putRecords_eq (records : List Element) (index : Nat) (els : List Element) (pool : Nat)
    (h : index ≤ els.length) :
    let stored := storedOf records.length index els.length pool
    let new := overwrite records stored index els
    putRecords index els pool records = (new, pool - (new.length - els.length), stored) := by
  induction records generalizing index els pool with
  | nil => simp [putRecords, storedOf]
  | cons e rest ih =>
    unfold putRecords
    dsimp only [List.length_cons]
    by_cases full : Config.maxElements ≤ index
    · have none : storedOf (rest.length + 1) index els.length pool = 0 := by
        simp only [Config.maxElements] at full
        simp only [storedOf]
        omega
      simp [full, none]
    · have room : index < 128 := by simpa [Config.maxElements] using full
      rw [if_neg full]
      by_cases old : index < els.length
      · have one : storedOf (rest.length + 1) index els.length pool =
            storedOf rest.length (index + 1) els.length pool + 1 := by
          simp only [storedOf]
          omega
        have step := ih (index + 1) (els.set index e) pool (by simpa using old)
        rw [List.length_set] at step
        rw [if_pos old, step, one, overwrite_replaces e rest _ old]
      · obtain rfl : index = els.length := by omega
        rw [if_neg old]
        by_cases empty : pool = 0
        · have none : storedOf (rest.length + 1) els.length els.length pool = 0 := by
            simp only [storedOf]
            omega
          rw [if_pos empty, none]
          simp
        · have one : storedOf (rest.length + 1) els.length els.length pool =
              storedOf rest.length (els.length + 1) (els.length + 1) (pool - 1) + 1 := by
            simp only [storedOf]
            omega
          have step := ih (els.length + 1) (els ++ [e]) (pool - 1) (by simp)
          simp only [List.length_append, List.length_singleton] at step
          have longer := length_le_overwrite (records := rest) (index := els.length + 1) (els := els ++ [e])
            (n := storedOf rest.length (els.length + 1) (els.length + 1) (pool - 1)) (by simp only [storedOf]; omega)
            (by simp)
          simp only [List.length_append, List.length_singleton] at longer
          rw [if_neg empty, step, one, overwrite_appends e rest]
          simp only [Prod.mk.injEq, true_and, and_true]
          omega

/-! ## Records of a body (R202) -/

/-- The records of a body, one after the other. -/
theorem recordsOf_eq_map (width count : Nat) (bytes : List Byte) :
    recordsOf width count bytes = (List.range count).map fun j => (bytes.drop (width * j)).take width := by
  induction count generalizing bytes with
  | zero => rfl
  | succ n ih =>
    rw [recordsOf, ih, List.range_succ_eq_map]
    simp [List.drop_drop, Nat.mul_succ, Nat.add_comm]

/-- A field of a record that lies in a body is a field of the body. -/
theorem fieldU_record {body : List Byte} {o w n m : Nat} (h : n + m ≤ w) :
    fieldU ((body.drop o).take w) n m = fieldU body (o + n) m := by
  simp only [fieldU, List.drop_take, List.drop_drop, List.take_take]
  rw [Nat.min_eq_left (by omega)]

/-- A list whose every member is read is read whole. -/
theorem mapM_eq_some {α β : Type} {f : α → Option β} {l : List α} {out : List β} (hl : l.length = out.length)
    (h : ∀ (j : Nat) (hj : j < l.length), f l[j] = some (out[j]'(hl ▸ hj))) : l.mapM f = some out := by
  induction l generalizing out with
  | nil =>
    obtain rfl := List.length_eq_zero_iff.1 hl.symm
    rfl
  | cons a rest ih =>
    obtain ⟨b, out, rfl⟩ := List.exists_cons_of_length_eq_add_one hl.symm
    have first : f a = some b := h 0 (by simp)
    have others := ih (out := out) (by simpa using hl) fun j hj => h (j + 1) (by simpa using hj)
    simp [List.mapM_cons, first, others]

/-- The records of a SEC.PUT body (R202). -/
theorem elementsOf?_eq_some {body : List Byte} {records : List Element}
    (hl : body.length = 2 + 11 * records.length)
    (h : ∀ (j : Nat) (hj : j < records.length), elementOf? ((body.drop (2 + 11 * j)).take 11) = some records[j]) :
    elementsOf? body = some records := by
  have count : (body.length - 2) / 11 = records.length := by omega
  unfold elementsOf?
  rw [count, recordsOf_eq_map]
  refine mapM_eq_some (by simp) fun j hj => ?_
  simpa [List.drop_drop] using h j (by simpa using hj)

/-! ## SEC.PUT (R12, R13) -/

/-- SEC.PUT with a section named and records read (R12, R13). -/
theorem ownSecPut_eq {body : List Byte} {i : Fin 32} {records : List Element} {s : State} {g : Store}
    (hg : s.store = g) (hi : fieldU body 0 1 = i.val + 1) (hr : elementsOf? body = some records) :
    let start := fieldU body 1 1
    let old := g.sections[i].elements
    let stored := storedOf records.length start old.length g.freePool
    let new := overwrite records stored start old
    let pool := g.freePool - (new.length - old.length)
    ownSecPut body s =
      if g.sections[i].state ≠ .loading then (s, Answer.plain .badState)
      else if old.length < start then (s, Answer.plain .outOfRange)
      else ((s.setPool pool).setSection i fun r => { r with elements := new },
        ⟨if stored < records.length then .noSpace else .ok, [u8 stored, u8 new.length] ++ be 2 pool⟩) := by
  subst hg
  dsimp only
  simp only [ownSecPut, hi, sectionOf?_id, hr]
  by_cases loading : s.store.sections[i].state ≠ .loading
  · rw [if_pos loading, if_pos loading]
  · rw [if_neg loading, if_neg loading]
    by_cases short : s.store.sections[i].elements.length < fieldU body 1 1
    · rw [if_pos short, if_pos short]
    · rw [if_neg short, if_neg short, putRecords_eq records _ _ _ (by omega)]
      rfl

/-- A SEC.PUT body of 1 to 16 records fits (R201). -/
theorem fitsSecPut_of_length {body : List Byte} {n : Nat} (h1 : 1 ≤ n) (h16 : n ≤ 16)
    (hl : body.length = 2 + 11 * n) : fitsSecPut body = true := by
  unfold fitsSecPut
  exact decide_eq_true (by omega)

theorem secPutStoresWhatFits : Claims.SecPutStoresWhatFits := by
  intro s r i records hc hk h1 h16 hl hi hr
  have hf := fitsSecPut_of_length h1 h16 hl
  have own := ownSecPut_eq s.popRequest_store hi (elementsOf?_eq_some hl hr)
  refine ⟨_, rfl, ?_⟩
  dsimp only at own ⊢
  by_cases loading : s.store.sections[i].state ≠ .loading
  · rw [if_pos loading] at own ⊢
    exact State.onlyAnswers_of_owner hc hk hf rfl own
  · rw [if_neg loading] at own ⊢
    by_cases short : s.store.sections[i].elements.length < fieldU r.body 1 1
    · rw [if_pos short] at own ⊢
      exact State.onlyAnswers_of_owner hc hk hf rfl own
    · rw [if_neg short] at own ⊢
      obtain ⟨answered, rest, store⟩ := State.serveAct_store (mine := anyBody) hc hk hf rfl own rfl
      exact ⟨answered, by rw [rest, store]; rfl⟩

/-! ## SEC.MARK (R14) -/

/-- The records of a SEC.MARK body (R202). -/
def marksOf (body : List Byte) (n : Nat) : List Marker :=
  (List.range n).map fun j => ⟨fieldU body (1 + 5 * j) 3, fieldU body (4 + 5 * j) 2⟩

theorem recordsOf_markers {body : List Byte} {n : Nat} (hl : body.length = 1 + 5 * n) :
    (recordsOf 5 ((body.length - 1) / 5) (body.drop 1)).map markerOf = marksOf body n := by
  have count : (body.length - 1) / 5 = n := by omega
  rw [count, recordsOf_eq_map, List.map_map]
  refine List.map_congr_left fun j _ => ?_
  simp only [Function.comp_apply, markerOf, List.drop_drop]
  rw [fieldU_record (by omega), fieldU_record (by omega), Nat.add_zero, show 1 + 5 * j + 3 = 4 + 5 * j by omega]

/-- SEC.MARK with a section named and records read (R14). -/
theorem ownSecMark_eq {body : List Byte} {i : Fin 32} {n : Nat} {s : State} {g : Store} (hg : s.store = g)
    (hi : fieldU body 0 1 = i.val + 1) (hl : body.length = 1 + 5 * n) : ownSecMark body s =
      if ∃ m ∈ marksOf body n, m.halfWidth < 100 ∨ 5000 < m.halfWidth then (s, Answer.plain .outOfRange)
      else if g.sections[i].state ≠ .loading then (s, Answer.plain .badState)
      else (s.setSection i fun r => { r with markers := marksOf body n }, ⟨.ok, [u8 n]⟩) := by
  subst hg
  have length : (marksOf body n).length = n := by simp [marksOf]
  simp only [ownSecMark, hi, sectionOf?_id, recordsOf_markers hl, length, List.any_eq_true, decide_eq_true_eq]

theorem secMarkReplacesTheMarkers : Claims.SecMarkReplacesTheMarkers := by
  intro s r i n hc hk hn hl hi
  have hf : fitsSecMark r.body = true := decide_eq_true (by omega)
  have own := ownSecMark_eq s.popRequest_store hi hl
  refine ⟨_, rfl, ?_⟩
  change if ∃ m ∈ marksOf r.body n, m.halfWidth < 100 ∨ 5000 < m.halfWidth then _ else _
  by_cases wide : ∃ m ∈ marksOf r.body n, m.halfWidth < 100 ∨ 5000 < m.halfWidth
  · rw [if_pos wide] at own ⊢
    exact State.onlyAnswers_of_owner hc hk hf rfl own
  · rw [if_neg wide] at own ⊢
    by_cases loading : s.store.sections[i].state ≠ .loading
    · rw [if_pos loading] at own ⊢
      exact State.onlyAnswers_of_owner hc hk hf rfl own
    · rw [if_neg loading] at own ⊢
      obtain ⟨answered, rest, store⟩ := State.serveAct_store (mine := anyBody) hc hk hf rfl own rfl
      exact ⟨answered, by rw [rest, store]; rfl⟩

/-- Settles O14: SEC.PUT from what its records overwrite, SEC.MARK from the records of its body. -/
theorem loadingSectionsTakeRecords : Obligations.LoadingSectionsTakeRecords :=
  ⟨secPutStoresWhatFits, secMarkReplacesTheMarkers⟩

end Sys2Proof.Machine
end

