-- ==== Sys2Proof/Proofs/GeometrySound.lean ====
section
/-!
SUPPORT. What one edit of the geometry store can do, and that every step makes only such edits; the store (R1, R3, R8, R9)
and its READY sections (R17) stay sound under each of them: settles O55.
-/
namespace Sys2Proof.Machine

/-! ## Edits of the store -/

/-- The second store differs from the first at one section and in the pool count at most. -/
structure OneSection (g h : Store) (i : Fin 32) : Prop where
  points : h.points = g.points
  others : ∀ j, j ≠ i → h.sections[j] = g.sections[j]

/-- The second store is the first but for links, points records and occupancy counts. -/
structure Relinked (g h : Store) : Prop where
  pool : h.freePool = g.freePool
  sections : ∀ i : Fin 32, h.sections[i] =
    { g.sections[i] with low := h.sections[i].low, high := h.sections[i].high, occupancy := h.sections[i].occupancy }

/-- What one edit makes of a store: nothing but counts, a reset, a FREE section opened (R10), a section that stays in use
written (R11 to R17), two ends joined (R18), an end unlinked (R19), a section without links freed (R20), points
defined (R22), removed (R23) or set (R24). -/
inductive StoreEdit (g h : Store) : Prop where
  | same (geometry : g.SameGeometry h)
  | reset (initial : h = Store.initial)
  | opened (i : Fin 32) (rest : OneSection g h i) (pool : h.freePool = g.freePool) (free : g.sections[i].state = .free)
      (state : h.sections[i].state = .loading) (elements : h.sections[i].elements = [])
      (low : h.sections[i].low = .none) (high : h.sections[i].high = .none)
  | written (i : Fin 32) (rest : OneSection g h i)
      (pool : h.freePool + h.sections[i].elements.length = g.freePool + g.sections[i].elements.length)
      (bound : g.sections[i].elements.length ≤ 128 → h.sections[i].elements.length ≤ 128)
      (used : h.sections[i].state ≠ .free) (ready : h.sections[i].state = .ready → closeCheck h.sections[i] = none)
      (low : h.sections[i].low = g.sections[i].low) (high : h.sections[i].high = g.sections[i].high)
  | joined (a b : EndRef) (rest : Relinked g h) (points : h.points = g.points) (apart : a ≠ b)
      (usedA : g.sections[a.sec].state ≠ .free) (usedB : g.sections[b.sec].state ≠ .free)
      (openA : g.linkOf a = .none ∨ g.linkOf a = .sec b.sec b.side)
      (openB : g.linkOf b = .none ∨ g.linkOf b = .sec a.sec a.side)
      (atA : h.linkOf a = .sec b.sec b.side) (atB : h.linkOf b = .sec a.sec a.side)
      (others : ∀ e, e ≠ a → e ≠ b → h.linkOf e = g.linkOf e)
  | unlinked (a : EndRef) (rest : Relinked g h) (points : h.points = g.points) (plain : (g.linkOf a).isPoints = false)
      (links : ∀ e : EndRef, h.linkOf e = if e = a ∨ g.linkOf a = .sec e.sec e.side then .none else g.linkOf e)
  | freed (i : Fin 32) (rest : OneSection g h i) (pool : h.freePool = g.freePool + g.sections[i].elements.length)
      (low : g.sections[i].low = .none) (high : g.sections[i].high = .none)
      (record : h.sections[i] = { SectionRecord.initial with occupancy := g.sections[i].occupancy })
  | defined (i : Fin 16) (p : PointsRecord) (rest : Relinked g h)
      (points : h.points = g.points.set i.val (some p) i.isLt) (apart : p.Apart) (undefined : g.points[i] = none)
      (used : ∀ role, g.sections[(p.member role).sec].state ≠ .free) (bare : ∀ role, g.linkOf (p.member role) = .none)
      (atMembers : ∀ role, h.linkOf (p.member role) = .points i role)
      (others : ∀ e : EndRef, (∀ role, e ≠ p.member role) → h.linkOf e = g.linkOf e)
  | removed (i : Fin 16) (p : PointsRecord) (rest : Relinked g h)
      (points : h.points = g.points.set i.val none i.isLt) (defined : g.points[i] = some p)
      (atMembers : ∀ role, h.linkOf (p.member role) = .none)
      (others : ∀ e : EndRef, (∀ role, e ≠ p.member role) → h.linkOf e = g.linkOf e)
  | set (i : Fin 16) (p : PointsRecord) (setting : Setting) (defined : g.points[i] = some p)
      (pool : h.freePool = g.freePool) (sections : h.sections = g.sections)
      (points : h.points = g.points.set i.val (some { p with setting := setting }) i.isLt)

/-! ## Slots (R3) -/

/-- The slots used are the sum over the sections. -/
theorem Store.slotsUsed_eq_sum (g : Store) : g.slotsUsed = ∑ i : Fin 32, g.sections[i].elements.length := by
  rw [Store.slotsUsed, Fin.sum_univ_def]

/-- Where one section's elements change, the slots used change by as many. -/
theorem OneSection.slotsUsed {g h : Store} {i : Fin 32} (rest : OneSection g h i) :
    h.slotsUsed + g.sections[i].elements.length = g.slotsUsed + h.sections[i].elements.length := by
  rw [Store.slotsUsed_eq_sum, Store.slotsUsed_eq_sum, ← Finset.add_sum_erase _ _ (Finset.mem_univ i),
    ← Finset.add_sum_erase Finset.univ (fun j : Fin 32 => g.sections[j].elements.length) (Finset.mem_univ i)]
  have others : ∑ j ∈ Finset.univ.erase i, h.sections[j].elements.length =
      ∑ j ∈ Finset.univ.erase i, g.sections[j].elements.length :=
    Finset.sum_congr rfl fun j hj => by rw [rest.others j (Finset.ne_of_mem_erase hj)]
  omega

/-- Where no section's elements change, the slots used stay. -/
theorem Store.slotsUsed_congr {g h : Store} (e : ∀ i : Fin 32, h.sections[i].elements = g.sections[i].elements) :
    h.slotsUsed = g.slotsUsed := by
  rw [Store.slotsUsed_eq_sum, Store.slotsUsed_eq_sum]
  exact Finset.sum_congr rfl fun i _ => by rw [e i]

/-! ## Links (R8) -/

/-- The links and the points records as R8 has them. -/
structure LinksSound (links : EndRef → Link) (points : Vector (Option PointsRecord) 16) : Prop where
  noSelf : ∀ a, links a ≠ .sec a.sec a.side
  mutual_ : ∀ a b : EndRef, links a = .sec b.sec b.side → links b = .sec a.sec a.side
  members : ∀ (a : EndRef) (id : Fin 16) (role : PointsRole),
    links a = .points id role ↔ ∃ p, points[id] = some p ∧ p.member role = a

variable {g h : Store}

/-- Links that stand as they stood are sound. -/
theorem LinksSound.congr {links links' : EndRef → Link} {points points' : Vector (Option PointsRecord) 16}
    (sound : LinksSound links points) (hl : ∀ e, links' e = links e) (hp : points' = points) :
    LinksSound links' points' := by
  obtain rfl : links' = links := funext hl
  subst hp
  exact sound

/-- SECTION links name different ends (R7). -/
theorem link_sec_inj {a b : EndRef} : Link.sec a.sec a.side = Link.sec b.sec b.side ↔ a = b := by
  cases a; cases b; simp

section Relinking
variable {links links' : EndRef → Link} {points : Vector (Option PointsRecord) 16} {a b : EndRef} {i : Fin 16}
  {p : PointsRecord}

/-- A points record written stands at its place, and the others stay. -/
theorem points_set (x : Option PointsRecord) (id : Fin 16) :
    (points.set i.val x i.isLt)[id] = if id = i then x else points[id] := by
  simp [Vector.getElem_set, Fin.ext_iff, eq_comm]

/-- A member end holds its POINTS link. -/
theorem LinksSound.atMember (sound : LinksSound links points) (hp : points[i] = some p) (role : PointsRole) :
    links (p.member role) = .points i role := (sound.members _ i role).2 ⟨p, hp, rfl⟩

/-- The member ends of an apart record tell their roles. -/
theorem PointsRecord.Apart.member_inj (apart : p.Apart) {x y : PointsRole} : p.member x = p.member y ↔ x = y := by
  obtain ⟨h1, h2, h3⟩ := apart
  cases x <;> cases y <;> simp [PointsRecord.member, h1, h2, h3, h1.symm, h2.symm, h3.symm]

/-- Two open ends joined (R18). -/
theorem LinksSound.join (sound : LinksSound links points) (apart : a ≠ b)
    (openA : links a = .none ∨ links a = .sec b.sec b.side) (openB : links b = .none ∨ links b = .sec a.sec a.side)
    (atA : links' a = .sec b.sec b.side) (atB : links' b = .sec a.sec a.side)
    (others : ∀ e, e ≠ a → e ≠ b → links' e = links e) : LinksSound links' points := by
  -- another end is linked to neither, since neither is linked to it
  have away : ∀ {e x : EndRef}, e ≠ a → e ≠ b → links e = .sec x.sec x.side → x ≠ a ∧ x ≠ b := by
    intro e x ea eb he
    have back := sound.mutual_ e x he
    constructor <;> rintro rfl
    · rcases openA with h | h <;> rw [h] at back
      · cases back
      · exact eb (link_sec_inj.1 back).symm
    · rcases openB with h | h <;> rw [h] at back
      · cases back
      · exact ea (link_sec_inj.1 back).symm
  constructor
  case noSelf =>
    intro e he
    by_cases ea : e = a
    · subst ea
      exact apart (link_sec_inj.1 (he.symm.trans atA))
    by_cases eb : e = b
    · subst eb
      exact apart (link_sec_inj.1 (atB.symm.trans he))
    exact sound.noSelf e (others e ea eb ▸ he)
  case mutual_ =>
    intro x y hx
    by_cases xa : x = a
    · subst xa
      obtain rfl := link_sec_inj.1 (hx.symm.trans atA)
      exact atB
    by_cases xb : x = b
    · subst xb
      obtain rfl := link_sec_inj.1 (hx.symm.trans atB)
      exact atA
    rw [others x xa xb] at hx
    obtain ⟨ya, yb⟩ := away xa xb hx
    rw [others y ya yb]
    exact sound.mutual_ x y hx
  case members =>
    intro e id role
    rw [← sound.members]
    by_cases ea : e = a
    · subst ea
      rcases openA with h | h <;> simp [h, atA]
    by_cases eb : e = b
    · subst eb
      rcases openB with h | h <;> simp [h, atB]
    rw [others e ea eb]

/-- An end that is no member end unlinked (R19). -/
theorem LinksSound.unlink (sound : LinksSound links points) (plain : (links a).isPoints = false)
    (h : ∀ e : EndRef, links' e = if e = a ∨ links a = .sec e.sec e.side then .none else links e) :
    LinksSound links' points := by
  constructor
  case noSelf =>
    intro e
    rw [h]
    split_ifs
    · simp
    · exact sound.noSelf e
  case mutual_ =>
    intro x y hx
    rw [h] at hx
    split_ifs at hx with hc
    obtain ⟨xa, ax⟩ := not_or.1 hc
    have back := sound.mutual_ x y hx
    have stays : ¬(y = a ∨ links a = .sec y.sec y.side) := by
      rintro (rfl | ay)
      · exact ax back
      · exact xa (link_sec_inj.1 (back.symm.trans (sound.mutual_ a y ay)))
    rw [h, if_neg stays]
    exact back
  case members =>
    intro e id role
    rw [← sound.members, h]
    split_ifs with hc
    · rcases hc with rfl | ae
      · cases hl : links e <;> simp_all [Link.isPoints]
      · simp [sound.mutual_ a e ae]
    · rfl

/-- Where member ends alone are relinked, and hold no SECTION link before or after, the SECTION links stay sound. -/
theorem LinksSound.aside (sound : LinksSound links points)
    (before : ∀ role (e : EndRef), links (p.member role) ≠ .sec e.sec e.side)
    (after : ∀ role (e : EndRef), links' (p.member role) ≠ .sec e.sec e.side)
    (others : ∀ e : EndRef, (∀ role, e ≠ p.member role) → links' e = links e) :
    (∀ a, links' a ≠ .sec a.sec a.side) ∧
      ∀ a b : EndRef, links' a = .sec b.sec b.side → links' b = .sec a.sec a.side := by
  refine ⟨fun e he => ?_, fun x y hx => ?_⟩
  · have apart : ∀ role, e ≠ p.member role := by
      rintro role rfl
      exact after role _ he
    exact sound.noSelf e (others e apart ▸ he)
  · have apart : ∀ role, x ≠ p.member role := by
      rintro role rfl
      exact after role _ hx
    have back := sound.mutual_ x y (others x apart ▸ hx)
    rw [others y (by rintro role rfl; exact before role _ back)]
    exact back

/-- Points defined at three bare ends (R22). -/
theorem LinksSound.define (sound : LinksSound links points) (apart : p.Apart) (undefined : points[i] = none)
    (bare : ∀ role, links (p.member role) = .none) (atMembers : ∀ role, links' (p.member role) = .points i role)
    (others : ∀ e : EndRef, (∀ role, e ≠ p.member role) → links' e = links e) :
    LinksSound links' (points.set i.val (some p) i.isLt) := by
  obtain ⟨noSelf, mutual_⟩ := sound.aside (fun role e => by simp [bare]) (fun role e => by simp [atMembers]) others
  refine ⟨noSelf, mutual_, fun e id role => ?_⟩
  have old := sound.members e id role
  rw [points_set]
  by_cases he : ∀ role, e ≠ p.member role
  · rw [others e he, old]
    by_cases hid : id = i
    · subst hid
      simp [undefined, (he role).symm]
    · rw [if_neg hid]
  · obtain ⟨own, rfl⟩ := by simpa using he
    rw [atMembers]
    by_cases hid : id = i
    · subst hid
      simp [apart.member_inj, eq_comm]
    · rw [if_neg hid, ← old, bare]
      simp [Ne.symm hid]

/-- Points removed (R23). -/
theorem LinksSound.remove (sound : LinksSound links points) (defined : points[i] = some p)
    (atMembers : ∀ role, links' (p.member role) = .none)
    (others : ∀ e : EndRef, (∀ role, e ≠ p.member role) → links' e = links e) :
    LinksSound links' (points.set i.val none i.isLt) := by
  have atOld := sound.atMember defined
  obtain ⟨noSelf, mutual_⟩ := sound.aside (fun role e => by simp [atOld]) (fun role e => by simp [atMembers]) others
  refine ⟨noSelf, mutual_, fun e id role => ?_⟩
  have old := sound.members e id role
  rw [points_set]
  by_cases he : ∀ role, e ≠ p.member role
  · rw [others e he, old]
    by_cases hid : id = i
    · subst hid
      simp [defined, (he role).symm]
    · rw [if_neg hid]
  · obtain ⟨own, rfl⟩ := by simpa using he
    rw [atMembers]
    by_cases hid : id = i
    · simp [hid]
    · rw [if_neg hid, ← old, atOld]
      simp [Ne.symm hid]

/-- Points set another way (R24). -/
theorem LinksSound.set (sound : LinksSound links points) (defined : points[i] = some p) (setting : Setting) :
    LinksSound links (points.set i.val (some { p with setting := setting }) i.isLt) := by
  refine ⟨sound.noSelf, sound.mutual_, fun e id role => ?_⟩
  rw [sound.members, points_set]
  by_cases hid : id = i
  · subst hid
    cases role <;> simp [defined, PointsRecord.member]
  · rw [if_neg hid]

end Relinking

/-! ## Edits keep the store sound (R1, R3, R8) -/

/-- A FREE section is empty (R1). -/
def SectionRecord.EmptyIfFree (r : SectionRecord) : Prop :=
  r.state = .free → r.elements = [] ∧ r.markers = [] ∧ r.low = .none ∧ r.high = .none

theorem storeSound_iff (g : Store) : StoreSound g ↔
    g.freePool + g.slotsUsed = 1024 ∧ (∀ i : Fin 32, g.sections[i].EmptyIfFree) ∧ LinksSound g.linkOf g.points :=
  ⟨fun ⟨pool, free, noSelf, links, members⟩ => ⟨pool, free, noSelf, links, members⟩,
    fun ⟨pool, free, noSelf, links, members⟩ => ⟨pool, free, noSelf, links, members⟩⟩

/-- What changes one section alone keeps the store sound, where the slots are balanced and the section's links stay. -/
theorem OneSection.storeSound {i : Fin 32} (rest : OneSection g h i) (sound : StoreSound g)
    (pool : h.freePool + h.sections[i].elements.length = g.freePool + g.sections[i].elements.length)
    (empty : h.sections[i].EmptyIfFree) (low : h.sections[i].low = g.sections[i].low)
    (high : h.sections[i].high = g.sections[i].high) : StoreSound h := by
  obtain ⟨slots, free, links⟩ := (storeSound_iff g).1 sound
  refine (storeSound_iff h).2 ⟨?_, fun j => ?_, links.congr (fun ⟨j, side⟩ => ?_) rest.points⟩
  · have := rest.slotsUsed
    omega
  · by_cases hj : j = i
    · exact hj ▸ empty
    · exact rest.others j hj ▸ free j
  · by_cases hj : j = i
    · subst hj
      cases side
      · exact low
      · exact high
    · exact congrArg (SectionRecord.linkAt · side) (rest.others j hj)

/-- What changes links and points alone keeps the store sound, where it leaves the ends of FREE sections bare and the links
sound. -/
theorem Relinked.storeSound (rest : Relinked g h) (sound : StoreSound g)
    (bare : ∀ e : EndRef, g.sections[e.sec].state = .free → g.linkOf e = .none → h.linkOf e = .none)
    (links : LinksSound h.linkOf h.points) : StoreSound h := by
  have slots : h.slotsUsed = g.slotsUsed := Store.slotsUsed_congr fun i => by rw [rest.sections i]
  refine (storeSound_iff h).2 ⟨by rw [rest.pool, slots, sound.pool], fun i free => ?_, links⟩
  rw [rest.sections i] at free
  obtain ⟨elements, markers, low, high⟩ := sound.free i free
  refine ⟨?_, ?_, bare ⟨i, .low⟩ free low, bare ⟨i, .high⟩ free high⟩
  · rw [rest.sections i]
    exact elements
  · rw [rest.sections i]
    exact markers

theorem Store.SameGeometry.relinked (same : g.SameGeometry h) : Relinked g h :=
  ⟨same.1, fun i => by rw [same.2.2 i]⟩

theorem Store.SameGeometry.linkOf (same : g.SameGeometry h) (e : EndRef) : h.linkOf e = g.linkOf e := by
  obtain ⟨i, side⟩ := e
  rw [Store.linkOf, same.2.2 i, Store.linkOf]
  cases side <;> rfl

/-- The store after a reset is sound. -/
theorem storeSound_initial : StoreSound Store.initial := by
  have record : ∀ i : Fin 32, Store.initial.sections[i] = SectionRecord.initial := fun i => by simp [Store.initial]
  have link : ∀ e, Store.initial.linkOf e = .none := fun ⟨i, side⟩ => by
    cases side <;> simp [Store.linkOf, SectionRecord.linkAt, Store.initial, SectionRecord.initial]
  refine (storeSound_iff _).2 ⟨?_, fun i _ => ?_, ?_, ?_, ?_⟩
  · have slots : Store.initial.slotsUsed = 0 := by
      simp [Store.slotsUsed_eq_sum, Store.initial, SectionRecord.initial]
    rw [slots]
    rfl
  · rw [record]
    exact ⟨rfl, rfl, rfl, rfl⟩
  · simp [link]
  · simp [link]
  · intro e id role
    rw [link, show Store.initial.points[id] = none by simp [Store.initial]]
    simp

/-- An edit keeps the store sound. -/
theorem StoreEdit.storeSound (edit : StoreEdit g h) (sound : StoreSound g) : StoreSound h := by
  obtain ⟨-, -, links⟩ := (storeSound_iff g).1 sound
  cases edit with
  | same geometry =>
    have same := geometry.linkOf
    exact geometry.relinked.storeSound sound (fun e _ bare => (same e).trans bare) (links.congr same geometry.2.1)
  | reset initial => exact initial ▸ storeSound_initial
  | opened i rest pool free state elements low high =>
    obtain ⟨elements', -, low', high'⟩ := sound.free i free
    exact rest.storeSound sound (by rw [elements, elements', pool]) (by intro free'; cases state.symm.trans free')
      (by rw [low, low']) (by rw [high, high'])
  | written i rest pool bound used ready low high => exact rest.storeSound sound pool (absurd · used) low high
  | freed i rest pool low high record =>
    refine rest.storeSound sound ?_ ?_ ?_ ?_ <;> rw [record]
    · exact pool
    · exact fun _ => ⟨rfl, rfl, rfl, rfl⟩
    · exact low.symm
    · exact high.symm
  | joined a b rest points apart usedA usedB openA openB atA atB others =>
    refine rest.storeSound sound (fun e free bare => ?_) (points ▸ links.join apart openA openB atA atB others)
    rw [others e (by rintro rfl; exact usedA free) (by rintro rfl; exact usedB free)]
    exact bare
  | unlinked a rest points plain after =>
    refine rest.storeSound sound (fun e _ bare => ?_) (points ▸ links.unlink plain after)
    rw [after, bare, ite_self]
  | defined i p rest points apart undefined used bare atMembers others =>
    refine rest.storeSound sound (fun e free bare => ?_)
      (points ▸ links.define apart undefined bare atMembers others)
    rw [others e (by rintro role rfl; exact used role free)]
    exact bare
  | removed i p rest points defined atMembers others =>
    refine rest.storeSound sound (fun e _ bare => ?_) (points ▸ links.remove defined atMembers others)
    by_cases he : ∀ role, e ≠ p.member role
    · rw [others e he]
      exact bare
    · obtain ⟨role, rfl⟩ := by simpa using he
      exact atMembers role
  | set i p setting defined pool sections points =>
    have rest : Relinked g h := ⟨pool, fun i => by rw [sections]⟩
    have same : ∀ e, h.linkOf e = g.linkOf e := fun e => by rw [Store.linkOf, sections, Store.linkOf]
    refine rest.storeSound sound (fun e _ bare => (same e).trans bare) ?_
    exact (points ▸ links.set defined setting).congr same rfl

/-! ## Edits keep READY sections sound (R17) -/

/-- What the invariant of READY sections says of one section (R1, R17). -/
def SectionRecord.Ready (r : SectionRecord) : Prop :=
  r.elements.length ≤ 128 ∧ (r.state = .ready → ReadySection r)

theorem readySound_iff (g : Store) : ReadySound g ↔ ∀ i : Fin 32, g.sections[i].Ready :=
  ⟨fun ⟨elements, ready⟩ i => ⟨elements i, ready i⟩, fun h => ⟨fun i => (h i).1, fun i => (h i).2⟩⟩

/-- The state, the elements and the length of a section decide it. -/
theorem SectionRecord.Ready.congr {r q : SectionRecord} (ready : r.Ready) (state : q.state = r.state)
    (elements : q.elements = r.elements) (length : q.length = r.length) : q.Ready := by
  refine ⟨elements ▸ ready.1, fun hq => ?_⟩
  obtain ⟨count, first, lengths, last⟩ := ready.2 (state ▸ hq)
  constructor
  · rw [elements]; exact count
  · rw [elements]; exact first
  · simpa only [elements] using lengths
  · rw [elements, length]; exact last

/-- A section that passes the close check is as a READY section must be (R16, R17). -/
theorem readySection_of_closeCheck {r : SectionRecord} (passes : closeCheck r = none) (bound : r.elements.length ≤ 128) :
    ReadySection r := by
  obtain ⟨nonempty, first, lengths, last, -⟩ := (closeCheckPassesExactly r).1 passes
  exact ⟨⟨List.length_pos_iff.2 nonempty, bound⟩, first, lengths, last⟩

/-- What changes one section alone keeps READY sections sound, where that section is. -/
theorem OneSection.readySound {i : Fin 32} (rest : OneSection g h i) (sound : ReadySound g)
    (ready : h.sections[i].Ready) : ReadySound h := by
  refine (readySound_iff h).2 fun j => ?_
  by_cases hj : j = i
  · exact hj ▸ ready
  · exact rest.others j hj ▸ (readySound_iff g).1 sound j

/-- What changes links and points alone keeps READY sections sound. -/
theorem Relinked.readySound (rest : Relinked g h) (sound : ReadySound g) : ReadySound h :=
  (readySound_iff h).2 fun i => ((readySound_iff g).1 sound i).congr (by rw [rest.sections i])
    (by rw [rest.sections i]) (by rw [rest.sections i])

/-- A section without elements that is not READY. -/
theorem SectionRecord.ready_of_empty {r : SectionRecord} (elements : r.elements = []) (state : r.state ≠ .ready) :
    r.Ready := ⟨by simp [elements], fun ready => absurd ready state⟩

theorem readySound_initial : ReadySound Store.initial :=
  (readySound_iff _).2 fun i => by
    rw [show Store.initial.sections[i] = SectionRecord.initial by simp [Store.initial]]
    exact SectionRecord.ready_of_empty rfl (by decide)

/-- An edit keeps READY sections sound. -/
theorem StoreEdit.readySound (edit : StoreEdit g h) (sound : ReadySound g) : ReadySound h := by
  cases edit with
  | same geometry => exact geometry.relinked.readySound sound
  | reset initial => exact initial ▸ readySound_initial
  | opened i rest pool free state elements low high =>
    exact rest.readySound sound (SectionRecord.ready_of_empty elements (by rw [state]; decide))
  | written i rest pool bound used ready low high =>
    have length := bound (sound.elements i)
    exact rest.readySound sound ⟨length, fun state => readySection_of_closeCheck (ready state) length⟩
  | freed i rest pool low high record =>
    refine rest.readySound sound ?_
    rw [record]
    exact SectionRecord.ready_of_empty rfl (by simp [SectionRecord.initial])
  | joined _ _ rest | unlinked _ rest | defined _ _ rest | removed _ _ rest => exact rest.readySound sound
  | set i p setting defined pool sections points =>
    exact Relinked.readySound ⟨pool, fun i => by rw [sections]⟩ sound

/-! ## What the operations of the store edit -/

/-- The second store comes from the first by edits. -/
abbrev Edits (g h : Store) : Prop := Relation.ReflTransGen StoreEdit g h

variable {s t u : State}

/-- Edits keep the store and its READY sections sound. -/
theorem Edits.sound (edits : Edits g h) :
    (StoreSound g → StoreSound h) ∧ (ReadySound g → ReadySound h) := by
  induction edits with
  | refl => exact ⟨id, id⟩
  | tail _ edit ih => exact ⟨edit.storeSound ∘ ih.1, edit.readySound ∘ ih.2⟩

theorem Store.SameButLinks.relinked (same : g.SameButLinks h) : Relinked g h := by
  obtain ⟨rest, sections⟩ := same
  exact ⟨by rw [rest], fun i => by rw [sections i]⟩

theorem Store.SameButLinks.points (same : g.SameButLinks h) : h.points = g.points := by rw [same.1]

/-- A section changed is the one section that differs. -/
theorem oneSection_setSection (s : State) (i : Fin 32) (f : SectionRecord → SectionRecord) :
    OneSection s.store (s.setSection i f).store i :=
  ⟨rfl, fun j hj => by rw [State.setSection_store]; exact changeAt_other _ i j f hj⟩

/-- A section changed stands as the change makes it. -/
theorem section_setSection (s : State) (i : Fin 32) (f : SectionRecord → SectionRecord) :
    (s.setSection i f).store.sections[i] = f s.store.sections[i] := by
  rw [State.setSection_store]
  exact changeAt_same _ i f

/-- A section in use written, with its slots taken from or given to the pool. -/
theorem edits_written (s : State) (i : Fin 32) {n : Nat} {f : SectionRecord → SectionRecord}
    {r : SectionRecord} (hr : s.store.sections[i] = r)
    (pool : n + (f r).elements.length = s.store.freePool + r.elements.length)
    (bound : r.elements.length ≤ 128 → (f r).elements.length ≤ 128) (used : (f r).state ≠ .free)
    (ready : (f r).state = .ready → closeCheck (f r) = none) (low : (f r).low = r.low) (high : (f r).high = r.high) :
    Edits s.store ((s.setPool n).setSection i f).store := by
  subst hr
  have rest : OneSection s.store ((s.setPool n).setSection i f).store i :=
    ⟨rfl, (oneSection_setSection (s.setPool n) i f).others⟩
  have atI : ((s.setPool n).setSection i f).store.sections[i] = f s.store.sections[i] :=
    section_setSection (s.setPool n) i f
  refine .single (.written i rest ?_ ?_ ?_ ?_ ?_ ?_) <;> rw [atI]
  exacts [pool, bound, used, ready, low, high]

/-- A section in use written with its elements kept. -/
theorem edits_writtenInPlace (s : State) (i : Fin 32) {f : SectionRecord → SectionRecord} {r : SectionRecord}
    (hr : s.store.sections[i] = r) (elements : (f r).elements = r.elements) (used : (f r).state ≠ .free)
    (ready : (f r).state = .ready → closeCheck (f r) = none) (low : (f r).low = r.low) (high : (f r).high = r.high) :
    Edits s.store (s.setSection i f).store :=
  edits_written s i (n := s.store.freePool) hr (by rw [elements]) (by rw [elements]; exact id) used ready low high

/-- An end that is no member end unlinked. -/
theorem edits_unlink (s : State) (e : EndRef) (plain : (s.store.linkOf e).isPoints = false) :
    Edits s.store (s.unlink e).store :=
  have same := s.unlink_sameButLinks e
  .single (.unlinked e same.relinked same.points plain fun x => s.linkOf_unlink e x plain)

/-! ## What the owners edit -/

theorem edits_ownSecOpen (body : List Byte) (u : State) : Edits u.store (ownSecOpen body u).1.store := by
  unfold ownSecOpen
  dsimp only
  split
  · exact .refl
  · split
    · exact .refl
    · next i _ _ =>
      split
      · exact .refl
      · exact .refl
      · next free =>
        have atI := section_setSection u i fun r =>
          { r with state := .loading, length := fieldU body 1 3, clearance := fieldU body 4 2, elements := [], markers := [],
                   low := .none, high := .none }
        refine .single (.opened i (oneSection_setSection u i _) rfl free ?_ ?_ ?_ ?_) <;> rw [State.openFree, atI]
      · split
        · exact .refl
        · exact edits_written u i rfl rfl (by simp) (by simp) (by simp) rfl rfl

theorem edits_ownSecPut (body : List Byte) (u : State) : Edits u.store (ownSecPut body u).1.store := by
  unfold ownSecPut
  dsimp only
  split
  · next i records _ _ =>
    split
    · exact .refl
    · next loading =>
      split
      · exact .refl
      · next gap =>
        rw [putRecords_eq records _ _ _ (Nat.le_of_not_lt gap)]
        refine edits_written u i rfl ?_ ?_ ?_ ?_ rfl rfl <;>
          simp only [overwrite, storedOf, List.length_append, List.length_take, List.length_drop]
        · omega
        · omega
        · rw [not_not.1 loading]
          decide
        · rw [not_not.1 loading]
          exact (absurd · (by decide))
  · exact .refl

theorem edits_ownSecMark (body : List Byte) (u : State) : Edits u.store (ownSecMark body u).1.store := by
  unfold ownSecMark
  dsimp only
  split
  · exact .refl
  · split
    · exact .refl
    · split
      · exact .refl
      · next loading =>
        refine edits_writtenInPlace u _ rfl rfl ?_ ?_ rfl rfl
        · rw [not_not.1 loading]
          decide
        · rw [not_not.1 loading]
          exact (absurd · (by decide))

theorem edits_ownSecClose (r : Frame) (u : State) : Edits u.store (ownSecClose r u).store := by
  unfold ownSecClose
  split
  · exact .refl
  · split
    · exact .refl
    · exact edits_writtenInPlace u _ rfl rfl (by simp) (by simp) rfl rfl

theorem edits_completeClose (u : State) : Edits u.store u.completeClose.store := by
  unfold State.completeClose
  split
  · exact .refl
  · next tag i endsAt _ =>
    dsimp only
    split
    · next passes =>
      rw [State.queueReply_store]
      exact edits_writtenInPlace ((u.reach endsAt).changeLink fun l => { l with handler := .idle }) i rfl rfl (by simp)
        (fun _ => passes) rfl rfl
    · rw [State.queueReply_store]
      exact edits_writtenInPlace ((u.reach endsAt).changeLink fun l => { l with handler := .idle }) i rfl rfl (by simp)
        (by simp) rfl rfl

theorem edits_ownSecJoin (body : List Byte) (u : State) : Edits u.store (ownSecJoin body u).1.store := by
  unfold ownSecJoin
  dsimp only
  split
  · exact .refl
  · split
    · next a b _ _ =>
      split
      · exact .refl
      · next apart =>
        split
        · exact .refl
        · next used =>
          split
          · exact .refl
          · split
            · exact .refl
            · split
              · exact .refl
              · next open_ =>
                obtain ⟨usedA, usedB⟩ := not_or.1 used
                obtain ⟨atA, atB, others⟩ := u.joined_links apart
                have same := (u.setLink_sameButLinks a (.sec b.sec b.side)).trans
                  (State.setLink_sameButLinks _ b (.sec a.sec a.side))
                refine .single (.joined a b same.relinked same.points apart usedA usedB ?_ ?_ atA atB others)
                · by_contra h
                  exact open_ (.inl (not_or.1 h))
                · by_contra h
                  exact open_ (.inr (not_or.1 h))
    · exact .refl

theorem edits_ownSecJoinNone (body : List Byte) (u : State) : Edits u.store (ownSecJoinNone body u).1.store := by
  unfold ownSecJoinNone
  dsimp only
  split
  · exact .refl
  · split
    · exact .refl
    · split
      · exact .refl
      · next plain =>
        split
        · exact .refl
        · exact edits_unlink u _ (by simpa using plain)

/-- A section dropped: both its ends unlinked, then the record freed (R20). -/
theorem edits_dropSection (u : State) (i : Fin 32) (low : (u.store.linkOf ⟨i, .low⟩).isPoints = false)
    (high : (u.store.linkOf ⟨i, .high⟩).isPoints = false) : Edits u.store (u.dropSection i).store := by
  have highPlain : ((u.unlink ⟨i, .low⟩).store.linkOf ⟨i, .high⟩).isPoints = false := by
    rw [u.linkOf_unlink _ _ low]
    split_ifs
    · rfl
    · exact high
  have bare : ∀ side, (u.unlinkBoth i).store.linkOf ⟨i, side⟩ = .none := by
    intro side
    cases side <;> simp [u.linkOf_unlinkBoth_eq i low high]
  have rest : OneSection (u.unlinkBoth i).store (u.dropSection i).store i :=
    ⟨rfl, (oneSection_setSection ((u.unlinkBoth i).setPool _) i _).others⟩
  refine ((edits_unlink u _ low).trans (edits_unlink _ _ highPlain)).trans
    (.single (.freed i rest rfl (bare .low) (bare .high) ?_))
  rw [u.dropSection_dropped i low high]
  show _ = { SectionRecord.initial with occupancy := (u.unlinkBoth i).store.sections[i].occupancy }
  rw [(u.unlinkBoth_sameButLinks i).2 i]

theorem edits_ownSecDrop (body : List Byte) (u : State) : Edits u.store (ownSecDrop body u).1.store := by
  unfold ownSecDrop
  dsimp only
  split
  · exact .refl
  · split
    · exact .refl
    · split
      · exact .refl
      · next plain =>
        split
        · exact .refl
        · obtain ⟨low, high⟩ := not_or.1 plain
          exact edits_dropSection u _ (Bool.eq_false_iff.2 low) (Bool.eq_false_iff.2 high)

/-- A points record written and its members relinked. -/
theorem relinked_setMembers (u : State) (i : Fin 16) (x : Option PointsRecord) (p : PointsRecord) (l : PointsRole → Link) :
    Relinked u.store ((u.setPoints i x).setMembers p l).store ∧
      ((u.setPoints i x).setMembers p l).store.points = u.store.points.set i.val x i.isLt := by
  have same := (u.setPoints i x).setMembers_sameButLinks p l
  exact ⟨⟨same.relinked.pool, same.relinked.sections⟩, same.points⟩

theorem edits_definePoints (u : State) (i : Fin 16) {p : PointsRecord} (setting : p.setting = .unknown) (apart : p.Apart)
    (undefined : u.store.points[i] = none) (used : ∀ role, u.store.sections[(p.member role).sec].state ≠ .free)
    (bare : ∀ role, u.store.linkOf (p.member role) = .none) :
    Edits u.store (u.definePoints i p.toe p.left p.right).store := by
  rw [u.definePoints_eq i p setting]
  obtain ⟨rest, points⟩ := relinked_setMembers u i (some p) p (.points i)
  exact .single (.defined i p rest points apart undefined used bare
    ((u.setPoints i (some p)).linkOf_setMembers_member p _ apart)
    ((u.setPoints i (some p)).linkOf_setMembers_other p _))

theorem edits_ownPtsDefine (body : List Byte) (u : State) : Edits u.store (ownPtsDefine body u).1.store := by
  unfold ownPtsDefine
  dsimp only
  split
  · next i toe left right _ _ _ _ =>
    split
    · exact .refl
    · next apart =>
      split
      · exact .refl
      · next undefined =>
        split
        · exact .refl
        · next used =>
          split
          · exact .refl
          · split
            · exact .refl
            · next bare =>
              simp only [not_or, ne_eq, not_not] at apart used bare
              refine edits_definePoints u i (p := ⟨toe, left, right, .unknown⟩) rfl apart (by simpa using undefined)
                (fun role => ?_) fun role => ?_
              · cases role
                exacts [used.1, used.2.1, used.2.2]
              · cases role
                exacts [bare.1, bare.2.1, bare.2.2]
  · exact .refl

theorem edits_ownPtsRemove (body : List Byte) (u : State) : Edits u.store (ownPtsRemove body u).1.store := by
  unfold ownPtsRemove
  split
  · exact .refl
  · next i _ =>
    split
    · exact .refl
    · next p defined =>
      split
      · exact .refl
      · dsimp only
        rw [u.removePoints_eq i p]
        obtain ⟨rest, points⟩ := relinked_setMembers u i none p fun _ => .none
        exact .single (.removed i p rest points defined ((u.setPoints i none).linkOf_clearMembers p)
          ((u.setPoints i none).linkOf_setMembers_other p _))

theorem edits_ownPtsSet (body : List Byte) (u : State) : Edits u.store (ownPtsSet body u).1.store := by
  unfold ownPtsSet
  split
  · next i setting _ _ =>
    split
    · exact .refl
    · next p defined =>
      split
      · exact .refl
      · exact .single (.set i p setting defined rfl rfl rfl)
  · exact .refl

/-! ## Every command -/

/-- What a block does while the part runs edits what it edits. -/
theorem Edits.whileRunning {f : State → State} (edits : Edits s.store (f s).store) :
    Edits s.store (s.whileRunning f).store := by
  unfold State.whileRunning
  split
  · exact edits
  · exact .refl

/-- A request row edits what its owner edits (R189). -/
theorem Edits.serve {kind : Byte} {mine fits : List Byte → Bool} {owner : Frame → State → State}
    (edits : ∀ r u, Edits u.store (owner r u).store) : Edits s.store (s.serve kind mine fits owner).store := by
  rcases State.serve_cases (s := s) (kind := kind) (mine := mine) (fits := fits) owner with
    e | ⟨r, -, -, ⟨-, -, e⟩ | ⟨-, e⟩⟩ <;> rw [e]
  · exact edits r s.popRequest
  · rw [State.queueReply_store]
    exact .refl

/-- A request row whose owner answers edits what the owner's act edits. -/
theorem Edits.serveAct {kind : Byte} {mine fits : List Byte → Bool} {act : List Byte → State → State × Answer}
    (edits : ∀ body u, Edits u.store (act body u).1.store) : Edits s.store (s.serveAct kind mine fits act).store :=
  Edits.serve fun r u => by simpa using edits r.body u

/-- The levels acted on leave the store. -/
theorem State.settleAll_store (s : State) : s.settleAll.store = s.store := by
  unfold State.settleAll
  induction allChannels generalizing s with
  | nil => rfl
  | cons c rest ih => exact (ih _).trans (State.settle_store _ c)

/-- A reset leaves the store at its reset value (R198). -/
theorem State.resetBlocks_store (s : State) : s.resetBlocks.store = Store.initial := by
  rw [State.resetBlocks, State.settleAll_store]

theorem edits_resetBlocks (s u : State) : Edits s.store u.resetBlocks.store :=
  .single (.reset u.resetBlocks_store)

/-- Every command edits the store at most. -/
theorem exec_edits {c : Instr} (h : exec c s = .next t) : Edits s.store t.store := by
  have kept (owned : c ∉ ConfigPart.owners .geometry) (startUp : c ≠ .startUpEnd) (loss : c ≠ .supplyLoss)
      (sent : c ≠ .frameSent) (restart : c ≠ .restartTakesEffect) : Edits s.store t.store :=
    .single (.same (exec_keeps (p := .geometry) h startUp loss sent restart owned nofun))
  cases c
  case secOpen => cases h; exact Edits.serveAct edits_ownSecOpen
  case secPut => cases h; exact Edits.serveAct edits_ownSecPut
  case secMark => cases h; exact Edits.serveAct edits_ownSecMark
  case secClose => cases h; exact Edits.serve edits_ownSecClose
  case closeCheckComplete => cases h; exact Edits.whileRunning (edits_completeClose s)
  case secJoin => cases h; exact Edits.serveAct edits_ownSecJoin
  case secJoinNone => cases h; exact Edits.serveAct edits_ownSecJoinNone
  case secDrop => cases h; exact Edits.serveAct edits_ownSecDrop
  case ptsDefine => cases h; exact Edits.serveAct edits_ownPtsDefine
  case ptsRemove => cases h; exact Edits.serveAct edits_ownPtsRemove
  case ptsSet => cases h; exact Edits.serveAct edits_ownPtsSet
  case startUpEnd =>
    cases h
    unfold State.endStartUp
    split
    · exact edits_resetBlocks _ _
    · exact .refl
    · exact .refl
  case supplyLoss =>
    cases h
    unfold State.loseSupply
    split
    · exact .refl
    · exact .single (.reset rfl)
    · exact .single (.reset rfl)
  case frameSent =>
    cases h
    refine Edits.whileRunning ?_
    unfold State.endFrame
    split
    · exact .refl
    · dsimp only
      split
      · exact edits_resetBlocks _ _
      · exact .refl
  case restartTakesEffect =>
    cases h
    refine Edits.whileRunning ?_
    unfold State.restart
    split
    · exact edits_resetBlocks _ _
    · exact .refl
    · exact .refl
  all_goals exact kept (by simp [ConfigPart.owners]) nofun nofun nofun nofun

/-- Every step edits the store at most. -/
theorem step_edits (h : step s = .next t) : Edits s.store t.store := by
  unfold step at h
  split at h
  · cases h
    exact .refl
  · next rest _ => exact exec_edits (s := s.withPending rest) h

/-- Settles O55: every step only edits the store, and every edit keeps it sound. -/
theorem everyStepKeepsTheGeometrySound : Obligations.EveryStepKeepsTheGeometrySound :=
  ⟨fun _ _ sound h => (step_edits h).sound.1 sound, fun _ _ sound h => (step_edits h).sound.2 sound⟩

end Sys2Proof.Machine
end

