-- ==== Sys2Proof/Proofs/Ranges.lean ====
section
/-!
SUPPORT. Ids, codes and fields outside their ranges: settles O12.
-/
namespace Sys2Proof.Machine

variable {body : List Byte}

/-! ## Element records (R12, R202) -/

/-- A field of one byte is below 256. -/
theorem fieldU_one_lt (body : List Byte) (o : Nat) : fieldU body o 1 < 256 := by
  unfold fieldU
  cases body.drop o with
  | nil => simp [beNat]
  | cons b rest => simpa [beNat] using b.isLt

/-- A field of two bytes, from its high byte. -/
theorem fieldU_two {o : Nat} (h : o + 2 ≤ body.length) :
    fieldU body o 2 = 256 * fieldU body o 1 + fieldU body (o + 1) 1 := by
  have tail : body.drop (o + 1) = (body.drop o).drop 1 := by rw [List.drop_drop]
  unfold fieldU
  rw [tail]
  have two : 2 ≤ (body.drop o).length := by
    rw [List.length_drop]
    omega
  match body.drop o, two with
  | a :: b :: rest, _ => simp [beNat, Nat.mul_comm]

/-- A kind code above 2 is no element's. -/
theorem elementKindOf?_eq_none {n : Nat} (h : 2 < n) : elementKindOf? n = none := by
  obtain ⟨m, rfl⟩ : ∃ m, n = m + 3 := ⟨n - 3, by omega⟩
  rfl

/-- A record whose kind bits are 3 is no element's. -/
theorem elementOf?_eq_none {bytes : List Byte} (h : 49152 ≤ fieldU bytes 9 2) : elementOf? bytes = none := by
  unfold elementOf?
  dsimp only
  rw [elementKindOf?_eq_none (by omega)]
  rfl

/-- A list with a member that is not read is not read. -/
theorem mapM_eq_none {α β : Type} {f : α → Option β} {l : List α} {a : α} (mem : a ∈ l) (h : f a = none) :
    l.mapM f = none := by
  induction l with
  | nil => cases mem
  | cons b rest ih =>
    rw [List.mapM_cons]
    rcases List.mem_cons.1 mem with rfl | mem
    · simp [h]
    · cases f b <;> simp [ih mem]

/-- A SEC.PUT body with kind bits 3 in a record gives no records. -/
theorem elementsOf?_eq_none {k j : Nat} (length : body.length = 2 + 11 * k) (hj : j < k)
    (h : 192 ≤ fieldU body (2 + 11 * j + 9) 1) : elementsOf? body = none := by
  have count : (body.length - 2) / 11 = k := by omega
  have last := fieldU_two (body := body) (o := 2 + 11 * j + 9) (by omega)
  unfold elementsOf?
  rw [count, recordsOf_eq_map]
  refine mapM_eq_none (List.mem_map_of_mem (List.mem_range.2 hj)) (elementOf?_eq_none ?_)
  rw [List.drop_drop, fieldU_record (by omega), last]
  omega

/-! ## Stage entries (R93, R94) -/

/-- A role's code. -/
theorem roleOf?_eq_some {n : Nat} {r : Role} (h : roleOf? n = some r) : n = r.code := by
  unfold roleOf? at h
  split at h <;> cases h <;> rfl

/-- An owned entry with a field outside its range is no entry. -/
theorem stageEntryOf?_eq_none (owned : fieldU body 1 1 ≠ 255)
    (h : 3 < fieldU body 1 1 ∨ fieldU body 2 1 = 0 ∨ 7 < fieldU body 2 1 ∨ 31 < fieldU body 3 1 ∨
      fieldS body 4 3 < -1048576 ∨ 1048575 < fieldS body 4 3 ∨ 1000000 < (fieldS body 7 3).natAbs ∨
      1000000 < (fieldS body 10 3).natAbs ∨ 1000000 < (fieldS body 13 3).natAbs ∨ fieldS body 13 3 < fieldS body 10 3 ∨
      (fieldU body 2 1 ∈ [1, 2, 4, 5] ∧ fieldS body 10 3 < 0)) : stageEntryOf? body = none := by
  unfold stageEntryOf?
  rw [if_neg owned]
  split
  · next b r bogie role =>
    have owner : fieldU body 1 1 < 4 := by
      unfold bogieOf? at bogie
      split at bogie
      · assumption
      · cases bogie
    have code := roleOf?_eq_some role
    have range : 1 ≤ r.code ∧ r.code ≤ 7 := by cases r <;> decide
    have gap : fieldU body 2 1 ∈ [1, 2, 4, 5] → r.isGap = true := by
      rw [code]
      cases r <;> decide
    refine if_neg fun inRange => ?_
    simp only [StageEntry.inRange, decide_eq_true_eq] at inRange
    obtain ⟨input, low, high, offset, validLow, validHigh, ordered, gaps⟩ := inRange
    have : ¬(fieldU body 2 1 ∈ [1, 2, 4, 5] ∧ fieldS body 10 3 < 0) := fun ⟨mem, neg⟩ =>
      absurd (gaps (gap mem)) (by omega)
    simp only [this, or_false] at h
    omega
  · rfl

/-! ## Owners that a body names nothing to -/

/-- A code above 2 is no setting's. -/
theorem settingOf?_eq_none {n : Nat} (h : 2 < n) : settingOf? n = none := by
  obtain ⟨m, rfl⟩ : ∃ m, n = m + 3 := ⟨n - 3, by omega⟩
  rfl

/-- A code above 1 is no orientation's. -/
theorem orientationOf?_eq_none {n : Nat} (h : 1 < n) : orientationOf? n = none := by
  obtain ⟨m, rfl⟩ : ∃ m, n = m + 2 := ⟨n - 2, by omega⟩
  rfl

/-- A number that names no section, in the field at an offset (R1). -/
def BadSection (body : List Byte) (o : Nat) : Prop := fieldU body o 1 = 0 ∨ 32 < fieldU body o 1

section Owners
variable (u : State)

theorem ownSecPut_outOfRange (h : BadSection body 0 ∨ elementsOf? body = none) :
    ownSecPut body u = (u, Answer.plain .outOfRange) := by
  unfold ownSecPut
  rcases h with h | h
  · rw [sectionOf?_eq_none h]
  · rw [h]
    cases sectionOf? (fieldU body 0 1) <;> rfl

theorem ownSecMark_outOfRange (h : BadSection body 0) : ownSecMark body u = (u, Answer.plain .outOfRange) := by
  unfold ownSecMark
  rw [sectionOf?_eq_none h]

theorem ownSecDrop_outOfRange (h : BadSection body 0) : ownSecDrop body u = (u, Answer.plain .outOfRange) := by
  unfold ownSecDrop
  rw [sectionOf?_eq_none h]

theorem ownSecGet_outOfRange (h : BadSection body 0) : ownSecGet body u = (u, Answer.plain .outOfRange) := by
  unfold ownSecGet
  rw [sectionOf?_eq_none h]

theorem ownSecJoin_outOfRange (h : fieldU body 2 1 ≠ 1 ∨ endRefOf? body 0 = none ∨ endRefOf? body 3 = none) :
    ownSecJoin body u = (u, Answer.plain .outOfRange) := by
  unfold ownSecJoin
  by_cases kind : fieldU body 2 1 ≠ 1
  · rw [if_pos kind]
  · rw [if_neg kind]
    rcases h.resolve_left kind with h | h <;> rw [h]
    cases endRefOf? body 0 <;> rfl

theorem ownSecJoinNone_outOfRange (h : endRefOf? body 0 = none) :
    ownSecJoinNone body u = (u, Answer.plain .outOfRange) := by
  unfold ownSecJoinNone
  rw [h]

theorem ownPtsDefine_outOfRange (h : pointsOf? (fieldU body 0 1) = none ∨ endRefOf? body 1 = none ∨
    endRefOf? body 3 = none ∨ endRefOf? body 5 = none) : ownPtsDefine body u = (u, Answer.plain .outOfRange) := by
  unfold ownPtsDefine
  split
  · simp_all
  · rfl

theorem ownPtsRemove_outOfRange (h : pointsOf? (fieldU body 0 1) = none) :
    ownPtsRemove body u = (u, Answer.plain .outOfRange) := by
  unfold ownPtsRemove
  rw [h]

theorem ownPtsSet_outOfRange (h : pointsOf? (fieldU body 0 1) = none ∨ settingOf? (fieldU body 1 1) = none) :
    ownPtsSet body u = (u, Answer.plain .outOfRange) := by
  unfold ownPtsSet
  split
  · simp_all
  · rfl

theorem ownPosLocate_outOfRange (h : sectionOf? (fieldU body 0 1) = none ∨ orientationOf? (fieldU body 4 1) = none) :
    ownPosLocate body u = (u, Answer.plain .outOfRange) := by
  unfold ownPosLocate
  dsimp only
  split
  · simp_all
  · rfl

theorem ownStgSet_outOfRange (h : stageOf? (fieldU body 0 1) = none ∨ stageEntryOf? body = none) :
    ownStgSet body u = u.stageAnswer .outOfRange := by
  unfold ownStgSet
  split
  · simp_all
  · rfl

end Owners

/-! ## The requests -/

section Refused
variable {s : State} {r : Frame}

/-- A command refuses a request OUT_OF_RANGE with a body, and changes nothing. -/
def State.Refuses (s : State) (r : Frame) (c : Instr) (fields : List Byte) : Prop :=
  ∃ t, exec c s = .next t ∧ s.onlyAnswers t r .outOfRange fields

/-- A request row whose owner answers OUT_OF_RANGE refuses. -/
theorem State.refuses_of_owner {c : Instr} {kind : Byte} {mine fits : List Byte → Bool}
    {act : List Byte → State → State × Answer} {fields : List Byte}
    (row : exec c s = .next (s.serveAct kind mine fits act)) (hc : s.canTake r) (hk : r.kind = kind)
    (hf : fits r.body = true) (hm : mine r.body = true)
    (ha : act r.body s.popRequest = (s.popRequest, ⟨.outOfRange, fields⟩)) : s.Refuses r c fields :=
  ⟨_, row, State.onlyAnswers_of_owner hc hk hf hm ha⟩

/-- The lengths of a SEC.PUT body (R201). -/
theorem lengthFits_secPut {n : Nat} (h : lengthFits 0x11 n = true) : ∃ k, 1 ≤ k ∧ k ≤ 16 ∧ n = 2 + 11 * k := by
  simp only [lengthFits] at h
  obtain ⟨k, hk, rfl⟩ : ∃ k < 16, 13 + 11 * k = n := by simpa using h
  exact ⟨k + 1, by omega, by omega, by omega⟩

/-- The lengths of a SEC.MARK body (R201). -/
theorem lengthFits_secMark {n : Nat} (h : lengthFits 0x12 n = true) : ∃ k ≤ 8, n = 1 + 5 * k := by
  simp only [lengthFits] at h
  obtain ⟨k, hk, rfl⟩ : ∃ k < 9, 1 + 5 * k = n := by simpa using h
  exact ⟨k, by omega, rfl⟩

theorem refuses_badSection (hc : s.canTake r) {row : Instr × Byte}
    (hrow : row ∈ [(Instr.secPut, (0x11 : Byte)), (.secMark, 0x12), (.secClose, 0x13), (.secDrop, 0x15), (.secGet, 0x16)])
    (hk : r.kind = row.2) (hl : lengthFits r.kind r.body.length = true) (bad : BadSection r.body 0) :
    s.Refuses r row.1 [] := by
  simp only [List.mem_cons, List.not_mem_nil, or_false] at hrow
  rcases hrow with rfl | rfl | rfl | rfl | rfl <;> dsimp only at hk ⊢ <;> rw [hk] at hl
  · obtain ⟨k, low, high, length⟩ := lengthFits_secPut hl
    exact State.refuses_of_owner rfl hc hk (fitsSecPut_of_length low high length) rfl (ownSecPut_outOfRange _ (.inl bad))
  · obtain ⟨k, high, length⟩ := lengthFits_secMark hl
    exact State.refuses_of_owner rfl hc hk (decide_eq_true (by omega)) rfl (ownSecMark_outOfRange _ bad)
  · have length : r.body.length = 1 := by simpa [lengthFits] using hl
    have served := State.serve_taken (mine := anyBody) (owner := ownSecClose) hc hk (lengthIs_of_eq length) rfl
    refine ⟨_, rfl, ?_⟩
    rw [served, ownSecClose, sectionOf?_eq_none bad]
    rfl
  · have length : r.body.length = 1 := by simpa [lengthFits] using hl
    exact State.refuses_of_owner rfl hc hk (lengthIs_of_eq length) rfl (ownSecDrop_outOfRange _ bad)
  · have length : r.body.length = 3 := by simpa [lengthFits] using hl
    exact State.refuses_of_owner rfl hc hk (lengthIs_of_eq length) rfl (ownSecGet_outOfRange _ bad)

/-- Settles O12: each request from its owner's answer to a body that names nothing. -/
theorem fieldsOutOfRangeAreRefused : Obligations.FieldsOutOfRangeAreRefused := by
  intro s r hc
  dsimp only
  refine ⟨fun row hrow hk hl bad => refuses_badSection hc hrow hk hl bad, ?_, ?_, ?_, ?_, ?_, ?_, ?_, ?_⟩
  · rintro hk hl ⟨j, within, kind⟩
    rw [hk] at hl
    obtain ⟨k, low, high, length⟩ := lengthFits_secPut hl
    have unread := elementsOf?_eq_none length (j := j) (by omega) kind
    exact State.refuses_of_owner rfl hc hk (fitsSecPut_of_length low high length) rfl
      (ownSecPut_outOfRange _ (.inr unread))
  · intro hk length pos bad
    refine State.refuses_of_owner rfl hc hk (lengthIs_of_eq length) (by simp [joinsNone]; omega)
      (ownSecJoin_outOfRange _ ?_)
    rcases bad with bad | bad | bad | bad | bad
    · exact .inr (.inl (endRefOf?_eq_none (or_assoc.1 (.inl bad))))
    · exact .inr (.inl (endRefOf?_eq_none (.inr (.inr bad))))
    · exact .inl (by omega)
    · exact .inr (.inr (endRefOf?_eq_none (or_assoc.1 (.inl bad))))
    · exact .inr (.inr (endRefOf?_eq_none (.inr (.inr bad))))
  · intro hk length none_ bad
    exact State.refuses_of_owner rfl hc hk (lengthIs_of_eq length) (by simp [joinsNone, none_])
      (ownSecJoinNone_outOfRange _ (endRefOf?_eq_none (or_assoc.1 bad)))
  · intro hk length bad
    refine State.refuses_of_owner rfl hc hk (lengthIs_of_eq length) rfl (ownPtsDefine_outOfRange _ ?_)
    rcases bad with bad | bad | bad | bad | bad | bad | bad
    · exact .inl (pointsOf?_eq_none bad)
    · exact .inr (.inl (endRefOf?_eq_none (or_assoc.1 (.inl bad))))
    · exact .inr (.inl (endRefOf?_eq_none (.inr (.inr bad))))
    · exact .inr (.inr (.inl (endRefOf?_eq_none (or_assoc.1 (.inl bad)))))
    · exact .inr (.inr (.inl (endRefOf?_eq_none (.inr (.inr bad)))))
    · exact .inr (.inr (.inr (endRefOf?_eq_none (or_assoc.1 (.inl bad)))))
    · exact .inr (.inr (.inr (endRefOf?_eq_none (.inr (.inr bad)))))
  · intro hk length bad
    exact State.refuses_of_owner rfl hc hk (lengthIs_of_eq length) rfl
      (ownPtsRemove_outOfRange _ (pointsOf?_eq_none bad))
  · intro hk length bad
    exact State.refuses_of_owner rfl hc hk (lengthIs_of_eq length) rfl
      (ownPtsSet_outOfRange _ (bad.imp pointsOf?_eq_none settingOf?_eq_none))
  · intro hk length bad
    exact State.refuses_of_owner rfl hc hk (lengthIs_of_eq length) rfl
      (ownPosLocate_outOfRange _ (bad.imp sectionOf?_eq_none orientationOf?_eq_none))
  · intro hk length bad
    refine State.refuses_of_owner rfl hc hk (lengthIs_of_eq length) rfl (ownStgSet_outOfRange _ ?_)
    rcases bad with beyond | ⟨owned, bad⟩
    · exact .inl (dif_neg (by omega))
    · exact .inr (stageEntryOf?_eq_none owned bad)

end Refused

end Sys2Proof.Machine
end

