-- ==== Sys2Proof/Proofs/Curvature.lean ====
section
/-!
SUPPORT. The curvature and the clearance at a chainage (R4 to R6): settles O16.
-/
namespace Sys2Proof.Machine

/-! ## The rounding rule -/

/-- The rounded quotient, times the divisor, is the dividend to within half the divisor; a half goes up. -/
theorem roundNat_bounds (n : Nat) {b : Nat} (hb : 0 < b) :
    2 * n < 2 * (roundNat n b * b) + b ∧ 2 * (roundNat n b * b) ≤ 2 * n + b := by
  have div := Nat.div_add_mod (2 * n + b) (2 * b)
  have mod := Nat.mod_lt (2 * n + b) (show 0 < 2 * b by omega)
  have product : 2 * b * roundNat n b = 2 * (roundNat n b * b) := by ring
  rw [← roundNat, product] at div
  omega

theorem roundNat_zero {b : Nat} (hb : 0 < b) : roundNat 0 b = 0 := Nat.div_eq_of_lt (by omega)

/-- A negative dividend is rounded as its magnitude is. -/
theorem roundDiv_eq (a : Int) (b : Nat) :
    roundDiv a b = if 0 ≤ a then (roundNat a.natAbs b : Int) else -(roundNat a.natAbs b : Int) := rfl

/-- The rounded quotient is the nearest integer, a half going away from 0. -/
theorem roundDiv_nearest (a : Int) {b : Nat} (hb : 0 < b) :
    (2 * (roundDiv a b * b - a)).natAbs ≤ b ∧
      ((2 * (roundDiv a b * b - a)).natAbs = b → a.natAbs < (roundDiv a b * b).natAbs) := by
  have bounds := roundNat_bounds a.natAbs hb
  rw [roundDiv_eq]
  split_ifs
  · rw [← Nat.cast_mul]
    generalize roundNat a.natAbs b * b = m at bounds
    omega
  · rw [neg_mul, ← Nat.cast_mul]
    generalize roundNat a.natAbs b * b = m at bounds
    omega

/-- The rounded quotient of a part of a whole lies between 0 and the whole. -/
theorem roundDiv_part (d : Int) {p b : Nat} (hb : 0 < b) (hp : p ≤ b) :
    min 0 d ≤ roundDiv (d * p) b ∧ roundDiv (d * p) b ≤ max 0 d := by
  obtain ⟨-, high⟩ := roundNat_bounds (d * p).natAbs hb
  have part : (d * p).natAbs ≤ d.natAbs * b := by
    rw [Int.natAbs_mul, Int.natAbs_natCast]
    exact Nat.mul_le_mul_left _ hp
  have whole : roundNat (d * p).natAbs b ≤ d.natAbs := by
    by_contra above
    have := Nat.mul_le_mul_right b (Nat.lt_of_not_le above)
    rw [Nat.succ_mul] at this
    omega
  rw [roundDiv_eq]
  split_ifs with sign
  · rcases le_or_gt 0 d with up | down
    · omega
    · have zero : d * p = 0 := le_antisymm (mul_nonpos_of_nonpos_of_nonneg down.le (Int.natCast_nonneg p)) sign
      rw [zero, Int.natAbs_zero, roundNat_zero hb]
      omega
  · have down : d < 0 := lt_of_not_ge fun up => sign (mul_nonneg up (Int.natCast_nonneg p))
    omega

/-! ## The element at a chainage (R4) -/

/-- Where the element at an index ends: at the next one's start, the last where the list ends. -/
def stopAt (stop : Nat) (els : List Element) (j : Nat) : Nat :=
  match els[j + 1]? with
  | some f => f.start
  | none => stop

/-- From the first element's start on, a chainage is in an element. -/
theorem containing_eq_some (stop s : Nat) (els : List Element) (nonempty : els ≠ [])
    (first : ∀ e, els.head? = some e → e.start ≤ s) : ∃ j e, els[j]? = some e ∧ e.start ≤ s ∧
      (s < stopAt stop els j ∨ els[j + 1]? = none) ∧ containing stop s els = some (e, stopAt stop els j) := by
  induction els with
  | nil => exact absurd rfl nonempty
  | cons e rest ih =>
    have start : e.start ≤ s := first e rfl
    cases rest with
    | nil => exact ⟨0, e, rfl, start, .inr rfl, by simp [containing, stopAt, start]⟩
    | cons f rest =>
      by_cases beyond : f.start ≤ s
      · obtain ⟨j, x, at_, low, high, found⟩ := ih (by simp) (by simpa using beyond)
        exact ⟨j + 1, x, at_, low, high, by rw [containing, if_pos beyond, found]; rfl⟩
      · exact ⟨0, e, rfl, start, .inl (by simpa [stopAt] using beyond), by simp [containing, stopAt, start, beyond]⟩

theorem sectionsFindTheElement : Claims.SectionsFindTheElement := by
  intro r s ready _
  obtain ⟨⟨one, -⟩, first, -, -⟩ := ready
  obtain ⟨j, e, at_, low, high, found⟩ :=
    containing_eq_some r.length s r.elements (List.length_pos_iff.1 one) fun e he => by simp [first e he]
  refine ⟨j, e, stopAt r.length r.elements j, at_, rfl, low, high, ?_, ?_⟩
  · simp [SectionRecord.curvature, found]
  · simp [SectionRecord.clearanceAt, found]

/-! ## The curvature of an element (R5) -/

theorem curvatureAt_spiral {e : Element} (h : e.kind = .spiral) (stop x : Nat) : e.curvatureAt stop x =
    e.curvatureStart + roundDiv ((e.curvatureEnd - e.curvatureStart) * ((x : Int) - e.start)) (stop - e.start) := by
  simp [Element.curvatureAt, h]

theorem elementsGiveTheCurvature : Claims.ElementsGiveTheCurvature := by
  intro e stop x from_ to_ long
  refine ⟨fun h => by simp [Element.curvatureAt, h], fun h => by simp [Element.curvatureAt, h], fun h => ?_⟩
  obtain ⟨b, rfl⟩ : ∃ b, stop = e.start + b := ⟨stop - e.start, by omega⟩
  obtain ⟨p, rfl⟩ : ∃ p, x = e.start + p := ⟨x - e.start, by omega⟩
  have hb : 0 < b := by omega
  have stays := roundDiv_part (e.curvatureEnd - e.curvatureStart) hb (p := p) (by omega)
  have nearest := roundDiv_nearest ((e.curvatureEnd - e.curvatureStart) * p) hb
  rw [curvatureAt_spiral h]
  simp only [Nat.cast_add, add_sub_cancel_left, Nat.add_sub_cancel_left]
  refine ⟨by omega, by omega, fun hp => ?_, nearest⟩
  obtain rfl : p = 0 := by omega
  simp [roundDiv_eq, roundNat_zero hb]

/-- Settles O16: the curvature from the rounding rule, the element from the list's first start on. -/
theorem curvatureFollowsTheElement : Obligations.CurvatureFollowsTheElement :=
  ⟨elementsGiveTheCurvature, sectionsFindTheElement⟩

end Sys2Proof.Machine
end

