-- ==== Sys2Proof/Proofs/Reads.lean ====
section
/-!
SUPPORT. The requests that read: settles O53.
-/
namespace Sys2Proof.Machine

variable {body : List Byte}

/-! ## The ids in order -/

theorem allChannels_eq : allChannels = List.finRange 8 := by decide

theorem allWheels_eq : allWheels = List.finRange 16 := by decide

/-! ## SEC.GET and VEH.GET (R21, R38) -/

/-- SEC.GET with a section named (R21). -/
theorem ownSecGet_eq {i : Fin 32} {u : State} {g : Store} (hg : u.store = g) (hi : fieldU body 0 1 = i.val + 1) :
    ownSecGet body u =
      if fieldU body 2 1 = 0 ∨ 16 < fieldU body 2 1 then (u, Answer.plain .outOfRange)
      else if g.sections[i].state = .free then (u, Answer.plain .noSection)
      else (u, ⟨.ok, sectionReport u i (fieldU body 1 1) (fieldU body 2 1)⟩) := by
  subst hg
  simp [ownSecGet, hi]

theorem secGetReadsTheSection : Claims.SecGetReadsTheSection := by
  intro s r i hc hk hl hi
  have own := ownSecGet_eq s.popRequest_store hi
  refine ⟨_, rfl, ?_⟩
  dsimp only
  split_ifs at own ⊢ <;> exact State.onlyAnswers_of_owner hc hk (lengthIs_of_eq hl) rfl own

theorem vehGetReadsTheRecord : Claims.VehGetReadsTheRecord := by
  intro s r hc hk hl
  refine ⟨_, rfl, ?_⟩
  have own : ownVehGet r.body s.popRequest = match s.vehicle with
      | none => (s.popRequest, ⟨.ok, [0]⟩)
      | some v => (s.popRequest,
          ⟨.ok, [1] ++ v.encode ++ ((List.finRange 16).map fun w : Fin 16 => be 3 v.wheels[w].distance).flatten⟩) := by
    rw [← allWheels_eq]
    rfl
  cases hv : s.vehicle <;> rw [hv] at own <;> exact State.onlyAnswers_of_owner hc hk (lengthIs_of_eq hl) rfl own

/-! ## POS.GET (R59, R91) -/

theorem posGetReadsPositionAndPath : Claims.PosGetReadsPositionAndPath := by
  intro s r hc hk hl
  refine ⟨_, rfl, ?_⟩
  have slots : (allBogies.map (wheelSlot s)).flatten = wheelSlot s 0 ++ wheelSlot s 1 ++ wheelSlot s 2 ++ wheelSlot s 3 := by
    simp [allBogies]
  have own : ownPosGet r.body s.popRequest = (s.popRequest, ⟨.ok, s.tracker.published.encode ++ wheelSlot s 0 ++
      wheelSlot s 1 ++ wheelSlot s 2 ++ wheelSlot s 3 ++ [u8 s.path.length] ++ (s.path.map PathEntry.encode).flatten⟩) := by
    have whole : ownPosGet r.body s.popRequest = (s.popRequest, ⟨.ok, s.tracker.published.encode ++
      (allBogies.map (wheelSlot s)).flatten ++ [u8 s.path.length] ++ (s.path.map PathEntry.encode).flatten⟩) := rfl
    rw [whole, slots]
    simp only [List.append_assoc]
  exact State.onlyAnswers_of_owner hc hk (lengthIs_of_eq hl) rfl own

/-! ## STG.GET and LAW.GET (R96, R113) -/

/-- The body of an STG.GET reply after its head (R203). -/
theorem stageReport_eq (s : State) (start count : Nat) :
    let queue : List Byte := s.acquisition.queue.map fun q => u8 q.bogie.val
    stageReport s start count = [u8 (min count (32 - start))] ++
      ((((List.finRange 32).drop start).take count).map fun i : Fin 32 => s.acquisition.stages[i].encode i).flatten ++
      s.scheduleRecords ++ [u8 queue.length] ++ (queue ++ [255, 255, 255, 255]).take 4 ++
      [bogieByte (s.acquisition.converter.map fun c => c.scan.bogie)] := by
  have length : (((List.finRange 32).drop start).take count).length = min count (32 - start) := by simp
  dsimp only
  rw [stageReport, allStages, length, List.length_map]

theorem stgGetReadsTheTable : Claims.StgGetReadsTheTable := by
  intro s r hc hk hl
  refine ⟨_, rfl, ?_⟩
  have fits := lengthIs_of_eq hl
  dsimp only
  by_cases beyond : 31 < fieldU r.body 0 1 ∨ fieldU r.body 1 1 = 0 ∨ 8 < fieldU r.body 1 1
  · rw [if_pos beyond]
    exact State.onlyAnswers_of_owner hc hk fits rfl (if_pos (by omega))
  · rw [if_neg beyond]
    refine State.onlyAnswers_of_owner hc hk fits rfl ((if_neg (by omega)).trans ?_)
    rw [stageReport_eq]
    dsimp only [State.popRequest_acquisition]
    cases s.acquisition.converter <;> rfl

theorem lawGetReadsTheRecords : Claims.LawGetReadsTheRecords := by
  intro s r hc hk hl
  refine ⟨_, rfl, fun beyond => ?_, fun c b named bogie => ?_⟩
  · exact State.onlyAnswers_of_owner hc hk (lengthIs_of_eq hl) rfl (by rw [ownLawGet, channelOf?_none beyond]; rfl)
  · obtain rfl : bogieOf c = b := Fin.ext bogie
    exact State.onlyAnswers_of_owner hc hk (lengthIs_of_eq hl) rfl (by rw [ownLawGet, named, channelOf?_val]; rfl)

/-! ## CH.GET (R163) -/

/-- The field of a body of one byte. -/
theorem fieldU_singleton (n : Byte) : fieldU [n] 0 1 = n.toNat := beNat_singleton n

theorem chGetReadsTheStatus : Claims.ChGetReadsTheStatus := by
  intro s r hc hk
  have fits (h : r.body.length ≤ 1) : fitsChGet r.body = true := decide_eq_true h
  refine ⟨_, rfl, fun hl => ?_, fun hl beyond => ?_, fun c hl named => ?_⟩
  · refine State.onlyAnswers_of_owner hc hk (fits (by omega)) rfl ?_
    rw [List.length_eq_zero_iff.1 hl, ← allChannels_eq]
    rfl
  · obtain ⟨n, hn⟩ := List.length_eq_one_iff.1 hl
    rw [hn, fieldU_singleton] at beyond
    refine State.onlyAnswers_of_owner hc hk (fits (by omega)) rfl ?_
    rw [hn, ownChGet, channelOf?_none beyond]
    rfl
  · obtain ⟨n, hn⟩ := List.length_eq_one_iff.1 hl
    rw [hn, fieldU_singleton] at named
    refine State.onlyAnswers_of_owner hc hk (fits (by omega)) rfl ?_
    rw [hn, ownChGet, named, channelOf?_val]
    rfl

/-- The states that drive the actuator (R140). -/
theorem driven_iff (x : ChannelState) :
    x.driven = true ↔ x = .unlocking ∨ x = .steering ∨ x = .holding ∨ x = .returning := by
  cases x <;> decide

theorem channelStatusShowsTheChannel : Claims.ChannelStatusShowsTheChannel := by
  intro s c
  have driven : s.power = .running ∧ s.channels.bank[c].state.driven = true ↔ s.power = .running ∧
      (s.channels.bank[c].state = .unlocking ∨ s.channels.bank[c].state = .steering ∨
        s.channels.bank[c].state = .holding ∨ s.channels.bank[c].state = .returning) :=
    and_congr_right' (driven_iff _)
  refine ⟨rfl, rfl, rfl, rfl, rfl, rfl, rfl, rfl, rfl, decide_eq_true_iff.trans driven, decide_eq_true_iff.trans driven,
    rfl, rfl, rfl, rfl, fun stopped => ?_, fun at_ runs => ?_⟩
  · show s.lockRemaining c = 0
    rw [State.lockRemaining, stopped]
  · show (_ → s.lockRemaining c = 0) ∧ (_ → at_ ≤ s.clock + 1000 * s.lockRemaining c ∧
      s.clock + 1000 * s.lockRemaining c < at_ + 1000)
    rw [State.lockRemaining, runs]
    dsimp only
    omega

/-! ## CNT.GET (R179) -/

theorem cntGetReadsTheSnapshot : Claims.CntGetReadsTheSnapshot := by
  intro s r hc hk hl
  refine ⟨_, rfl, State.onlyAnswers_of_owner hc hk (lengthIs_of_eq hl) rfl ?_⟩
  have whole : ownCntGet r.body s.popRequest = (s.popRequest, ⟨.ok, s.monitor.snapshot.encode⟩) := rfl
  rw [whole, Snapshot.encode, allChannels_eq]
  simp only [List.map_cons, List.map_nil, List.flatten_cons, List.flatten_nil, List.append_nil, List.append_assoc]
  rfl

/-- Settles O53: each read from its owner's answer. -/
theorem readsAnswerWhatStands : Obligations.ReadsAnswerWhatStands :=
  ⟨secGetReadsTheSection, vehGetReadsTheRecord, posGetReadsPositionAndPath, stgGetReadsTheTable, lawGetReadsTheRecords,
    chGetReadsTheStatus, channelStatusShowsTheChannel, cntGetReadsTheSnapshot⟩

end Sys2Proof.Machine
end

