-- ==== Sys2Proof/Proofs/Reset.lean ====
section
/-!
SUPPORT. The state at reset, bank by bank: settles O4.
-/
namespace Sys2Proof.Machine

/-! ## The banks at reset -/

theorem reset_section (i : Fin 32) : State.reset.store.sections[i] = SectionRecord.initial := by
  simp [State.reset, Store.initial]

theorem reset_channel (c : Fin 8) : State.reset.channels.bank[c] = Channel.initial 0 := by
  simp [State.reset, Channels.initial]

theorem reset_drive (c : Fin 8) : State.reset.lines.drive[c] = ⟨false, false, false⟩ := by
  simp [State.reset, Lines.initial]

theorem reset_law (c : Fin 8) : State.reset.computation.laws[c] = LawRecord.default := by
  simp [State.reset, Computation.initial]

theorem reset_period (b : Fin 4) : State.reset.acquisition.periods[b] = 10 := by
  simp [State.reset, Acquisition.initial]

theorem reset_timer (b : Fin 4) : State.reset.acquisition.timers[b] = none := by
  simp [State.reset, Acquisition.initial]

theorem reset_stage (i : Fin 32) : State.reset.acquisition.stages[i] = StageEntry.released := by
  simp [State.reset, Acquisition.initial]

theorem reset_count (k : Fin 52) : State.reset.monitor.live.counts[k] = 0 := by
  simp [State.reset, Monitor.initial, CounterSet.zero]

theorem reset_peak (k : Fin 16) : State.reset.monitor.live.peaks[k] = 0 := by
  simp [State.reset, Monitor.initial, CounterSet.zero]

/-- Only UNLOCATED is present and latched (R164). -/
theorem reset_condition (i : Fin 48) : State.reset.monitor.conditions[i] =
    ⟨decide (i = ofVehicle .unlocated), decide (i = ofVehicle .unlocated), .off⟩ := by
  have unlocated : ofVehicle .unlocated = (40 : Fin 48) := by decide
  by_cases h : i = 40
  · subst h
    rfl
  · have apart : (40 : Nat) ≠ i.val := fun e => h (Fin.ext e.symm)
    simp [State.reset, Monitor.initial, unlocated, h, apart]

theorem reset_present (i : Fin 48) : State.reset.present i = decide (i = ofVehicle .unlocated) := by
  rw [State.present, reset_condition]

/-- The conditions of channels and of the vehicle are different instances. -/
theorem ofChannel_ne_ofVehicle (k : ChannelCondition) (c : Fin 8) (x : VehicleCondition) : ofChannel k c ≠ ofVehicle x := by
  intro h
  have := congrArg Fin.val h
  simp only [ofChannel, ofVehicle] at this
  omega

/-! ## The power-on values -/

theorem reset_notice (c : Fin 8) : resetNotice State.reset c = none := by
  rw [resetNotice, reset_drive]
  rfl

theorem resetState_reset : ResetState State.reset where
  power := rfl
  store := rfl
  path := rfl
  tracker := rfl
  acquisition := rfl
  computation := rfl
  permit := rfl
  bank c := by
    rw [reset_channel, reset_drive]
    rfl
  conditions i := by
    have quiet : (allChannels.any fun c =>
        decide (i = ofChannel .channelFault c) && State.reset.lines.drive[c].driveFault) = false := by
      simp only [reset_drive, Bool.and_false]
      rfl
    rw [reset_condition, resetCondition]
    rw [quiet, Bool.or_false]
  monitor := rfl
  link := by
    have none : allChannels.filterMap (resetNotice State.reset) = [] := by simp [reset_notice]
    rw [none]
    rfl

theorem resetStateHoldsThePowerOnValues : Claims.ResetStateHoldsThePowerOnValues := by
  refine ⟨resetState_reset, rfl, rfl, rfl, rfl, rfl, rfl, fun i => ?_, fun b => ⟨reset_period b, reset_timer b⟩,
    fun c => ?_, rfl, rfl, rfl, rfl⟩
  · rw [reset_section]
    exact ⟨rfl, rfl⟩
  · rw [reset_channel, reset_law]
    exact ⟨rfl, rfl, rfl⟩

/-! ## The invariants -/

theorem pathSound_reset : PathSound State.reset where
  length := Nat.zero_le _
  ready := nofun
  marks := nofun
  closing := nofun
  occupancy i := by
    rw [reset_section]
    rfl
  head := nofun

theorem channelsSound_reset : ChannelsSound State.reset := by
  have absent (k : ChannelCondition) (c : Fin 8) : State.reset.present (ofChannel k c) = false := by
    rw [reset_present]
    exact decide_eq_false (ofChannel_ne_ofVehicle k c _)
  constructor
  case permit =>
    intro _ c
    rw [reset_channel]
    exact ⟨nofun, nofun, nofun⟩
  all_goals intro c
  case cause =>
    rw [reset_channel]
    exact iff_of_true rfl nofun
  case timer =>
    rw [reset_channel]
    exact iff_of_true rfl (.inl rfl)
  case demand =>
    rw [reset_channel]
    exact absurd rfl
  case fault =>
    rw [reset_channel, absent]
    exact iff_of_false nofun nofun
  case tracking => exact fun _ => absent _ c
  case runs =>
    rw [reset_channel]
    exact ⟨Nat.zero_le _, Nat.zero_le _⟩

theorem levelsTaken_reset : LevelsTaken State.reset := by
  intro _ c
  rw [reset_channel, reset_drive]
  exact ⟨rfl, rfl⟩

theorem monitorSound_reset : MonitorSound State.reset.monitor where
  latched i := by
    rw [reset_condition]
    exact id
  counts k := by
    rw [reset_count]
    exact Nat.zero_le _
  peaks k := by
    rw [reset_peak]
    exact Nat.zero_le _
  saturated := by
    rw [reset_condition]
    simp only [reset_count]
    decide
  timer := rfl

theorem linkSound_reset : LinkSound State.reset.link where
  requests := Nat.zero_le _
  replies := Nat.zero_le _
  owed := nofun
  kinds := nofun
  subjects := .nil

theorem scansSound_reset : ScansSound State.reset := by
  constructor
  case timers =>
    intro b
    have unconfigured : State.reset.configured b = false := by
      simp [State.configured, State.vehicleView, State.reset, VehicleRecord.absent]
    rw [reset_timer, State.schedulable, unconfigured]
    rfl
  case periods =>
    intro b
    rw [reset_period]
    decide
  case roles =>
    intro i j owned
    rw [reset_stage] at owned
    cases owned
  case outstanding =>
    intro b
    simp [State.outstanding, State.reset, Acquisition.initial, Computation.initial]
  case record => exact fun c held => absurd held (by simp [State.reset, Acquisition.initial])
  case converter => exact fun _ => rfl
  case pass => exact fun _ => rfl

theorem trackerSound_reset : TrackerSound State.reset where
  datum := iff_of_true rfl rfl
  lost := fun _ => ⟨rfl, rfl, rfl⟩
  confidence := Nat.zero_le _
  published := rfl
  unlocated := by
    rw [reset_present]
    decide
  degraded := by
    rw [reset_present]
    decide

theorem demandsBounded_reset : DemandsBounded State.reset where
  demand c := by
    rw [reset_channel]
    simp [Channel.initial]
  inFlight p c l h := absurd h (by simp [State.reset, Computation.initial])
  outside c _ := by
    rw [reset_channel]
    exact .inl rfl

theorem resetMeetsTheInvariants : Claims.ResetMeetsTheInvariants :=
  ⟨storeSound_initial, readySound_initial, pathSound_reset, channelsSound_reset, levelsTaken_reset, monitorSound_reset,
    linkSound_reset, scansSound_reset, trackerSound_reset, nofun, demandsBounded_reset⟩

/-- Settles O4: the power-on values bank by bank, and each invariant from them. -/
theorem resetStateMeetsTheInvariants : Obligations.ResetStateMeetsTheInvariants :=
  ⟨resetStateHoldsThePowerOnValues, resetMeetsTheInvariants⟩

end Sys2Proof.Machine
end

