-- ==== Sys2Proof/Proofs/Supply.lean ====
section
/-!
SUPPORT. What the levels of the lines make of channels right after a reset, the start-up and the loss of the supply (R142,
R144, R145, R207, R208): settles O3.
-/
namespace Sys2Proof.Machine

/-! ## Levels taken (R144, R145) -/

/-- The levels of a channel's lines call for no move out of its state (R144, R145). -/
def LevelTaken (l : DriveLines) : ChannelState → Prop
  | .locking => l.lockEngaged = false ∧ l.driveFault = false
  | .locked => l.lockEngaged = true
  | .unlocking => l.lockEngaged = true ∧ l.driveFault = false
  | .steering | .holding | .returning => l.driveFault = false
  | .fault => True

theorem levelsTaken_iff (s : State) : LevelsTaken s ↔
    (s.power = .running → ∀ c : Fin 8, LevelTaken s.lines.drive[c] s.channels.bank[c].state) := by
  refine forall_congr' fun _ => forall_congr' fun c => ?_
  cases s.channels.bank[c].state <;> rfl

/-- A channel whose levels are taken makes no move. -/
theorem State.settleOnce_of_levelTaken {s : State} {c : Fin 8}
    (h : LevelTaken s.lines.drive[c] s.channels.bank[c].state) : s.settleOnce c = s := by
  rcases s.settleOnce_cases c with ⟨state, fault, -⟩ | ⟨state, -, lock, -⟩ | ⟨state, lock, -⟩ | ⟨state, -, lock, -⟩ | same
  · generalize s.channels.bank[c].state = x at state h
    cases x <;> simp_all [LevelTaken, ChannelState.faultable]
  · rw [state] at h
    exact absurd (lock.symm.trans h.1) (by decide)
  · rw [state] at h
    exact absurd (lock.symm.trans h) (by decide)
  · rw [state] at h
    exact absurd (lock.symm.trans h.1) (by decide)
  · exact same

/-- After one move whose levels are taken there is no other. -/
theorem State.settle_of_levelTaken {s : State} {c : Fin 8}
    (h : LevelTaken s.lines.drive[c] (s.settleOnce c).channels.bank[c].state) : s.settle c = s.settleOnce c :=
  State.settleOnce_of_levelTaken (s := s.settleOnce c) (by rwa [State.settleOnce_lines])

/-! ## Instances (chapter 8) -/

theorem ofChannel_inj {k k' : ChannelCondition} {c d : Fin 8} : ofChannel k c = ofChannel k' d ↔ k = k' ∧ c = d := by
  have index : k.index = k'.index ↔ k = k' := by cases k <;> cases k' <;> decide
  rw [← index, ofChannel, ofChannel, Fin.mk.injEq, Fin.ext_iff, Fin.ext_iff]
  omega

theorem ofVehicle_ne_ofChannel (k : VehicleCondition) (k' : ChannelCondition) (c : Fin 8) :
    ofVehicle k ≠ ofChannel k' c := by
  rw [ofVehicle, ofChannel, ne_eq, Fin.mk.injEq]
  omega

/-- A report that an absent condition is absent does nothing (R165). -/
theorem State.report_false_of_absent {s : State} {i : Fin 48} (h : s.present i = false) : s.report i false = s := by
  rw [State.present] at h
  simp only [State.report, h, Bool.false_eq_true, if_false]

/-- A report of a rise in mode OFF queues no notice (R165, R166). -/
theorem State.report_true_of_off {s : State} {i : Fin 48} (h : s.monitor.conditions[i] = ⟨false, false, .off⟩) :
    s.report i true = s.setCondition i ⟨true, true, .off⟩ := by
  simp [State.report, h, NoticeMode.onRise, -Fin.getElem_fin]

/-- A notice with no waiting one of its kind and subject joins the queue last (R195). -/
theorem queueNotice_of_new {n : Notice} {l : List Notice} (h : ∀ m ∈ l, m.sameSubject n = false) :
    queueNotice n l = l ++ [n] := by
  induction l with
  | nil => rfl
  | cons m rest ih =>
    obtain ⟨here, after⟩ := List.forall_mem_cons.1 h
    simp [queueNotice, here, ih after]

/-! ## Channels right after a reset -/

/-- A channel stands as a reset puts it before its lines are acted on, with no condition present that its lines bear on,
and no notice of it waits (R142, R164, R181). -/
structure Fresh (s : State) (c : Fin 8) : Prop where
  channel : s.channels.bank[c] = Channel.initial s.clock
  fault : s.monitor.conditions[ofChannel .channelFault c] = ⟨false, false, .off⟩
  tracking : s.present (ofChannel .trackingError c) = false
  notices : ∀ m ∈ s.link.notices, ∀ before event status, m.sameSubject (.channel c before event status) = false

/-- What acting on the levels of fresh channels leaves: each at its reset values by its lines, CHANNEL_FAULT present for
each with a true drive fault, and the notices of the channels moved, in their order (R144, R145, R207). -/
structure ActedOn (s t : State) (l : List (Fin 8)) : Prop where
  rest : t = { s with channels := t.channels, monitor := t.monitor, link := t.link }
  permit : t.channels.permit = s.channels.permit
  bank : ∀ c : Fin 8, t.channels.bank[c] =
    if c ∈ l then resetChannel s.clock s.lines.drive[c] else s.channels.bank[c]
  conditions : ∀ i : Fin 48, t.monitor.conditions[i] =
    if ∃ c ∈ l, i = ofChannel .channelFault c ∧ s.lines.drive[c].driveFault = true then ⟨true, true, .off⟩
    else s.monitor.conditions[i]
  monitor : t.monitor = { s.monitor with conditions := t.monitor.conditions }
  link : t.link = { s.link with notices := s.link.notices ++ l.filterMap (resetNotice t) }

variable {s t u : State} {c d : Fin 8} {l : List (Fin 8)}

/-- A fresh channel with a true drive fault goes to FAULT (R145). -/
theorem Fresh.settle_of_fault (fresh : Fresh s c) (h : s.lines.drive[c].driveFault = true) :
    s.settle c = ((s.setChannel c (Channel.toFault .drive)).setCondition (ofChannel .channelFault c)
      ⟨true, true, .off⟩).notifyChannel c .locking .fault := by
  have state : s.channels.bank[c].state = .locking := by rw [fresh.channel]; rfl
  have once : s.settleOnce c = s.enterFault c .drive := by
    rw [State.settleOnce]
    rw [if_pos ⟨by rw [state]; rfl, h⟩]
  have entered : s.enterFault c .drive = ((s.setChannel c (Channel.toFault .drive)).setCondition
      (ofChannel .channelFault c) ⟨true, true, .off⟩).notifyChannel c .locking .fault := by
    rw [State.enterFault]
    rw [State.report_false_of_absent (s := s.setChannel c _) fresh.tracking,
      State.report_true_of_off (s := s.setChannel c _) fresh.fault, state]
  rw [State.settle_of_levelTaken, once, entered]
  rw [once, entered]
  simp [State.notifyChannel, Channel.toFault, LevelTaken]

/-- A fresh channel with its lock engaged and no drive fault goes to LOCKED (R144). -/
theorem Fresh.settle_of_engaged (fresh : Fresh s c) (h : s.lines.drive[c].driveFault = false)
    (h' : s.lines.drive[c].lockEngaged = true) :
    s.settle c = (s.setChannel c Channel.toLocked).notifyChannel c .locking .lockEngaged := by
  have state : s.channels.bank[c].state = .locking := by rw [fresh.channel]; rfl
  have once : s.settleOnce c = (s.setChannel c Channel.toLocked).notifyChannel c .locking .lockEngaged := by
    rw [State.settleOnce]
    rw [if_neg (by simp [h, -Fin.getElem_fin]), if_pos ⟨state, h'⟩, State.enterLocked, state]
  rw [State.settle_of_levelTaken, once]
  rw [once]
  simpa [State.notifyChannel, Channel.toLocked, LevelTaken] using h'

/-- A fresh channel with no level true stays in LOCKING. -/
theorem Fresh.settle_of_low (fresh : Fresh s c) (h : s.lines.drive[c].driveFault = false)
    (h' : s.lines.drive[c].lockEngaged = false) : s.settle c = s :=
  State.settle_of_settleOnce (State.settleOnce_of_levelTaken (by rw [fresh.channel]; exact ⟨h', h⟩))

theorem resetNotice_of_fault (h : t.lines.drive[c].driveFault = true) :
    resetNotice t c = some (.channel c .locking .fault (t.channelStatus c)) := if_pos h

theorem resetNotice_of_engaged (h : t.lines.drive[c].driveFault = false) (h' : t.lines.drive[c].lockEngaged = true) :
    resetNotice t c = some (.channel c .locking .lockEngaged (t.channelStatus c)) :=
  (if_neg (ne_true_of_eq_false h)).trans (if_pos h')

/-- The notice of a fresh channel's move joins the queue last. -/
theorem Fresh.notifyChannel_link (fresh : Fresh s c) (h : t.link = s.link) {before : ChannelState} {event : ChannelEvent}
    (made : resetNotice (t.notifyChannel c before event) c = some (.channel c before event (t.channelStatus c))) :
    (t.notifyChannel c before event).link =
      { s.link with notices := s.link.notices ++ [c].filterMap (resetNotice (t.notifyChannel c before event)) } := by
  rw [List.filterMap_cons_some made, State.notifyChannel, State.notify_link, h,
    queueNotice_of_new fun m hm => fresh.notices m hm _ _ _]
  rfl

/-! ## Acting on the levels of fresh channels, one after the other (R207) -/

/-- A bank's place after one place was written. -/
theorem bank_set {α : Type} {n : Nat} (v : Vector α n) (i j : Fin n) (x : α) :
    (v.set i.val x i.isLt)[j] = if j = i then x else v[j] := by
  simp [Vector.getElem_set, Fin.ext_iff, eq_comm]

theorem bank_changeAt {α : Type} {n : Nat} (v : Vector α n) (i j : Fin n) (f : α → α) :
    (changeAt v i f)[j] = if j = i then f v[i] else v[j] := bank_set v i j _

/-- The levels of one fresh channel acted on. -/
theorem Fresh.actedOn (fresh : Fresh s c) : ActedOn s (s.settle c) [c] := by
  cases fault : s.lines.drive[c].driveFault with
  | true =>
    rw [fresh.settle_of_fault fault]
    refine ⟨rfl, rfl, fun d => ?_, fun i => ?_, rfl, ?_⟩
    · simp only [State.notifyChannel, State.notify_channels, State.setCondition_channels, State.setChannel_channels,
        bank_changeAt, List.mem_singleton]
      split_ifs with h
      · rw [h, fresh.channel, resetChannel, fault]
        rfl
      · rfl
    · simp [State.notifyChannel, bank_set, fault, -Fin.getElem_fin]
    · exact fresh.notifyChannel_link (by rfl) (resetNotice_of_fault fault)
  | false =>
    cases engaged : s.lines.drive[c].lockEngaged with
    | true =>
      rw [fresh.settle_of_engaged fault engaged]
      refine ⟨rfl, rfl, fun d => ?_, fun i => ?_, rfl, ?_⟩
      · simp only [State.notifyChannel, State.notify_channels, State.setChannel_channels, bank_changeAt,
          List.mem_singleton]
        split_ifs with h
        · rw [h, fresh.channel, resetChannel, fault, engaged]
          rfl
        · rfl
      · simp [State.notifyChannel, fault, -Fin.getElem_fin]
      · exact fresh.notifyChannel_link (by rfl) (resetNotice_of_engaged fault engaged)
    | false =>
      rw [fresh.settle_of_low fault engaged]
      refine ⟨rfl, rfl, fun d => ?_, fun i => ?_, rfl, ?_⟩
      · simp only [List.mem_singleton]
        split_ifs with h
        · rw [h, fresh.channel, resetChannel, fault, engaged]
          rfl
        · rfl
      · simp [fault, -Fin.getElem_fin]
      · simp [resetNotice, fault, engaged, -Fin.getElem_fin]

/-- A channel that was not acted on stands fresh. -/
theorem ActedOn.fresh (acted : ActedOn s t [c]) (apart : d ≠ c) (fresh : Fresh s d) : Fresh t d := by
  have clock : t.clock = s.clock := by rw [acted.rest]
  constructor
  case channel =>
    rw [acted.bank, if_neg (by simpa using apart), clock]
    exact fresh.channel
  case fault =>
    rw [acted.conditions, if_neg (by simp [ofChannel_inj, apart])]
    exact fresh.fault
  case tracking =>
    rw [State.present, acted.conditions, if_neg (by simp [ofChannel_inj])]
    exact fresh.tracking
  case notices =>
    intro m hm before event status
    rw [acted.link] at hm
    rcases List.mem_append.1 hm with old | new
    · exact fresh.notices m old before event status
    · obtain ⟨x, hx, made⟩ := List.mem_filterMap.1 new
      obtain rfl := List.mem_singleton.1 hx
      unfold resetNotice at made
      split at made
      · cases made
        simpa [Notice.sameSubject] using apart.symm
      · split at made
        · cases made
          simpa [Notice.sameSubject] using apart.symm
        · cases made

/-- A channel's notice at a reset stands as it was made, since nothing that it shows changes after. -/
theorem ActedOn.resetNotice_eq (acted : ActedOn s t l) (apart : c ∉ l) : resetNotice t c = resetNotice s c := by
  have bank : t.channels.bank[c] = s.channels.bank[c] := by rw [acted.bank, if_neg apart]
  have status : t.channelStatus c = s.channelStatus c := by
    unfold State.channelStatus State.lockRemaining State.driveEnable State.lockRelease
    rw [bank, acted.permit, acted.rest]
  have lines : t.lines = s.lines := by rw [acted.rest]
  unfold resetNotice
  rw [status, lines]

/-- Channels acted on after one another are acted on together. -/
theorem ActedOn.cons (first : ActedOn s t [c]) (then_ : ActedOn t u l) (apart : c ∉ l) : ActedOn s u (c :: l) := by
  have lines : t.lines = s.lines := by rw [first.rest]
  have clock : t.clock = s.clock := by rw [first.rest]
  constructor
  case rest => rw [then_.rest, first.rest]
  case permit => rw [then_.permit, first.permit]
  case bank =>
    intro d
    rw [then_.bank, first.bank, lines, clock]
    by_cases hd : d ∈ l <;> by_cases hc : d = c <;> simp [hd, hc]
  case conditions =>
    intro i
    rw [then_.conditions, first.conditions, lines]
    by_cases after : ∃ d ∈ l, i = ofChannel .channelFault d ∧ s.lines.drive[d].driveFault = true
    · rw [if_pos after, if_pos (List.exists_mem_cons_iff _ _ _ |>.2 (.inr after))]
    · rw [if_neg after]
      simp only [List.exists_mem_cons_iff, List.not_mem_nil, false_and, exists_false, or_false, after]
  case monitor => rw [then_.monitor, first.monitor]
  case link =>
    have notice : resetNotice t c = resetNotice u c := (then_.resetNotice_eq apart).symm
    have made : [c].filterMap (resetNotice t) = [c].filterMap (resetNotice u) := by
      rw [List.filterMap_cons, List.filterMap_cons, notice, List.filterMap_nil, List.filterMap_nil]
    rw [then_.link, first.link, made]
    simp only [List.append_assoc]
    rw [← List.filterMap_append]
    rfl

/-- The levels of fresh channels acted on in turn. -/
theorem actedOn_foldl (l : List (Fin 8)) (distinct : l.Nodup) (fresh : ∀ c ∈ l, Fresh s c) :
    ActedOn s (l.foldl (fun s c => s.settle c) s) l := by
  induction l generalizing s with
  | nil =>
    constructor
    case conditions => simp
    case link => simp
    all_goals simp
  | cons c rest ih =>
    obtain ⟨notIn, distinct⟩ := List.nodup_cons.1 distinct
    obtain ⟨here, after⟩ := List.forall_mem_cons.1 fresh
    have first := here.actedOn
    exact first.cons (ih distinct fun d hd => first.fresh (fun e => notIn (e ▸ hd)) (after d hd)) notIn

/-! ## A reset (R198, R207) -/

/-- The blocks at their reset values, before the lines are acted on (R198). -/
def State.blocksInitial (s : State) : State :=
  { s with
    store := Store.initial, tracker := Tracker.initial s.clock s.lines.marker, path := [],
    acquisition := Acquisition.initial, computation := Computation.initial,
    channels := Channels.initial s.clock, monitor := Monitor.initial s.clock,
    link := LinkState.initial s.clock }

theorem State.resetBlocks_eq (s : State) : s.resetBlocks = s.blocksInitial.settleAll := rfl

/-- The condition records after a reset (R164). -/
theorem monitor_initial_condition (n : Nat) (i : Fin 48) : (Monitor.initial n).conditions[i] =
    if i = ofVehicle .unlocated then ⟨true, true, .off⟩ else ⟨false, false, .off⟩ := by
  have at_ : (Monitor.initial n).conditions[i] =
      ((Vector.replicate 48 (ConditionRecord.mk false false .off)).set (ofVehicle .unlocated).val ⟨true, true, .off⟩)[i] :=
    rfl
  rw [at_, bank_set]
  simp

theorem State.blocksInitial_fresh (s : State) (c : Fin 8) : Fresh s.blocksInitial c := by
  constructor
  case channel => simp [State.blocksInitial, Channels.initial]
  case fault =>
    exact (monitor_initial_condition _ _).trans (if_neg (ofVehicle_ne_ofChannel _ _ _).symm)
  case tracking =>
    show ((Monitor.initial s.clock).conditions[ofChannel .trackingError c]).present = false
    rw [monitor_initial_condition, if_neg (ofVehicle_ne_ofChannel _ _ _).symm]
  case notices => exact fun m hm => absurd hm (by simp [State.blocksInitial, LinkState.initial])

theorem mem_allChannels (c : Fin 8) : c ∈ allChannels := by
  rw [allChannels_eq]
  exact List.mem_finRange c

theorem State.resetBlocks_actedOn (s : State) : ActedOn s.blocksInitial s.resetBlocks allChannels :=
  actedOn_foldl allChannels (by decide) fun c _ => s.blocksInitial_fresh c

/-- A reset leaves every block of a part that runs at its reset values, with the levels acted on, and keeps the vehicle
record, the lines and the clock (R198, R207). -/
theorem State.resetBlocks_spec (running : s.power = .running) : ResetState s.resetBlocks ∧
    s.resetBlocks.vehicle = s.vehicle ∧ s.resetBlocks.clock = s.clock ∧ s.resetBlocks.lines = s.lines ∧
    s.resetBlocks.pending = s.pending := by
  have acted := s.resetBlocks_actedOn
  have rest := acted.rest
  have clock : s.resetBlocks.clock = s.clock := by rw [rest]; rfl
  have lines : s.resetBlocks.lines = s.lines := by rw [rest]; rfl
  refine ⟨?_, by rw [rest]; rfl, clock, lines, by rw [rest]; rfl⟩
  constructor
  case power => rw [rest]; exact running
  case store => rw [rest]; rfl
  case path => rw [rest]; rfl
  case tracker => rw [clock, lines, rest]; rfl
  case acquisition => rw [rest]; rfl
  case computation => rw [rest]; rfl
  case permit => exact acted.permit
  case bank =>
    intro c
    rw [clock, lines]
    exact (acted.bank c).trans (if_pos (mem_allChannels c))
  case conditions =>
    intro i
    have before : s.blocksInitial.lines = s.lines := rfl
    rw [acted.conditions, before, resetCondition, lines]
    by_cases faulty : ∃ c ∈ allChannels, i = ofChannel .channelFault c ∧ s.lines.drive[c].driveFault = true
    · rw [if_pos faulty, (List.any_eq_true (l := allChannels)).2 (by simpa using faulty)]
      simp
    · rw [if_neg faulty, (List.any_eq_false (l := allChannels)).2 (by simpa using faulty)]
      refine (monitor_initial_condition _ i).trans ?_
      split_ifs with h <;> simp [h]
  case monitor =>
    have before : s.blocksInitial.monitor = Monitor.initial s.clock := rfl
    have monitor := acted.monitor
    generalize s.blocksInitial.monitor = m at before monitor
    subst before
    rw [clock]
    exact monitor
  case link =>
    have before : s.blocksInitial.link = LinkState.initial s.clock := rfl
    have none : s.blocksInitial.link.notices = [] := rfl
    have link := acted.link
    rw [none, List.nil_append] at link
    generalize s.blocksInitial.link = l at before link
    subst before
    rw [clock]
    exact link

/-! ## The supply (R207, R208) -/

/-- A request row does nothing while the part does not run (R207, R208). -/
theorem State.serve_of_stopped (stopped : s.power ≠ .running) (kind : Byte) (mine fits : List Byte → Bool)
    (owner : Frame → State → State) : s.serve kind mine fits owner = s := State.whileRunning_of_stopped stopped _

theorem nothingRunsWithoutSupply : Claims.NothingRunsWithoutSupply := by
  intro s stopped
  refine ⟨fun c startUp ended loss lock drive marker => ?_, fun l b => ?_, fun l f g => ?_, fun b => ?_, fun c => ?_⟩
  · cases c
    case startUpBegin => exact absurd rfl startUp
    case startUpEnd => exact absurd rfl ended
    case supplyLoss => exact absurd rfl loss
    case lockEngagedChange l b => exact absurd rfl (lock l b)
    case driveFaultChange l f g => exact absurd rfl (drive l f g)
    case markerInputChange b => exact absurd rfl (marker b)
    case frameReceived | frameLengthAbort | interByteGapTimeout | unknownKind | transmitBegin | frameSent
        | restartTakesEffect | closeCheckComplete | pointsChange | wheelCount | tick | markerDetection
        | markerDebounceRelease | markerResolve | periodTimerExpiry | stageConversionComplete | passComplete
        | lockTimerExpiry | snapshotTimerExpiry | byteTaken =>
      exact congrArg Host.Outcome.next (State.whileRunning_of_stopped stopped _)
    all_goals exact congrArg Host.Outcome.next (State.serve_of_stopped stopped _ _ _ _)
  · exact congrArg Host.Outcome.next (State.whileRunning_of_stopped (s := s.setLines l _) stopped _)
  · exact congrArg Host.Outcome.next (State.whileRunning_of_stopped (s := s.setLines l _) stopped _)
  · refine congrArg Host.Outcome.next ?_
    unfold State.markerLevel
    split
    · next same => rw [← same]
    · exact State.whileRunning_of_stopped (s := { s with lines := { s.lines with marker := b } }) stopped _
  · simp [State.driveEnable, State.lockRelease, State.strokeDemand, stopped]

theorem startUpGivesThePowerOnState : Claims.StartUpGivesThePowerOnState := by
  intro s
  refine ⟨fun off => ?_, fun endsAt starting => ?_, fun on => ?_⟩
  · show Host.Outcome.next s.beginStartUp = _
    rw [State.beginStartUp, off]
  · refine ⟨_, rfl, ?_⟩
    rw [State.endStartUp, starting]
    exact State.resetBlocks_spec (s := { s.reach endsAt with power := .running, vehicle := none }) rfl
  · refine ⟨_, rfl, ?_⟩
    unfold State.loseSupply
    split
    · next off => exact absurd off on
    · exact ⟨rfl, rfl, rfl, rfl, rfl⟩
    · exact ⟨rfl, rfl, rfl, rfl, rfl⟩

/-- Settles O3: a stopped part's rows do nothing, and start-up ends in a reset whose lines are acted on one by one. -/
theorem supplyStartsAndStopsThePart : Obligations.SupplyStartsAndStopsThePart :=
  ⟨nothingRunsWithoutSupply, startUpGivesThePowerOnState⟩

end Sys2Proof.Machine
end

