-- ==== Sys2Proof/Proofs/Picture.lean ====
section
/-!
SUPPORT. What the channels' invariants read of a state, its picture; the operations that the picture does not show, and
what each of the others does to it.
-/
namespace Sys2Proof.Machine

/-! ## The picture of a state -/

/-- One channel with whether CHANNEL_FAULT and TRACKING_ERROR of it are present. -/
structure ChannelView where
  ch : Channel
  fault : Bool
  tracking : Bool

/-- What the channels' invariants read of a state. -/
structure Picture where
  power : Power
  drive : Vector DriveLines 8
  permit : Bool
  vehicle : Option VehicleRecord
  pass : Option Pass
  view : Fin 8 → ChannelView

/-- The view of a channel of a state. -/
def State.view (s : State) (c : Fin 8) : ChannelView :=
  ⟨s.channels.bank[c], s.present (ofChannel .channelFault c), s.present (ofChannel .trackingError c)⟩

/-- The picture of a state. -/
def State.picture (s : State) : Picture :=
  { power := s.power, drive := s.lines.drive, permit := s.channels.permit, vehicle := s.vehicle,
    pass := s.computation.pass, view := s.view }

/-- A picture with one channel's view replaced. -/
def Picture.put (p : Picture) (c : Fin 8) (v : ChannelView) : Picture := { p with view := Function.update p.view c v }

variable {p : Picture} {s : State} {c d : Fin 8} {v w : ChannelView}

@[simp] theorem Picture.put_put : (p.put c v).put c w = p.put c w := by simp [Picture.put]

@[simp] theorem Picture.put_view_same : (p.put c v).view c = v := by simp [Picture.put]

theorem Picture.put_view_other (h : d ≠ c) : (p.put c v).view d = p.view d := by simp [Picture.put, h]

@[simp] theorem Picture.put_view_self : p.put c (p.view c) = p := by simp [Picture.put]

/-- Two states show the same where their channels do and the rest is the same. -/
theorem picture_eq {t : State} {q : Picture} (power : t.power = q.power) (drive : t.lines.drive = q.drive)
    (permit : t.channels.permit = q.permit) (vehicle : t.vehicle = q.vehicle) (pass : t.computation.pass = q.pass)
    (view : ∀ c, t.view c = q.view c) : t.picture = q := by
  obtain ⟨⟩ := q
  simp only at power drive permit vehicle pass view
  simp only [State.picture, power, drive, permit, vehicle, pass, Picture.mk.injEq, true_and]
  exact funext view

/-! ## Operations that the picture does not show -/

@[simp] theorem picture_reach (n : Nat) : (s.reach n).picture = s.picture := rfl
@[simp] theorem picture_notify (n : Notice) : (s.notify n).picture = s.picture := rfl
@[simp] theorem picture_setLive (l : CounterSet) : (s.setLive l).picture = s.picture := rfl
@[simp] theorem picture_offerPeak (k : Fin 16) (n : Nat) : (s.offerPeak k n).picture = s.picture := rfl
@[simp] theorem picture_queueReply (r : Frame) (a : Answer) (b : Bool) : (s.queueReply r a b).picture = s.picture := rfl
@[simp] theorem picture_popRequest : s.popRequest.picture = s.picture := rfl
@[simp] theorem picture_changeLink (f : LinkState → LinkState) : (s.changeLink f).picture = s.picture := rfl
@[simp] theorem picture_setRecord (c : Fin 8) (f : ComputationRecord → ComputationRecord) :
    (s.setRecord c f).picture = s.picture := rfl
@[simp] theorem picture_setTracker (f : Tracker → Tracker) : (s.setTracker f).picture = s.picture := rfl
@[simp] theorem picture_setAcquisition (f : Acquisition → Acquisition) : (s.setAcquisition f).picture = s.picture := rfl
@[simp] theorem picture_startTimer (b : Fin 4) : (s.startTimer b).picture = s.picture := rfl
@[simp] theorem picture_stopTimer (b : Fin 4) : (s.stopTimer b).picture = s.picture := rfl
@[simp] theorem picture_notifyChannel (c : Fin 8) (b : ChannelState) (e : ChannelEvent) :
    (s.notifyChannel c b e).picture = s.picture := rfl
@[simp] theorem picture_withPending (l : List Instr) : (s.withPending l).picture = s.picture := rfl

/-- A change of the store alone. -/
theorem picture_of_store {t : State} (h : t = { s with store := t.store }) : t.picture = s.picture := by
  rw [h]
  rfl

@[simp] theorem picture_setPath (l : List PathEntry) : (s.setPath l).picture = s.picture := by
  have onPath : ∀ g, ({ s with path := l, store := g } : State).picture = s.picture := fun _ => rfl
  exact onPath _

/-- A change of the computation unit that leaves the pass in flight. -/
theorem picture_setComputation {f : Computation → Computation} (h : ∀ k, (f k).pass = k.pass) :
    (s.setComputation f).picture = s.picture := picture_eq rfl rfl rfl rfl (h _) fun _ => rfl

/-- A change of the monitor that leaves what is present. -/
theorem picture_setMonitor {f : Monitor → Monitor}
    (h : ∀ (m : Monitor) (i : Fin 48), (f m).conditions[i].present = m.conditions[i].present) :
    (s.setMonitor f).picture = s.picture := by
  have present : ∀ i, (s.setMonitor f).present i = s.present i := fun i => h _ i
  exact picture_eq rfl rfl rfl rfl rfl fun c => by rw [State.view, present, present]; rfl

/-- What a report leaves in the picture, from what it leaves in the views. -/
theorem picture_report_of_view {i : Fin 48} {b : Bool} {q : Picture} (rest : q = { s.picture with view := q.view })
    (view : ∀ d, (s.report i b).view d = q.view d) : (s.report i b).picture = q := by
  rw [rest]
  exact picture_eq (State.report_power ..) (congrArg Lines.drive (State.report_lines ..))
    (congrArg Channels.permit (State.report_channels ..)) (State.report_vehicle ..)
    (congrArg Computation.pass (State.report_computation ..)) view

/-- A report of a condition that the channels' invariants do not read. -/
theorem picture_report {i : Fin 48} (h : ∀ c, i ≠ ofChannel .channelFault c) (h' : ∀ c, i ≠ ofChannel .trackingError c)
    (b : Bool) : (s.report i b).picture = s.picture := by
  refine picture_report_of_view rfl fun c => ?_
  rw [State.view, State.report_present, State.report_present, if_neg (h c), if_neg (h' c), State.report_channels]
  rfl

@[simp] theorem picture_report_vehicle (k : VehicleCondition) (b : Bool) :
    (s.report (ofVehicle k) b).picture = s.picture :=
  picture_report (ofVehicle_ne_ofChannel k _) (ofVehicle_ne_ofChannel k _) b

@[simp] theorem picture_report_flangeProximity (b : Bool) :
    (s.report (ofChannel .flangeProximity c) b).picture = s.picture :=
  picture_report (by simp [ofChannel_inj]) (by simp [ofChannel_inj]) b

@[simp] theorem picture_report_lateralSensorFailed (b : Bool) :
    (s.report (ofChannel .lateralSensorFailed c) b).picture = s.picture :=
  picture_report (by simp [ofChannel_inj]) (by simp [ofChannel_inj]) b

@[simp] theorem picture_report_steerLimited (b : Bool) :
    (s.report (ofChannel .steerLimited c) b).picture = s.picture :=
  picture_report (by simp [ofChannel_inj]) (by simp [ofChannel_inj]) b

@[simp] theorem picture_reportIf_steerLimited (b : Option Bool) :
    (s.reportIf (ofChannel .steerLimited c) b).picture = s.picture := by
  cases b <;> simp [State.reportIf]

@[simp] theorem picture_count (k : Fin 52) : (s.count k).picture = s.picture := by
  unfold State.count
  dsimp only
  split <;> [split; skip] <;> simp

@[simp] theorem picture_countIf (b : Bool) (k : Fin 52) : (s.countIf b k).picture = s.picture := by
  cases b <;> simp [State.countIf]

@[simp] theorem picture_snapshot (k : SnapshotCause) : (s.snapshot k).picture = s.picture := by
  unfold State.snapshot
  dsimp only
  rw [picture_report_vehicle]
  rfl

/-! ## The path and the tracker -/

@[simp] theorem picture_judgeMoved : s.judgeMoved.picture = s.picture := by simp [State.judgeMoved]

@[simp] theorem picture_judgePath (reached full : Bool) : (s.judgePath reached full).picture = s.picture := by
  simp [State.judgePath]

@[simp] theorem picture_publish : s.publish.picture = s.picture := by simp [State.publish]

@[simp] theorem picture_notifyPosition (k : PositionCause) : (s.notifyPosition k).picture = s.picture := by
  simp [State.notifyPosition]

@[simp] theorem picture_tickLost : s.tickLost.picture = s.picture := by simp [State.tickLost, State.clearPath]

@[simp] theorem picture_tickOn (r : VehicleRecord) (m : Bool) (n : Nat) (k : Course) :
    (s.tickOn r m n k).picture = s.picture := by
  unfold State.tickOn
  dsimp only
  split <;> simp

@[simp] theorem picture_doTick : s.doTick.picture = s.picture := by
  unfold State.doTick
  dsimp only
  split
  · simp
  · split <;> simp

@[simp] theorem picture_locate (r : VehicleRecord) (k : Course) : (s.locate r k).picture = s.picture := by
  simp [State.locate]

@[simp] theorem picture_wheelEdge (x : Fin 16) (e : Edge) (b : Bool) : (s.wheelEdge x e b).picture = s.picture := by
  unfold State.wheelEdge
  split <;> simp

@[simp] theorem picture_debounceOver (x : Debounce) : (s.debounceOver x).picture = s.picture := by
  unfold State.debounceOver
  split
  · rfl
  · split <;> simp

@[simp] theorem picture_resolveMarker : s.resolveMarker.picture = s.picture := by
  unfold State.resolveMarker State.markerMatch State.markerMiss
  dsimp only
  split
  · rfl
  · split
    · simp
    · split <;> simp

@[simp] theorem picture_applyChange (k : PointsChange) (r : PointsRecord) (l : Location) :
    (s.applyChange k r l).picture = s.picture := by
  have tracked : ∀ t : Tracker, ({ s with tracker := t } : State).picture = s.picture := fun _ => rfl
  unfold State.applyChange
  dsimp only
  split <;> simp [tracked]

@[simp] theorem picture_takeChange : s.takeChange.picture = s.picture := by
  have taken : ∀ l, ({ s with store := { s.store with changes := l } } : State).picture = s.picture := fun _ => rfl
  unfold State.takeChange
  split
  · rfl
  · dsimp only
    split <;> simp [taken]

/-! ## Scans and passes -/

@[simp] theorem picture_takeScan : s.takeScan.picture = s.picture := by
  unfold State.takeScan
  split <;> simp

@[simp] theorem picture_reportLane (k : Criteria) (e : LaneEnd) : (s.reportLane k e).picture = s.picture := by
  unfold State.reportLane
  dsimp only
  cases e.taken with
  | none => dsimp only; split <;> simp <;> split <;> simp
  | some x => dsimp only; split <;> simp

@[simp] theorem picture_setYaw (b : Fin 4) (r : YawRecord) : (s.setYaw b r).picture = s.picture := by
  simp [State.setYaw, picture_setComputation]

@[simp] theorem picture_resetBogie (b : Fin 4) : (s.resetBogie b).picture = s.picture := by
  simp [State.resetBogie, State.resetLane]

@[simp] theorem picture_reschedule (b : Fin 4) : (s.reschedule b).picture = s.picture := by
  unfold State.reschedule State.unscheduled
  split
  · simp
  · split <;> simp [picture_setComputation]
  · rfl

@[simp] theorem picture_rescheduleOwner (b : Option (Fin 4)) : (s.rescheduleOwner b).picture = s.picture := by
  cases b <;> simp [State.rescheduleOwner]

@[simp] theorem picture_periodExpiry (b : Fin 4) : (s.periodExpiry b).picture = s.picture := by
  unfold State.periodExpiry State.createScan State.overrun
  split
  · rfl
  · dsimp only
    split
    · simp only [picture_takeScan]
      split <;> simp
    · simp

/-! ## The line -/

@[simp] theorem picture_arrive (r : Frame) : (s.arrive r).picture = s.picture := by
  unfold State.arrive
  split
  · rfl
  · simp

@[simp] theorem picture_checkFrame (covered : List Byte) (crc : BitVec 16) :
    (s.checkFrame covered crc).picture = s.picture := by
  unfold State.checkFrame
  split
  · rfl
  · split
    · simp
    · split <;> simp

@[simp] theorem picture_takeByte (b : Byte) : (s.takeByte b).picture = s.picture := by
  have heard : ∀ (n : Nat) (l : LinkState), ({ s with clock := n, link := l } : State).picture = s.picture :=
    fun _ _ => rfl
  unfold State.takeByte
  split
  · rfl
  · dsimp only
    split <;> simp [State.completeFrame, heard]

@[simp] theorem picture_beginFrame : s.beginFrame.picture = s.picture := by
  unfold State.beginFrame
  split
  · split <;> simp
  · rfl

@[simp] theorem picture_refuseKind : s.refuseKind.picture = s.picture := by
  unfold State.refuseKind
  split
  · rfl
  · split <;> simp

@[simp] theorem picture_gapTimeout : s.gapTimeout.picture = s.picture := by
  unfold State.gapTimeout
  split <;> simp

@[simp] theorem picture_snapshotExpiry : s.snapshotExpiry.picture = s.picture := by
  unfold State.snapshotExpiry
  split
  · rfl
  · split <;> simp

@[simp] theorem picture_completeClose : s.completeClose.picture = s.picture := by
  unfold State.completeClose
  split
  · rfl
  · dsimp only
    split <;> rfl

theorem picture_markerLevel (b : Bool) : (s.markerLevel b).picture = s.picture := by
  unfold State.markerLevel
  split
  · rfl
  · dsimp only
    unfold State.whileRunning
    split <;> rfl

/-! ## Owners of requests -/

/-- An owner that the picture does not show. -/
def Unseen (act : List Byte → State → State × Answer) : Prop := ∀ body s, (act body s).1.picture = s.picture

theorem ReadsOnly.unseen {act : List Byte → State → State × Answer} (h : ReadsOnly act) : Unseen act :=
  fun body s => congrArg State.picture (h body s)

theorem unseen_secOpen : Unseen ownSecOpen := by
  intro body s
  unfold ownSecOpen
  dsimp only
  repeat' split
  all_goals rfl

theorem unseen_secPut : Unseen ownSecPut := by
  intro body s
  unfold ownSecPut
  dsimp only
  repeat' split
  all_goals rfl

theorem unseen_secMark : Unseen ownSecMark := by
  intro body s
  unfold ownSecMark
  dsimp only
  repeat' split
  all_goals rfl

theorem picture_ownSecClose (r : Frame) : (ownSecClose r s).picture = s.picture := by
  unfold ownSecClose
  split
  · rfl
  · split <;> rfl

theorem unseen_secJoin : Unseen ownSecJoin := by
  intro body s
  unfold ownSecJoin
  dsimp only
  repeat' split
  all_goals rfl

theorem unseen_secJoinNone : Unseen ownSecJoinNone := by
  intro body s
  have unlinked : ∀ a, (s.unlink a).picture = s.picture := fun a => picture_of_store (s.unlink_eq a)
  unfold ownSecJoinNone
  dsimp only
  repeat' split
  all_goals simp only [unlinked]

theorem unseen_secDrop : Unseen ownSecDrop := by
  intro body s
  have dropped : ∀ i, (s.dropSection i).picture = s.picture := fun i =>
    (picture_of_store (s := s) (s.unlinkBoth_eq i) :)
  unfold ownSecDrop
  dsimp only
  repeat' split
  all_goals simp only [dropped]

theorem unseen_ptsDefine : Unseen ownPtsDefine := by
  intro body s
  unfold ownPtsDefine
  dsimp only
  repeat' split
  all_goals rfl

theorem unseen_ptsRemove : Unseen ownPtsRemove := by
  intro body s
  unfold ownPtsRemove
  repeat' split
  all_goals rfl

theorem unseen_ptsSet : Unseen ownPtsSet := by
  intro body s
  unfold ownPtsSet
  repeat' split
  all_goals rfl

theorem unseen_lawSet : Unseen ownLawSet := by
  intro body s
  unfold ownLawSet
  repeat' split
  all_goals rfl

theorem unseen_stgSet : Unseen ownStgSet := by
  intro body s
  unfold ownStgSet State.stageAnswer State.writeStage
  repeat' split
  all_goals simp

theorem unseen_perSet : Unseen ownPerSet := by
  intro body s
  unfold ownPerSet State.setPeriod
  dsimp only
  repeat' split
  all_goals rfl

theorem unseen_posLocate : Unseen ownPosLocate := by
  intro body s
  unfold ownPosLocate
  dsimp only
  repeat' split
  all_goals simp

theorem picture_ownCndGet (r : Frame) : (ownCndGet r s).picture = s.picture := by
  unfold ownCndGet State.clearLatches
  rw [picture_setMonitor (by simp), picture_queueReply]

theorem unseen_cndEnable : Unseen ownCndEnable := by
  intro body s
  have modes : ∀ code channel mode, (s.setModes code channel mode).picture = s.picture := fun code channel mode =>
    picture_setMonitor fun m i => by
      simp only [Fin.getElem_fin, Vector.getElem_ofFn]
      split <;> rfl
  unfold ownCndEnable
  dsimp only
  repeat' split
  all_goals simp only [modes]

theorem unseen_cndCriteria : Unseen ownCndCriteria := by
  intro body s
  unfold ownCndCriteria
  repeat' split
  all_goals rfl

theorem unseen_cntSnap : Unseen ownCntSnap := fun _ _ => picture_snapshot _

theorem unseen_cntModeAuto : Unseen ownCntModeAuto := by
  intro body s
  unfold ownCntModeAuto State.modeAuto
  split <;> rfl

theorem unseen_cntModeManual : Unseen ownCntModeManual := by
  intro body s
  unfold ownCntModeManual State.modeManual
  repeat' split
  all_goals rfl

/-! ## Operations that move a channel -/

theorem picture_setChannel (f : Channel → Channel) :
    (s.setChannel c f).picture = s.picture.put c { s.picture.view c with ch := f (s.picture.view c).ch } := by
  refine picture_eq rfl rfl rfl rfl rfl fun d => ?_
  by_cases h : d = c
  · subst h
    rw [Picture.put_view_same, State.view, State.setChannel_channels, changeAt_same]
    rfl
  · rw [Picture.put_view_other h, State.view, State.setChannel_channels, changeAt_other _ _ _ _ h]
    rfl

theorem picture_report_channelFault (b : Bool) : (s.report (ofChannel .channelFault c) b).picture =
    s.picture.put c { s.picture.view c with fault := b } := by
  refine picture_report_of_view rfl fun d => ?_
  rw [State.view, State.report_present, State.report_present, State.report_channels,
    if_neg (show ofChannel .channelFault c ≠ ofChannel .trackingError d by simp [ofChannel_inj])]
  by_cases h : d = c
  · subst h
    rw [if_pos rfl, Picture.put_view_same]
    rfl
  · rw [if_neg (by simp [ofChannel_inj, Ne.symm h]), Picture.put_view_other h]
    rfl

theorem picture_report_trackingError (b : Bool) : (s.report (ofChannel .trackingError c) b).picture =
    s.picture.put c { s.picture.view c with tracking := b } := by
  refine picture_report_of_view rfl fun d => ?_
  rw [State.view, State.report_present, State.report_present, State.report_channels,
    if_neg (show ofChannel .trackingError c ≠ ofChannel .channelFault d by simp [ofChannel_inj])]
  by_cases h : d = c
  · subst h
    rw [if_pos rfl, Picture.put_view_same]
    rfl
  · rw [if_neg (by simp [ofChannel_inj, Ne.symm h]), Picture.put_view_other h]
    rfl

theorem picture_enterFault (k : FaultCause) : (s.enterFault c k).picture =
    s.picture.put c ⟨(s.picture.view c).ch.toFault k, true, false⟩ := by
  simp [State.enterFault, picture_report_channelFault, picture_report_trackingError, picture_setChannel]

theorem picture_enterLocking (e : ChannelEvent) : (s.enterLocking c e).picture =
    s.picture.put c { s.picture.view c with ch := (s.picture.view c).ch.toLocking (s.lockDeadline c) } := by
  simp [State.enterLocking, picture_setChannel]

theorem picture_enterLocked (e : ChannelEvent) : (s.enterLocked c e).picture =
    s.picture.put c { s.picture.view c with ch := (s.picture.view c).ch.toLocked } := by
  simp [State.enterLocked, picture_setChannel]

theorem picture_enterSteering : (s.enterSteering c).picture =
    s.picture.put c { s.picture.view c with ch := { (s.picture.view c).ch.toSteering with demand := 0 } } := by
  simp [State.enterSteering, picture_setChannel]

theorem picture_enterReturning (e : ChannelEvent) : (s.enterReturning c e).picture =
    s.picture.put c { s.picture.view c with ch := (s.picture.view c).ch.toReturning } := by
  simp [State.enterReturning, picture_setChannel]

end Sys2Proof.Machine
end

