-- ==== Sys2Proof/Proofs/Moves.lean ====
section
/-!
SUPPORT. The channels' invariants on a picture, and the moves of a channel that keep them (R36, R139, R141, R143 to R146,
R155, R161).
-/
namespace Sys2Proof.Machine

/-! ## The invariants, channel by channel -/

/-- A state that a channel does not stand in while the permit is OFF (R155). -/
def ChannelState.Released (x : ChannelState) : Prop := x = .unlocking ∨ x = .steering ∨ x = .holding

/-- A state of a channel whose bogie need not be configured (R36). -/
def ChannelState.AtRest (x : ChannelState) : Prop := x = .locking ∨ x = .locked ∨ x = .fault

/-- One channel as R139, R141, R143 to R146 and R161 have it. -/
structure ChannelView.Sound (v : ChannelView) : Prop where
  cause : v.ch.cause = .none ↔ v.ch.state ≠ .fault
  timer : v.ch.lockTimer.isSome = true ↔ v.ch.state = .locking ∨ v.ch.state = .unlocking
  demand : v.ch.demand ≠ 0 → v.ch.state = .steering ∨ v.ch.state = .holding ∨ v.ch.state = .returning
  fault : v.fault = true ↔ v.ch.state = .fault
  tracking : v.ch.state = .fault → v.tracking = false
  runs : v.ch.trackingRun ≤ 255 ∧ v.ch.strokeInvalidRun ≤ 255

/-- One channel's demand as R36 and R141 bound it: `limit` is its stroke_max, `inside` that its bogie is configured, and
`reads` what a pass in flight read for it. -/
structure ChannelView.Bounded (limit : Nat) (inside : Prop) (reads : LaneRead → Prop) (v : ChannelView) : Prop where
  demand : v.ch.demand.natAbs ≤ limit
  inFlight : ∀ l, reads l → (l.start = .steering ∨ l.start = .returning) → v.ch.state = l.start →
    v.ch.entered = false → l.fields.strokeMax ≤ limit
  outside : ¬inside → v.ch.state.AtRest

/-- The vehicle record as a picture's blocks read it. -/
def Picture.record (p : Picture) : VehicleRecord := p.vehicle.getD VehicleRecord.absent

/-- A channel's stroke_max. -/
def Picture.limit (p : Picture) (c : Fin 8) : Nat := p.record.channels[c].strokeMax

/-- A channel's bogie is configured. -/
def Picture.Inside (p : Picture) (c : Fin 8) : Prop := (bogieOf c).val < p.record.bogieCount

/-- What the pass in flight read for a channel. -/
def Picture.Reads (p : Picture) (c : Fin 8) (l : LaneRead) : Prop := ∃ q, p.pass = some q ∧
  (c = channelA q.sample.bogie ∧ l = q.laneA ∨ c = channelB q.sample.bogie ∧ l = q.laneB)

/-- Every channel sound, and none released while the permit is OFF. -/
structure Picture.Sound (p : Picture) : Prop where
  views : ∀ c, (p.view c).Sound
  permit : p.permit = false → ∀ c, ¬(p.view c).ch.state.Released

/-- The levels of every channel's lines taken while the part runs. -/
def Picture.Levels (p : Picture) : Prop := p.power = .running → ∀ c, LevelTaken p.drive[c] (p.view c).ch.state

/-- Every channel's demand bounded. -/
def Picture.Bounded (p : Picture) : Prop := ∀ c, (p.view c).Bounded (p.limit c) (p.Inside c) (p.Reads c)

theorem channelsSound_iff (s : State) : ChannelsSound s ↔ s.picture.Sound := by
  constructor
  · intro h
    exact ⟨fun c => ⟨h.cause c, h.timer c, h.demand c, h.fault c, h.tracking c, h.runs c⟩, fun off c =>
      not_or.2 ⟨(h.permit off c).1, not_or.2 (h.permit off c).2⟩⟩
  · intro ⟨views, permit⟩
    exact {
      cause := fun c => (views c).cause
      timer := fun c => (views c).timer
      demand := fun c => (views c).demand
      fault := fun c => (views c).fault
      tracking := fun c => (views c).tracking
      runs := fun c => (views c).runs
      permit := fun off c => (not_or.1 (permit off c)).imp_right not_or.1 }

theorem levelsTaken_iff_picture (s : State) : LevelsTaken s ↔ s.picture.Levels := levelsTaken_iff s

theorem demandsBounded_iff (s : State) : DemandsBounded s ↔ s.picture.Bounded := by
  constructor
  · intro h c
    exact {
      demand := h.demand c
      inFlight := fun l ⟨q, hq, lane⟩ => h.inFlight q c l hq lane
      outside := fun out => h.outside c (Nat.le_of_not_lt out) }
  · intro h
    exact {
      demand := fun c => (h c).demand
      inFlight := fun q c l hq lane => (h c).inFlight l ⟨q, hq, lane⟩
      outside := fun c out => (h c).outside (Nat.not_lt.2 out) }

/-! ## Moves that keep a channel's invariants -/

/-- A channel's invariants are kept from one view to another. -/
structure ChannelView.Kept (v w : ChannelView) : Prop where
  sound : v.Sound → w.Sound
  released : w.ch.state.Released → v.ch.state.Released
  bounded : ∀ limit inside reads, v.Sound → v.Bounded limit inside reads → w.Bounded limit inside reads

variable {p q r : Picture} {s : State} {c : Fin 8} {v w x : ChannelView}

theorem ChannelView.Kept.refl (v : ChannelView) : v.Kept v := ⟨id, id, fun _ _ _ _ h => h⟩

theorem ChannelView.Kept.trans (h : v.Kept w) (k : w.Kept x) : v.Kept x :=
  ⟨k.sound ∘ h.sound, h.released ∘ k.released, fun _ _ _ sound bounded =>
    k.bounded _ _ _ (h.sound sound) (h.bounded _ _ _ sound bounded)⟩

/-- A channel at rest has no demand and takes nothing from a pass. -/
theorem ChannelView.bounded_of_atRest {limit : Nat} {inside : Prop} {reads : LaneRead → Prop}
    (rest : v.ch.state.AtRest) (demand : v.ch.demand = 0) : v.Bounded limit inside reads where
  demand := by simp [demand]
  inFlight l _ start state _ := by
    rcases rest with h | h | h <;> rw [← state, h] at start <;> simp at start
  outside _ := rest

/-- A sound channel at rest has no demand (R141). -/
theorem ChannelView.Sound.demand_of_atRest (h : v.Sound) (rest : v.ch.state.AtRest) : v.ch.demand = 0 := by
  by_contra nonzero
  have driven := h.demand nonzero
  rcases rest with e | e | e <;> simp [e] at driven

theorem kept_fault {k : FaultCause} (hk : k ≠ .none) : v.Kept ⟨v.ch.toFault k, true, false⟩ where
  sound _ := by constructor <;> simp [Channel.toFault, hk]
  released h := by simp [Channel.toFault, ChannelState.Released] at h
  bounded _ _ _ _ _ := ChannelView.bounded_of_atRest (.inr (.inr rfl)) rfl

theorem kept_locking (n : Nat) (from_ : v.ch.state ≠ .fault) : v.Kept { v with ch := v.ch.toLocking n } where
  sound h := by
    have cause := h.cause.2 from_
    have fault := mt h.fault.1 from_
    constructor <;> simp [Channel.toLocking, cause, fault, h.runs]
  released h := by simp [Channel.toLocking, ChannelState.Released] at h
  bounded _ _ _ _ _ := ChannelView.bounded_of_atRest (.inl rfl) rfl

theorem kept_locked (from_ : v.ch.state ≠ .fault) : v.Kept { v with ch := v.ch.toLocked } where
  sound h := by
    have fault := mt h.fault.1 from_
    constructor <;> simp [Channel.toLocked, fault]
  released h := by simp [Channel.toLocked, ChannelState.Released] at h
  bounded _ _ _ _ _ := ChannelView.bounded_of_atRest (.inr (.inl rfl)) rfl

/-- A FAULT cleared ends CHANNEL_FAULT (R154). -/
theorem kept_cleared : v.Kept { v with ch := v.ch.toLocked, fault := false } where
  sound h := by constructor <;> simp [Channel.toLocked]
  released h := by simp [Channel.toLocked, ChannelState.Released] at h
  bounded _ _ _ _ _ := ChannelView.bounded_of_atRest (.inr (.inl rfl)) rfl

/-- A move between the states that the drive is supervised in and UNLOCKING keeps what does not depend on which of them
it is; the demand is kept or put to 0, and an entry that a pass could give a result to is marked (R116). -/
theorem kept_driven {ch : Channel} (from_ : v.ch.state.Released) (runs : ch.trackingRun = v.ch.trackingRun ∧
      ch.strokeInvalidRun = v.ch.strokeInvalidRun)
    (into : ch.state = .steering ∨ ch.state = .holding ∨ ch.state = .returning) (cause : ch.cause = v.ch.cause)
    (timer : ch.lockTimer = none ∨ ch.lockTimer = v.ch.lockTimer ∧ v.ch.state ≠ .unlocking)
    (demand : ch.demand = v.ch.demand ∨ ch.demand = 0)
    (entered : ch.entered = true ∨ ch.state = .holding) : v.Kept { v with ch := ch } where
  sound h := by
    have notFault : v.ch.state ≠ .fault := by rcases from_ with e | e | e <;> simp [e]
    have fault := mt h.fault.1 notFault
    have stays : ch.state ≠ .fault ∧ ch.state ≠ .locking ∧ ch.state ≠ .unlocking := by
      rcases into with e | e | e <;> simp [e]
    have cause := cause.trans (h.cause.2 notFault)
    have stopped : ch.lockTimer.isSome = false := by
      rcases timer with e | ⟨e, notUnlocking⟩
      · rw [e]
        rfl
      · rw [e]
        refine Bool.eq_false_iff.2 (mt h.timer.1 ?_)
        rcases from_ with k | k | k <;> simp_all
    constructor <;> simp [cause, stays, stopped, into, fault, runs, h.runs]
  released _ := from_
  bounded limit inside reads h b := by
    refine ⟨?_, fun l _ start state fresh => ?_, fun out => ?_⟩
    · rcases demand with e | e <;> simp [e, b.demand]
    · rcases entered with e | e
      · simp [e] at fresh
      · simp only [e] at state
        rw [← state] at start
        simp at start
    · rcases b.outside out with e | e | e <;> rw [e] at from_ <;> simp [ChannelState.Released] at from_

/-! ## Pictures that keep all the invariants -/

/-- The channels' invariants are kept from one picture to another. -/
structure Picture.Kept (p q : Picture) : Prop where
  sound : p.Sound → q.Sound
  levels : p.Levels → q.Levels
  bounded : p.Sound → p.Bounded → q.Bounded

theorem Picture.Kept.refl (p : Picture) : p.Kept p := ⟨id, id, fun _ h => h⟩

theorem Picture.Kept.of_eq (h : q = p) : p.Kept q := h ▸ .refl p

theorem Picture.Kept.trans (h : p.Kept q) (k : q.Kept r) : p.Kept r :=
  ⟨k.sound ∘ h.sound, k.levels ∘ h.levels, fun sound bounded => k.bounded (h.sound sound) (h.bounded sound bounded)⟩

/-- Between two pictures only channels have moved, each by moves that keep its invariants. -/
structure Picture.Moved (p q : Picture) : Prop where
  rest : q = { p with view := q.view }
  kept : ∀ c, (p.view c).Kept (q.view c)

theorem Picture.Moved.refl (p : Picture) : p.Moved p := ⟨rfl, fun _ => .refl _⟩

theorem Picture.Moved.trans (h : p.Moved q) (k : q.Moved r) : p.Moved r :=
  ⟨by rw [k.rest, h.rest], fun c => (h.kept c).trans (k.kept c)⟩

theorem Picture.Moved.put (h : (p.view c).Kept w) : p.Moved (p.put c w) := by
  refine ⟨rfl, fun d => ?_⟩
  by_cases hd : d = c
  · subst hd
    rwa [Picture.put_view_same]
  · rw [Picture.put_view_other hd]
    exact .refl _

theorem Picture.Moved.sound (h : p.Moved q) (sound : p.Sound) : q.Sound := by
  refine ⟨fun c => (h.kept c).sound (sound.views c), fun off c released => ?_⟩
  rw [h.rest] at off
  exact sound.permit off c ((h.kept c).released released)

theorem Picture.Moved.bounded (h : p.Moved q) (sound : p.Sound) (bounded : p.Bounded) : q.Bounded := by
  intro c
  have kept := (h.kept c).bounded _ _ _ (sound.views c) (bounded c)
  rw [h.rest]
  exact kept

/-- Channels moved with their levels taken keep all the invariants. -/
theorem Picture.Moved.keeps (h : p.Moved q)
    (levels : p.power = .running → ∀ c, LevelTaken p.drive[c] (p.view c).ch.state →
      LevelTaken p.drive[c] (q.view c).ch.state) : p.Kept q := by
  refine ⟨h.sound, fun taken running c => ?_, h.bounded⟩
  rw [h.rest] at running ⊢
  exact levels running c (taken running c)

/-- One channel moved with its levels taken keeps all the invariants. -/
theorem Picture.Kept.put (h : (p.view c).Kept w)
    (level : LevelTaken p.drive[c] (p.view c).ch.state → LevelTaken p.drive[c] w.ch.state) : p.Kept (p.put c w) := by
  refine (Picture.Moved.put h).keeps fun _ d taken => ?_
  by_cases hd : d = c
  · subst hd
    rw [Picture.put_view_same]
    exact level taken
  · rwa [Picture.put_view_other hd]

/-! ## The levels acted on (R144, R145) -/

/-- The state that the levels move a channel to at once. -/
def ChannelState.afterLevels (l : DriveLines) : ChannelState → ChannelState
  | .locking => if l.driveFault then .fault else if l.lockEngaged then .locked else .locking
  | .locked => if l.lockEngaged then .locked else .locking
  | .unlocking => if l.driveFault then .fault else if l.lockEngaged then .unlocking else .steering
  | .steering => if l.driveFault then .fault else .steering
  | .holding => if l.driveFault then .fault else .holding
  | .returning => if l.driveFault then .fault else .returning
  | .fault => .fault

/-- What acting once on the levels of a channel does to the picture. -/
theorem settleOnce_put (s : State) (c : Fin 8) : ∃ w, (s.settleOnce c).picture = s.picture.put c w ∧
    (s.picture.view c).Kept w ∧ w.ch.state = (s.picture.view c).ch.state.afterLevels s.lines.drive[c] := by
  have shown : (s.picture.view c).ch.state = s.channels.bank[c].state := rfl
  unfold State.settleOnce
  dsimp only
  generalize s.channels.bank[c].state = x at shown ⊢
  generalize s.lines.drive[c] = l
  rw [shown]
  split
  · next h =>
    refine ⟨_, picture_enterFault _, kept_fault nofun, ?_⟩
    obtain ⟨state, fault⟩ := h
    cases x <;> simp_all [ChannelState.afterLevels, ChannelState.faultable, Channel.toFault]
  · next notFault =>
    split
    · next h =>
      obtain ⟨rfl, lock⟩ := h
      refine ⟨_, picture_enterLocked _, kept_locked (by simp [shown]), ?_⟩
      have fault : l.driveFault = false := by simpa [ChannelState.faultable] using notFault
      simp [ChannelState.afterLevels, fault, lock, Channel.toLocked]
    · next notLocked =>
      split
      · next h =>
        obtain ⟨rfl, lock⟩ := h
        refine ⟨_, picture_enterLocking _, kept_locking _ (by simp [shown]), ?_⟩
        simp [ChannelState.afterLevels, lock, Channel.toLocking]
      · next notLost =>
        split
        · next h =>
          obtain ⟨rfl, lock⟩ := h
          refine ⟨_, picture_enterSteering, kept_driven (.inl shown) ⟨rfl, rfl⟩ (.inl rfl) rfl (.inl rfl)
            (.inr rfl) (.inl rfl), ?_⟩
          have fault : l.driveFault = false := by simpa [ChannelState.faultable] using notFault
          simp [ChannelState.afterLevels, fault, lock, Channel.toSteering]
        · next notSteering =>
          refine ⟨s.picture.view c, by simp, .refl _, ?_⟩
          rw [shown]
          cases x <;> simp_all [ChannelState.afterLevels, ChannelState.faultable]

/-- After acting twice no level calls for a move. -/
theorem levelTaken_afterLevels (l : DriveLines) (x : ChannelState) :
    LevelTaken l ((x.afterLevels l).afterLevels l) := by
  obtain ⟨ready, fault, engaged⟩ := l
  cases x <;> cases fault <;> cases engaged <;> simp [ChannelState.afterLevels, LevelTaken]

/-- What acting on the levels of a channel does to the picture. -/
theorem settle_put (s : State) (c : Fin 8) : ∃ w, (s.settle c).picture = s.picture.put c w ∧
    (s.picture.view c).Kept w ∧ LevelTaken s.lines.drive[c] w.ch.state := by
  obtain ⟨v, first, kept, state⟩ := settleOnce_put s c
  obtain ⟨w, second, kept', state'⟩ := settleOnce_put (s.settleOnce c) c
  rw [first, Picture.put_view_same] at kept' state'
  refine ⟨w, by rw [State.settle, second, first, Picture.put_put], kept.trans kept', ?_⟩
  rw [state', State.settleOnce_lines, state]
  exact levelTaken_afterLevels _ _

end Sys2Proof.Machine
end

