-- ==== Sys2Proof/Proofs/ChannelActs.lean ====
section
/-!
SUPPORT. What each command does to the channels' invariants: settles O57.
-/
namespace Sys2Proof.Machine

variable {p q : Picture} {s t : State} {c d : Fin 8} {v w : ChannelView}

/-! ## Requests that move a channel (R148 to R154) -/

/-- The channels' invariants are kept from one state to another. -/
def KeepsChannels (s t : State) : Prop := s.picture.Kept t.picture

theorem KeepsChannels.of_unseen (h : t.picture = s.picture) : KeepsChannels s t := .of_eq h

/-- A channel in UNLOCKING, from LOCKED with the permit ON and the bogie configured (R148, R149). -/
theorem ChannelView.Sound.toUnlocking (n : Nat) (state : v.ch.state = .locked) (h : v.Sound) :
    ChannelView.Sound { v with ch := v.ch.toUnlocking n } := by
  have cause := h.cause.2 (by simp [state])
  have fault := mt h.fault.1 (by simp [state])
  constructor <;> simp [Channel.toUnlocking, cause, fault]

theorem unlock_keeps (s : State) (c : Fin 8) (reason : s.unlockReason c = none) : KeepsChannels s (s.unlock c) := by
  have holds : s.channels.bank[c].state = .locked ∧ s.channels.permit = true ∧ s.configured (bogieOf c) = true := by
    unfold State.unlockReason at reason
    simp only [firstReason] at reason
    split_ifs at reason with state permit _ configured
    exact ⟨by simpa using state, permit, configured⟩
  obtain ⟨state, permit, configured⟩ := holds
  obtain ⟨w, settled, kept, level⟩ := settle_put
    ((s.setChannel c (Channel.toUnlocking (s.lockDeadline c))).notifyChannel c s.channels.bank[c].state .unlock) c
  have before : (s.picture.view c).ch.state = .locked := state
  rw [picture_notifyChannel, picture_setChannel, Picture.put_view_same] at kept
  rw [picture_notifyChannel, picture_setChannel, Picture.put_put] at settled
  unfold KeepsChannels
  rw [State.unlock, settled]
  refine ⟨fun sound => ⟨fun d => ?_, fun off => ?_⟩, fun levels running d => ?_, fun sound bounded d => ?_⟩
  · by_cases hd : d = c
    · subst hd
      rw [Picture.put_view_same]
      exact kept.sound ((sound.views d).toUnlocking _ before)
    · rw [Picture.put_view_other hd]
      exact sound.views d
  · exact absurd (permit.symm.trans off) (by decide)
  · by_cases hd : d = c
    · subst hd
      rw [Picture.put_view_same]
      exact level
    · rw [Picture.put_view_other hd]
      exact levels running d
  · by_cases hd : d = c
    · subst hd
      rw [Picture.put_view_same]
      refine kept.bounded _ _ _ ((sound.views d).toUnlocking _ before) ⟨?_, fun l _ start state _ => ?_, fun out => ?_⟩
      · simp [Channel.toUnlocking]
      · rw [← state] at start
        simp [Channel.toUnlocking] at start
      · exact absurd (of_decide_eq_true configured) out
    · rw [Picture.put_view_other hd]
      exact bounded d

/-- A move between the supervised states keeps the levels taken (R145). -/
theorem driven_keeps {f : Channel → Channel}
    (kept : (s.picture.view c).Kept { s.picture.view c with ch := f (s.picture.view c).ch })
    (from_ : s.channels.bank[c].state = .steering ∨ s.channels.bank[c].state = .holding)
    (into : (f s.channels.bank[c]).state = .steering ∨ (f s.channels.bank[c]).state = .holding ∨
      (f s.channels.bank[c]).state = .returning) (b : ChannelState) (e : ChannelEvent) :
    KeepsChannels s ((s.setChannel c f).notifyChannel c b e) := by
  unfold KeepsChannels
  rw [picture_notifyChannel, picture_setChannel]
  refine .put kept fun taken => ?_
  have before : (s.picture.view c).ch = s.channels.bank[c] := rfl
  rw [before] at taken ⊢
  show LevelTaken _ (f s.channels.bank[c]).state
  rcases from_ with h | h <;> rw [h] at taken <;> rcases into with k | k | k <;> rw [k] <;> exact taken

theorem hold_keeps (s : State) (c : Fin 8) (state : s.channels.bank[c].state = .steering) :
    KeepsChannels s (s.hold c) := by
  refine driven_keeps (kept_driven (.inr (.inl state)) ⟨rfl, rfl⟩ (.inr (.inl rfl)) rfl (.inr ⟨rfl, ?_⟩) (.inl rfl)
    (.inr rfl)) (.inl state) (.inr (.inl rfl)) _ _
  show s.channels.bank[c].state ≠ .unlocking
  rw [state]
  decide

theorem resume_keeps (s : State) (c : Fin 8) (state : s.channels.bank[c].state = .holding) :
    KeepsChannels s (s.resume c) :=
  driven_keeps (kept_driven (.inr (.inr state)) ⟨rfl, rfl⟩ (.inl rfl) rfl (.inl rfl) (.inl rfl) (.inl rfl)) (.inr state)
    (.inl rfl) _ _

/-! ## The permit (R152, R155) -/

/-- A channel brought back moves with its levels taken, and is not released after. -/
theorem bringBack_put (s : State) (e : ChannelEvent) (c : Fin 8) : ∃ w, (s.bringBack e c).picture = s.picture.put c w ∧
    (s.picture.view c).Kept w ∧ (LevelTaken s.lines.drive[c] (s.picture.view c).ch.state →
      LevelTaken s.lines.drive[c] w.ch.state) ∧ ¬w.ch.state.Released := by
  have shown : (s.picture.view c).ch.state = s.channels.bank[c].state := rfl
  have returning (from_ : s.channels.bank[c].state = .steering ∨ s.channels.bank[c].state = .holding) :
      ∃ w, (s.enterReturning c e).picture = s.picture.put c w ∧ (s.picture.view c).Kept w ∧
        (LevelTaken s.lines.drive[c] (s.picture.view c).ch.state → LevelTaken s.lines.drive[c] w.ch.state) ∧
        ¬w.ch.state.Released := by
    refine ⟨_, picture_enterReturning _, kept_driven (.inr from_) ⟨rfl, rfl⟩ (.inr (.inr rfl)) rfl (.inl rfl) (.inl rfl)
      (.inl rfl), fun taken => ?_, by simp [Channel.toReturning, ChannelState.Released]⟩
    rw [shown] at taken
    rcases from_ with h | h <;> rw [h] at taken <;> exact taken
  unfold State.bringBack
  split
  · next state =>
    obtain ⟨w, settled, kept, level⟩ := settle_put (s.enterLocking c e) c
    rw [picture_enterLocking, Picture.put_view_same] at kept
    rw [picture_enterLocking, Picture.put_put] at settled
    have locking := kept_locking (v := s.picture.view c) (s.lockDeadline c) (by rw [shown, state]; decide)
    refine ⟨w, settled, locking.trans kept, fun _ => level, fun released => ?_⟩
    exact absurd (kept.released released) (by simp [Channel.toLocking, ChannelState.Released])
  · next state => exact returning (.inl state)
  · next state => exact returning (.inr state)
  all_goals
    next state =>
    exact ⟨s.picture.view c, by simp, .refl _, id, by simp [shown, state, ChannelState.Released, -Fin.getElem_fin]⟩

/-- Channels brought back one after the other: those named are not released after. -/
theorem bringBack_foldl (e : ChannelEvent) (l : List (Fin 8)) (s : State) :
    let t := l.foldl (fun s c => s.bringBack e c) s
    s.picture.Moved t.picture ∧
      (∀ c, LevelTaken s.lines.drive[c] (s.picture.view c).ch.state →
        LevelTaken s.lines.drive[c] (t.picture.view c).ch.state) ∧
      ∀ c ∈ l, ¬(t.picture.view c).ch.state.Released := by
  induction l generalizing s with
  | nil => exact ⟨.refl _, fun _ => id, nofun⟩
  | cons c rest ih =>
    obtain ⟨w, put, kept, level, notReleased⟩ := bringBack_put s e c
    obtain ⟨moved, levels, others⟩ := ih (s.bringBack e c)
    rw [put] at moved levels
    rw [State.bringBack_lines] at levels
    refine ⟨(Picture.Moved.put kept).trans moved, fun d taken => levels d ?_, fun d hd => ?_⟩
    · by_cases h : d = c
      · subst h
        rw [Picture.put_view_same]
        exact level taken
      · rwa [Picture.put_view_other h]
    · rcases List.mem_cons.1 hd with rfl | hd
      · exact fun released => notReleased (by simpa using (moved.kept d).released released)
      · exact others d hd

theorem permitOff_keeps (s : State) : KeepsChannels s s.permitOff := by
  unfold State.permitOff
  split
  · obtain ⟨moved, levels, notReleased⟩ := bringBack_foldl .permitOff allChannels (s.setPermit false)
    generalize allChannels.foldl (fun s c => s.bringBack .permitOff c) (s.setPermit false) = t at *
    have rest := moved.rest
    refine ⟨fun sound => ⟨fun c => (moved.kept c).sound (sound.views c), fun _ c => notReleased c (mem_allChannels c)⟩,
      fun taken running c => ?_, fun sound bounded c => ?_⟩
    · rw [rest] at running ⊢
      exact levels c (taken running c)
    · have kept := (moved.kept c).bounded _ _ _ (sound.views c) (bounded c)
      rw [rest]
      exact kept
  · exact .refl _

theorem setPermit_true_keeps (s : State) : KeepsChannels s (s.setPermit true) :=
  ⟨fun sound => ⟨sound.views, nofun⟩, id, fun _ => id⟩

/-! ## Faults cleared, lock timers and lines (R143 to R145, R154) -/

theorem clearFault_keeps (s : State) (c : Fin 8) (reason : s.clearReason c = none) :
    KeepsChannels s (s.clearFault c) := by
  have engaged : s.lines.drive[c].lockEngaged = true := by
    unfold State.clearReason at reason
    simp only [firstReason] at reason
    split_ifs at reason with _ _ engaged
    exact engaged
  unfold KeepsChannels State.clearFault
  dsimp only
  rw [picture_notifyChannel, picture_report_channelFault, picture_setChannel, Picture.put_put, Picture.put_view_same]
  exact .put kept_cleared fun _ => engaged

theorem lockExpiry_keeps (s : State) (c : Fin 8) : KeepsChannels s (s.lockExpiry c) := by
  unfold KeepsChannels State.lockExpiry
  split
  · exact .refl _
  · split
    · rw [picture_enterFault]
      exact .put (kept_fault nofun) fun _ => trivial
    · exact .refl _

/-- A change of a channel's lines: its levels are acted on at once while the part runs (R144, R145). -/
theorem setLines_keeps (s : State) (c : Fin 8) (f : DriveLines → DriveLines) :
    KeepsChannels s ((s.setLines c f).whileRunning fun s => s.settle c) := by
  unfold KeepsChannels
  by_cases running : s.power = .running
  · rw [State.whileRunning_of_running (s := s.setLines c f) running]
    obtain ⟨w, settled, kept, level⟩ := settle_put (s.setLines c f) c
    have moved : s.picture.Moved (s.picture.put c w) := .put kept
    rw [settled]
    refine ⟨fun sound => ?_, fun taken _ d => ?_, fun sound bounded => ?_⟩
    · exact ⟨(moved.sound sound).views, (moved.sound sound).permit⟩
    · by_cases hd : d = c
      · subst hd
        rw [Picture.put_view_same]
        exact level
      · rw [Picture.put_view_other hd]
        have lines : (s.setLines c f).lines.drive[d] = s.lines.drive[d] := changeAt_other _ _ _ _ hd
        show LevelTaken (s.setLines c f).lines.drive[d] _
        rw [lines]
        exact taken running d
    · exact moved.bounded sound bounded
  · rw [State.whileRunning_of_stopped (s := s.setLines c f) running]
    exact ⟨fun sound => ⟨sound.views, sound.permit⟩, fun _ runs => absurd runs running, fun _ => id⟩

/-! ## The vehicle record (R29, R36) -/

/-- A record replaced with every configured channel LOCKED keeps the demands, which are all 0 then. -/
theorem setVehicle_keeps (s : State) (r : VehicleRecord) (accepted : s.vehicleRefusal = none) :
    KeepsChannels s (s.setVehicle r) := by
  have shown : (s.setVehicle r).picture = { s.picture with vehicle := some r } := by
    have each : ∀ (l : List (Fin 4)) (t : State), (l.foldl (fun s b => s.reschedule b) t).picture = t.picture := by
      intro l
      induction l with
      | nil => exact fun _ => rfl
      | cons b rest ih => exact fun t => (ih _).trans (picture_reschedule b)
    rw [State.setVehicle, each]
    rfl
  have atRest (bounded : s.picture.Bounded) (c : Fin 8) : (s.picture.view c).ch.state.AtRest := by
    by_cases inside : s.picture.Inside c
    · unfold State.vehicleRefusal at accepted
      cases record : s.vehicle with
      | none =>
        rw [Picture.Inside, Picture.record, show s.picture.vehicle = none from record] at inside
        exact absurd inside (Nat.not_lt_zero _)
      | some v =>
        rw [record] at accepted
        dsimp only at accepted
        split_ifs at accepted with unlocked
        rw [Picture.Inside, Picture.record, show s.picture.vehicle = some v from record] at inside
        have locked : s.configuredLocked v = true := by simpa using unlocked
        have all := List.all_eq_true.1 locked c (mem_allChannels c)
        exact .inr (.inl (of_decide_eq_true all inside))
    · exact (bounded c).outside inside
  unfold KeepsChannels
  rw [shown]
  refine ⟨fun sound => ⟨sound.views, sound.permit⟩, id, fun sound bounded c => ?_⟩
  exact ChannelView.bounded_of_atRest (atRest bounded c) ((sound.views c).demand_of_atRest (atRest bounded c))

/-! ## The completion of a pass (R116, R153, R156 to R158) -/

/-- A channel after steps 1 to 3 of a pass: its stroke compared, and the result taken. -/
def Channel.offered (ch : Channel) (law : LawRecord) (stroke : Sample) (taken : Option LaneResult) : Channel :=
  match taken with
  | some x => { ch.compare law stroke with demand := x.stroke }
  | none => ch.compare law stroke

/-- Step 4 of a pass: a channel in FAULT by the fault found, else in LOCKING where a result taken ends its return. -/
def State.afterFound (s : State) (c : Fin 8) (found : Option FaultCause) (ends : LaneResult → Bool)
    (taken : Option LaneResult) : State :=
  match found with
  | some cause => s.enterFault c cause
  | none =>
    match taken with
    | some x => if ends x then (s.enterLocking c .returnDone).settle c else s
    | none => s

variable {law : LawRecord} {stroke : Sample} {taken : Option LaneResult}

/-- What a pass makes of a channel, but for the counts and peaks, which the picture does not show. -/
theorem picture_supervise (s : State) (c : Fin 8) (law : LawRecord) (stroke : Sample) (taken : Option LaneResult) :
    let ch := s.channels.bank[c]
    let exceeded := exceeds law (comparison ch stroke)
    let s2 := (s.setChannel c fun ch => ch.offered law stroke taken).afterFound c
      (faultFound law (ch.compare law stroke) exceeded)
      (fun x => ch.state = .returning ∧ returnEnds law x.output stroke) taken
    (s.supervise c law stroke taken).picture =
      (s2.report (ofChannel .trackingError c) (exceeded && decide (s2.channels.bank[c].state ≠ .fault))).picture := by
  cases taken <;>
  · unfold State.supervise State.afterFound
    dsimp only
    generalize comparison s.channels.bank[c] stroke = error
    cases error <;> simp only [decide_eq_true_eq, picture_countIf, picture_offerPeak] <;> rfl

@[simp] theorem Channel.offered_state (ch : Channel) : (ch.offered law stroke taken).state = ch.state := by
  cases taken <;> rfl

@[simp] theorem Channel.offered_entered (ch : Channel) : (ch.offered law stroke taken).entered = ch.entered := by
  cases taken <;> rfl

/-- The runs of a channel stay within their saturation (R157, R158). -/
theorem Channel.compare_runs (ch : Channel) (h : ch.trackingRun ≤ 255 ∧ ch.strokeInvalidRun ≤ 255) :
    (ch.compare law stroke).trackingRun ≤ 255 ∧ (ch.compare law stroke).strokeInvalidRun ≤ 255 := by
  unfold Channel.compare
  dsimp only
  constructor
  · split
    · split
      · split
        · exact runUp_le _
        · exact Nat.zero_le _
      · exact h.1
    · exact Nat.zero_le _
  · split
    · split
      · exact Nat.zero_le _
      · exact runUp_le _
    · exact Nat.zero_le _

theorem ChannelView.Sound.offered (h : v.Sound)
    (driven : ∀ x, taken = some x → v.ch.state = .steering ∨ v.ch.state = .returning) :
    ChannelView.Sound { v with ch := v.ch.offered law stroke taken } := by
  have runs : (v.ch.offered law stroke taken).trackingRun ≤ 255 ∧ (v.ch.offered law stroke taken).strokeInvalidRun ≤ 255 := by
    cases taken <;> exact v.ch.compare_runs h.runs
  have kept : (v.ch.offered law stroke taken).cause = v.ch.cause ∧
      (v.ch.offered law stroke taken).lockTimer = v.ch.lockTimer := by cases taken <;> exact ⟨rfl, rfl⟩
  refine ⟨?_, ?_, fun nonzero => ?_, ?_, ?_, runs⟩
  · simpa [kept] using h.cause
  · simpa [kept] using h.timer
  · rw [Channel.offered_state]
    cases taken with
    | none => exact h.demand nonzero
    | some x => exact (driven x rfl).imp_right .inr
  · simpa using h.fault
  · simpa using h.tracking

theorem ChannelView.Bounded.offered {limit : Nat} {inside : Prop} {reads : LaneRead → Prop}
    (h : v.Bounded limit inside reads) (bound : ∀ x, taken = some x → x.stroke.natAbs ≤ limit) :
    ChannelView.Bounded limit inside reads { v with ch := v.ch.offered law stroke taken } := by
  refine ⟨?_, ?_, ?_⟩
  · cases taken with
    | none => exact h.demand
    | some x => exact bound x rfl
  · simpa using h.inFlight
  · simpa using h.outside

/-- Step 4 of a pass moves the channel with its levels taken. -/
theorem afterFound_put (s : State) (c : Fin 8) {found : Option FaultCause} (ends : LaneResult → Bool)
    (taken : Option LaneResult) (real : found ≠ some .none)
    (returning : ∀ x, ends x = true → s.channels.bank[c].state = .returning) :
    ∃ w, (s.afterFound c found ends taken).picture = s.picture.put c w ∧ (s.picture.view c).Kept w ∧
      (LevelTaken s.lines.drive[c] (s.picture.view c).ch.state → LevelTaken s.lines.drive[c] w.ch.state) := by
  have same : ∃ w, s.picture = s.picture.put c w ∧ (s.picture.view c).Kept w ∧
      (LevelTaken s.lines.drive[c] (s.picture.view c).ch.state → LevelTaken s.lines.drive[c] w.ch.state) :=
    ⟨_, Picture.put_view_self.symm, .refl _, id⟩
  unfold State.afterFound
  split
  · next cause => exact ⟨_, picture_enterFault _, kept_fault fun e => real (e ▸ rfl), fun _ => trivial⟩
  · split
    · next x =>
      split
      · next ended =>
        obtain ⟨w, settled, kept, level⟩ := settle_put (s.enterLocking c .returnDone) c
        rw [picture_enterLocking, Picture.put_view_same] at kept
        rw [picture_enterLocking, Picture.put_put] at settled
        have locking := kept_locking (v := s.picture.view c) (s.lockDeadline c) (by
          show s.channels.bank[c].state ≠ .fault
          rw [returning x ended]
          decide)
        exact ⟨w, settled, locking.trans kept, fun _ => level⟩
      · exact same
    · exact same

/-- TRACKING_ERROR reported of a channel that does not stand in FAULT, or as absent (R161). -/
theorem kept_tracking {b : Bool} (h : v.ch.state = .fault → b = false) : v.Kept { v with tracking := b } where
  sound k := ⟨k.cause, k.timer, k.demand, k.fault, h, k.runs⟩
  released := id
  bounded _ _ _ _ k := ⟨k.demand, k.inFlight, k.outside⟩

/-- A pass moves its channel from the one that was offered the result, with its levels taken. -/
theorem supervise_put (s : State) (c : Fin 8) (law : LawRecord) (stroke : Sample) (taken : Option LaneResult) :
    ∃ w, (s.supervise c law stroke taken).picture = s.picture.put c w ∧
      ChannelView.Kept { s.picture.view c with ch := (s.picture.view c).ch.offered law stroke taken } w ∧
      (LevelTaken s.lines.drive[c] (s.picture.view c).ch.state → LevelTaken s.lines.drive[c] w.ch.state) := by
  obtain ⟨w, put, kept, level⟩ := afterFound_put (s.setChannel c fun ch => ch.offered law stroke taken) c
    (found := faultFound law (s.channels.bank[c].compare law stroke) (exceeds law (comparison s.channels.bank[c] stroke)))
    (fun x => s.channels.bank[c].state = .returning ∧ returnEnds law x.output stroke) taken
    (by unfold faultFound; split_ifs <;> nofun)
    (fun x ended => by
      rw [State.setChannel_channels, changeAt_same, Channel.offered_state]
      exact (of_decide_eq_true ended).1)
  rw [picture_supervise]
  dsimp only
  generalize State.afterFound _ _ _ _ _ = s2 at put
  rw [picture_setChannel, Picture.put_put] at put
  rw [picture_setChannel, Picture.put_view_same] at kept level
  rw [picture_report_trackingError, put, Picture.put_put, Picture.put_view_same]
  refine ⟨_, rfl, kept.trans (kept_tracking fun fault => ?_), fun before => level ?_⟩
  · have standing : s2.channels.bank[c].state = .fault := by
      have same : s2.picture.view c = w := by rw [put, Picture.put_view_same]
      rw [← fault, ← same]
      rfl
    rw [standing]
    simp
  · rw [Channel.offered_state]
    exact before

end Sys2Proof.Machine
end

