-- ==== Sys2Proof/Proofs/Passes.lean ====
section
/-!
SUPPORT. The start and the completion of a pass keep the channels' invariants (R36, R114 to R116, R141).
-/
namespace Sys2Proof.Machine

variable {p q : Picture} {s t : State} {c d : Fin 8} {v w x : ChannelView}

/-! ## The start of a pass (R114, R115) -/

/-- A channel's view when a pass of its bogie starts: no entry is behind it. -/
def Picture.watched (p : Picture) (c : Fin 8) : Picture :=
  p.put c { p.view c with ch := { (p.view c).ch with entered := false } }

theorem sound_watched (sound : v.Sound) : ChannelView.Sound { v with ch := { v.ch with entered := false } } :=
  ⟨sound.cause, sound.timer, sound.demand, sound.fault, sound.tracking, sound.runs⟩

/-- A watched channel differs in its mark of an entry alone. -/
theorem Picture.watched_view (p : Picture) (c d : Fin 8) :
    (p.watched c).view d = p.view d ∨
      (p.watched c).view d = { p.view d with ch := { (p.view d).ch with entered := false } } := by
  by_cases h : d = c
  · subst h
    exact .inr (Picture.put_view_same ..)
  · exact .inl (Picture.put_view_other h)

/-- A pass that read each lane's own fields, put in flight, keeps the invariants: what it has still to give is within
stroke_max of the record it read. -/
theorem watched_keeps (p : Picture) (q : Pass) (b : Fin 4)
    (fields : ∀ c l, ({ p with pass := some q } : Picture).Reads c l →
    l.fields.strokeMax = p.limit c) :
    p.Kept ((({ p with pass := some q } : Picture).watched (channelA b)).watched (channelB b)) := by
  have views (d : Fin 8) :
      let w := ((({ p with pass := some q } : Picture).watched (channelA b)).watched (channelB b)).view d
      w = p.view d ∨ w = { p.view d with ch := { (p.view d).ch with entered := false } } := by
    have second := Picture.watched_view (({ p with pass := some q } : Picture).watched (channelA b)) (channelB b) d
    have first : _ ∨ _ := Picture.watched_view { p with pass := some q } (channelA b) d
    rcases first with e | e <;> rw [e] at second <;> rcases second with e' | e' <;> simp [e']
  refine ⟨fun sound => ⟨fun d => ?_, fun off d => ?_⟩, fun levels running d => ?_, fun sound bounded d => ?_⟩
  · rcases views d with e | e <;> rw [e]
    · exact sound.views d
    · exact sound_watched (sound.views d)
  · rcases views d with e | e <;> rw [e] <;> exact sound.permit off d
  · rcases views d with e | e <;> rw [e] <;> exact levels running d
  · have within (l : LaneRead) (h : ({ p with pass := some q } : Picture).Reads d l) : l.fields.strokeMax ≤ p.limit d :=
      (fields d l h).le
    rcases views d with e | e <;> rw [e] <;>
      exact ⟨(bounded d).demand, fun l h _ _ _ => within l h, (bounded d).outside⟩

theorem startPass_keeps (s : State) : KeepsChannels s s.startPass := by
  unfold State.startPass
  split
  · next r rest _ _ =>
    dsimp only
    unfold KeepsChannels
    rw [picture_setChannel, picture_setChannel]
    refine watched_keeps s.picture (s.readPass r) r.bogie fun c l reads => ?_
    obtain ⟨q, started, lane⟩ := reads
    obtain rfl : s.readPass r = q := Option.some.inj started
    rcases lane with ⟨rfl, rfl⟩ | ⟨rfl, rfl⟩ <;> rfl
  · exact .refl _

/-! ## The completion of a lane (R116, R156) -/

/-- What a completion that offers a result keeps of its channel: the bound, where the result is within it. -/
structure ChannelView.Completed (taken : Option LaneResult) (v w : ChannelView) : Prop where
  sound : v.Sound → w.Sound
  released : w.ch.state.Released → v.ch.state.Released
  bounded : ∀ limit inside reads, (∀ x, taken = some x → x.stroke.natAbs ≤ limit) → v.Sound →
    v.Bounded limit inside reads → w.Bounded limit inside reads

theorem ChannelView.Completed.refl (taken : Option LaneResult) (v : ChannelView) : v.Completed taken v :=
  ⟨id, id, fun _ _ _ _ _ h => h⟩

/-- A lane's completion moves its channel alone, with its levels taken. -/
theorem finishLane_put (s : State) (e : LaneEnd) (driven : ∀ x, e.taken = some x →
      s.channels.bank[e.channel].state = .steering ∨ s.channels.bank[e.channel].state = .returning) :
    ∃ w, (s.finishLane e).picture = s.picture.put e.channel w ∧
      (s.picture.view e.channel).Completed e.taken w ∧
      (LevelTaken s.lines.drive[e.channel] (s.picture.view e.channel).ch.state →
        LevelTaken s.lines.drive[e.channel] w.ch.state) := by
  obtain ⟨w, put, kept, level⟩ := supervise_put (s.setRecord e.channel fun _ => e.record) e.channel e.read.law e.stroke e.taken
  rw [picture_setRecord] at put kept level
  refine ⟨w, put, ⟨fun sound => kept.sound (sound.offered driven), fun released => ?_,
    fun limit inside reads bound sound bounded => ?_⟩, level⟩
  · simpa using kept.released released
  · exact kept.bounded _ _ _ (sound.offered driven) (bounded.offered bound)

/-- A lane's result is within stroke_max of the fields that the lane read (R131, R132). -/
theorem laneResult_stroke_le {p : Pass} {l : LaneRead} {r : ComputationRecord} {x : LaneResult}
    (h : laneResult p l r = some x) : x.stroke.natAbs ≤ l.fields.strokeMax := by
  unfold laneResult at h
  split at h
  · obtain rfl := Option.some.inj h
    exact clampAbs_natAbs _ _
  · obtain rfl := Option.some.inj h
    exact clampAbs_natAbs _ _
  all_goals cases h

/-- A result that a channel takes: the channel stands in the lane's start state, entered before the pass, and the
result is within the fields that the lane read (R116). -/
theorem laneEnd_taken {p : Pass} {lane : Lane} {l : LaneRead} {other : ComputationRecord} {g : Gaps} {x : LaneResult}
    (h : (s.laneEnd p lane l other g).taken = some x) :
    (l.start = .steering ∨ l.start = .returning) ∧ s.channels.bank[lane.channel p.sample.bogie].state = l.start ∧
      s.channels.bank[lane.channel p.sample.bogie].entered = false ∧ x.stroke.natAbs ≤ l.fields.strokeMax := by
  simp only [State.laneEnd] at h
  split at h
  · next taken =>
    simp only [resultTaken, Bool.and_eq_true, Bool.or_eq_true, decide_eq_true_eq, Bool.not_eq_true'] at taken
    obtain ⟨⟨start, state⟩, entered⟩ := taken
    exact ⟨start, state, entered, laneResult_stroke_le h⟩
  · cases h

theorem laneEnd_driven {p : Pass} {lane : Lane} {l : LaneRead} {other : ComputationRecord} {g : Gaps} (x : LaneResult)
    (h : (s.laneEnd p lane l other g).taken = some x) :
    s.channels.bank[lane.channel p.sample.bogie].state = .steering ∨
      s.channels.bank[lane.channel p.sample.bogie].state = .returning := by
  obtain ⟨start, state, _, _⟩ := laneEnd_taken h
  rw [state]
  exact start

/-! ## The completion of a pass (R116) -/

theorem channelA_ne_channelB (b : Fin 4) : channelA b ≠ channelB b := by
  intro h
  have := congrArg Fin.val h
  simp only [channelA, channelB] at this
  omega

/-- The picture with no pass in flight. -/
def Picture.idle (p : Picture) : Picture := { p with pass := none }

/-- Two channels completed, each with a result within its bound, keep the invariants while the pass ends. -/
theorem completed_keeps {taken : Lane → Option LaneResult} {b : Fin 4} {wa wb : ChannelView}
    (a : (p.view (channelA b)).Completed (taken .laneA) wa) (b' : (p.view (channelB b)).Completed (taken .laneB) wb)
    (levelA : LevelTaken p.drive[channelA b] (p.view (channelA b)).ch.state → LevelTaken p.drive[channelA b] wa.ch.state)
    (levelB : LevelTaken p.drive[channelB b] (p.view (channelB b)).ch.state → LevelTaken p.drive[channelB b] wb.ch.state)
    (bound : p.Bounded → ∀ lane x, taken lane = some x → x.stroke.natAbs ≤ p.limit (lane.channel b)) :
    p.Kept ((p.idle.put (channelA b) wa).put (channelB b) wb) := by
  have views (d : Fin 8) : ∃ x : Option LaneResult,
      (p.view d).Completed x (((p.idle.put (channelA b) wa).put (channelB b) wb).view d) ∧
      (LevelTaken p.drive[d] (p.view d).ch.state →
        LevelTaken p.drive[d] (((p.idle.put (channelA b) wa).put (channelB b) wb).view d).ch.state) ∧
      (p.Bounded → ∀ y, x = some y → y.stroke.natAbs ≤ p.limit d) := by
    by_cases hb : d = channelB b
    · subst hb
      rw [Picture.put_view_same]
      exact ⟨_, b', levelB, fun bounded => bound bounded .laneB⟩
    · rw [Picture.put_view_other hb]
      by_cases ha : d = channelA b
      · subst ha
        rw [Picture.put_view_same]
        exact ⟨_, a, levelA, fun bounded => bound bounded .laneA⟩
      · rw [Picture.put_view_other ha]
        exact ⟨none, .refl _ _, id, nofun⟩
  refine ⟨fun sound => ⟨fun d => ?_, fun off d released => ?_⟩, fun levels running d => ?_, fun sound bounded d => ?_⟩
  · obtain ⟨_, completed, _, _⟩ := views d
    exact completed.sound (sound.views d)
  · obtain ⟨_, completed, _, _⟩ := views d
    exact sound.permit off d (completed.released released)
  · obtain ⟨_, _, level, _⟩ := views d
    exact level (levels running d)
  · obtain ⟨_, completed, _, within⟩ := views d
    refine completed.bounded _ _ _ (within bounded) (sound.views d) ⟨(bounded d).demand, ?_, (bounded d).outside⟩
    rintro l ⟨_, none, _⟩
    cases none

theorem completePass_keeps (s : State) : KeepsChannels s s.completePass := by
  unfold State.completePass
  split
  · exact .refl _
  · next p pass =>
    extract_lets s0 a b s1 s2 s3
    have shown0 : s0.picture = s.picture.idle := rfl
    obtain ⟨wa, putA, completedA, levelA⟩ := finishLane_put s0 a fun x => laneEnd_driven x
    have other : (s0.finishLane a).channels.bank[channelB p.sample.bogie] = s0.channels.bank[channelB p.sample.bogie] := by
      have view : ((s0.finishLane a).picture.view (channelB p.sample.bogie)) = s0.picture.view (channelB p.sample.bogie) := by
        rw [putA]
        exact Picture.put_view_other (channelA_ne_channelB _).symm
      exact congrArg ChannelView.ch view
    have drivenB (x : LaneResult) (h : b.taken = some x) :
        (s0.finishLane a).channels.bank[b.channel].state = .steering ∨
          (s0.finishLane a).channels.bank[b.channel].state = .returning := by
      have same : (s0.finishLane a).channels.bank[b.channel] = s0.channels.bank[b.channel] := other
      rw [same]
      exact laneEnd_driven x h
    obtain ⟨wb, putB, completedB, levelB⟩ := finishLane_put (s0.finishLane a) b drivenB
    have viewB : (s0.finishLane a).picture.view b.channel = s0.picture.view b.channel := by
      rw [putA]
      exact Picture.put_view_other (channelA_ne_channelB _).symm
    rw [viewB] at completedB levelB
    rw [putA] at putB
    have drive : (s0.finishLane a).lines.drive = s0.lines.drive := congrArg Picture.drive putA
    rw [drive] at levelB
    have finished : s1.picture = (s.picture.idle.put (channelA p.sample.bogie) wa).put (channelB p.sample.bogie) wb := putB
    have reported : s3.picture = s1.picture := by simp [s3, s2]
    have last : (if p.resetAfter = true then s3.resetBogie p.sample.bogie else s3).picture = s1.picture := by
      split <;> simp [reported]
    refine Picture.Kept.trans ?_ (startPass_keeps _)
    rw [last, finished]
    refine completed_keeps (p := s.picture) (taken := fun | .laneA => a.taken | .laneB => b.taken) completedA completedB
      levelA levelB fun bounded lane x taken => ?_
    cases lane with
    | laneA =>
      obtain ⟨start, state, entered, within⟩ := laneEnd_taken taken
      exact within.trans ((bounded (channelA _)).inFlight p.laneA ⟨p, pass, .inl ⟨rfl, rfl⟩⟩ start state entered)
    | laneB =>
      obtain ⟨start, state, entered, within⟩ := laneEnd_taken taken
      exact within.trans ((bounded (channelB _)).inFlight p.laneB ⟨p, pass, .inr ⟨rfl, rfl⟩⟩ start state entered)

theorem conversionEnd_keeps (s : State) (raw : Nat) : KeepsChannels s (s.conversionEnd raw) := by
  unfold State.conversionEnd
  split
  · exact .refl _
  · next c _ =>
    dsimp only
    split
    · exact .refl _
    · refine Picture.Kept.trans (.of_eq ?_) (startPass_keeps _)
      rw [picture_takeScan]
      exact picture_setComputation fun _ => rfl

end Sys2Proof.Machine
end

