-- ==== Sys2Proof/Proofs/ChannelsSound.lean ====
section
/-!
SUPPORT. Every command keeps the channels' invariants: settles O57.
-/
namespace Sys2Proof.Machine

variable {s t : State}

/-! ## Resets and the supply (R142, R198, R207, R208) -/

/-- The view of a channel that a reset left (R144, R145, R164). -/
theorem resetState_view (h : ResetState t) (c : Fin 8) :
    t.picture.view c = ⟨resetChannel t.clock t.lines.drive[c], t.lines.drive[c].driveFault, false⟩ := by
  have present (k : ChannelCondition) : t.present (ofChannel k c) =
      (allChannels.any fun d => decide (ofChannel k c = ofChannel .channelFault d) && t.lines.drive[d].driveFault) := by
    rw [State.present, h.conditions, resetCondition, decide_eq_false (ofVehicle_ne_ofChannel .unlocated k c).symm,
      Bool.false_or]
  have fault : t.present (ofChannel .channelFault c) = t.lines.drive[c].driveFault := by
    rw [present, Bool.eq_iff_iff, List.any_eq_true]
    constructor
    · rintro ⟨d, -, named⟩
      rw [Bool.and_eq_true, decide_eq_true_eq, ofChannel_inj] at named
      obtain ⟨⟨-, rfl⟩, fault⟩ := named
      exact fault
    · exact fun fault => ⟨c, mem_allChannels c, by rw [fault, decide_eq_true rfl]; rfl⟩
  have tracking : t.present (ofChannel .trackingError c) = false := by
    rw [present, List.any_eq_false]
    intro d _
    rw [decide_eq_false (by simp [ofChannel_inj])]
    exact Bool.false_ne_true
  show t.view c = _
  rw [State.view, h.bank, fault, tracking]

/-- A channel at its reset values, with its levels acted on, is sound and at rest. -/
theorem sound_resetChannel (n : Nat) (l : DriveLines) :
    ChannelView.Sound ⟨resetChannel n l, l.driveFault, false⟩ ∧ (resetChannel n l).state.AtRest ∧
      LevelTaken l (resetChannel n l).state := by
  obtain ⟨ready, fault, engaged⟩ := l
  cases fault <;> cases engaged <;>
    refine ⟨⟨?_, ?_, ?_, ?_, ?_, ?_⟩, ?_, ?_⟩ <;> simp [resetChannel, ChannelState.AtRest, LevelTaken]

theorem ChannelState.AtRest.not_released {x : ChannelState} (h : x.AtRest) : ¬x.Released := by
  rcases h with rfl | rfl | rfl <;> simp [ChannelState.Released]

/-- A reset puts the channels where all the invariants hold. -/
theorem reset_keeps (s : State) (h : ResetState t) : KeepsChannels s t := by
  have each (c : Fin 8) := sound_resetChannel t.clock t.lines.drive[c]
  refine ⟨fun _ => ⟨fun c => ?_, fun _ c => ?_⟩, fun _ _ c => ?_, fun _ _ c => ?_⟩ <;>
    obtain ⟨sound, rest, taken⟩ := each c <;> rw [resetState_view h c]
  · exact sound
  · exact rest.not_released
  · exact taken
  · exact ChannelView.bounded_of_atRest rest rfl

theorem resetBlocks_keeps (s : State) (running : t.power = .running) : KeepsChannels s t.resetBlocks :=
  reset_keeps s (State.resetBlocks_spec running).1

theorem beginStartUp_keeps (s : State) : KeepsChannels s s.beginStartUp := by
  unfold State.beginStartUp
  split
  · exact ⟨fun sound => ⟨sound.views, sound.permit⟩, fun _ runs => absurd runs nofun, fun _ => id⟩
  · exact .refl _
  · exact .refl _

theorem endStartUp_keeps (s : State) : KeepsChannels s s.endStartUp := by
  unfold State.endStartUp
  split
  · exact resetBlocks_keeps s rfl
  · exact .refl _
  · exact .refl _

/-- A channel at its initial values is sound. -/
theorem sound_initial (n : Nat) : ChannelView.Sound ⟨Channel.initial n, false, false⟩ := by
  constructor <;> simp [Channel.initial]

theorem loseSupply_keeps (s : State) : KeepsChannels s s.loseSupply := by
  have lost {t : State} (power : t.power = .off) (channels : t.channels = Channels.initial s.clock)
      (monitor : t.monitor = Monitor.initial s.clock) : KeepsChannels s t := by
    have view (c : Fin 8) : t.picture.view c = ⟨Channel.initial s.clock, false, false⟩ := by
      have bank : t.channels.bank[c] = Channel.initial s.clock := by simp [channels, Channels.initial]
      have absent (k : ChannelCondition) : t.present (ofChannel k c) = false := by
        rw [State.present, monitor, monitor_initial_condition, if_neg (ofVehicle_ne_ofChannel _ _ _).symm]
      show t.view c = _
      rw [State.view, bank, absent, absent]
    have locking : (Channel.initial s.clock).state.AtRest := .inl rfl
    refine ⟨fun _ => ⟨fun c => ?_, fun _ c => ?_⟩, fun _ runs => ?_, fun _ _ c => ?_⟩
    · rw [view]
      exact sound_initial _
    · rw [view]
      exact locking.not_released
    · exact absurd (power.symm.trans runs) nofun
    · rw [view]
      exact ChannelView.bounded_of_atRest locking rfl
  unfold State.loseSupply
  split
  · exact .refl _
  · exact lost rfl rfl rfl
  · exact lost rfl rfl rfl

theorem endFrame_keeps (s : State) (running : s.power = .running) : KeepsChannels s s.endFrame := by
  unfold State.endFrame
  split
  · exact .refl _
  · dsimp only
    split
    · exact resetBlocks_keeps s running
    · exact .refl _

theorem restart_keeps (s : State) (running : s.power = .running) : KeepsChannels s s.restart := by
  unfold State.restart
  split
  · exact resetBlocks_keeps s running
  · exact .refl _
  · exact .refl _

/-! ## Rows -/

theorem KeepsChannels.whileRunning {f : State → State} (h : s.power = .running → KeepsChannels s (f s)) :
    KeepsChannels s (s.whileRunning f) := by
  unfold State.whileRunning
  split
  · next running => exact h running
  · exact .refl _

/-- A request row keeps the channels' invariants where its owner does (R189). -/
theorem KeepsChannels.serve {kind : Byte} {mine fits : List Byte → Bool} {owner : Frame → State → State}
    (h : ∀ r u, KeepsChannels u (owner r u)) : KeepsChannels s (s.serve kind mine fits owner) := by
  rcases State.serve_cases (s := s) (kind := kind) (mine := mine) (fits := fits) owner with
    same | ⟨r, -, -, ⟨-, -, taken⟩ | ⟨-, refused⟩⟩
  · rw [same]
    exact .refl _
  · rw [taken]
    exact h r s.popRequest
  · rw [refused]
    exact .refl _

/-- An owner that keeps the channels' invariants. -/
def OwnerKeeps (act : List Byte → State → State × Answer) : Prop := ∀ body u, KeepsChannels u (act body u).1

theorem OwnerKeeps.serveAct {kind : Byte} {mine fits : List Byte → Bool} {act : List Byte → State → State × Answer}
    (h : OwnerKeeps act) : KeepsChannels s (s.serveAct kind mine fits act) :=
  KeepsChannels.serve fun r u => Picture.Kept.trans (h r.body u) (.of_eq (picture_queueReply ..))

theorem Unseen.keeps {act : List Byte → State → State × Answer} (h : Unseen act) : OwnerKeeps act :=
  fun body u => .of_eq (h body u)

/-! ## Owners that move channels (R148 to R155) -/

/-- A channel request keeps the invariants where its act does once its checks have passed. -/
theorem channelRequest_keeps {reason : Option Reason} {act : State → State} {c : Fin 8}
    (h : reason = none → KeepsChannels s (act s)) : KeepsChannels s (channelRequest reason act c s).1 := by
  unfold channelRequest
  split
  · exact .refl _
  · exact h rfl

/-- A request with one check passes where that holds. -/
theorem firstReason_single {b : Bool} {r : Reason} (h : firstReason [(b, r)] = none) : b = true := by
  cases b
  · cases h
  · rfl

theorem ownChUnlock_keeps : OwnerKeeps ownChUnlock := by
  intro body u
  unfold ownChUnlock
  split
  · exact .refl _
  · split
    · exact .refl _
    · exact channelRequest_keeps (unlock_keeps u _)

theorem ownChHold_keeps : OwnerKeeps ownChHold := by
  intro body u
  unfold ownChHold
  split
  · exact .refl _
  · exact channelRequest_keeps fun passed => hold_keeps u _ (of_decide_eq_true (firstReason_single passed))

theorem ownChResume_keeps : OwnerKeeps ownChResume := by
  intro body u
  unfold ownChResume
  split
  · exact .refl _
  · exact channelRequest_keeps fun passed => resume_keeps u _ (of_decide_eq_true (firstReason_single passed))

theorem ownChReturn_keeps : OwnerKeeps ownChReturn := by
  intro body u
  unfold ownChReturn
  split
  · exact .refl _
  · next c _ =>
    refine channelRequest_keeps fun _ => ?_
    obtain ⟨w, put, kept, level, _⟩ := bringBack_put u .returnTaken c
    unfold KeepsChannels
    rw [put]
    exact .put kept level

theorem ownChClear_keeps : OwnerKeeps ownChClear := by
  intro body u
  unfold ownChClear
  split
  · exact .refl _
  · exact channelRequest_keeps (clearFault_keeps u _)

theorem ownPermitSetOn_keeps : OwnerKeeps ownPermitSetOn := by
  intro body u
  unfold ownPermitSetOn
  split
  · exact setPermit_true_keeps u
  · exact .refl _

theorem ownVehSet_keeps : OwnerKeeps ownVehSet := by
  intro body u
  unfold ownVehSet
  split
  · exact .refl _
  · next accepted =>
    split
    · exact .refl _
    · exact setVehicle_keeps u _ accepted

/-! ## Every command -/

theorem exec_keepsChannels {c : Instr} (h : exec c s = .next t) : KeepsChannels s t := by
  cases c <;> cases h
  case startUpBegin => exact beginStartUp_keeps s
  case startUpEnd => exact endStartUp_keeps s
  case supplyLoss => exact loseSupply_keeps s
  case frameSent => exact .whileRunning (endFrame_keeps s)
  case restartTakesEffect => exact .whileRunning (restart_keeps s)
  case frameReceived b => exact .whileRunning fun _ => .of_unseen (by split <;> simp)
  case frameLengthAbort b => exact .whileRunning fun _ => .of_unseen (by split <;> simp)
  case unknownKind | transmitBegin | pointsChange | wheelCount | tick | markerDetection | markerDebounceRelease
      | markerResolve | periodTimerExpiry | byteTaken | interByteGapTimeout | snapshotTimerExpiry | closeCheckComplete =>
    exact .whileRunning fun _ => .of_unseen (by simp)
  case stageConversionComplete raw => exact .whileRunning fun _ => conversionEnd_keeps s _
  case passComplete => exact .whileRunning fun _ => completePass_keeps s
  case lockTimerExpiry c => exact .whileRunning fun _ => lockExpiry_keeps s c
  case lockEngagedChange c engaged => exact setLines_keeps s c _
  case driveFaultChange c fault ready => exact setLines_keeps s c _
  case markerInputChange b => exact .of_unseen (picture_markerLevel b)
  case sysRestart => exact .serve fun r u => .of_unseen (by simp [ownSysRestart])
  case cndGet => exact .serve fun r u => .of_unseen (picture_ownCndGet r)
  case secClose => exact .serve fun r u => .of_unseen (picture_ownSecClose r)
  case vehSet => exact ownVehSet_keeps.serveAct
  case chUnlock => exact ownChUnlock_keeps.serveAct
  case chHold => exact ownChHold_keeps.serveAct
  case chResume => exact ownChResume_keeps.serveAct
  case chReturn => exact ownChReturn_keeps.serveAct
  case chClear => exact ownChClear_keeps.serveAct
  case permitSetOn => exact ownPermitSetOn_keeps.serveAct
  case permitSetOff => exact OwnerKeeps.serveAct fun _ u => permitOff_keeps u
  case secGet => exact readsOnly_secGet.unseen.keeps.serveAct
  case vehGet => exact readsOnly_vehGet.unseen.keeps.serveAct
  case lawGet => exact readsOnly_lawGet.unseen.keeps.serveAct
  case stgGet => exact readsOnly_stgGet.unseen.keeps.serveAct
  case posGet => exact readsOnly_posGet.unseen.keeps.serveAct
  case chGet => exact readsOnly_chGet.unseen.keeps.serveAct
  case cntGet => exact readsOnly_cntGet.unseen.keeps.serveAct
  case secOpen => exact unseen_secOpen.keeps.serveAct
  case secPut => exact unseen_secPut.keeps.serveAct
  case secMark => exact unseen_secMark.keeps.serveAct
  case secJoin => exact unseen_secJoin.keeps.serveAct
  case secJoinNone => exact unseen_secJoinNone.keeps.serveAct
  case secDrop => exact unseen_secDrop.keeps.serveAct
  case ptsDefine => exact unseen_ptsDefine.keeps.serveAct
  case ptsRemove => exact unseen_ptsRemove.keeps.serveAct
  case ptsSet => exact unseen_ptsSet.keeps.serveAct
  case lawSet => exact unseen_lawSet.keeps.serveAct
  case stgSet => exact unseen_stgSet.keeps.serveAct
  case perSet => exact unseen_perSet.keeps.serveAct
  case posLocate => exact unseen_posLocate.keeps.serveAct
  case cndEnable => exact unseen_cndEnable.keeps.serveAct
  case cndCriteria => exact unseen_cndCriteria.keeps.serveAct
  case cntSnap => exact unseen_cntSnap.keeps.serveAct
  case cntModeAuto => exact unseen_cntModeAuto.keeps.serveAct
  case cntModeManual => exact unseen_cntModeManual.keeps.serveAct

theorem step_keepsChannels (h : step s = .next t) : KeepsChannels s t := by
  unfold step at h
  split at h
  · obtain rfl := Host.Outcome.next.inj h
    exact .refl _
  · exact Picture.Kept.trans (.of_eq (picture_withPending _)) (exec_keepsChannels h)

/-! ## The obligation -/

theorem everyStepKeepsTheChannels : Claims.EveryStepKeepsTheChannels := by
  intro s t sound levels h
  have kept := step_keepsChannels h
  exact ⟨(channelsSound_iff t).2 (kept.sound ((channelsSound_iff s).1 sound)),
    (levelsTaken_iff_picture t).2 (kept.levels ((levelsTaken_iff_picture s).1 levels))⟩

theorem everyStepKeepsTheDemandsBounded : Claims.EveryStepKeepsTheDemandsBounded := by
  intro s t sound bounded h
  exact (demandsBounded_iff t).2
    ((step_keepsChannels h).bounded ((channelsSound_iff s).1 sound) ((demandsBounded_iff s).1 bounded))

theorem outputsFollowTheChannels : Claims.OutputsFollowTheChannels := by
  intro s c running sound bounded
  have demand : s.strokeDemand c = s.channels.bank[c].demand := if_pos running
  have driven : (decide (s.power = .running ∧ s.channels.bank[c].state.driven = true)) = true ↔
      s.channels.bank[c].state.driven = true := by simp [running]
  refine ⟨driven.trans (driven_iff _), driven.trans (driven_iff _), demand, ?_, fun still => ?_⟩
  · rw [demand]
    exact bounded.demand c
  · rw [demand]
    by_contra nonzero
    have moving := sound.demand c nonzero
    rcases still with e | e | e | e <;> rw [e] at moving <;> simp at moving

/-- Settles O57: what the invariants read of a state is its picture, and every command moves channels of the picture only
by moves that keep each channel's invariants. -/
theorem everyStepKeepsTheChannelsSound : Obligations.EveryStepKeepsTheChannelsSound :=
  ⟨everyStepKeepsTheChannels, everyStepKeepsTheDemandsBounded, outputsFollowTheChannels⟩

end Sys2Proof.Machine
end

