-- ==== Sys2Proof/Proofs/Rounding.lean ====
section
/-!
SUPPORT. The rounding rule and the distance per count (R34, R108): settles O20.
-/
namespace Sys2Proof.Machine

theorem roundingGoesToTheNearest : Claims.RoundingGoesToTheNearest := by
  intro a b hb
  have nearest := roundDiv_nearest a hb
  rwa [Int.natAbs_mul] at nearest

/-- The counts per tooth (R34). -/
theorem perTooth_bounds (mode : CountMode) : 1 ≤ mode.perTooth ∧ mode.perTooth ≤ 2 := by cases mode <;> decide

/-- The bounds of the distance per count, from those of its divisor `q` and of its dividend. -/
theorem distance_within {n q d : Nat} (low : 2260 ≤ q) (high : q ≤ 45200) (n_low : 142000000 ≤ n)
    (n_high : n ≤ 284000000) (above : 2 * n < 2 * (d * q) + q) (below : 2 * (d * q) ≤ 2 * n + q) :
    3142 ≤ d ∧ d ≤ 125664 := by
  constructor
  · by_contra small
    have := Nat.mul_le_mul (show d ≤ 3141 by omega) (le_refl q)
    omega
  · by_contra large
    have := Nat.mul_le_mul (show 125665 ≤ d by omega) (le_refl q)
    omega

theorem distancePerCount_nearest {diameter teeth : Nat} (mode : CountMode) (diameter_low : 400 ≤ diameter)
    (diameter_high : diameter ≤ 800) (teeth_low : 20 ≤ teeth) (teeth_high : teeth ≤ 200) :
    let n := 355 * diameter * 1000
    let q := 113 * teeth * mode.perTooth
    let d := distancePerCount diameter teeth mode
    2 * n < 2 * q * d + q ∧ 2 * q * d ≤ 2 * n + q ∧ 3142 ≤ d ∧ d ≤ 125664 := by
  dsimp only
  rw [distancePerCount]
  have q_low : 2260 ≤ 113 * teeth * mode.perTooth :=
    Nat.mul_le_mul (show 2260 ≤ 113 * teeth by omega) (perTooth_bounds mode).1
  have q_high : 113 * teeth * mode.perTooth ≤ 45200 :=
    Nat.mul_le_mul (show 113 * teeth ≤ 22600 by omega) (perTooth_bounds mode).2
  generalize 113 * teeth * mode.perTooth = q at *
  obtain ⟨above, below⟩ := roundNat_bounds (355 * diameter * 1000) (show 0 < q by omega)
  generalize roundNat (355 * diameter * 1000) q = d at *
  rw [show 2 * q * d = 2 * (d * q) by ring]
  exact ⟨above, below, distance_within q_low q_high (by omega) (by omega) above below⟩

theorem distancePerCountIsNearest : Claims.DistancePerCountIsNearest := by
  intro diameter teeth mode diameter_low diameter_high teeth_low teeth_high
  have nearest := distancePerCount_nearest mode diameter_low diameter_high teeth_low teeth_high
  cases mode <;> exact nearest

/-- Settles O20: the rounding rule, and the distance per count from it and from the ranges of its factors. -/
theorem divisionsRoundToTheNearest : Obligations.DivisionsRoundToTheNearest :=
  ⟨roundingGoesToTheNearest, distancePerCountIsNearest⟩

end Sys2Proof.Machine
end

