-- ==== Sys2Proof/Proofs/VehicleChecks.lean ====
section
/-!
SUPPORT. The fields of a VEH.SET body and their checks (R30 to R32, R204): settles O23.
-/
namespace Sys2Proof.Machine

variable {body : List Byte} {k : Nat}

/-! ## Trailing fields (R30, R190) -/

/-- A trailing field at an offset of a body: its default where the body ends before it. -/
def trailField (body : List Byte) (offset width dflt : Nat) : Nat :=
  if offset + width ≤ body.length then fieldU body offset width else dflt

/-- One field taken from a body that does not end inside it. -/
theorem trailing_cons {o w d : Nat} {rest : List (Nat × Nat)} (hw : 0 < w)
    (whole : body.length ≤ o ∨ o + w ≤ body.length) : trailing ((w, d) :: rest) (body.drop o) =
      (trailing rest (body.drop (o + w))).map (trailField body o w d :: ·) := by
  unfold trailField
  rcases whole with ended | whole
  · rw [List.drop_of_length_le ended, List.drop_of_length_le (by omega), if_neg (by omega), trailing]
  · rw [if_pos whole, fieldU, ← List.drop_drop]
    have length : (body.drop o).length = body.length - o := List.length_drop
    cases bytes : body.drop o with
    | nil =>
      rw [bytes, List.length_nil] at length
      omega
    | cons b tail =>
      rw [bytes] at length
      rw [trailing, if_neg (by omega)]

/-- The lengths of a VEH.SET body that ends after a field (R190, R204). -/
def VehicleLength (n : Nat) : Prop := n ∈ [136, 138, 140, 142, 144, 146, 148, 149]

theorem trailing_vehicleTail (h : VehicleLength body.length) : trailing vehicleTail (body.drop 136) =
    some [trailField body 136 2 1024, trailField body 138 2 500, trailField body 140 2 50, trailField body 142 2 200,
      trailField body 144 2 2000, trailField body 146 2 1000, trailField body 148 1 13] := by
  simp only [VehicleLength, List.mem_cons, List.not_mem_nil, or_false] at h
  have ended : body.drop 149 = [] := List.drop_of_length_le (by omega)
  rw [vehicleTail, trailing_cons (by decide) (by omega), trailing_cons (by decide) (by omega),
    trailing_cons (by decide) (by omega), trailing_cons (by decide) (by omega), trailing_cons (by decide) (by omega),
    trailing_cons (by decide) (by omega), trailing_cons (by decide) (by omega), ended]
  rfl

theorem vehTail_eq (h : VehicleLength body.length) : vehTail body =
    [trailField body 136 2 1024, trailField body 138 2 500, trailField body 140 2 50, trailField body 142 2 200,
      trailField body 144 2 2000, trailField body 146 2 1000, trailField body 148 1 13] := by
  rw [vehTail, trailing_vehicleTail h]
  rfl

/-- A body that ends after a field fits (R30, R190). -/
theorem fitsVehSet_of_length (h : VehicleLength body.length) : fitsVehSet body = true := by
  have long : 136 ≤ body.length := by
    simp only [VehicleLength, List.mem_cons, List.not_mem_nil, or_false] at h
    omega
  simp [fitsVehSet, long, trailing_vehicleTail h]

/-- A trailing field of two bytes lies below 65,536 with its default. -/
theorem trailField_two_lt {o d : Nat} (h : d < 65536) : trailField body o 2 d < 65536 := by
  unfold trailField
  split
  · next whole =>
    have high := fieldU_one_lt body o
    have low := fieldU_one_lt body (o + 1)
    rw [fieldU_two whole]
    omega
  · exact h

/-! ## The rows of the tables (R31, R32) -/

/-- The rows of a bogie. -/
def BogieRow (body : List Byte) (k : Nat) (b : Fin 4) : Prop :=
  (k = 2 + 2 * b.val ∧ 30000 < (fieldS body (1 + 4 * b.val) 2).natAbs) ∨
    (k = 3 + 2 * b.val ∧ 30000 < (fieldS body (3 + 4 * b.val) 2).natAbs)

/-- The rows of a wheelset. -/
def WheelsetRow (body : List Byte) (k : Nat) (c : Fin 8) : Prop :=
  let offset := fieldS body (17 + 6 * c.val) 2
  let centre := fieldS body (1 + 4 * (c.val / 2)) 2
  (k = 10 + 3 * c.val ∧ (30000 < offset.natAbs ∨ ((offset - centre).natAbs < 300 ∨ 2500 < (offset - centre).natAbs) ∨
    (c.val % 2 = 0 ∧ offset ≤ centre) ∨ (c.val % 2 = 1 ∧ centre ≤ offset))) ∨
  (k = 11 + 3 * c.val ∧ (fieldU body (19 + 6 * c.val) 2 < 100 ∨ 2000 < fieldU body (19 + 6 * c.val) 2)) ∨
  (k = 12 + 3 * c.val ∧ (fieldU body (21 + 6 * c.val) 2 < 100 ∨ 8000 < fieldU body (21 + 6 * c.val) 2))

/-- The rows of a wheel. -/
def WheelRow (body : List Byte) (k : Nat) (w : Fin 16) : Prop :=
  (k = 34 + 3 * w.val ∧ (fieldU body (65 + 4 * w.val) 2 < 400 ∨ 800 < fieldU body (65 + 4 * w.val) 2)) ∨
  (k = 35 + 3 * w.val ∧ (fieldU body (67 + 4 * w.val) 1 < 20 ∨ 200 < fieldU body (67 + 4 * w.val) 1)) ∨
  (k = 36 + 3 * w.val ∧ 1 < fieldU body (68 + 4 * w.val) 1)

/-- The row of a reference wheel slot. -/
def SlotRow (body : List Byte) (j : Fin 4) : Prop :=
  4 * fieldU body 0 1 ≤ fieldU body (130 + j.val) 1 ∨
    ∃ i : Fin 4, i < j ∧ fieldU body (130 + i.val) 1 = fieldU body (130 + j.val) 1

/-- The rows of the marker detector offset and of the trailing fields. -/
def TailRow (body : List Byte) (k : Nat) : Prop :=
  let full := trailField body 142 2 200
  let none := trailField body 144 2 2000
  (k = 87 ∧ 30000 < (fieldS body 134 2).natAbs) ∨ (k = 88 ∧ 8192 < trailField body 136 2 1024) ∨
  (k = 89 ∧ (trailField body 138 2 500 < 10 ∨ 10000 < trailField body 138 2 500)) ∨
  (k = 90 ∧ (trailField body 140 2 50 < 10 ∨ 2000 < trailField body 140 2 50)) ∨
  (k = 91 ∧ 65534 < full) ∨ (k = 92 ∧ (none < 1 ∨ none ≤ full)) ∨
  (k = 93 ∧ (trailField body 146 2 1000 < full ∨ none < trailField body 146 2 1000)) ∨
  (k = 94 ∧ (trailField body 148 1 13 < 1 ∨ 128 < trailField body 148 1 13))

/-- The field of an index fails by the tables. -/
def FieldFails (body : List Byte) (k : Nat) : Prop :=
  (k = 1 ∧ (fieldU body 0 1 < 2 ∨ 4 < fieldU body 0 1)) ∨ (∃ b : Fin 4, b.val < fieldU body 0 1 ∧ BogieRow body k b) ∨
  (∃ c : Fin 8, c.val < 2 * fieldU body 0 1 ∧ WheelsetRow body k c) ∨
  (∃ w : Fin 16, w.val < 4 * fieldU body 0 1 ∧ WheelRow body k w) ∨
  (k = 82 ∧ (fieldU body 129 1 < 1 ∨ 4 < fieldU body 129 1)) ∨
  (∃ j : Fin 4, k = 83 + j.val ∧ j.val < fieldU body 129 1 ∧ SlotRow body j) ∨ TailRow body k

/-! ## The checks block by block -/

/-- The checks of a bogie's fields. -/
def bogieChecks (body : List Byte) (b : Fin 4) : List (Nat × Bool) :=
  [(2 + 2 * b.val, offsetBeyond (vehBogie body b).centre), (3 + 2 * b.val, offsetBeyond (vehBogie body b).body)]

/-- The checks of a wheelset's fields. -/
def wheelsetChecks (body : List Byte) (c : Fin 8) : List (Nat × Bool) :=
  [(10 + 3 * c.val, wheelsetFails c (vehChannel body c).offset (vehBogie body (bogieOf c)).centre),
    (11 + 3 * c.val, outside 100 2000 (vehChannel body c).lever),
    (12 + 3 * c.val, outside 100 8000 (vehChannel body c).strokeMax)]

/-- The checks of a wheel's fields. -/
def wheelChecks (body : List Byte) (w : Fin 16) : List (Nat × Bool) :=
  [(34 + 3 * w.val, outside 400 800 (vehDiameter body w)), (35 + 3 * w.val, outside 20 200 (vehTeeth body w)),
    (36 + 3 * w.val, decide (1 < vehMode body w))]

/-- The check of a reference wheel slot. -/
def slotCheck (body : List Byte) (j : Nat) : Nat × Bool := (83 + j, slotFails body j)

/-- The checks of the marker detector offset and of the trailing fields. -/
def tailChecks (marker : Int) (tail : List Nat) : List (Nat × Bool) :=
  [(87, offsetBeyond marker),
    (88, outside 0 8192 (tail.getD 0 0)),
    (89, outside 10 10000 (tail.getD 1 0)),
    (90, outside 10 2000 (tail.getD 2 0)),
    (91, outside 0 65534 (tail.getD 3 0)),
    (92, outside 1 65535 (tail.getD 4 0) || decide (tail.getD 4 0 ≤ tail.getD 3 0)),
    (93, decide (tail.getD 5 0 < tail.getD 3 0) || decide (tail.getD 4 0 < tail.getD 5 0)),
    (94, outside 1 128 (tail.getD 6 0))]

/-- The checks of VEH.SET over chosen bogies, channels, wheels and slots. -/
def checksOf (body : List Byte) (bogies : List (Fin 4)) (channels : List (Fin 8)) (wheels : List (Fin 16))
    (slots : List Nat) : List (Nat × Bool) :=
  [(1, outside 2 4 (vehCount body))] ++ (bogies.map (bogieChecks body)).flatten ++
    (channels.map (wheelsetChecks body)).flatten ++ (wheels.map (wheelChecks body)).flatten ++
    [(82, outside 1 4 (vehReferences body))] ++ slots.map (slotCheck body) ++ tailChecks (vehMarker body) (vehTail body)

theorem vehChecks_eq (body : List Byte) : vehChecks body = checksOf body (allBogies.filter fun b => b.val < vehCount body)
    (allChannels.filter fun c => (bogieOf c).val < vehCount body) (allWheels.filter fun w => w.val < 4 * vehCount body)
    ((List.range 4).filter fun j => j < vehReferences body) := rfl

/-- The checks stand in ascending order of their indices (R31). -/
theorem vehChecks_sorted (body : List Byte) : (vehChecks body).Pairwise fun x y => x.1 < y.1 := by
  have whole : (checksOf body allBogies allChannels allWheels (List.range 4)).map Prod.fst = List.range' 1 94 := rfl
  have part : (vehChecks body).Sublist (checksOf body allBogies allChannels allWheels (List.range 4)) := by
    rw [vehChecks_eq]
    unfold checksOf
    exact ((((((List.Sublist.refl _).append (List.filter_sublist.map _).flatten).append
      (List.filter_sublist.map _).flatten).append (List.filter_sublist.map _).flatten).append
      (.refl _)).append (List.filter_sublist.map _)).append (.refl _)
  have sorted : ((checksOf body allBogies allChannels allWheels (List.range 4)).map Prod.fst).Pairwise (· < ·) := by
    rw [whole]
    exact List.pairwise_lt_range'
  exact (List.pairwise_map.1 sorted).sublist part

theorem outside_iff {lo hi n : Nat} : outside lo hi n = true ↔ n < lo ∨ hi < n := decide_eq_true_iff

theorem offsetBeyond_iff {o : Int} : offsetBeyond o = true ↔ 30000 < o.natAbs := decide_eq_true_iff

/-- A failing check at an index. -/
theorem check_eq_iff {i : Nat} {b : Bool} : (k, true) = (i, b) ↔ k = i ∧ b = true := by
  rw [Prod.mk.injEq, eq_comm (a := true)]

theorem mem_bogieChecks {b : Fin 4} : (k, true) ∈ bogieChecks body b ↔ BogieRow body k b := by
  simp only [bogieChecks, BogieRow, vehBogie, List.mem_cons, List.not_mem_nil, or_false, check_eq_iff, offsetBeyond_iff]

theorem wheelsetFails_iff {c : Fin 8} {offset centre : Int} : wheelsetFails c offset centre = true ↔
    30000 < offset.natAbs ∨ ((offset - centre).natAbs < 300 ∨ 2500 < (offset - centre).natAbs) ∨
      (c.val % 2 = 0 ∧ offset ≤ centre) ∨ (c.val % 2 = 1 ∧ centre ≤ offset) := by
  have side : (if c.val % 2 = 0 then decide (offset ≤ centre) else decide (centre ≤ offset)) = true ↔
      (c.val % 2 = 0 ∧ offset ≤ centre) ∨ (c.val % 2 = 1 ∧ centre ≤ offset) := by
    rcases Nat.mod_two_eq_zero_or_one c.val with e | e <;> simp [e]
  rw [wheelsetFails, Bool.or_eq_true, Bool.or_eq_true, offsetBeyond_iff, outside_iff, side, or_assoc]

theorem mem_wheelsetChecks {c : Fin 8} : (k, true) ∈ wheelsetChecks body c ↔ WheelsetRow body k c := by
  simp only [wheelsetChecks, WheelsetRow, List.mem_cons, List.not_mem_nil, or_false, check_eq_iff, outside_iff,
    wheelsetFails_iff]
  rfl

theorem mem_wheelChecks {w : Fin 16} : (k, true) ∈ wheelChecks body w ↔ WheelRow body k w := by
  simp only [wheelChecks, WheelRow, List.mem_cons, List.not_mem_nil, or_false, check_eq_iff, outside_iff,
    decide_eq_true_eq]
  rfl

theorem slotFails_iff {j : Fin 4} : slotFails body j.val = true ↔ SlotRow body j := by
  simp only [slotFails, SlotRow, Bool.or_eq_true, decide_eq_true_eq, List.any_eq_true, List.mem_range]
  refine or_congr Iff.rfl ⟨?_, ?_⟩
  · rintro ⟨i, before, same⟩
    exact ⟨⟨i, by omega⟩, before, same⟩
  · rintro ⟨i, before, same⟩
    exact ⟨i.val, before, same⟩

theorem mem_tailChecks (h : VehicleLength body.length) :
    (k, true) ∈ tailChecks (vehMarker body) (vehTail body) ↔ TailRow body k := by
  have most : trailField body 144 2 2000 < 65536 := trailField_two_lt (by decide)
  have range : (trailField body 144 2 2000 < 1 ∨ 65535 < trailField body 144 2 2000) ↔ trailField body 144 2 2000 < 1 :=
    or_iff_left (by omega)
  rw [vehTail_eq h]
  simp only [tailChecks, TailRow, vehMarker, List.mem_cons, List.not_mem_nil, or_false, check_eq_iff, offsetBeyond_iff,
    outside_iff, Bool.or_eq_true, decide_eq_true_eq, List.getD_cons_zero, List.getD_cons_succ, range, Nat.not_lt_zero,
    false_or]

theorem mem_allBogies (b : Fin 4) : b ∈ allBogies := by
  rw [show allBogies = List.finRange 4 by decide]
  exact List.mem_finRange b

theorem mem_allWheels (w : Fin 16) : w ∈ allWheels := by
  rw [allWheels_eq]
  exact List.mem_finRange w

/-- A failing check of a block that each of the chosen entries gives. -/
theorem mem_block {n : Nat} {all : List (Fin n)} {p : Fin n → Bool} {f : Fin n → List (Nat × Bool)}
    {row : Fin n → Prop} (every : ∀ i, i ∈ all) (rows : ∀ i, (k, true) ∈ f i ↔ row i) :
    (k, true) ∈ ((all.filter p).map f).flatten ↔ ∃ i, p i = true ∧ row i := by
  simp only [List.mem_flatten, List.mem_map, List.mem_filter]
  constructor
  · rintro ⟨_, ⟨i, ⟨-, chosen⟩, rfl⟩, mem⟩
    exact ⟨i, chosen, (rows i).1 mem⟩
  · rintro ⟨i, chosen, row⟩
    exact ⟨f i, ⟨i, ⟨every i, chosen⟩, rfl⟩, (rows i).2 row⟩

theorem mem_vehChecks (h : VehicleLength body.length) : (k, true) ∈ vehChecks body ↔ FieldFails body k := by
  have bogies := mem_block (p := fun b => b.val < vehCount body) mem_allBogies fun b =>
    mem_bogieChecks (body := body) (k := k) (b := b)
  have channels := mem_block (p := fun c => (bogieOf c).val < vehCount body) mem_allChannels fun c =>
    mem_wheelsetChecks (body := body) (k := k) (c := c)
  have wheels := mem_block (p := fun w => w.val < 4 * vehCount body) mem_allWheels fun w =>
    mem_wheelChecks (body := body) (k := k) (w := w)
  have configured (c : Fin 8) : (bogieOf c).val < vehCount body ↔ c.val < 2 * vehCount body := by
    show c.val / 2 < _ ↔ _
    omega
  have slots : (k, true) ∈ ((List.range 4).filter fun j => j < vehReferences body).map (slotCheck body) ↔
      ∃ j : Fin 4, k = 83 + j.val ∧ j.val < vehReferences body ∧ SlotRow body j := by
    simp only [List.mem_map, List.mem_filter, List.mem_range, decide_eq_true_eq, slotCheck]
    constructor
    · rintro ⟨j, ⟨small, used⟩, e⟩
      obtain ⟨rfl, fails⟩ := check_eq_iff.1 e.symm
      exact ⟨⟨j, small⟩, rfl, used, slotFails_iff.1 fails⟩
    · rintro ⟨j, rfl, used, row⟩
      exact ⟨j.val, ⟨j.isLt, used⟩, (check_eq_iff.2 ⟨rfl, slotFails_iff.2 row⟩).symm⟩
  simp only [decide_eq_true_eq, configured] at bogies channels wheels
  simp only [vehChecks_eq, checksOf, List.mem_append, List.mem_singleton, check_eq_iff, outside_iff, bogies, channels,
    wheels, slots, mem_tailChecks h, configured, or_assoc]
  rfl

/-! ## The least failing index -/

/-- Over checks in ascending order the first that fails has the least index that fails. -/
theorem find?_fails_iff {l : List (Nat × Bool)} (sorted : l.Pairwise fun x y => x.1 < y.1) :
    (l.find? fun x => x.2).map Prod.fst = some k ↔ (k, true) ∈ l ∧ ∀ j, j < k → (j, true) ∉ l := by
  induction l with
  | nil => simp
  | cons x rest ih =>
    obtain ⟨i, b⟩ := x
    obtain ⟨above, rest_sorted⟩ := List.pairwise_cons.1 sorted
    cases b with
    | true =>
      rw [List.find?_cons_of_pos rfl, Option.map_some, Option.some.injEq]
      constructor
      · rintro rfl
        refine ⟨List.mem_cons_self, fun j below mem => ?_⟩
        rcases List.mem_cons.1 mem with e | mem
        · exact absurd (congrArg Prod.fst e) (Nat.ne_of_lt below)
        · exact absurd (above _ mem) (Nat.not_lt.2 (Nat.le_of_lt below))
      · rintro ⟨mem, least⟩
        rcases List.mem_cons.1 mem with e | mem
        · exact (congrArg Prod.fst e).symm
        · exact absurd List.mem_cons_self (least i (above _ mem))
    | false =>
      rw [List.find?_cons_of_neg Bool.false_ne_true, ih rest_sorted]
      simp

/-- What VEH.SET reports: the least failing index, and where no field fails what the span check reports. -/
theorem vehFailure_iff : vehFailure body = some k ↔
    ((k, true) ∈ vehChecks body ∧ ∀ j, j < k → (j, true) ∉ vehChecks body) ∨
    ((∀ j, (j, true) ∉ vehChecks body) ∧ spanFailure body = some k) := by
  rw [← find?_fails_iff (vehChecks_sorted body), vehFailure]
  cases found : (vehChecks body).find? fun x => x.2 with
  | some x =>
    have fails : x.2 = true := by simpa using List.find?_some found
    have mem : (x.1, true) ∈ vehChecks body := by
      rw [← fails]
      exact List.mem_of_find?_eq_some found
    simp only [Option.map_some]
    exact (or_iff_left fun none => none.1 _ mem).symm
  | none =>
    have passes : ∀ j, (j, true) ∉ vehChecks body := fun j mem => List.find?_eq_none.1 found _ mem rfl
    simp only [Option.map_none, reduceCtorEq, false_or]
    exact (and_iff_right passes).symm

/-! ## The span check (R32) -/

/-- The configured channels of a body. -/
def spanChannels (body : List Byte) : List (Fin 8) := allChannels.filter fun c => (bogieOf c).val < vehCount body

theorem mem_spanChannels {c : Fin 8} : c ∈ spanChannels body ↔ c.val < 2 * fieldU body 0 1 := by
  rw [spanChannels, List.mem_filter, decide_eq_true_eq, and_iff_right (mem_allChannels c)]
  show c.val / 2 < fieldU body 0 1 ↔ _
  omega

theorem spanChannels_sorted (body : List Byte) : (spanChannels body).Pairwise (· < ·) :=
  List.Pairwise.sublist List.filter_sublist (show allChannels.Pairwise (· < ·) by decide)

/-- The first channel of a list whose key is the least of them. -/
def firstLeast (key : Fin 8 → Int) : List (Fin 8) → Option (Fin 8)
  | [] => none
  | c :: rest =>
    match firstLeast key rest with
    | none => some c
    | some d => if key c ≤ key d then some c else some d

theorem leastOffset_eq (body : List Byte) (l : List (Fin 8)) :
    leastOffset body l = firstLeast (fun c => (vehChannel body c).offset) l := by
  induction l with
  | nil => rfl
  | cons c rest ih =>
    rw [leastOffset, ih, firstLeast] <;> rfl

theorem greatestOffset_eq (body : List Byte) (l : List (Fin 8)) :
    greatestOffset body l = firstLeast (fun c => -(vehChannel body c).offset) l := by
  induction l with
  | nil => rfl
  | cons c rest ih =>
    rw [greatestOffset, ih, firstLeast]
    cases firstLeast (fun c => -(vehChannel body c).offset) rest with
    | none => rfl
    | some d => exact if_congr neg_le_neg_iff.symm rfl rfl

theorem firstLeast_eq_none {key : Fin 8 → Int} {l : List (Fin 8)} : firstLeast key l = none ↔ l = [] := by
  cases l with
  | nil => simp [firstLeast]
  | cons c rest =>
    rw [firstLeast]
    split
    · simp
    · split <;> simp

/-- A channel of a list has the least key of it, and is the first that has. -/
def FirstLeast (key : Fin 8 → Int) (l : List (Fin 8)) (c : Fin 8) : Prop :=
  c ∈ l ∧ ∀ d ∈ l, key c ≤ key d ∧ (d < c → key d ≠ key c)

theorem FirstLeast.unique {key : Fin 8 → Int} {l : List (Fin 8)} {c d : Fin 8} (h : FirstLeast key l c)
    (h' : FirstLeast key l d) : c = d := by
  obtain ⟨below, first⟩ := h.2 d h'.1
  obtain ⟨below', first'⟩ := h'.2 c h.1
  have same : key c = key d := le_antisymm below below'
  rcases lt_trichotomy c d with lt | e | lt
  · exact absurd same (first' lt)
  · exact e
  · exact absurd same.symm (first lt)

theorem firstLeast_spec {key : Fin 8 → Int} {l : List (Fin 8)} (sorted : l.Pairwise (· < ·)) {c : Fin 8}
    (h : firstLeast key l = some c) : FirstLeast key l c := by
  induction l generalizing c with
  | nil => cases h
  | cons a rest ih =>
    obtain ⟨above, rest_sorted⟩ := List.pairwise_cons.1 sorted
    rw [firstLeast] at h
    split at h
    · next none =>
      obtain rfl := Option.some.inj h
      rw [firstLeast_eq_none] at none
      subst none
      exact ⟨List.mem_singleton_self _, fun d mem => by
        obtain rfl := List.mem_singleton.1 mem
        exact ⟨le_refl _, fun lt => absurd lt (lt_irrefl _)⟩⟩
    · next d found =>
      obtain ⟨mem, least⟩ := ih rest_sorted found
      split at h
      · next low =>
        obtain rfl := Option.some.inj h
        refine ⟨List.mem_cons_self, fun e he => ?_⟩
        rcases List.mem_cons.1 he with rfl | he
        · exact ⟨le_refl _, fun lt => absurd lt (lt_irrefl _)⟩
        · exact ⟨low.trans (least e he).1, fun lt => absurd lt (lt_asymm (above e he))⟩
      · next high =>
        obtain rfl := Option.some.inj h
        have lower := not_le.1 high
        refine ⟨List.mem_cons_of_mem _ mem, fun e he => ?_⟩
        rcases List.mem_cons.1 he with rfl | he
        · exact ⟨lower.le, fun _ => ne_of_gt lower⟩
        · exact least e he

theorem firstLeast_iff {key : Fin 8 → Int} {l : List (Fin 8)} (sorted : l.Pairwise (· < ·)) {c : Fin 8} :
    firstLeast key l = some c ↔ FirstLeast key l c := by
  refine ⟨firstLeast_spec sorted, fun least => ?_⟩
  cases found : firstLeast key l with
  | none =>
    rw [firstLeast_eq_none.1 found] at least
    cases least.1
  | some d => rw [least.unique (firstLeast_spec sorted found)]

/-- The span check fails on the wheelset offset of an index. -/
def SpanFails (body : List Byte) (k : Nat) : Prop :=
  let offset : Fin 8 → Int := fun c => fieldS body (17 + 6 * c.val) 2
  ∃ c : Fin 8, c.val < 2 * fieldU body 0 1 ∧ k = 10 + 3 * c.val ∧ (∀ d : Fin 8, d < c → offset d ≠ offset c) ∧
    ((0 < offset c ∧ ∀ d : Fin 8, d.val < 2 * fieldU body 0 1 → offset c ≤ offset d) ∨
      (offset c < 0 ∧ ∀ d : Fin 8, d.val < 2 * fieldU body 0 1 → offset d ≤ offset c))

/-- The first least of the configured channels, spelled out: a channel before a configured one is configured too. -/
theorem firstLeast_span {key : Fin 8 → Int} {c : Fin 8} : FirstLeast key (spanChannels body) c ↔
    c.val < 2 * fieldU body 0 1 ∧ (∀ d : Fin 8, d < c → key d ≠ key c) ∧
      ∀ d : Fin 8, d.val < 2 * fieldU body 0 1 → key c ≤ key d := by
  simp only [FirstLeast, mem_spanChannels]
  constructor
  · rintro ⟨mem, least⟩
    exact ⟨mem, fun d lt => (least d (lt_trans lt mem)).2 lt, fun d hd => (least d hd).1⟩
  · rintro ⟨mem, first, least⟩
    exact ⟨mem, fun d hd => ⟨least d hd, first d⟩⟩

/-- The channel with the least offset fails above 0, or the one with the greatest below 0. -/
theorem spanFails_iff : SpanFails body k ↔
    (∃ c, leastOffset body (spanChannels body) = some c ∧ 0 < (vehChannel body c).offset ∧ k = 10 + 3 * c.val) ∨
      ∃ c, greatestOffset body (spanChannels body) = some c ∧ (vehChannel body c).offset < 0 ∧ k = 10 + 3 * c.val := by
  simp only [leastOffset_eq, greatestOffset_eq, firstLeast_iff (spanChannels_sorted body), firstLeast_span,
    neg_le_neg_iff, ne_eq, neg_inj]
  constructor
  · rintro ⟨c, mem, index, first, ⟨sign, least⟩ | ⟨sign, greatest⟩⟩
    · exact .inl ⟨c, ⟨mem, first, least⟩, sign, index⟩
    · exact .inr ⟨c, ⟨mem, first, greatest⟩, sign, index⟩
  · rintro (⟨c, ⟨mem, first, least⟩, sign, index⟩ | ⟨c, ⟨mem, first, greatest⟩, sign, index⟩)
    · exact ⟨c, mem, index, first, .inl ⟨sign, least⟩⟩
    · exact ⟨c, mem, index, first, .inr ⟨sign, greatest⟩⟩

/-- Where the least offset is above 0, so is the greatest. -/
theorem leastOffset_le_greatestOffset {low high : Fin 8} (h : leastOffset body (spanChannels body) = some low)
    (h' : greatestOffset body (spanChannels body) = some high) :
    (vehChannel body low).offset ≤ (vehChannel body high).offset := by
  rw [leastOffset_eq] at h
  rw [greatestOffset_eq] at h'
  obtain ⟨-, least⟩ := firstLeast_spec (spanChannels_sorted body) h
  exact (least high (firstLeast_spec (spanChannels_sorted body) h').1).1

theorem spanFailure_iff : spanFailure body = some k ↔ SpanFails body k := by
  rw [spanFails_iff, spanFailure]
  show (match leastOffset body (spanChannels body), greatestOffset body (spanChannels body) with
    | some low, some high => _
    | _, _ => _) = some k ↔ _
  have empty : leastOffset body (spanChannels body) = none ↔ greatestOffset body (spanChannels body) = none := by
    rw [leastOffset_eq, greatestOffset_eq, firstLeast_eq_none, firstLeast_eq_none]
  cases foundLow : leastOffset body (spanChannels body) with
  | none =>
    rw [empty.1 foundLow]
    simp
  | some low =>
    cases foundHigh : greatestOffset body (spanChannels body) with
    | none => cases foundLow.symm.trans (empty.2 foundHigh)
    | some high =>
      have ordered := leastOffset_le_greatestOffset foundLow foundHigh
      simp only [Option.some.injEq, exists_eq_left']
      split
      · next above =>
        rw [Option.some.injEq, or_iff_left fun below => absurd below.1 (by omega), eq_comm]
        exact (and_iff_right above).symm
      · next notAbove =>
        rw [or_iff_right fun above => notAbove above.1]
        split
        · next below =>
          rw [Option.some.injEq, eq_comm]
          exact (and_iff_right below).symm
        · next notBelow => exact iff_of_false nofun fun below => notBelow below.1

/-- Settles O23: the checks stand in ascending order of their indices and fail by the tables' rows, so that the first that
fails is the least; then the span check. -/
theorem vehicleFieldsFailByTheirTables : Obligations.VehicleFieldsFailByTheirTables := by
  intro body length
  have failure (k : Nat) : vehFailure body = some k ↔ (FieldFails body k ∧ ∀ j, j < k → ¬FieldFails body j) ∨
      ((∀ j, ¬FieldFails body j) ∧ SpanFails body k) := by
    simp only [vehFailure_iff, mem_vehChecks length, spanFailure_iff]
  exact failure

end Sys2Proof.Machine
end

