-- ==== Sys2Proof/Proofs/VehicleRecord.lean ====
section
/-!
SUPPORT. The vehicle record that a VEH.SET body gives (R28, R30, R33, R34, R204): settles O21.
-/
namespace Sys2Proof.Machine

variable {body : List Byte}

/-- No field of an accepted body fails. -/
theorem not_fieldFails (h : VehicleLength body.length) (accepted : vehFailure body = none) (k : Nat) :
    ¬FieldFails body k := by
  intro fails
  classical
  have least : FieldFails body (Nat.find ⟨k, fails⟩) ∧ ∀ j, j < Nat.find ⟨k, fails⟩ → ¬FieldFails body j :=
    ⟨Nat.find_spec ⟨k, fails⟩, fun _ => Nat.find_min ⟨k, fails⟩⟩
  have reported := (vehicleFieldsFailByTheirTables body h (Nat.find ⟨k, fails⟩)).2 (.inl least)
  rw [accepted] at reported
  cases reported

/-- The count mode of a configured wheel of an accepted body has its code (R31). -/
theorem vehMode_code (h : VehicleLength body.length) (accepted : vehFailure body = none) {w : Fin 16}
    (configured : w.val < 4 * fieldU body 0 1) : (vehWheel body w).mode.code = fieldU body (68 + 4 * w.val) 1 := by
  have row := not_fieldFails h accepted (36 + 3 * w.val)
  have small : fieldU body (68 + 4 * w.val) 1 ≤ 1 := by
    by_contra large
    exact row (.inr (.inr (.inr (.inl ⟨w, configured, .inr (.inr ⟨rfl, Nat.lt_of_not_le large⟩)⟩))))
  show ((countModeOf? (fieldU body (68 + 4 * w.val) 1)).getD .rising).code = _
  generalize fieldU body (68 + 4 * w.val) 1 = n at small
  rcases Nat.le_one_iff_eq_zero_or_eq_one.1 small with rfl | rfl <;> rfl

/-- The used reference slots of an accepted body name wheels (R32). -/
theorem wheelOf?_slot (h : VehicleLength body.length) (accepted : vehFailure body = none) {k : Nat}
    (used : k < fieldU body 129 1) : (wheelOf? (vehSlot body k)).map (fun w => w.val) = some (fieldU body (130 + k) 1) := by
  have count : fieldU body 0 1 ≤ 4 := by
    by_contra large
    exact not_fieldFails h accepted 1 (.inl ⟨rfl, .inr (Nat.lt_of_not_le large)⟩)
  have slots : fieldU body 129 1 ≤ 4 := by
    by_contra large
    exact not_fieldFails h accepted 82 (.inr (.inr (.inr (.inr (.inl ⟨rfl, .inr (Nat.lt_of_not_le large)⟩)))))
  have names : fieldU body (130 + k) 1 < 4 * fieldU body 0 1 := by
    by_contra large
    exact not_fieldFails h accepted (83 + k) (.inr (.inr (.inr (.inr (.inr (.inl
      ⟨⟨k, by omega⟩, rfl, used, .inl (Nat.le_of_not_lt large)⟩))))))
  have small : vehSlot body k < 16 := by
    show fieldU body (130 + k) 1 < 16
    omega
  rw [wheelOf?, dif_pos small]
  rfl

theorem vehRecord_references (h : VehicleLength body.length) (accepted : vehFailure body = none) :
    (vehRecord body).references.map (fun w => w.val) =
      (List.range (fieldU body 129 1)).map (fun k => fieldU body (130 + k) 1) := by
  show ((List.range (fieldU body 129 1)).filterMap fun k => wheelOf? (vehSlot body k)).map (fun w => w.val) = _
  rw [List.map_filterMap, ← List.filterMap_eq_map]
  refine List.filterMap_congr fun k mem => ?_
  exact wheelOf?_slot h accepted (List.mem_range.1 mem)

theorem vehRecord_wheel (h : VehicleLength body.length) (accepted : vehFailure body = none) (w : Fin 16) :
    let v := vehRecord body
    if w.val < 4 * v.bogieCount then
      v.wheels[w].diameter = fieldU body (65 + 4 * w.val) 2 ∧ v.wheels[w].teeth = fieldU body (67 + 4 * w.val) 1 ∧
        v.wheels[w].mode.code = fieldU body (68 + 4 * w.val) 1 ∧
        v.wheels[w].distance = distancePerCount v.wheels[w].diameter v.wheels[w].teeth v.wheels[w].mode
    else v.wheels[w] = ⟨0, 0, .rising, 0⟩ := by
  have entry : (vehRecord body).wheels[w] = if w.val < 4 * vehCount body then vehWheel body w else ⟨0, 0, .rising, 0⟩ := by
    simp [vehRecord]
  dsimp only
  rw [entry]
  show if w.val < 4 * vehCount body then _ else _
  split
  · next configured => exact ⟨rfl, rfl, vehMode_code h accepted configured, rfl⟩
  · rfl

/-- Settles O21: bank by bank, the codes and the slots from the checks that an accepted body has passed. -/
theorem vehicleRecordTakesTheFields : Obligations.VehicleRecordTakesTheFields := by
  intro body length accepted
  have channel (c : Fin 8) : (vehRecord body).channels[c] =
      if c.val < 2 * vehCount body then vehChannel body c else ⟨0, 0, 0⟩ := by
    have configured : (bogieOf c).val < vehCount body ↔ c.val < 2 * vehCount body := by
      show c.val / 2 < _ ↔ _
      omega
    simp [vehRecord, configured]
  have bogie (b : Fin 4) : (vehRecord body).bogies[b] = if b.val < vehCount body then vehBogie body b else ⟨0, 0⟩ := by
    simp [vehRecord]
  have tail (n : Nat) : (vehTail body).getD n 0 = _ := congrArg (List.getD · n 0) (vehTail_eq length)
  exact ⟨rfl, bogie, channel, vehRecord_wheel length accepted, vehRecord_references length accepted, rfl, tail 0, tail 1,
    tail 2, tail 3, tail 4, tail 5, tail 6⟩

end Sys2Proof.Machine
end

