-- ==== Sys2Proof/Proofs/VehicleSet.lean ====
section
/-!
SUPPORT. VEH.SET: the bogies' schedules after a new record, and the row's checks in order (R29, R33, R36, R99, R100):
settles O22.
-/
namespace Sys2Proof.Machine

variable {s t u : State} {b d : Fin 4} {l : List (Fin 4)} {r : Frame}

/-! ## The computation unit told of a schedule (R136) -/

/-- From one state to another only the computation unit, the monitor and the notices have changed. -/
def State.Judged (s t : State) : Prop :=
  t = { s with computation := t.computation, monitor := t.monitor, link := { s.link with notices := t.link.notices } }

theorem State.Judged.trans (h : s.Judged t) (k : t.Judged u) : s.Judged u := by
  unfold State.Judged at *
  rw [k, h]

theorem State.judged_setComputation (f : Computation → Computation) : s.Judged (s.setComputation f) := rfl

theorem State.judged_report (i : Fin 48) (v : Bool) : s.Judged (s.report i v) := by
  unfold State.report
  dsimp only
  split_ifs <;> rfl

theorem State.judged_resetLane (c : Fin 8) : s.Judged (s.resetLane c) :=
  State.Judged.trans (State.Judged.trans (rfl : s.Judged (s.setRecord c _)) (State.judged_report _ _))
    (State.judged_report _ _)

theorem State.judged_resetBogie (b : Fin 4) : s.Judged (s.resetBogie b) :=
  (((State.judged_setComputation _).trans (State.judged_report _ _)).trans (State.judged_resetLane _)).trans
    (State.judged_resetLane _)

theorem State.judged_unscheduled (b : Fin 4) : s.Judged (s.unscheduled b) := by
  unfold State.unscheduled
  split
  · exact State.judged_resetBogie b
  · exact State.judged_setComputation _

/-! ## The period timers (R99, R100) -/

/-- A bogie's period timer once its schedule has been set afresh. -/
def State.timerAfter (s : State) (b : Fin 4) : Option Nat :=
  if s.schedulable b then
    (match s.acquisition.timers[b] with
      | some at_ => some at_
      | none => some (s.clock + 1000 * s.acquisition.periods[b]))
  else none

/-- The schedules of the listed bogies have been set afresh. -/
structure Rescheduled (s t : State) (l : List (Fin 4)) : Prop where
  timers : ∀ b, t.acquisition.timers[b] = if b ∈ l then s.timerAfter b else s.acquisition.timers[b]
  rest : t = { s with acquisition := { s.acquisition with timers := t.acquisition.timers }, computation := t.computation,
                      monitor := t.monitor, link := { s.link with notices := t.link.notices } }

theorem Rescheduled.nil : Rescheduled s s [] := ⟨fun _ => rfl, rfl⟩

/-- A bogie's schedule does not read what setting another's changes. -/
theorem Rescheduled.timerAfter (h : Rescheduled s t l) (apart : d ∉ l) : t.timerAfter d = s.timerAfter d := by
  have timer : t.acquisition.timers[d] = s.acquisition.timers[d] := (h.timers d).trans (if_neg apart)
  have rest := h.rest
  generalize t.acquisition.timers = timers at timer rest
  rw [State.timerAfter, rest, State.timerAfter, ← timer]
  rfl

theorem Rescheduled.cons (first : Rescheduled s t [b]) (others : Rescheduled t u l) (apart : b ∉ l) :
    Rescheduled s u (b :: l) := by
  refine ⟨fun d => ?_, by rw [others.rest, first.rest]⟩
  rw [others.timers d, first.timers d]
  by_cases hd : d = b
  · subst hd
    rw [if_neg apart, if_pos (List.mem_singleton_self d), if_pos List.mem_cons_self]
  · have single : d ∉ [b] := fun mem => hd (List.mem_singleton.1 mem)
    rw [first.timerAfter single, if_neg single]
    by_cases mem : d ∈ l
    · rw [if_pos mem, if_pos (List.mem_cons_of_mem _ mem)]
    · rw [if_neg mem, if_neg (fun h => (List.mem_cons.1 h).elim hd mem)]

/-- One bogie's schedule set afresh. -/
theorem Rescheduled.single (own : t.acquisition.timers[b] = s.timerAfter b)
    (others : ∀ d, d ≠ b → t.acquisition.timers[d] = s.acquisition.timers[d])
    (rest : t = { s with acquisition := { s.acquisition with timers := t.acquisition.timers }, computation := t.computation,
                         monitor := t.monitor, link := { s.link with notices := t.link.notices } }) :
    Rescheduled s t [b] := by
  refine ⟨fun d => ?_, rest⟩
  by_cases hd : d = b
  · subst hd
    rw [own, if_pos (List.mem_singleton_self d)]
  · rw [others d hd, if_neg fun mem => hd (List.mem_singleton.1 mem)]

theorem rescheduled_reschedule (s : State) (b : Fin 4) : Rescheduled s (s.reschedule b) [b] := by
  unfold State.reschedule
  split
  · next scheduled stopped =>
    refine .single ?_ (fun d hd => changeAt_other _ _ _ _ hd) rfl
    rw [State.timerAfter, scheduled, stopped]
    exact changeAt_same _ _ _
  · next at_ unscheduled running =>
    have judged := State.judged_unscheduled (s := s.stopTimer b) b
    have timers : ((s.stopTimer b).unscheduled b).acquisition = (s.stopTimer b).acquisition := by rw [judged]
    generalize (s.stopTimer b).unscheduled b = t at judged timers ⊢
    refine .single ?_ (fun d hd => ?_) (Eq.trans judged (by rw [timers]; rfl))
    · rw [timers, State.timerAfter, unscheduled]
      exact changeAt_same _ _ _
    · rw [timers]
      exact changeAt_other _ _ _ _ hd
  · next notStarted notStopped =>
    refine .single ?_ (fun _ _ => rfl) rfl
    rw [State.timerAfter]
    cases schedulable : s.schedulable b <;> cases timer : s.acquisition.timers[b]
    · rfl
    · exact absurd timer (notStopped _ schedulable)
    · exact absurd timer (notStarted schedulable)
    · rfl

theorem rescheduled_foldl (l : List (Fin 4)) (distinct : l.Nodup) (s : State) :
    Rescheduled s (l.foldl (fun s b => s.reschedule b) s) l := by
  induction l generalizing s with
  | nil => exact .nil
  | cons b rest ih =>
    obtain ⟨apart, distinct⟩ := List.nodup_cons.1 distinct
    exact (rescheduled_reschedule s b).cons (ih distinct _) apart

theorem setVehicle_rescheduled (s : State) (v : VehicleRecord) :
    Rescheduled { s with vehicle := some v } (s.setVehicle v) allBogies :=
  rescheduled_foldl allBogies (by decide) _

/-! ## The checks in order (R29, R31) -/

theorem configuredLocked_iff {v : VehicleRecord} : s.configuredLocked v = true ↔
    ∀ c : Fin 8, c.val < 2 * v.bogieCount → s.channels.bank[c].state = .locked := by
  have configured (c : Fin 8) : (bogieOf c).val < v.bogieCount ↔ c.val < 2 * v.bogieCount := by
    show c.val / 2 < _ ↔ _
    omega
  simp only [State.configuredLocked, List.all_eq_true, decide_eq_true_eq, configured]
  exact ⟨fun all c => all c (mem_allChannels c), fun all c _ => all c⟩

/-- A configured channel of the present record is not LOCKED. -/
def State.Unlocked (s : State) : Prop := ∃ v, s.vehicle = some v ∧
  ∃ c : Fin 8, c.val < 2 * v.bogieCount ∧ s.channels.bank[c].state ≠ .locked

/-- A record is present and the vehicle not at standstill. -/
def State.Moving (s : State) : Prop := s.vehicle ≠ none ∧ s.tracker.standstill = false

theorem vehicleRefusal_of_unlocked (h : s.Unlocked) : s.vehicleRefusal = some .notLocked := by
  obtain ⟨v, record, c, configured, state⟩ := h
  unfold State.vehicleRefusal
  rw [record]
  exact if_pos (Bool.eq_false_iff.2 fun locked => state (configuredLocked_iff.1 locked c configured))

theorem configuredLocked_of_not_unlocked {v : VehicleRecord} (record : s.vehicle = some v) (locked : ¬s.Unlocked) :
    s.configuredLocked v = true := by
  refine configuredLocked_iff.2 fun c configured => ?_
  by_contra state
  exact locked ⟨v, record, c, configured, state⟩

theorem vehicleRefusal_of_moving (locked : ¬s.Unlocked) (h : s.Moving) : s.vehicleRefusal = some .notStandstill := by
  obtain ⟨present, moving⟩ := h
  obtain ⟨v, record⟩ := Option.ne_none_iff_exists'.1 present
  unfold State.vehicleRefusal
  rw [record]
  dsimp only
  rw [if_neg (by rw [configuredLocked_of_not_unlocked record locked]; decide), if_pos moving]

theorem vehicleRefusal_of_still (locked : ¬s.Unlocked) (h : ¬s.Moving) : s.vehicleRefusal = none := by
  unfold State.vehicleRefusal
  cases record : s.vehicle with
  | none => rfl
  | some v =>
    have still : s.tracker.standstill ≠ false := fun moving => h ⟨by rw [record]; nofun, moving⟩
    dsimp only
    rw [if_neg (by rw [configuredLocked_of_not_unlocked record locked]; decide), if_neg still]

theorem ownVehSet_refused {body : List Byte} {st : Status} (h : s.vehicleRefusal = some st) :
    ownVehSet body s.popRequest = (s.popRequest, ⟨st, [0]⟩) := by
  have refused : s.popRequest.vehicleRefusal = some st := h
  rw [ownVehSet, refused]

theorem ownVehSet_outOfRange {body : List Byte} {index : Nat} (h : s.vehicleRefusal = none)
    (fails : vehFailure body = some index) : ownVehSet body s.popRequest = (s.popRequest, ⟨.outOfRange, [u8 index]⟩) := by
  have accepted : s.popRequest.vehicleRefusal = none := h
  rw [ownVehSet, accepted, fails]

theorem ownVehSet_taken {body : List Byte} (h : s.vehicleRefusal = none) (passes : vehFailure body = none) :
    ownVehSet body s.popRequest = (s.popRequest.setVehicle (vehRecord body), ⟨.ok, [0]⟩) := by
  have accepted : s.popRequest.vehicleRefusal = none := h
  rw [ownVehSet, accepted, passes]

/-- VEH.SET taken: the record replaced, and every bogie's timer as its schedule after the record asks for it. -/
theorem vehSet_replaces (taken : s.canTake r) (kind : r.kind = 0x20) (fits : fitsVehSet r.body = true)
    (accepted : s.vehicleRefusal = none) (passes : vehFailure r.body = none) :
    let t := s.serveAct 0x20 anyBody fitsVehSet ownVehSet
    s.answered t r .ok [0] ∧ t.vehicle = some (vehRecord r.body) ∧
      (∀ b : Fin 4, t.acquisition.timers[b] =
        if t.schedulable b then
          (match s.acquisition.timers[b] with
            | some at_ => some at_
            | none => some (s.clock + 1000 * s.acquisition.periods[b]))
        else none) ∧
      t.acquisition = { s.acquisition with timers := t.acquisition.timers } ∧
      t = { s with vehicle := t.vehicle, acquisition := t.acquisition, computation := t.computation,
                   monitor := t.monitor, link := t.link } := by
  have set := setVehicle_rescheduled s.popRequest (vehRecord r.body)
  rw [State.serveAct_taken taken kind fits rfl, ownVehSet_taken accepted passes]
  have rest := set.rest
  have timers := set.timers
  generalize s.popRequest.setVehicle (vehRecord r.body) = u at rest timers
  dsimp only
  have link : u.link = { s.popRequest.link with notices := u.link.notices } := by rw [rest]
  have schedulable (b : Fin 4) : u.schedulable b =
      ({ s.popRequest with vehicle := some (vehRecord r.body) } : State).schedulable b := by
    rw [rest]
    rfl
  refine ⟨?_, ?_, fun b => ?_, ?_, ?_⟩
  · show { u.link with replies := u.link.replies ++ [replyOf r .ok u.summary [0]] } = _
    rw [link]
    rfl
  · show u.vehicle = _
    rw [rest]
  · refine (timers b).trans ((if_pos (mem_allBogies b)).trans ?_)
    show _ = if u.schedulable b then _ else _
    rw [schedulable b]
    rfl
  · show u.acquisition = _
    rw [rest]
    rfl
  · rw [rest]
    rfl

/-- Settles O22: the checks in their order, then the schedules of the four bogies set afresh one after the other. -/
theorem vehSetReplacesTheRecord : Obligations.VehSetReplacesTheRecord := by
  intro s r taken kind length
  have fits := fitsVehSet_of_length length
  have only {st : Status} {fields : List Byte} (own : ownVehSet r.body s.popRequest = (s.popRequest, ⟨st, fields⟩)) :
      s.onlyAnswers (s.serveAct 0x20 anyBody fitsVehSet ownVehSet) r st fields :=
    State.onlyAnswers_of_owner taken kind fits rfl own
  refine ⟨_, rfl, fun unlocked => ?_, fun locked moving => ?_, fun locked still index fails => ?_,
    fun locked still passes => ?_⟩
  · exact only (ownVehSet_refused (vehicleRefusal_of_unlocked unlocked))
  · exact only (ownVehSet_refused (vehicleRefusal_of_moving locked moving))
  · exact only (ownVehSet_outOfRange (vehicleRefusal_of_still locked still) fails)
  · exact vehSet_replaces taken kind fits (vehicleRefusal_of_still locked still) passes

end Sys2Proof.Machine
end

