-- ==== Sys2Proof/Proofs/PathGrowth.lean ====
section
/-!
SUPPORT. How the path grows at its outer ends and is trimmed at its rear (R39, R71, R76 to R81, R84): settles O34.
-/
namespace Sys2Proof.Machine

/-! ## The span of a vehicle (R39, R76) -/

/-- A fold of minima is the least of its start and of the list. -/
theorem foldl_min_isLeast {α : Type} [LinearOrder α] (l : List α) (a : α) :
    l.foldl min a ∈ a :: l ∧ ∀ x ∈ a :: l, l.foldl min a ≤ x := by
  induction l generalizing a with
  | nil => exact ⟨List.mem_singleton_self a, fun x mem => (List.mem_singleton.1 mem).ge⟩
  | cons b rest ih =>
    obtain ⟨mem, least⟩ := ih (min a b)
    have start := least _ List.mem_cons_self
    refine ⟨?_, fun x hx => ?_⟩
    · rcases List.mem_cons.1 mem with e | mem
      · rw [List.foldl_cons, e]
        rcases min_choice a b with h | h <;> rw [h]
        · exact List.mem_cons_self
        · exact List.mem_cons_of_mem _ List.mem_cons_self
      · exact List.mem_cons_of_mem _ (List.mem_cons_of_mem _ mem)
    · rcases List.mem_cons.1 hx with rfl | hx
      · exact start.trans (min_le_left _ _)
      · rcases List.mem_cons.1 hx with rfl | hx
        · exact start.trans (min_le_right _ _)
        · exact least x (List.mem_cons_of_mem _ hx)

/-- A fold of maxima is the greatest of its start and of the list. -/
theorem foldl_max_isGreatest {α : Type} [LinearOrder α] (l : List α) (a : α) :
    l.foldl max a ∈ a :: l ∧ ∀ x ∈ a :: l, x ≤ l.foldl max a :=
  foldl_min_isLeast (α := αᵒᵈ) l a

variable {v : VehicleRecord}

theorem mem_offsets {o : Int} : o ∈ v.offsets ↔ ∃ c : Fin 8, c.val < 2 * v.bogieCount ∧ v.channels[c].offset = o := by
  have configured (c : Fin 8) : (bogieOf c).val < v.bogieCount ↔ c.val < 2 * v.bogieCount := by
    show c.val / 2 < _ ↔ _
    omega
  simp only [VehicleRecord.offsets, List.mem_map, List.mem_filter, decide_eq_true_eq, configured]
  exact exists_congr fun c => and_congr_left fun _ => and_iff_right (mem_allChannels c)

/-- A list that is not empty starts with its head, so that adding its head adds nothing. -/
theorem mem_headD_cons {α : Type} {l : List α} {d x : α} (h : l ≠ []) : x ∈ l.headD d :: l ↔ x ∈ l := by
  cases l with
  | nil => exact absurd rfl h
  | cons a rest => simp

theorem spanFollowsTheWheelsets : Claims.SpanFollowsTheWheelsets := by
  intro v bogies
  have some_ : v.offsets ≠ [] := List.ne_nil_of_mem (mem_offsets.2 ⟨0, by show 0 < _; omega, rfl⟩)
  obtain ⟨low, least⟩ := foldl_min_isLeast v.offsets (v.offsets.headD 0)
  obtain ⟨high, greatest⟩ := foldl_max_isGreatest v.offsets (v.offsets.headD 0)
  rw [mem_headD_cons some_, mem_offsets] at low high
  refine ⟨low, high, fun c configured => ?_, rfl, rfl, rfl, rfl, rfl, rfl⟩
  have mem : v.channels[c].offset ∈ v.offsets.headD 0 :: v.offsets :=
    (mem_headD_cons some_).2 (mem_offsets.2 ⟨c, configured, rfl⟩)
  exact ⟨least _ mem, greatest _ mem⟩

/-! ## One extension (R71, R77 to R79) -/

variable {g : Store} {side : Side} {path : List PathEntry} {e : PathEntry}

/-- The outer entry of a path at a side. -/
def outerEntry (path : List PathEntry) : Side → Option PathEntry
  | .aEnd => path.getLast?
  | .bEnd => path.head?

/-- The end link of an outer entry's outer end. -/
def Store.outerLink (g : Store) (e : PathEntry) : Side → Link
  | .aEnd => g.sections[e.sec].linkAt e.orientation.aSide
  | .bEnd => g.sections[e.sec].linkAt e.orientation.bSide

/-- A path with a section joined at a side, entered at an end over a joint (R71, R78). -/
def joined (path : List PathEntry) (e : PathEntry) (at_ : EndRef) (via : Via) : Side → List PathEntry
  | .aEnd => path ++ [⟨at_.sec, appendedOrientation at_.side, some via, false⟩]
  | .bEnd =>
    ⟨at_.sec, prependedOrientation at_.side, none, false⟩ :: { e with via := some via, moved := false } :: path.tail

/-- A path extended by what lies beyond its outer entry (R77, R79). -/
def extendAt (side : Side) (path : List PathEntry) (e : PathEntry) : Beyond → Except StopReason (List PathEntry)
  | .stop reason => .error reason
  | .enter at_ via => if 16 ≤ path.length then .error .full else .ok (joined path e at_ via side)

theorem extendOnce_eq (outer : outerEntry path side = some e) :
    extendOnce g side path = extendAt side path e (g.beyond (g.outerLink e side)) := by
  cases side with
  | aEnd =>
    have last : path.getLast? = some e := outer
    rw [extendOnce, last]
    rfl
  | bEnd =>
    cases path with
    | nil => cases outer
    | cons a rest =>
      obtain rfl : a = e := Option.some.inj outer
      rfl

/-- An empty path has no outer entry to extend from. -/
theorem extendOnce_nil : extendOnce g side [] = .error .endOfLine := by cases side <;> rfl

/-- The outer end of an entry is its section's high end at the A-end of an UP entry and at the B-end of a DOWN one. -/
theorem outerLink_eq : g.outerLink e side =
    if decide (side = .aEnd) == decide (e.orientation = .up) then g.sections[e.sec].high else g.sections[e.sec].low := by
  obtain ⟨sec, orientation, via, moved⟩ := e
  cases side <;> cases orientation <;> rfl

/-- A section entered from an outer entry, as R77 to R79 say it. -/
theorem extendAt_enterReady (entered : EndRef) (via : Via) : extendAt side path e (g.enterReady entered via) =
    if g.sections[entered.sec].state ≠ .ready then .error .notReady
    else if 16 ≤ path.length then .error .full
    else .ok (joined path e entered via side) := by
  unfold Store.enterReady
  by_cases ready : g.sections[entered.sec].state = .ready
  · rw [if_pos ready, if_neg (not_not_intro ready)]
    rfl
  · rw [if_neg ready, if_pos ready]
    rfl

theorem extensionFollowsTheEndLink : Claims.ExtensionFollowsTheEndLink := by
  intro g side path e last head atHigh outer added
  have outermost : outerEntry path side = some e := by
    cases side with
    | aEnd => exact last rfl
    | bEnd => exact head rfl
  have link : outer = g.outerLink e side := outerLink_eq.symm
  have extended : extendOnce g side path = extendAt side path e (g.beyond outer) := by
    rw [link]
    exact extendOnce_eq outermost
  have joins (entered : EndRef) (via : Via) : extendAt side path e (g.enterReady entered via) = added entered via := by
    rw [extendAt_enterReady]
    obtain ⟨sec, end_⟩ := entered
    simp only [added]
    cases side <;> cases end_ <;> rfl
  clear_value outer added
  refine ⟨fun none => ?_, fun target end_ sec => ?_, fun id role p points record => ?_⟩
  · rw [extended, none]
    rfl
  · rw [extended, sec]
    exact joins _ _
  · rw [extended, points, Store.beyond]
    refine ⟨?_, ?_, ?_, ?_, ?_⟩
    · rintro rfl setting
      rw [record]
      dsimp only
      rw [setting]
      exact joins _ _
    · rintro rfl setting
      rw [record]
      dsimp only
      rw [setting]
      exact joins _ _
    · rintro rfl setting
      rw [record]
      dsimp only
      rw [setting]
      rfl
    · rintro rfl
      rw [record]
      exact joins _ _
    · rintro rfl
      rw [record]
      exact joins _ _

/-! ## Extension to a target (R78 to R80, R84) -/

variable {offset : Int} {k m : Course}

/-- A course after an extension at a side: the datum stays with its entry. -/
def Course.grown (k : Course) (path : List PathEntry) : Side → Course
  | .aEnd => { k with path := path }
  | .bEnd => { k with path := path, datum := { k.datum with entry := k.datum.entry + 1 } }

/-- A path extended has room for another entry, and what joins it is one entry at the side. -/
theorem extendOnce_ok {longer : List PathEntry} (h : extendOnce g side path = .ok longer) :
    path.length < 16 ∧ ∃ e at_ via, outerEntry path side = some e ∧ longer = joined path e at_ via side := by
  cases outer : outerEntry path side with
  | none =>
    have empty : path = [] := by cases side <;> simpa [outerEntry] using outer
    rw [empty, extendOnce_nil] at h
    cases h
  | some e =>
    rw [extendOnce_eq outer] at h
    unfold extendAt at h
    split at h
    · cases h
    · next at_ via _ =>
      split at h
      · cases h
      · next room => exact ⟨Nat.lt_of_not_le room, e, at_, via, rfl, (Except.ok.inj h).symm⟩

/-- A section joined makes the path one entry longer. -/
theorem joined_length {at_ : EndRef} {via : Via} (outer : outerEntry path side = some e) :
    (joined path e at_ via side).length = path.length + 1 := by
  cases side with
  | aEnd => exact List.length_append
  | bEnd =>
    obtain ⟨tail, rfl⟩ := List.head?_eq_some_iff.1 (show path.head? = some e from outer)
    rfl

theorem Course.grown_path : (k.grown path side).path = path := by cases side <;> rfl

/-- How an extension to a target goes on: the walk stays on the path, an extension stops, or the path grows. -/
theorem extendTo_cases (g : Store) (side : Side) (offset : Int) (fuel : Nat) (k : Course) :
    ((k.walkTo g offset).isSome = true ∧ extendTo g side offset (fuel + 1) k = k) ∨
    ((k.walkTo g offset).isNone = true ∧
      ((extendOnce g side k.path = .error .full ∧ extendTo g side offset (fuel + 1) k = { k with full := true }) ∨
      (∃ reason, reason ≠ .full ∧ extendOnce g side k.path = .error reason ∧ extendTo g side offset (fuel + 1) k = k) ∨
      ∃ path, extendOnce g side k.path = .ok path ∧
        extendTo g side offset (fuel + 1) k = extendTo g side offset fuel (k.grown path side))) := by
  rw [extendTo.eq_def]
  dsimp only
  cases walked : k.walkTo g offset with
  | some l => exact .inl ⟨rfl, rfl⟩
  | none =>
    refine .inr ⟨rfl, ?_⟩
    cases once : extendOnce g side k.path with
    | error reason => cases reason <;> simp
    | ok path =>
      refine .inr (.inr ⟨path, rfl, ?_⟩)
      cases side <;> rfl

/-- Extension at a side ends with the walk to its target on the path, or stopped; FULL says that it stopped for
capacity. -/
structure Course.Ends (k m : Course) (g : Store) (side : Side) (offset : Int) : Prop where
  ended : (m.walkTo g offset).isSome = true ∨ ∃ reason, extendOnce g side m.path = .error reason
  full : m.full = true ↔ k.full = true ∨ ((m.walkTo g offset).isNone = true ∧ extendOnce g side m.path = .error .full)
  length : m.path.length ≤ max 16 k.path.length

/-- What extension at a side keeps: every entry and the datum's; at the B-end the old B-most entry takes the joint. -/
def Course.Keeps (k m : Course) : Side → Prop
  | .aEnd => m.datum = k.datum ∧ ∃ more, m.path = k.path ++ more
  | .bEnd => ∃ more, m.path.drop (more + 1) = k.path.tail ∧ m.path.length = more + k.path.length ∧
      m.datum = { k.datum with entry := k.datum.entry + more } ∧
      ∀ e, k.path.head? = some e → ∃ f, m.path[more]? = some f ∧ f.sec = e.sec ∧ f.orientation = e.orientation ∧
        (more = 0 → f = e) ∧ (more ≠ 0 → f.via ≠ none ∧ f.moved = false)

/-- A course with its path and datum as they were keeps them. -/
theorem Course.keeps_same (path : m.path = k.path) (datum : m.datum = k.datum) : k.Keeps m side := by
  cases side with
  | aEnd => exact ⟨datum, [], by rw [path, List.append_nil]⟩
  | bEnd =>
    refine ⟨0, by rw [path, List.drop_one], by rw [path, Nat.zero_add], datum, fun e head => ?_⟩
    exact ⟨e, by rw [path, ← List.head?_eq_getElem?, head], rfl, rfl, fun _ => rfl, fun h => absurd rfl h⟩

/-- An entry joined first keeps what the extension after it keeps. -/
theorem Course.keeps_grown {e : PathEntry} {at_ : EndRef} {via : Via} (outer : outerEntry k.path side = some e)
    (h : (k.grown (joined k.path e at_ via side) side).Keeps m side) : k.Keeps m side := by
  cases side with
  | aEnd =>
    obtain ⟨datum, more, path⟩ := h
    exact ⟨datum, _ :: more, path.trans (List.append_assoc ..)⟩
  | bEnd =>
    obtain ⟨more, rest, length, datum, -⟩ := h
    obtain ⟨tail, shape⟩ := List.head?_eq_some_iff.1 (show k.path.head? = some e from outer)
    have dropped : m.path.drop (more + 1) = { e with via := some via, moved := false } :: k.path.tail := rest
    refine ⟨more + 1, ?_, ?_, ?_, fun a head => ?_⟩
    · rw [← List.drop_drop, dropped, List.drop_one, List.tail_cons]
    · rw [length]
      simp [Course.grown, joined, shape]
      omega
    · rw [datum]
      simp [Course.grown, Nat.add_assoc, Nat.add_comm 1]
    · obtain rfl : e = a := Option.some.inj (outer.symm.trans head)
      refine ⟨{ e with via := some via, moved := false }, ?_, rfl, rfl, nofun, fun _ => ⟨nofun, rfl⟩⟩
      rw [← List.head?_drop, dropped]
      rfl

/-- Extension with fuel for every entry that the path can still take (R78 to R80). -/
theorem extendTo_spec (g : Store) (side : Side) (offset : Int) (fuel : Nat) (k : Course) (some_ : 0 < fuel)
    (enough : 17 ≤ fuel + k.path.length) :
    k.Ends (extendTo g side offset fuel k) g side offset ∧ k.Keeps (extendTo g side offset fuel k) side := by
  induction fuel generalizing k with
  | zero => exact absurd some_ (Nat.lt_irrefl 0)
  | succ fuel ih =>
    rcases extendTo_cases g side offset fuel k with
      ⟨walked, same⟩ | ⟨left, ⟨once, stopped⟩ | ⟨reason, other, once, same⟩ | ⟨path, once, goesOn⟩⟩
    · rw [same]
      refine ⟨⟨.inl walked, ?_, le_max_right _ _⟩, Course.keeps_same rfl rfl⟩
      exact (or_iff_left fun h => by simp [Option.isNone_iff_eq_none.1 h.1] at walked).symm
    · rw [stopped]
      exact ⟨⟨.inr ⟨_, once⟩, iff_of_true rfl (.inr ⟨left, once⟩), le_max_right _ _⟩, Course.keeps_same rfl rfl⟩
    · rw [same]
      refine ⟨⟨.inr ⟨_, once⟩, ?_, le_max_right _ _⟩, Course.keeps_same rfl rfl⟩
      exact (or_iff_left fun h => other (Except.error.inj (once.symm.trans h.2))).symm
    · obtain ⟨room, e, at_, via, outer, rfl⟩ := extendOnce_ok once
      have length : (k.grown (joined k.path e at_ via side) side).path.length = k.path.length + 1 := by
        rw [Course.grown_path, joined_length outer]
      have full : (k.grown (joined k.path e at_ via side) side).full = k.full := by cases side <;> rfl
      obtain ⟨ends, keeps⟩ := ih (k.grown (joined k.path e at_ via side) side) (by omega) (by omega)
      rw [goesOn]
      refine ⟨⟨ends.ended, full ▸ ends.full, ends.length.trans ?_⟩, Course.keeps_grown outer keeps⟩
      omega

theorem extensionGoesToItsTarget : Claims.ExtensionGoesToItsTarget := by
  refine ⟨fun g side offset k => ?_, fun g v k => ⟨rfl, rfl⟩⟩
  obtain ⟨ends, keeps⟩ := extendTo_spec g side offset 17 k (by decide) (Nat.le_add_right _ _)
  refine ⟨ends.ended, ends.full, ends.length, ?_, ?_⟩
  · rintro rfl
    exact keeps
  · rintro rfl
    exact keeps

/-! ## Trimming (R81) -/

theorem bareHead_length (path : List PathEntry) : (bareHead path).length = path.length := by cases path <;> rfl

/-- Beyond its head a bared path is as it was. -/
theorem bareHead_getElem?_pos {i : Nat} (hi : 0 < i) (path : List PathEntry) : (bareHead path)[i]? = path[i]? := by
  obtain ⟨j, rfl⟩ := Nat.exists_eq_succ_of_ne_zero hi.ne'
  cases path <;> rfl

theorem bareHead_getElem?_zero (h : path[0]? = some e) :
    (bareHead path)[0]? = some { e with via := none, moved := false } := by
  cases path with
  | nil => cases h
  | cons a rest =>
    obtain rfl : a = e := Option.some.inj h
    rfl

/-- A path cut at its B-end alone. -/
theorem cutPath_rear (lo : Nat) (path : List PathEntry) :
    cutPath lo path.length path = if lo = 0 then path else bareHead (path.drop lo) := by
  rw [cutPath, List.take_length]

/-- What is left of a path cut at its B-end: its entries from a place on, the first of them bare (R68, R81). -/
theorem cutPath_rear_entries (lo : Nat) (path : List PathEntry) : (cutPath lo path.length path).length = path.length - lo ∧
    (∀ i, 0 < i → (cutPath lo path.length path)[i]? = path[lo + i]?) ∧
    ∀ e, path[lo]? = some e →
      (cutPath lo path.length path)[0]? = some (if lo = 0 then e else { e with via := none, moved := false }) := by
  rw [cutPath_rear]
  split
  · next zero =>
    subst zero
    exact ⟨rfl, fun i _ => by rw [Nat.zero_add], fun e first => first⟩
  · refine ⟨?_, fun i hi => ?_, fun e first => ?_⟩
    · rw [bareHead_length, List.length_drop]
    · rw [bareHead_getElem?_pos hi, List.getElem?_drop]
    · exact bareHead_getElem?_zero (by rw [List.getElem?_drop]; exact first)

theorem Course.trim_of_left {v : VehicleRecord} {sign : Sign} (h : k.walkTo g (v.rearMost sign) = none) :
    k.trim g v sign = k := by
  rw [Course.trim, h]

theorem Course.trim_minus {v : VehicleRecord} {l : Location} (h : k.walkTo g (v.rearMost .minus) = some l) :
    k.trim g v .minus = { k with path := k.path.take (l.entry + 1) } := by
  rw [Course.trim, h]
  rfl

theorem Course.trim_plus {v : VehicleRecord} {l : Location} (h : k.walkTo g (v.rearMost .plus) = some l) :
    k.trim g v .plus = { k with path := cutPath l.entry k.path.length k.path,
                                datum := { k.datum with entry := k.datum.entry - l.entry } } := by
  rw [Course.trim, h]

theorem trimmingCutsTheRear : Claims.TrimmingCutsTheRear := by
  intro g v sign k m
  have full : m.full = k.full := by
    simp only [m, Course.trim]
    split
    · rfl
    · split <;> rfl
  refine ⟨full, Course.trim_of_left, fun l walked => ⟨?_, ?_⟩⟩
  · rintro rfl
    rw [show m = _ from Course.trim_minus walked]
    exact ⟨rfl, rfl⟩
  · rintro rfl
    obtain ⟨length, others, first⟩ := cutPath_rear_entries l.entry k.path
    rw [show m = _ from Course.trim_plus walked]
    exact ⟨length, rfl, others, first⟩

/-- Settles O34: the span as a least and a greatest offset, one extension by what lies beyond the outer end, extension by
induction on the entries that the path can still take, and trimming from the cut path. -/
theorem pathGrowsAndIsTrimmed : Obligations.PathGrowsAndIsTrimmed :=
  ⟨spanFollowsTheWheelsets, extensionFollowsTheEndLink, extensionGoesToItsTarget, trimmingCutsTheRear⟩

end Sys2Proof.Machine
end

