-- ==== Sys2Proof/Proofs/Confidence.lean ====
section
/-!
SUPPORT. Confidence and tracker state (R53, R54): settles O26.
-/
namespace Sys2Proof.Machine

/-- The confidence before a mismatch caps it (R53). -/
def baseConfidence (v : VehicleRecord) (mm : Nat) : Nat :=
  if mm ≤ v.uFull then 256 else if v.uZero ≤ mm then 0 else 256 * (v.uZero - mm) / (v.uZero - v.uFull)

variable {v : VehicleRecord} {mismatch : Bool} {mm u misses : Nat}

theorem baseConfidence_full (h : mm ≤ v.uFull) : baseConfidence v mm = 256 := if_pos h

theorem baseConfidence_zero (above : v.uFull < mm) (h : v.uZero ≤ mm) : baseConfidence v mm = 0 := by
  rw [baseConfidence, if_neg (Nat.not_le_of_lt above), if_pos h]

/-- Between the two bounds the confidence is the truncated quotient. -/
theorem baseConfidence_between (above : v.uFull < mm) (below : mm < v.uZero) :
    baseConfidence v mm * (v.uZero - v.uFull) ≤ 256 * (v.uZero - mm) ∧
      256 * (v.uZero - mm) < (baseConfidence v mm + 1) * (v.uZero - v.uFull) := by
  rw [baseConfidence, if_neg (Nat.not_le_of_lt above), if_neg (Nat.not_le_of_lt below)]
  exact ⟨Nat.div_mul_le_self _ _, (Nat.div_lt_iff_lt_mul (by omega)).1 (Nat.lt_succ_self _)⟩

theorem baseConfidence_le (v : VehicleRecord) (mm : Nat) : baseConfidence v mm ≤ 256 := by
  unfold baseConfidence
  split_ifs with full zero
  · exact le_rfl
  · exact Nat.zero_le _
  · exact Nat.div_le_of_le_mul (by rw [Nat.mul_comm]; exact Nat.mul_le_mul_right _ (by omega))

/-- A mismatch caps the confidence at 64. -/
theorem confidenceOf_eq (v : VehicleRecord) (mismatch : Bool) (u : Nat) :
    confidenceOf v mismatch u = min (if mismatch then 64 else 256) (baseConfidence v (roundNat u 1000)) := by
  cases mismatch with
  | true => exact Nat.min_comm _ _
  | false => exact (Nat.min_eq_right (baseConfidence_le v _)).symm

theorem confidenceOf_le (v : VehicleRecord) (mismatch : Bool) (u : Nat) : confidenceOf v mismatch u ≤ 256 := by
  rw [confidenceOf_eq]
  exact (Nat.min_le_right _ _).trans (baseConfidence_le v _)

theorem trackerStateOf_ne_unlocated (v : VehicleRecord) (mismatch : Bool) (u misses : Nat) :
    trackerStateOf v mismatch u misses ≠ .unlocated := by
  unfold trackerStateOf
  split <;> nofun

/-- The condition under which the tracker is DEGRADED (R54). -/
theorem trackerStateOf_eq (v : VehicleRecord) (mismatch : Bool) (u misses : Nat) : trackerStateOf v mismatch u misses =
    if v.uDegrade < roundNat u 1000 ∨ 3 ≤ misses ∨ mismatch = true then .degraded else .located := rfl

/-- Settles O26: the confidence as the lesser of its cap and the table's value, the state from its one condition. -/
theorem confidenceAndStateFollowTheTables : Obligations.ConfidenceAndStateFollowTheTables := by
  intro v mismatch u misses mm c bound
  have capped : c = min bound (baseConfidence v mm) := confidenceOf_eq v mismatch u
  have cap : bound ≤ 256 := by simp only [bound]; split <;> decide
  refine ⟨capped ▸ Nat.min_le_left _ _, fun full => ?_, fun above zero => ?_, fun above below => ?_, ?_, ?_⟩
  · rw [capped, baseConfidence_full full, Nat.min_eq_left cap]
  · rw [capped, baseConfidence_zero above zero, Nat.min_zero]
  · obtain ⟨low, high⟩ := baseConfidence_between above below
    exact ⟨_, low, high, capped⟩
  · rw [trackerStateOf_eq]
    split_ifs with degraded
    · exact iff_of_true rfl degraded
    · exact iff_of_false nofun degraded
  · rw [trackerStateOf_eq]
    split_ifs with degraded
    · exact iff_of_false nofun (not_not_intro degraded)
    · exact iff_of_true rfl degraded

end Sys2Proof.Machine
end

