-- ==== Sys2Proof/Proofs/Markers.lean ====
section
/-!
SUPPORT. The candidates of a detection, the one taken, and the match (R62, R63): settles O30.
-/
namespace Sys2Proof.Machine

/-! ## The candidates of a detection (R62, R63) -/

variable {g : Store} {path : List PathEntry} {detector : Location} {uMm : Nat}

/-- The candidates of one entry are its section's markers within the window. -/
theorem mem_entryCandidates {place : Nat} {e : PathEntry} {c : Candidate} :
    c ∈ entryCandidates g path detector uMm place e ↔ ∃ m : Marker, g.sections[e.sec].markers[c.index]? = some m ∧
      c = ⟨place, e.sec, c.index, pathDistance g path detector ⟨place, 1000 * (m.chainage : Int)⟩⟩ ∧
      c.delta.natAbs ≤ 1000 * max m.halfWidth uMm := by
  simp only [entryCandidates, List.mem_filterMap, List.mem_map, Prod.exists, List.mem_zipIdx_iff_getElem?]
  constructor
  · rintro ⟨_, _, ⟨m, index, stands, pair⟩, kept⟩
    obtain ⟨rfl, rfl⟩ := Prod.mk.inj pair
    split at kept
    · next within =>
      obtain rfl := Option.some.inj kept
      exact ⟨m, stands, rfl, within⟩
    · cases kept
  · rintro ⟨m, stands, made, within⟩
    refine ⟨m, c, ⟨m, c.index, stands, ?_⟩, if_pos within⟩
    rw [← made]

theorem candidatesLieInTheWindow : Claims.CandidatesLieInTheWindow := by
  intro g path detector uMm c
  simp only [candidates, List.mem_flatten, List.mem_map, Prod.exists, List.mem_zipIdx_iff_getElem?]
  constructor
  · rintro ⟨_, ⟨e, place, stands, rfl⟩, mem⟩
    obtain ⟨m, marker, made, within⟩ := mem_entryCandidates.1 mem
    obtain rfl : c.entry = place := congrArg Candidate.entry made
    exact ⟨e, m, stands, congrArg Candidate.sec made, marker, congrArg Candidate.delta made, within⟩
  · rintro ⟨e, m, stands, sec, marker, delta, within⟩
    refine ⟨_, ⟨e, c.entry, stands, rfl⟩, mem_entryCandidates.2 ⟨m, marker, ?_, within⟩⟩
    rw [← sec, ← delta]

/-! ## The nearest candidate (R63) -/

variable {sign : Sign} {a b c : Candidate}

/-- What it is that no candidate `b` goes before `a`. -/
theorem Candidate.not_before_iff : b.before sign a = false ↔ a.delta.natAbs ≤ b.delta.natAbs ∧
    (b.delta.natAbs = a.delta.natAbs → b.delta ≠ a.delta → 0 < sign.toInt * a.delta) ∧
    (b.delta = a.delta → 0 ≤ sign.toInt * ((a.entry : Int) - b.entry)) := by
  unfold Candidate.before
  split_ifs <;> cases sign <;> rw [decide_eq_false_iff_not] <;> simp only [Sign.toInt] <;> omega

/-- Of two candidates at most one goes before the other. -/
theorem Candidate.before_asymm (h : a.before sign b = true) : b.before sign a = false := by
  rw [← Bool.not_eq_false, Candidate.not_before_iff] at h
  rw [Candidate.not_before_iff]
  cases sign <;> simp only [Sign.toInt] at h ⊢ <;> omega

/-- Not to go before is transitive, so that the candidates stand in one order. -/
theorem Candidate.not_before_trans (h : c.before sign b = false) (k : b.before sign a = false) :
    c.before sign a = false := by
  rw [Candidate.not_before_iff] at h k ⊢
  cases sign <;> simp only [Sign.toInt] at h k ⊢ <;> omega

/-- The candidate taken is one of the list, and none goes before it. -/
theorem bestCandidate_spec (sign : Sign) (l : List Candidate) (some_ : l ≠ []) :
    ∃ c, bestCandidate sign l = some c ∧ c ∈ l ∧ ∀ d ∈ l, d.before sign c = false := by
  induction l with
  | nil => exact absurd rfl some_
  | cons a rest ih =>
    have self : a.before sign a = false := by simp [Candidate.before]; cases sign <;> simp
    cases rest with
    | nil => exact ⟨a, rfl, List.mem_cons_self, fun d mem => List.mem_singleton.1 mem ▸ self⟩
    | cons x tail =>
      obtain ⟨b, best, mem, least⟩ := ih (List.cons_ne_nil _ _)
      rw [bestCandidate, best]
      cases before : b.before sign a with
      | true =>
        refine ⟨b, by simp [before], List.mem_cons_of_mem _ mem, List.forall_mem_cons.2 ⟨?_, least⟩⟩
        exact Candidate.before_asymm before
      | false =>
        refine ⟨a, by simp [before], List.mem_cons_self, List.forall_mem_cons.2 ⟨self, fun d hd => ?_⟩⟩
        exact Candidate.not_before_trans (least d hd) before

theorem nearestMarkerIsTaken : Claims.NearestMarkerIsTaken := by
  intro sign l
  refine ⟨fun some_ => ?_, fun c best => ?_⟩
  · obtain ⟨c, best, -⟩ := bestCandidate_spec sign l some_
    exact ⟨c, best⟩
  · have some_ : l ≠ [] := by rintro rfl; cases best
    obtain ⟨b, best', mem, least⟩ := bestCandidate_spec sign l some_
    obtain rfl : c = b := Option.some.inj (best.symm.trans best')
    exact ⟨mem, fun d hd => Candidate.not_before_iff.1 (least d hd)⟩

/-! ## The match (R62, R63) -/

theorem matchWalksTheDatum : Claims.MatchWalksTheDatum := by
  intro g v path p c l
  simp only [matchMarker, mmOfMicro, Option.bind_eq_some_iff, Option.map_eq_some_iff]
  constructor
  · rintro ⟨detector, ⟨d, datum, walked⟩, best, taken, _, ⟨d', datum', corrected⟩, pair⟩
    obtain ⟨rfl, rfl⟩ := Prod.mk.inj pair
    obtain rfl : d = d' := Option.some.inj (datum.symm.trans datum')
    exact ⟨d, detector, datum, walked, taken, corrected⟩
  · rintro ⟨d, detector, datum, walked, taken, corrected⟩
    exact ⟨detector, ⟨d, datum, walked⟩, c, taken, l, ⟨d, datum, corrected⟩, rfl⟩

/-- Settles O30: membership in the window entry by entry, the best of a list by its order, and the match from its walks. -/
theorem nearestMarkerInTheWindowIsTaken : Obligations.NearestMarkerInTheWindowIsTaken :=
  ⟨candidatesLieInTheWindow, nearestMarkerIsTaken, matchWalksTheDatum⟩

end Sys2Proof.Machine
end

