-- ==== Sys2Proof/Proofs/TrackerInputs.lean ====
section
/-!
SUPPORT. The wheel pickups and the marker detector (R41, R61): settles O28.
-/
namespace Sys2Proof.Machine

/-- A count added, and the direction it has (R41). -/
theorem addCount_edgeCount (before : Int) (edge : Edge) (second : Bool) : addCount before (edgeCount edge second) =
    max (-255) (min 255 (before + if (edge = .rising ↔ second = false) then 1 else -1)) := by
  cases edge <;> cases second <;> rfl

theorem CountMode.counts_iff (mode : CountMode) (edge : Edge) :
    mode.counts edge = true ↔ edge = .rising ∨ mode = .both := by
  cases mode <;> cases edge <;> decide

theorem wheelCountMovesThePendingCount : Claims.WheelCountMovesThePendingCount := by
  intro s w edge second running mode before direction after
  have seen : s.vehicleView.wheels[w].mode = mode := by
    simp only [mode]
    split
    · next v present =>
      have view : s.vehicleView = v := by rw [State.vehicleView, present, Option.getD_some]
      rw [view]
    · next absent =>
      have view : s.vehicleView = VehicleRecord.absent := by rw [State.vehicleView, absent, Option.getD_none]
      rw [view]
      simp [VehicleRecord.absent]
  have moved : s.wheelEdge w edge second = s.setTracker fun t => { t with pendingCounts := t.pendingCounts.set w.val after w.isLt } := by
    unfold State.wheelEdge
    rw [seen]
    split
    · next counted =>
      have counted := (CountMode.counts_iff mode edge).1 counted
      simp only [after, if_pos counted, direction, before, ← addCount_edgeCount]
      rfl
    · next left =>
      have left := mt (CountMode.counts_iff mode edge).2 left
      simp only [after, if_neg left, before]
      simp [State.setTracker]
  exact congrArg Host.Outcome.next ((State.whileRunning_of_running running _).trans moved)

/-- The wait that a change of the level starts or stops (R61). -/
theorem debounceWait_eq (clock : Nat) (waiting : Debounce) (active : Bool) : debounceWait clock waiting active =
    if active = (match waiting with | .waitActive => true | .waitInactive => false) then some (clock + 2000) else none := by
  cases waiting <;> cases active <;> rfl

theorem markerInputIsDebounced : Claims.MarkerInputIsDebounced := by
  intro s running
  refine ⟨fun active changed => ?_, fun active same => ?_, fun ends wait waiting => ?_, fun ends wait waiting => ?_⟩
  · refine congrArg Host.Outcome.next ?_
    rw [State.markerLevel, if_neg changed]
    refine (State.whileRunning_of_running (s := { s with lines := { s.lines with marker := active } }) running _).trans ?_
    simp only [debounceWait_eq]
    rfl
  · exact congrArg Host.Outcome.next (if_pos same)
  all_goals
    refine congrArg Host.Outcome.next ((State.whileRunning_of_running running _).trans ?_)
    rw [State.debounceOver, wait]
    exact if_pos waiting

/-- Settles O28: the counted edge from its mode and direction, the debounce from the level it waits for. -/
theorem trackerInputsAreTaken : Obligations.TrackerInputsAreTaken :=
  ⟨wheelCountMovesThePendingCount, markerInputIsDebounced⟩

end Sys2Proof.Machine
end

