-- ==== Sys2Proof/Proofs/Publishing.lean ====
section
/-!
SUPPORT. What reports, publishing and a path put in force leave to be seen, and the N.POS in the notice queue (R54, R55, R66, R67,
R79, R82, R88, R195).
-/
namespace Sys2Proof.Machine

variable {s t u x : State}

/-! ## Presence (R165) -/

theorem ofVehicle_inj {k k' : VehicleCondition} : ofVehicle k = ofVehicle k' ↔ k = k' := by
  cases k <;> cases k' <;> decide

@[simp] theorem State.notify_present (n : Notice) (i : Fin 48) : (s.notify n).present i = s.present i := rfl
@[simp] theorem State.setTracker_present (f : Tracker → Tracker) (i : Fin 48) :
    (s.setTracker f).present i = s.present i := rfl
@[simp] theorem State.setPath_present (p : List PathEntry) (i : Fin 48) : (s.setPath p).present i = s.present i := by
  simp only [State.present, State.setPath_monitor]
@[simp] theorem State.reach_present (n : Nat) (i : Fin 48) : (s.reach n).present i = s.present i := rfl
@[simp] theorem State.setLive_present (l : CounterSet) (i : Fin 48) : (s.setLive l).present i = s.present i := rfl

/-- A report that says what is so already does nothing (R165). -/
theorem State.report_of_present {i : Fin 48} {v : Bool} (h : s.present i = v) : s.report i v = s := by
  rw [State.present] at h
  cases v <;> simp only [State.report, h, Bool.false_eq_true, if_false, if_true]

/-! ## Position notices in the queue (R66, R195) -/

/-- An N.POS takes over nothing of the notice that it replaces. -/
theorem Notice.position_over (cause : PositionCause) (sec index : Nat) (delta : Int) (p : Published) (m : Notice) :
    (Notice.position cause sec index delta p).over m = .position cause sec index delta p := by cases m <;> rfl

theorem Notice.position_ne_condition (cause : PositionCause) (sec index : Nat) (delta : Int) (p : Published)
    (risen fallen : BitVec 48) : Notice.position cause sec index delta p ≠ .condition risen fallen := by simp

/-- A notice that takes over nothing stands in the queue that it joined. -/
theorem mem_queueNotice {n : Notice} (own : ∀ m, n.over m = n) (l : List Notice) : n ∈ queueNotice n l := by
  induction l with
  | nil => exact List.mem_singleton_self n
  | cons m rest ih =>
    rw [queueNotice]
    split
    · rw [own]
      exact List.mem_cons_self
    · exact List.mem_cons_of_mem _ ih

/-- An N.COND that joins the queue leaves the waiting notices of other kinds. -/
theorem mem_queueNotice_condition {n : Notice} (other : ∀ r f, n ≠ .condition r f) (risen fallen : BitVec 48)
    (l : List Notice) : n ∈ queueNotice (.condition risen fallen) l ↔ n ∈ l := by
  induction l with
  | nil => simp [queueNotice, other]
  | cons m rest ih =>
    rw [queueNotice]
    split
    · next same =>
      cases m with
      | condition r f => simp [Notice.over, other]
      | channel | position => cases same
    · rw [List.mem_cons, List.mem_cons, ih]

/-- A report leaves the waiting notices that are no N.COND. -/
theorem State.mem_report_notices {n : Notice} (other : ∀ r f, n ≠ .condition r f) (i : Fin 48) (v : Bool) :
    n ∈ (s.report i v).link.notices ↔ n ∈ s.link.notices := by
  unfold State.report
  dsimp only
  split_ifs <;> simp [mem_queueNotice_condition other]

/-- So does an event counted. -/
theorem State.mem_count_notices {n : Notice} (other : ∀ r f, n ≠ .condition r f) (k : Fin 52) :
    n ∈ (s.count k).link.notices ↔ n ∈ s.link.notices := by
  unfold State.count
  dsimp only
  split_ifs <;> simp [State.mem_report_notices other]

/-- An N.POS with no marker carries the position as published (R67). -/
theorem State.mem_notifyPosition (s : State) (cause : PositionCause) :
    .position cause 0 0 0 (s.notifyPosition cause).tracker.published ∈ (s.notifyPosition cause).link.notices :=
  mem_queueNotice (Notice.position_over cause 0 0 0 _) _

/-! ## What the tracker's operations leave alone -/

/-- From `s` to `t` only the tracker, the path, the sections, the monitor and the waiting notices have changed. -/
def State.TrackerMoved (s t : State) : Prop :=
  t = { s with store := { s.store with sections := t.store.sections }, path := t.path, tracker := t.tracker,
               monitor := t.monitor, link := { s.link with notices := t.link.notices } }

theorem State.TrackerMoved.trans (h : s.TrackerMoved t) (k : t.TrackerMoved u) : s.TrackerMoved u := by
  unfold State.TrackerMoved at *
  rw [k, h]

theorem State.trackerMoved_report (i : Fin 48) (v : Bool) : s.TrackerMoved (s.report i v) := by
  unfold State.report
  dsimp only
  split_ifs <;> rfl

theorem State.trackerMoved_count (k : Fin 52) : s.TrackerMoved (s.count k) := by
  unfold State.count
  dsimp only
  split_ifs
  · exact State.TrackerMoved.trans (rfl : s.TrackerMoved (s.setLive _)) (State.trackerMoved_report _ _)
  · rfl
  · rfl

theorem State.trackerMoved_setPath (p : List PathEntry) : s.TrackerMoved (s.setPath p) := by
  simp only [State.TrackerMoved, State.setPath, Store.recount]

theorem State.trackerMoved_judgePath (reached full : Bool) : s.TrackerMoved (s.judgePath reached full) :=
  ((State.trackerMoved_report _ _).trans (State.trackerMoved_report _ _)).trans (State.trackerMoved_report _ _)

theorem State.trackerMoved_publish (s : State) : s.TrackerMoved s.publish :=
  (State.TrackerMoved.trans (rfl : s.TrackerMoved (s.setTracker _)) (State.trackerMoved_report _ _)).trans
    (State.trackerMoved_report _ _)

/-! ## Publishing (R54, R55) -/

@[simp] theorem State.publish_tracker (s : State) :
    s.publish.tracker = { s.tracker with published := s.tracker.toPublish s.path } := by simp [State.publish]
@[simp] theorem State.publish_path (s : State) : s.publish.path = s.path := by simp [State.publish]
@[simp] theorem State.publish_store (s : State) : s.publish.store = s.store := by simp [State.publish]
@[simp] theorem State.publish_live (s : State) : s.publish.monitor.live = s.monitor.live := by simp [State.publish]

/-- Publishing reports the tracker's two conditions (R54). -/
theorem State.publish_present (s : State) (i : Fin 48) : s.publish.present i =
    if ofVehicle .positionDegraded = i then decide (s.tracker.state = .degraded)
    else if ofVehicle .unlocated = i then decide (s.tracker.state = .unlocated) else s.present i := by
  simp [State.publish, State.report_present]

/-- The published position carries the tracker's values where it is what the tracker publishes. -/
theorem publishedAsTracked_of_toPublish (h : t.tracker.published = t.tracker.toPublish t.path) : PublishedAsTracked t := by
  constructor <;> rw [h]
  case datum =>
    rw [Tracker.toPublish]
    cases t.tracker.datum with
    | none => rfl
    | some l => cases hl : t.path[l.entry]? <;> simp [hl]
  all_goals rfl

/-! ## A path put in force and published (R54, R55, R69, R79, R82, R88) -/

/-- `t` is `s` with a path put in force, its conditions judged and the position published. -/
structure PutInForce (s t : State) (p : List PathEntry) (reached full : Bool) : Prop where
  moved : s.TrackerMoved t
  path : t.path = p
  sections : ∀ i : Fin 32, t.store.sections[i] = { s.store.sections[i] with occupancy := p.countP fun e => e.sec = i }
  tracker : t.tracker = { s.tracker with published := s.tracker.toPublish p }
  ahead : t.present (ofVehicle .geometryUnknownAhead) = !reached
  under : t.present (ofVehicle .pointsMovedUnder) = p.any fun e => e.moved
  full : t.present (ofVehicle .pathFull) = full
  unlocated : t.present (ofVehicle .unlocated) = decide (s.tracker.state = .unlocated)
  degraded : t.present (ofVehicle .positionDegraded) = decide (s.tracker.state = .degraded)

theorem putInForce_publish (s : State) (p : List PathEntry) (reached full : Bool) :
    PutInForce s ((s.setPath p).judgePath reached full).publish p reached full where
  moved := ((State.trackerMoved_setPath p).trans (State.trackerMoved_judgePath _ _)).trans
    (State.trackerMoved_publish _)
  path := by simp [State.judgePath, State.judgeMoved]
  sections i := by
    simp only [State.publish_store, State.judgePath, State.judgeMoved, State.report_store, State.setPath_store,
      Store.recount_section]
    rfl
  tracker := by simp [State.judgePath, State.judgeMoved]
  ahead := by simp [State.publish_present, State.judgePath, State.judgeMoved, State.report_present, ofVehicle_inj]
  under := by simp [State.publish_present, State.judgePath, State.judgeMoved, State.report_present, ofVehicle_inj]
  full := by simp [State.publish_present, State.judgePath, State.judgeMoved, State.report_present, ofVehicle_inj]
  unlocated := by simp [State.publish_present, State.judgePath, State.judgeMoved, ofVehicle_inj]
  degraded := by simp [State.publish_present, State.judgePath, State.judgeMoved]

/-- A notice queued after it changes nothing of it. -/
theorem PutInForce.notify {p : List PathEntry} {reached full : Bool} (h : PutInForce s t p reached full) (n : Notice) :
    PutInForce s (t.notify n) p reached full :=
  { h with moved := h.moved.trans (rfl : t.TrackerMoved (t.notify n)) }

theorem PutInForce.published {p : List PathEntry} {reached full : Bool} (h : PutInForce s t p reached full) :
    PublishedAsTracked t :=
  publishedAsTracked_of_toPublish (by rw [h.tracker, h.path]; rfl)

end Sys2Proof.Machine
end

