-- ==== Sys2Proof/Proofs/Ticks.lean ====
section
/-!
SUPPORT. The tick by its stages, and what it measures (R42 to R48): settles O24.
-/
namespace Sys2Proof.Machine

variable {s t : State}

/-! ## A tick by its stages (R42, R49 to R51, R80) -/

/-- The tick distance (R45, R46). -/
def State.tickDistance (s : State) : Nat :=
  let counted := s.tracker.takeCounts s.vehicleView
  counted.tickDistance s.vehicleView (counted.validWheels s.vehicleView)

/-- A state after stages 1 to 5 of a tick (R42 to R48). -/
def State.measured (s : State) : State :=
  (s.reach s.tracker.nextTick).setTracker fun _ =>
    { (s.tracker.takeCounts s.vehicleView).measure s.vehicleView with nextTick := max s.clock s.tracker.nextTick + 1000 }

/-- The course after stage 6 of a tick (R49, R50, R80). -/
def State.advanced (s : State) (datum : Location) : Option Course :=
  advanceCourse s.store s.vehicleView s.measured.tracker.sign s.tickDistance s.path datum

/-- Everything a tick can do (R49, R51). -/
theorem State.doTick_cases (s : State) :
    ((s.tracker.state = .unlocated ∨ s.tracker.datum = none) ∧ s.doTick = s.measured.publish) ∨
    ∃ datum, s.tracker.state ≠ .unlocated ∧ s.tracker.datum = some datum ∧
      ((s.advanced datum = none ∧ s.doTick = s.measured.tickLost) ∨
       ∃ k, s.advanced datum = some k ∧ s.doTick = s.measured.tickOn s.vehicleView s.mismatch s.tickDistance k) := by
  have staged : s.doTick = match (if s.tracker.state = .unlocated then none else s.tracker.datum) with
      | none => s.measured.publish
      | some datum => match s.advanced datum with
        | none => s.measured.tickLost
        | some k => s.measured.tickOn s.vehicleView s.mismatch s.tickDistance k := rfl
  rw [staged]
  by_cases unlocated : s.tracker.state = .unlocated
  · exact .inl ⟨.inl unlocated, by rw [if_pos unlocated]⟩
  · rw [if_neg unlocated]
    cases datum : s.tracker.datum with
    | none => exact .inl ⟨.inr rfl, rfl⟩
    | some l =>
      refine .inr ⟨l, unlocated, rfl, ?_⟩
      cases advanced : s.advanced l with
      | none => exact .inl ⟨rfl, by simp only [advanced]⟩
      | some k => exact .inr ⟨k, rfl, by simp only [advanced]⟩

theorem State.exec_tick (running : s.power = .running) : exec .tick s = .next s.doTick :=
  congrArg Host.Outcome.next (State.whileRunning_of_running running _)

/-- The tracker of a tick that keeps the vehicle on a course (R52 to R54). -/
def Tracker.onCourse (v : VehicleRecord) (mismatch : Bool) (distance : Nat) (k : Course) (t : Tracker) : Tracker :=
  ({ t with datum := some k.datum,
            uncertainty := min Config.uncertaintyMax
              (t.uncertainty + uncertaintyIncrease v distance t.validReferences) } : Tracker).derive v mismatch

/-- A tick that loses the vehicle puts the empty path in force and queues an N.POS of cause LOSS (R51, R83). -/
theorem State.tickLost_spec (s : State) : PutInForce (s.setTracker Tracker.lose) s.tickLost [] true false ∧
    .position .loss 0 0 0 s.tickLost.tracker.published ∈ s.tickLost.link.notices :=
  ⟨(putInForce_publish _ _ _ _).notify _, State.mem_notifyPosition _ _⟩

/-- A tick on a covered course puts it in force, and queues an N.POS of cause STATE where the state changes. -/
theorem State.tickOn_spec (s : State) (v : VehicleRecord) (mismatch : Bool) (distance : Nat) (k : Course) :
    PutInForce (s.setTracker (Tracker.onCourse v mismatch distance k)) (s.tickOn v mismatch distance k) k.path
      (k.reached s.store v s.tracker.sign) k.full ∧
    ((s.tickOn v mismatch distance k).tracker.state ≠ s.tracker.state →
      .position .state 0 0 0 (s.tickOn v mismatch distance k).tracker.published ∈
        (s.tickOn v mismatch distance k).link.notices) := by
  have force := putInForce_publish (s.setTracker (Tracker.onCourse v mismatch distance k)) k.path
    (k.reached s.store v s.tracker.sign) k.full
  have same : s.tickOn v mismatch distance k =
      if (Tracker.onCourse v mismatch distance k s.tracker).state = s.tracker.state then
        (((s.setTracker (Tracker.onCourse v mismatch distance k)).setPath k.path).judgePath
          (k.reached s.store v s.tracker.sign) k.full).publish
      else ((((s.setTracker (Tracker.onCourse v mismatch distance k)).setPath k.path).judgePath
          (k.reached s.store v s.tracker.sign) k.full).publish).notifyPosition .state := rfl
  rw [same]
  split
  · next kept =>
    refine ⟨force, fun changed => absurd ?_ changed⟩
    rw [force.tracker]
    exact kept
  · exact ⟨force.notify _, fun _ => State.mem_notifyPosition _ _⟩

/-! ## What a tick measures (R42 to R48) -/

/-- From the first tracker to the second only the position, U, C, the state and what is published have changed. -/
def Tracker.Positioned (a b : Tracker) : Prop :=
  b = { a with datum := b.datum, uncertainty := b.uncertainty, confidence := b.confidence, state := b.state,
               published := b.published }

/-- Stages 6 to 9 of a tick change the position alone, and nothing outside the tracker's own part of the state. -/
theorem State.doTick_measured (s : State) :
    s.measured.TrackerMoved s.doTick ∧ s.measured.tracker.Positioned s.doTick.tracker := by
  rcases s.doTick_cases with ⟨-, still⟩ | ⟨datum, -, -, ⟨-, lost⟩ | ⟨k, -, on⟩⟩
  · rw [still]
    exact ⟨State.trackerMoved_publish _, by rw [State.publish_tracker]; rfl⟩
  · obtain ⟨force, -⟩ := s.measured.tickLost_spec
    rw [lost]
    exact ⟨State.TrackerMoved.trans (rfl : s.measured.TrackerMoved (s.measured.setTracker _)) force.moved,
      by rw [force.tracker]; rfl⟩
  · obtain ⟨force, -⟩ := s.measured.tickOn_spec s.vehicleView s.mismatch s.tickDistance k
    rw [on]
    exact ⟨State.TrackerMoved.trans (rfl : s.measured.TrackerMoved (s.measured.setTracker _)) force.moved,
      by rw [force.tracker]; rfl⟩

/-- The count pushed last into a window is its newest (R43). -/
theorem newest_pushCount (window : List Int) (count : Int) : newest (pushCount window count) = count := by
  simp [newest, pushCount]

section Measured
variable (s : State)

theorem State.measured_pendingCounts (w : Fin 16) : s.measured.tracker.pendingCounts[w] = 0 := by
  simp [State.measured, Tracker.measure, Tracker.takeCounts]

theorem State.measured_windows (w : Fin 16) :
    s.measured.tracker.windows[w] = s.tracker.windows[w].tail ++ [s.tracker.pendingCounts[w]] := by
  simp [State.measured, Tracker.measure, Tracker.takeCounts, pushCount]

theorem State.measured_wheelSpeeds (w : Fin 16) : s.measured.tracker.wheelSpeeds[w] =
    min 25000 (roundNat (s.measured.tracker.windows[w].sum.natAbs * s.vehicleView.wheels[w].distance) 16) := by
  simp [State.measured, Tracker.measure, Tracker.takeCounts, wheelSpeed]

/-- The median of the reference wheels' speeds at a tick (R44). -/
def State.tickMedian : Nat := (s.tracker.takeCounts s.vehicleView).referenceMedian s.vehicleView

/-- The valid reference wheels of a tick (R44). -/
def State.tickWheels : List (Fin 16) := (s.tracker.takeCounts s.vehicleView).validWheels s.vehicleView

theorem State.tickMedian_isMiddle :
    IsMiddle s.tickMedian (s.vehicleView.references.map fun w => s.measured.tracker.wheelSpeeds[w]) :=
  median_isMiddle _

/-- The validity of each reference slot (R44). -/
theorem State.measured_referenceValid (k : Fin 4) : s.measured.tracker.referenceValid[k] =
    ((s.vehicleView.references[k.val]?.map ((s.tracker.takeCounts s.vehicleView).withinBand s.vehicleView)).getD false) := by
  simp [State.measured, Tracker.measure]

theorem State.measured_speed : s.measured.tracker.speed =
    if s.tickWheels = [] then s.tracker.speed
    else median (s.tickWheels.map fun w => s.measured.tracker.wheelSpeeds[w]) := rfl

/-- The tick distance follows the counts of the tick, or the held speed (R43, R45, R46). -/
theorem State.tickDistance_eq : s.tickDistance =
    if s.tickWheels = [] then 1000 * roundNat s.tracker.speed 1000
    else median (s.tickWheels.map fun w => s.tracker.pendingCounts[w].natAbs * s.vehicleView.wheels[w].distance) := by
  have pushed (w : Fin 16) : newest (s.tracker.takeCounts s.vehicleView).windows[w] = s.tracker.pendingCounts[w] := by
    simp [Tracker.takeCounts, newest_pushCount]
  unfold State.tickDistance Tracker.tickDistance wheelTickDistance
  simp only [pushed]
  rfl

/-- The sign follows the wheels' votes (R47). -/
theorem Tracker.votedSign_eq (wheels : List (Fin 16)) (t : Tracker) : t.votedSign wheels =
    if (wheels.countP fun w => t.windows[w].sum < 0) < (wheels.countP fun w => 0 < t.windows[w].sum) then .plus
    else if (wheels.countP fun w => 0 < t.windows[w].sum) < (wheels.countP fun w => t.windows[w].sum < 0) then .minus
    else t.sign := by
  simp only [Tracker.votedSign, Tracker.votes, if_true, Bool.false_eq_true, if_false]

/-- The votes of a tick are those of its valid wheels. -/
theorem State.measured_sign : s.measured.tracker.sign =
    if (s.tickWheels.countP fun w => s.measured.tracker.windows[w].sum < 0) <
      (s.tickWheels.countP fun w => 0 < s.measured.tracker.windows[w].sum) then .plus
    else if (s.tickWheels.countP fun w => 0 < s.measured.tracker.windows[w].sum) <
      (s.tickWheels.countP fun w => s.measured.tracker.windows[w].sum < 0) then .minus
    else s.tracker.sign := Tracker.votedSign_eq s.tickWheels _

theorem State.measured_lowSpeedRun : s.measured.tracker.lowSpeedRun =
    if s.measured.tracker.speed < 20 then min 500 (s.tracker.lowSpeedRun + 1) else 0 := rfl

theorem standstillAfter_eq (speed run : Nat) (was : Bool) :
    standstillAfter speed run was = if speed < 20 then (run = 500 || was) else false := by
  unfold standstillAfter
  split_ifs with slow full
  · rw [decide_eq_true full, Bool.true_or]
  · rw [decide_eq_false full, Bool.false_or]
  · rfl

theorem State.measured_standstill : s.measured.tracker.standstill =
    if s.measured.tracker.speed < 20 then (s.measured.tracker.lowSpeedRun = 500 || s.tracker.standstill) else false :=
  standstillAfter_eq ..

end Measured

/-- Settles O24: every tick keeps what stages 1 to 5 measure, and each of these by its equation. -/
theorem tickMeasuresTheWheels : Obligations.TickMeasuresTheWheels := by
  intro s running
  obtain ⟨rest, same⟩ := s.doTick_measured
  refine ⟨s.doTick, State.exec_tick running, ?_⟩
  have windows : s.doTick.tracker.windows = s.measured.tracker.windows := by rw [same]
  have speeds : s.doTick.tracker.wheelSpeeds = s.measured.tracker.wheelSpeeds := by rw [same]
  have pending : s.doTick.tracker.pendingCounts = s.measured.tracker.pendingCounts := by rw [same]
  have valid : s.doTick.tracker.referenceValid = s.measured.tracker.referenceValid := by rw [same]
  have count : s.doTick.tracker.validReferences = s.tickWheels.length := by rw [same]; rfl
  have speed : s.doTick.tracker.speed = s.measured.tracker.speed := by rw [same]
  have sign : s.doTick.tracker.sign = s.measured.tracker.sign := by rw [same]
  have run : s.doTick.tracker.lowSpeedRun = s.measured.tracker.lowSpeedRun := by rw [same]
  have standstill : s.doTick.tracker.standstill = s.measured.tracker.standstill := by rw [same]
  have next : s.doTick.tracker.nextTick = s.measured.tracker.nextTick := by rw [same]
  have clock : s.doTick.clock = s.measured.clock := by rw [rest]
  rw [windows, speeds, pending, valid, count, speed, sign, run, standstill, next, clock]
  refine ⟨rfl, rfl, by rw [rest]; rfl, by rw [rest]; rfl, by rw [rest]; rfl,
    by rw [rest]; rfl, by rw [rest]; rfl, by rw [rest]; rfl, fun w => ?_, ?_, s.measured_lowSpeedRun, s.measured_standstill⟩
  · exact ⟨s.measured_pendingCounts w, s.measured_windows w, s.measured_wheelSpeeds w⟩
  · refine ⟨s.tickMedian, s.tickMedian_isMiddle, ?_⟩
    intro inBand wheels distance forward backward
    have travelled : distance = s.tickDistance := rfl
    refine ⟨rfl, rfl, fun k => ?_, fun none => ?_, fun some_ => ?_, s.measured_sign⟩
    · rw [s.measured_referenceValid]
      cases s.vehicleView.references[k.val]? <;> rfl
    · rw [travelled, s.measured_speed, s.tickDistance_eq]
      exact ⟨if_pos none, if_pos none⟩
    · have moving : s.tickWheels ≠ [] := some_
      rw [travelled, s.measured_speed, s.tickDistance_eq, if_neg moving, if_neg moving]
      exact ⟨median_isMiddle _, median_isMiddle _⟩

end Sys2Proof.Machine
end

