-- ==== Sys2Proof/Proofs/TickOutcomes.lean ====
section
/-!
SUPPORT. A tick advances the datum, loses the vehicle or keeps it UNLOCATED (R49 to R55, R79 to R83, R88): settles O25.
-/
namespace Sys2Proof.Machine

variable {s t : State}

/-- Publishing what is reported already changes the published position alone. -/
theorem State.publish_of_reported (unlocated : s.present (ofVehicle .unlocated) = decide (s.tracker.state = .unlocated))
    (degraded : s.present (ofVehicle .positionDegraded) = decide (s.tracker.state = .degraded)) :
    s.publish = s.setTracker fun t => { t with published := t.toPublish s.path } := by
  have first := State.report_of_present
    (s := s.setTracker fun t => { t with published := t.toPublish s.path }) (i := ofVehicle .unlocated) unlocated
  have second := State.report_of_present
    (s := s.setTracker fun t => { t with published := t.toPublish s.path }) (i := ofVehicle .positionDegraded) degraded
  rw [State.publish, first, second]

/-- A condition is present exactly in a state of the tracker where the invariant says so. -/
theorem TrackerSound.present (sound : TrackerSound s) :
    s.present (ofVehicle .unlocated) = decide (s.tracker.state = .unlocated) ∧
      s.present (ofVehicle .positionDegraded) = decide (s.tracker.state = .degraded) :=
  ⟨Bool.eq_iff_iff.2 (sound.unlocated.trans decide_eq_true_iff.symm),
    Bool.eq_iff_iff.2 (sound.degraded.trans decide_eq_true_iff.symm)⟩

theorem tickInUnlocatedKeepsThePosition : Claims.TickInUnlocatedKeepsThePosition := by
  intro s running sound unlocated
  have absent := sound.datum.1 unlocated
  obtain ⟨path, uncertainty, confidence⟩ := sound.lost absent
  have still : s.doTick = s.measured.publish := by
    rcases s.doTick_cases with ⟨-, still⟩ | ⟨datum, located, -⟩
    · exact still
    · exact absurd unlocated located
  refine ⟨s.doTick, State.exec_tick running, ?_⟩
  rw [still, State.publish_of_reported (s := s.measured) sound.present.1 sound.present.2]
  refine ⟨rfl, path, rfl, rfl, unlocated, absent, uncertainty, confidence, rfl, rfl, rfl, ?_⟩
  show s.measured.tracker.toPublish s.path = _
  have state : s.measured.tracker.state = .unlocated := unlocated
  have datum : s.measured.tracker.datum = none := absent
  have u : s.measured.tracker.uncertainty = 65535000 := uncertainty
  have c : s.measured.tracker.confidence = 0 := confidence
  rw [Tracker.toPublish, state, datum, u, c]
  rfl

/-- What every tick on a path leaves to be seen, in the terms of its end. -/
theorem PutInForce.seen {p : List PathEntry} {reached full : Bool} (force : PutInForce s t p reached full) :
    t.present (ofVehicle .pointsMovedUnder) = (t.path.any fun e => e.moved) ∧
    t.present (ofVehicle .unlocated) = decide (t.tracker.state = .unlocated) ∧
    t.present (ofVehicle .positionDegraded) = decide (t.tracker.state = .degraded) ∧
    ∀ i : Fin 32, t.store.sections[i] =
      { s.store.sections[i] with occupancy := t.path.countP fun e => e.sec = i } := by
  rw [force.path, force.tracker]
  exact ⟨force.under, force.unlocated, force.degraded, force.sections⟩

theorem tickAdvancesOrLosesTheDatum : Claims.TickAdvancesOrLosesTheDatum := by
  intro s datum running located stands
  refine ⟨s.doTick, State.exec_tick running, ?_⟩
  obtain ⟨-, same⟩ := s.doTick_measured
  have sign : s.doTick.tracker.sign = s.measured.tracker.sign := by rw [same]
  intro v wheels distance advanced
  have course : advanced = s.advanced datum := by
    simp only [advanced, State.advanced, advanceCourse, sign, Course.covered, Bool.and_eq_true]
    rfl
  have misses : s.doTick.tracker.missCount = s.tracker.missCount := by rw [same]; rfl
  have detections : s.doTick.tracker.detections = s.tracker.detections := by rw [same]; rfl
  clear_value advanced
  subst course
  rcases s.doTick_cases with ⟨absent, -⟩ | ⟨datum', -, stands', ⟨lost, tick⟩ | ⟨k, on, tick⟩⟩
  · rw [stands] at absent
    exact absurd absent (by simpa using located)
  · obtain rfl : datum = datum' := Option.some.inj (stands.symm.trans stands')
    obtain ⟨force, notice⟩ := s.measured.tickLost_spec
    rw [← tick] at force notice
    refine ⟨?_, force.published, misses, detections, force.seen⟩
    rw [lost]
    refine ⟨force.path, ?_, ?_, ?_, ?_, force.ahead, force.full, notice⟩ <;> rw [force.tracker] <;> rfl
  · obtain rfl : datum = datum' := Option.some.inj (stands.symm.trans stands')
    obtain ⟨force, notice⟩ := s.measured.tickOn_spec s.vehicleView s.mismatch s.tickDistance k
    rw [← tick] at force notice
    refine ⟨?_, force.published, misses, detections, force.seen⟩
    rw [on]
    refine ⟨force.path, ?_, ?_, ?_, ?_, ?_, force.full, notice⟩
    · rw [force.tracker]; rfl
    · rw [force.tracker]; rfl
    · rw [force.tracker]; rfl
    · rw [force.tracker]; rfl
    · rw [force.ahead, sign, Course.reached]
      exact Option.not_isSome _

/-- Settles O25: everything a tick can do, with what a path put in force leaves to be seen. -/
theorem tickFollowsTheTrackerState : Obligations.TickFollowsTheTrackerState :=
  ⟨tickInUnlocatedKeepsThePosition, tickAdvancesOrLosesTheDatum⟩

end Sys2Proof.Machine
end

