-- ==== Sys2Proof/Proofs/Resolving.lean ====
section
/-!
SUPPORT. The resolving of a detection (R62 to R64, R66): settles O29.
-/
namespace Sys2Proof.Machine

variable {s t : State}

/-- One event counted moves its counter alone (R173). -/
theorem State.counted_count (s : State) (k : Fin 52) : s.counted (s.count k) k := by
  intro j
  rw [State.count_counts]
  by_cases h : k = j
  · subst h; simp
  · rw [if_neg fun both => h both.1, if_neg fun both => h both.1.symm]

/-- `t` is `s` with a tracker put in place, one event counted, the position published and a notice queued. -/
structure Resolved (s t : State) (x : Tracker) (k : Fin 52) : Prop where
  rest : t = { s with tracker := t.tracker, monitor := t.monitor, link := { s.link with notices := t.link.notices } }
  tracker : t.tracker = { x with published := t.tracker.published }
  counted : s.counted t k
  published : PublishedAsTracked t

theorem resolved_publish (s : State) (f : Tracker → Tracker) (k : Fin 52) (n : Notice) :
    Resolved s (((s.setTracker f).count k).publish.notify n) (f s.tracker) k where
  rest := by
    have moved := ((State.TrackerMoved.trans (rfl : s.TrackerMoved (s.setTracker f)) (State.trackerMoved_count k)).trans
      (State.trackerMoved_publish _)).trans (rfl : State.TrackerMoved _ (State.notify _ n))
    rw [State.TrackerMoved, State.notify_store, State.publish_store, State.count_store, State.notify_path,
      State.publish_path, State.count_path] at moved
    exact moved
  tracker := by simp
  counted j := by
    rw [State.notify_monitor, State.publish_live]
    exact (s.setTracker f).counted_count k j
  published := publishedAsTracked_of_toPublish (by simp; rfl)

/-- The tracker after a detection that matches (R63). -/
def Tracker.matched (v : VehicleRecord) (mismatch : Bool) (l : Location) (x : Tracker) : Tracker :=
  ({ x with detections := x.detections - 1, datum := some l, uncertainty := 1000 * v.markerAccuracy,
            missCount := 0 } : Tracker).derive v mismatch

/-- The tracker after a detection that misses (R64). -/
def Tracker.missed (v : VehicleRecord) (mismatch : Bool) (x : Tracker) : Tracker :=
  ({ x with detections := x.detections - 1, missCount := runUp x.missCount } : Tracker).derive v mismatch

/-- Everything the resolving of a waiting detection can do (R62 to R64). -/
theorem State.resolveMarker_cases (waiting : 0 < s.tracker.detections) :
    (s.tracker.state = .unlocated ∧ s.resolveMarker =
      (s.setTracker fun x => { x with detections := x.detections - 1 }).count (vehicleCounter .markerMiss)) ∨
    (s.tracker.state ≠ .unlocated ∧
      ((∃ c l, matchMarker s.store s.vehicleView s.path s.tracker.published = some (c, l) ∧
        let t := ((s.setTracker (Tracker.matched s.vehicleView s.mismatch l)).count (vehicleCounter .markerMatch)).publish
        s.resolveMarker =
          t.notify (.position .matched (idOfSection c.sec) c.index (roundDiv c.delta 1000) t.tracker.published)) ∨
       (matchMarker s.store s.vehicleView s.path s.tracker.published = none ∧
        let t := ((s.setTracker (Tracker.missed s.vehicleView s.mismatch)).count (vehicleCounter .markerMiss)).publish
        s.resolveMarker = t.notifyPosition .missed))) := by
  rw [State.resolveMarker, if_neg (Nat.ne_of_gt waiting)]
  dsimp only
  split_ifs with unlocated
  · exact .inl ⟨unlocated, rfl⟩
  · refine .inr ⟨unlocated, ?_⟩
    cases matchMarker s.store s.vehicleView s.path s.tracker.published with
    | none => exact .inr ⟨rfl, rfl⟩
    | some found => exact .inl ⟨found.1, found.2, rfl, rfl⟩

/-- Settles O29: everything a resolving can do, with what counting and publishing leave to be seen. -/
theorem markerResolveMatchesOrMisses : Obligations.MarkerResolveMatchesOrMisses := by
  intro s running waiting
  refine ⟨s.resolveMarker, congrArg Host.Outcome.next (State.whileRunning_of_running running _), ?_⟩
  rcases State.resolveMarker_cases waiting with
    ⟨unlocated, resolved⟩ | ⟨located, ⟨c, l, found, resolved⟩ | ⟨absent, resolved⟩⟩ <;> rw [resolved]
  · refine ⟨?_, ?_⟩
    · have moved := State.trackerMoved_count (s := s.setTracker fun x => { x with detections := x.detections - 1 })
        (vehicleCounter .markerMiss)
      rw [State.TrackerMoved, State.count_store, State.count_path] at moved
      exact moved
    · intro v mismatch derived
      rw [if_pos unlocated]
      exact ⟨State.count_tracker .., State.counted_count _ _, fun cause sec index delta p =>
        State.mem_count_notices (Notice.position_ne_condition cause sec index delta p) _⟩
  · have after := resolved_publish s (Tracker.matched s.vehicleView s.mismatch l) (vehicleCounter .markerMatch)
    refine ⟨(after _).rest, ?_⟩
    intro v mismatch derived
    rw [if_neg located, found]
    exact ⟨⟨(after _).tracker, (after _).published⟩, (after _).counted,
      mem_queueNotice (Notice.position_over .matched _ _ _ _) _⟩
  · have after := resolved_publish s (Tracker.missed s.vehicleView s.mismatch) (vehicleCounter .markerMiss)
    refine ⟨(after _).rest, ?_⟩
    intro v mismatch derived
    rw [if_neg located, absent]
    exact ⟨⟨(after _).tracker, (after _).published⟩, (after _).counted, State.mem_notifyPosition _ _⟩

end Sys2Proof.Machine
end

