-- ==== Sys2Proof/Proofs/Locating.lean ====
section
/-!
SUPPORT. POS.LOCATE and the course that it builds (R56, R57, R84, R85): settles O27.
-/
namespace Sys2Proof.Machine

variable {s t : State} {g : Store} {v : VehicleRecord} {sign : Sign} {side : Side} {k : Course} {i : Fin 32}
  {chainage : Nat} {o : Orientation}

/-! ## The candidate course (R84) -/

/-- What a candidate course keeps of the entry that it starts from (R68, R84). -/
structure Course.Seeded (k : Course) (i : Fin 32) (chainage : Nat) (o : Orientation) : Prop where
  length : k.path.length ≤ 16
  unmarked : ∀ e ∈ k.path, e.moved = false
  head : ∀ e, k.path.head? = some e → e.via = none
  chainage : k.datum.chainage = 1000 * (chainage : Int)
  datum : ∃ e, k.path[k.datum.entry]? = some e ∧ e.sec = i ∧ e.orientation = o

theorem seeded_seed (i : Fin 32) (chainage : Nat) (o : Orientation) :
    Course.Seeded ⟨[⟨i, o, none, false⟩], ⟨0, 1000 * (chainage : Int)⟩, false⟩ i chainage o where
  length := Nat.le_of_ble_eq_true rfl
  unmarked e mem := by rw [List.mem_singleton.1 mem]
  head e first := by cases first; rfl
  chainage := rfl
  datum := ⟨_, rfl, rfl, rfl⟩

/-- An entry joined at either end keeps the seed. -/
theorem Course.Seeded.grown (h : k.Seeded i chainage o) (room : k.path.length < 16) {e : PathEntry} {at_ : EndRef}
    {via : Via} (outer : outerEntry k.path side = some e) :
    (k.grown (joined k.path e at_ via side) side).Seeded i chainage o := by
  obtain ⟨d, stands, sec, orientation⟩ := h.datum
  have length : (k.grown (joined k.path e at_ via side) side).path.length ≤ 16 := by
    rw [Course.grown_path, joined_length outer]
    exact room
  cases side with
  | aEnd =>
    refine ⟨length, fun f mem => ?_, fun f first => ?_, h.chainage, d, ?_, sec, orientation⟩
    · rcases List.mem_append.1 mem with old | new
      · exact h.unmarked f old
      · rw [List.mem_singleton.1 new]
    · exact h.head f ((List.head?_append_of_ne_nil _ (List.ne_nil_of_mem (List.mem_of_getElem? stands))).symm.trans first)
    · exact (List.getElem?_append_left (List.getElem?_eq_some_iff.1 stands).1).trans stands
  | bEnd =>
    obtain ⟨tail, shape⟩ := List.head?_eq_some_iff.1 (show k.path.head? = some e from outer)
    have unmarked := h.unmarked
    rw [shape] at unmarked stands
    have rest : k.path.tail = tail := by rw [shape, List.tail_cons]
    have longer : (k.grown (joined k.path e at_ via .bEnd) .bEnd).path =
        ⟨at_.sec, prependedOrientation at_.side, none, false⟩ :: { e with via := some via, moved := false } :: tail := by
      rw [← rest]; rfl
    refine ⟨length, fun f mem => ?_, fun f first => ?_, h.chainage, ?_⟩
    · rw [longer] at mem
      rcases List.mem_cons.1 mem with rfl | mem
      · rfl
      · rcases List.mem_cons.1 mem with rfl | mem
        · rfl
        · exact unmarked f (List.mem_cons_of_mem _ mem)
    · rw [longer] at first
      cases first
      rfl
    · rw [longer]
      show ∃ f, (_ :: _ :: tail)[k.datum.entry + 1]? = some f ∧ _
      cases place : k.datum.entry with
      | zero =>
        rw [place] at stands
        cases stands
        exact ⟨_, rfl, sec, orientation⟩
      | succ n =>
        rw [place] at stands
        exact ⟨d, stands, sec, orientation⟩

/-- Extension keeps the seed (R80, R84). -/
theorem Course.Seeded.extendTo (offset : Int) (fuel : Nat) (h : k.Seeded i chainage o) :
    (extendTo g side offset fuel k).Seeded i chainage o := by
  induction fuel generalizing k with
  | zero => exact h
  | succ fuel ih =>
    rcases extendTo_cases g side offset fuel k with
      ⟨-, same⟩ | ⟨-, ⟨-, stopped⟩ | ⟨reason, -, -, same⟩ | ⟨path, once, goesOn⟩⟩
    · rwa [same]
    · rw [stopped]
      exact ⟨h.length, h.unmarked, h.head, h.chainage, h.datum⟩
    · rwa [same]
    · obtain ⟨room, e, at_, via, outer, rfl⟩ := extendOnce_ok once
      rw [goesOn]
      exact ih (h.grown room outer)

theorem candidateCourseKeepsItsSeed : Claims.CandidateCourseKeepsItsSeed := by
  intro g v sign i chainage o k made
  simp only [candidateCourse] at made
  split at made
  · next covered =>
    obtain rfl := Option.some.inj made
    obtain ⟨length, unmarked, head, datumAt, datum⟩ :=
      ((seeded_seed i chainage o).extendTo (g := g) (side := rearSide sign) (v.rearMost sign) (Config.maxPath + 1)).extendTo
        (g := g) (side := frontSide sign) (v.reachTarget sign) (Config.maxPath + 1)
    obtain ⟨rear, front⟩ := Bool.and_eq_true_iff.1 covered
    exact ⟨length, unmarked, head, datumAt, datum, rear, front⟩
  · cases made

/-! ## POS.LOCATE (R56, R57, R85) -/

/-- The tracker after a POS.LOCATE that was taken (R57). -/
def Tracker.locatedAt (v : VehicleRecord) (mismatch : Bool) (k : Course) (x : Tracker) : Tracker :=
  ({ x with datum := some k.datum, uncertainty := 1000 * v.locateAccuracy, missCount := 0 } : Tracker).derive v mismatch

theorem State.locate_spec (s : State) (v : VehicleRecord) (k : Course) :
    PutInForce (s.setTracker (Tracker.locatedAt v s.mismatch k)) (s.locate v k) k.path
      (k.reached s.store v s.tracker.sign) k.full ∧
    .position .locate 0 0 0 (s.locate v k).tracker.published ∈ (s.locate v k).link.notices :=
  ⟨(putInForce_publish _ _ _ _).notify _, State.mem_notifyPosition _ _⟩

/-- A code of an orientation is read back. -/
theorem orientationOf?_code (o : Orientation) : orientationOf? o.code = some o := by cases o <;> rfl

section Own
variable {body : List Byte} {u : State} (hi : fieldU body 0 1 = i.val + 1) (ho : fieldU body 4 1 = o.code)
include hi ho

/-- POS.LOCATE with a section and an orientation named while no record is present (R56). -/
theorem ownPosLocate_noVehicle (hw : u.vehicle = none) : ownPosLocate body u =
    if 16000000 < fieldU body 1 3 then (u, Answer.plain .outOfRange) else (u, Answer.plain .noVehicle) := by
  rw [ownPosLocate, hi, ho, sectionOf?_id, orientationOf?_code]
  simp only [hw]

/-- POS.LOCATE with a section and an orientation named while a record is present (R56, R57). -/
theorem ownPosLocate_vehicle (hg : u.store = g) (hs : u.tracker.sign = sign) (hw : u.vehicle = some v) :
    ownPosLocate body u =
      if 16000000 < fieldU body 1 3 then (u, Answer.plain .outOfRange)
      else if g.sections[i].state ≠ .ready then (u, Answer.plain .noPath)
      else if g.sections[i].length < fieldU body 1 3 then (u, Answer.plain .outOfRange)
      else match candidateCourse g v sign i (fieldU body 1 3) o with
      | none => (u, Answer.plain .noPath)
      | some k => (u.locate v k, ⟨.ok, (u.locate v k).tracker.published.encode⟩) := by
  subst hg hs
  rw [ownPosLocate, hi, ho, sectionOf?_id, orientationOf?_code]
  simp only [hw] <;> rfl

end Own

/-- A reply queued after the tracker's part of a request shows in the link alone. -/
theorem State.TrackerMoved.queueReply (h : s.popRequest.TrackerMoved t) (r : Frame) (a : Answer) :
    let u := t.queueReply r a false
    u = { s with store := { s.store with sections := u.store.sections }, path := u.path, tracker := u.tracker,
                 monitor := u.monitor, link := u.link } := by
  have shape : ∃ (l : LinkState), t = { s with
      store := { s.store with sections := t.store.sections }, path := t.path, tracker := t.tracker, monitor := t.monitor,
      link := l } := ⟨_, h⟩
  obtain ⟨l, shape⟩ := shape
  dsimp only
  rw [State.queueReply, shape]

theorem posLocateSetsTheDatum : Claims.PosLocateSetsTheDatum := by
  intro s r i o hc hk hl hi ho
  have hf := lengthIs_of_eq hl
  refine ⟨_, rfl, ?_⟩
  dsimp only
  cases vehicle : s.vehicle with
  | none =>
    have own := ownPosLocate_noVehicle hi ho (s.popRequest_vehicle.trans vehicle)
    dsimp only
    split_ifs at own ⊢ <;> exact State.onlyAnswers_of_owner hc hk hf rfl own
  | some v =>
    have own := ownPosLocate_vehicle hi ho s.popRequest_store (congrArg Tracker.sign s.popRequest_tracker)
      (s.popRequest_vehicle.trans vehicle)
    dsimp only
    split_ifs at own ⊢
    case neg =>
      cases course : candidateCourse s.store v s.tracker.sign i (fieldU r.body 1 3) o with
      | none =>
        rw [course] at own
        exact State.onlyAnswers_of_owner hc hk hf rfl own
      | some k =>
        rw [course] at own
        have taken := State.serveAct_taken (mine := anyBody) (act := ownPosLocate) hc hk hf rfl
        rw [own] at taken
        rw [taken]
        obtain ⟨force, notice⟩ := s.popRequest.locate_spec v k
        have moved := force.moved
        obtain ⟨-, unmarked, -⟩ := candidateCourseKeepsItsSeed _ _ _ _ _ _ _ course
        dsimp only
        refine ⟨?_, force.path, ?_, ?_, notice, ?_, force.full, ?_, ?_, ?_, ?_⟩
        · have link : (s.popRequest.locate v k).link = { s.link with
              requests := s.link.requests.tail, notices := (s.popRequest.locate v k).link.notices } := by
            rw [moved]; rfl
          rw [State.answered, State.queueReply_link, link]
          rfl
        · rw [State.queueReply_tracker, force.tracker]
          rfl
        · exact publishedAsTracked_of_toPublish
            (by rw [State.queueReply_tracker, State.queueReply_path, force.tracker, force.path]; rfl)
        · exact force.ahead.trans (Option.not_isSome _)
        · refine force.under.trans (List.any_eq_false.2 fun e mem => ?_)
          rw [unmarked e mem]
          exact Bool.false_ne_true
        · exact force.unlocated.trans (decide_eq_false (trackerStateOf_ne_unlocated _ _ _ _))
        · rw [State.queueReply_path, force.path]
          exact force.sections
        · rw [← vehicle]
          exact (State.TrackerMoved.trans (rfl : s.popRequest.TrackerMoved (s.popRequest.setTracker _)) moved).queueReply r _
    all_goals exact State.onlyAnswers_of_owner hc hk hf rfl own

/-- Settles O27: the owner's equation, what a path put in force leaves to be seen, and the seed kept by every entry that
joins the candidate course. -/
theorem posLocateBuildsItsPath : Obligations.PosLocateBuildsItsPath :=
  ⟨posLocateSetsTheDatum, candidateCourseKeepsItsSeed⟩

end Sys2Proof.Machine
end

