-- ==== Sys2Proof/Proofs/TrackViews.lean ====
section
/-!
SUPPORT. The operations and owners that leave what the tracker's invariants read of a state (R40, R54, R55, R68).
-/
namespace Sys2Proof.Machine

/-! ## The track of a state -/

/-- What the tracker's invariants read of a state: the tracker, the path, and whether UNLOCATED and POSITION_DEGRADED are
present. -/
structure Track where
  tracker : Tracker
  path : List PathEntry
  unlocated : Bool
  degraded : Bool

/-- The track of a state. -/
def State.track (s : State) : Track :=
  ⟨s.tracker, s.path, s.present (ofVehicle .unlocated), s.present (ofVehicle .positionDegraded)⟩

variable {s t : State} {c : Fin 8} {b : Fin 4}

theorem track_eq (tracker : t.tracker = s.tracker) (path : t.path = s.path)
    (present : ∀ k, k = .unlocated ∨ k = .positionDegraded → t.present (ofVehicle k) = s.present (ofVehicle k)) :
    t.track = s.track := by
  simp [State.track, tracker, path, present]

/-! ## Operations that the track does not show -/

@[simp] theorem track_reach (n : Nat) : (s.reach n).track = s.track := rfl
@[simp] theorem track_notify (n : Notice) : (s.notify n).track = s.track := rfl
@[simp] theorem track_setLive (l : CounterSet) : (s.setLive l).track = s.track := rfl
@[simp] theorem track_offerPeak (k : Fin 16) (n : Nat) : (s.offerPeak k n).track = s.track := rfl
@[simp] theorem track_queueReply (r : Frame) (a : Answer) (x : Bool) : (s.queueReply r a x).track = s.track := rfl
@[simp] theorem track_popRequest : s.popRequest.track = s.track := rfl
@[simp] theorem track_changeLink (f : LinkState → LinkState) : (s.changeLink f).track = s.track := rfl
@[simp] theorem track_setRecord (f : ComputationRecord → ComputationRecord) : (s.setRecord c f).track = s.track := rfl
@[simp] theorem track_setChannel (f : Channel → Channel) : (s.setChannel c f).track = s.track := rfl
@[simp] theorem track_setComputation (f : Computation → Computation) : (s.setComputation f).track = s.track := rfl
@[simp] theorem track_setAcquisition (f : Acquisition → Acquisition) : (s.setAcquisition f).track = s.track := rfl
@[simp] theorem track_startTimer : (s.startTimer b).track = s.track := rfl
@[simp] theorem track_stopTimer : (s.stopTimer b).track = s.track := rfl
@[simp] theorem track_setLines (f : DriveLines → DriveLines) : (s.setLines c f).track = s.track := rfl
@[simp] theorem track_setPermit (x : Bool) : (s.setPermit x).track = s.track := rfl
@[simp] theorem track_withPending (l : List Instr) : (s.withPending l).track = s.track := rfl
@[simp] theorem track_notifyChannel (x : ChannelState) (e : ChannelEvent) : (s.notifyChannel c x e).track = s.track := rfl

/-- A change of the store alone. -/
theorem track_of_store (h : t = { s with store := t.store }) : t.track = s.track := by
  rw [h]
  rfl

/-- A change of the monitor that leaves what is present. -/
theorem track_setMonitor {f : Monitor → Monitor}
    (h : ∀ (m : Monitor) (i : Fin 48), (f m).conditions[i].present = m.conditions[i].present) :
    (s.setMonitor f).track = s.track := track_eq rfl rfl fun _ _ => h _ _

/-- A report of a condition that is not the tracker's own. -/
theorem track_report {i : Fin 48} (h : i ≠ ofVehicle .unlocated) (h' : i ≠ ofVehicle .positionDegraded) (x : Bool) :
    (s.report i x).track = s.track := by
  refine track_eq (State.report_tracker ..) (State.report_path ..) fun k own => ?_
  rw [State.report_present, if_neg]
  rcases own with rfl | rfl
  · exact h
  · exact h'

@[simp] theorem track_report_channel (k : ChannelCondition) (x : Bool) : (s.report (ofChannel k c) x).track = s.track :=
  track_report (ofChannel_ne_ofVehicle k c _) (ofChannel_ne_ofVehicle k c _) x

@[simp] theorem track_report_vehicle {k : VehicleCondition} (h : k ≠ .unlocated) (h' : k ≠ .positionDegraded) (x : Bool) :
    (s.report (ofVehicle k) x).track = s.track :=
  track_report (mt ofVehicle_inj.1 h) (mt ofVehicle_inj.1 h') x

@[simp] theorem track_reportIf (k : ChannelCondition) (x : Option Bool) :
    (s.reportIf (ofChannel k c) x).track = s.track := by
  cases x <;> simp [State.reportIf]

@[simp] theorem track_count (k : Fin 52) : (s.count k).track = s.track := by
  unfold State.count
  dsimp only
  split <;> [split; skip] <;> simp

@[simp] theorem track_countIf (x : Bool) (k : Fin 52) : (s.countIf x k).track = s.track := by
  cases x <;> simp [State.countIf]

@[simp] theorem track_snapshot (k : SnapshotCause) : (s.snapshot k).track = s.track := by
  unfold State.snapshot
  dsimp only
  rw [track_report_vehicle (k := .counterSaturated) nofun nofun]
  rfl

/-! ## Moves of the channels -/

@[simp] theorem track_enterFault (k : FaultCause) : (s.enterFault c k).track = s.track := by simp [State.enterFault]

@[simp] theorem track_enterLocking (e : ChannelEvent) : (s.enterLocking c e).track = s.track := by
  simp [State.enterLocking]

@[simp] theorem track_settleOnce : (s.settleOnce c).track = s.track := by
  rcases s.settleOnce_cases c with ⟨-, -, h⟩ | ⟨-, -, -, h⟩ | ⟨-, -, h⟩ | ⟨-, -, -, h⟩ | h <;>
    simp [h, State.enterLocked, State.enterSteering]

@[simp] theorem track_settle : (s.settle c).track = s.track := by simp [State.settle]

@[simp] theorem track_bringBack (e : ChannelEvent) : (s.bringBack e c).track = s.track := by
  unfold State.bringBack
  split <;> simp [State.enterReturning]

/-- A fold of operations that the track does not show. -/
theorem track_foldl {α : Type} {f : State → α → State} (h : ∀ u a, (f u a).track = u.track) (l : List α) :
    (l.foldl f s).track = s.track := by
  induction l generalizing s with
  | nil => rfl
  | cons a rest ih => rw [List.foldl_cons, ih, h]

@[simp] theorem track_settleAll : s.settleAll.track = s.track := track_foldl (fun _ _ => track_settle) _

@[simp] theorem track_permitOff : s.permitOff.track = s.track := by
  unfold State.permitOff
  split
  · exact track_foldl (fun _ _ => track_bringBack _) _
  · rfl

@[simp] theorem track_lockExpiry : (s.lockExpiry c).track = s.track := by
  unfold State.lockExpiry
  split
  · rfl
  · split <;> simp

/-! ## Scans and passes -/

@[simp] theorem track_takeScan : s.takeScan.track = s.track := by
  unfold State.takeScan
  split <;> simp

@[simp] theorem track_startPass : s.startPass.track = s.track := by
  unfold State.startPass
  split <;> simp

@[simp] theorem track_supervise (law : LawRecord) (x : Sample) (taken : Option LaneResult) :
    (s.supervise c law x taken).track = s.track := by
  unfold State.supervise
  dsimp only
  cases comparison s.channels.bank[c] x <;> simp only [track_offerPeak, track_countIf, track_report_channel]
  all_goals
    split
    · simp
    · split
      · split <;> simp
      · simp

@[simp] theorem track_finishLane (e : LaneEnd) : (s.finishLane e).track = s.track := by simp [State.finishLane]

@[simp] theorem track_reportLane (k : Criteria) (e : LaneEnd) : (s.reportLane k e).track = s.track := by
  unfold State.reportLane
  dsimp only
  cases e.taken with
  | none => dsimp only; split <;> simp <;> split <;> simp
  | some x => dsimp only; split <;> simp

@[simp] theorem track_setYaw (r : YawRecord) : (s.setYaw b r).track = s.track := by simp [State.setYaw]

@[simp] theorem track_resetBogie : (s.resetBogie b).track = s.track := by simp [State.resetBogie, State.resetLane]

@[simp] theorem track_completePass : s.completePass.track = s.track := by
  unfold State.completePass
  split
  · rfl
  · dsimp only
    split <;> simp

@[simp] theorem track_reschedule : (s.reschedule b).track = s.track := by
  unfold State.reschedule State.unscheduled
  split
  · simp
  · split <;> simp
  · rfl

@[simp] theorem track_rescheduleOwner (x : Option (Fin 4)) : (s.rescheduleOwner x).track = s.track := by
  cases x <;> simp [State.rescheduleOwner]

@[simp] theorem track_periodExpiry : (s.periodExpiry b).track = s.track := by
  unfold State.periodExpiry State.createScan State.overrun
  split
  · rfl
  · dsimp only
    split
    · simp only [track_takeScan]
      split <;> simp
    · simp

@[simp] theorem track_conversionEnd (raw : Nat) : (s.conversionEnd raw).track = s.track := by
  unfold State.conversionEnd
  split
  · rfl
  · dsimp only
    split <;> simp

/-! ## The line and the counters -/

@[simp] theorem track_arrive (r : Frame) : (s.arrive r).track = s.track := by
  unfold State.arrive
  split
  · rfl
  · simp

@[simp] theorem track_takeByte (x : Byte) : (s.takeByte x).track = s.track := by
  have heard : ∀ (n : Nat) (l : LinkState), ({ s with clock := n, link := l } : State).track = s.track := fun _ _ => rfl
  have checked : ∀ (u : State) (covered : List Byte) (crc : BitVec 16), (u.checkFrame covered crc).track = u.track := by
    intro u covered crc
    unfold State.checkFrame
    split_ifs <;> simp
  unfold State.takeByte
  split
  · rfl
  · dsimp only
    split <;> simp [State.completeFrame, heard, checked]

@[simp] theorem track_beginFrame : s.beginFrame.track = s.track := by
  unfold State.beginFrame
  split
  · split <;> simp
  · rfl

@[simp] theorem track_refuseKind : s.refuseKind.track = s.track := by
  unfold State.refuseKind
  split
  · rfl
  · split <;> simp

@[simp] theorem track_gapTimeout : s.gapTimeout.track = s.track := by
  unfold State.gapTimeout
  split <;> simp

@[simp] theorem track_snapshotExpiry : s.snapshotExpiry.track = s.track := by
  unfold State.snapshotExpiry
  split
  · rfl
  · split <;> simp

@[simp] theorem track_completeClose : s.completeClose.track = s.track := by
  unfold State.completeClose
  split
  · rfl
  · dsimp only
    split <;> rfl

@[simp] theorem track_beginStartUp : s.beginStartUp.track = s.track := by
  unfold State.beginStartUp
  split <;> rfl

/-! ## Owners of requests -/

/-- An owner that the track does not show. -/
def Untracked (act : List Byte → State → State × Answer) : Prop := ∀ body s, (act body s).1.track = s.track

theorem ReadsOnly.untracked {act : List Byte → State → State × Answer} (h : ReadsOnly act) : Untracked act :=
  fun body s => congrArg State.track (h body s)

theorem untracked_secOpen : Untracked ownSecOpen := by
  intro body s
  unfold ownSecOpen
  dsimp only
  repeat' split
  all_goals rfl

theorem untracked_secPut : Untracked ownSecPut := by
  intro body s
  unfold ownSecPut
  dsimp only
  repeat' split
  all_goals rfl

theorem untracked_secMark : Untracked ownSecMark := by
  intro body s
  unfold ownSecMark
  dsimp only
  repeat' split
  all_goals rfl

theorem track_ownSecClose (r : Frame) : (ownSecClose r s).track = s.track := by
  unfold ownSecClose
  repeat' split
  all_goals rfl

theorem untracked_secJoin : Untracked ownSecJoin := by
  intro body s
  unfold ownSecJoin
  dsimp only
  repeat' split
  all_goals rfl

theorem untracked_secJoinNone : Untracked ownSecJoinNone := by
  intro body s
  have unlinked : ∀ a, (s.unlink a).track = s.track := fun a => track_of_store (s.unlink_eq a)
  unfold ownSecJoinNone
  dsimp only
  repeat' split
  all_goals simp only [unlinked]

theorem untracked_secDrop : Untracked ownSecDrop := by
  intro body s
  have dropped : ∀ i, (s.dropSection i).track = s.track := fun i => (track_of_store (s := s) (s.unlinkBoth_eq i) :)
  unfold ownSecDrop
  dsimp only
  repeat' split
  all_goals simp only [dropped]

theorem untracked_ptsDefine : Untracked ownPtsDefine := by
  intro body s
  unfold ownPtsDefine
  dsimp only
  repeat' split
  all_goals rfl

theorem untracked_ptsRemove : Untracked ownPtsRemove := by
  intro body s
  unfold ownPtsRemove
  repeat' split
  all_goals rfl

theorem untracked_ptsSet : Untracked ownPtsSet := by
  intro body s
  unfold ownPtsSet
  repeat' split
  all_goals rfl

theorem untracked_vehSet : Untracked ownVehSet := by
  intro body s
  unfold ownVehSet
  repeat' split
  · rfl
  · rfl
  · exact track_foldl (fun _ _ => track_reschedule) _

theorem untracked_lawSet : Untracked ownLawSet := by
  intro body s
  unfold ownLawSet
  repeat' split
  all_goals rfl

theorem untracked_stgSet : Untracked ownStgSet := by
  intro body s
  unfold ownStgSet State.stageAnswer State.writeStage
  repeat' split
  all_goals simp

theorem untracked_perSet : Untracked ownPerSet := by
  intro body s
  unfold ownPerSet State.setPeriod
  dsimp only
  repeat' split
  all_goals rfl

theorem untracked_permitSetOn : Untracked ownPermitSetOn := by
  intro body s
  unfold ownPermitSetOn
  split <;> rfl

theorem untracked_permitSetOff : Untracked ownPermitSetOff := fun _ _ => track_permitOff

/-- A channel request is not shown where its act is not. -/
theorem track_channelRequest {reason : Option Reason} {act : State → State} (h : (act s).track = s.track) :
    (channelRequest reason act c s).1.track = s.track := by
  unfold channelRequest
  split
  · rfl
  · exact h

theorem untracked_chUnlock : Untracked ownChUnlock := by
  intro body s
  unfold ownChUnlock
  repeat' split
  · rfl
  · rfl
  · exact track_channelRequest (by simp [State.unlock])

theorem untracked_chHold : Untracked ownChHold := by
  intro body s
  unfold ownChHold
  split
  · rfl
  · exact track_channelRequest rfl

theorem untracked_chResume : Untracked ownChResume := by
  intro body s
  unfold ownChResume
  split
  · rfl
  · exact track_channelRequest rfl

theorem untracked_chReturn : Untracked ownChReturn := by
  intro body s
  unfold ownChReturn
  split
  · rfl
  · exact track_channelRequest (track_bringBack _)

theorem untracked_chClear : Untracked ownChClear := by
  intro body s
  unfold ownChClear
  split
  · rfl
  · exact track_channelRequest (by simp [State.clearFault])

theorem track_ownCndGet (r : Frame) : (ownCndGet r s).track = s.track := by
  unfold ownCndGet State.clearLatches
  rw [track_setMonitor (by simp), track_queueReply]

theorem untracked_cndEnable : Untracked ownCndEnable := by
  intro body s
  have modes : ∀ code channel mode, (s.setModes code channel mode).track = s.track := fun code channel mode =>
    track_setMonitor fun m i => by
      simp only [Fin.getElem_fin, Vector.getElem_ofFn]
      split <;> rfl
  unfold ownCndEnable
  dsimp only
  repeat' split
  all_goals simp only [modes]

theorem untracked_cndCriteria : Untracked ownCndCriteria := by
  intro body s
  unfold ownCndCriteria
  repeat' split
  all_goals rfl

theorem untracked_cntSnap : Untracked ownCntSnap := fun _ _ => track_snapshot _

theorem untracked_cntModeAuto : Untracked ownCntModeAuto := by
  intro body s
  unfold ownCntModeAuto State.modeAuto
  split <;> rfl

theorem untracked_cntModeManual : Untracked ownCntModeManual := by
  intro body s
  unfold ownCntModeManual State.modeManual
  repeat' split
  all_goals rfl

end Sys2Proof.Machine
end

