-- ==== Sys2Proof/Proofs/TrackerSound.lean ====
section
/-!
SUPPORT. Every command keeps the tracker sound and its datum on the path: settles O60.
-/
namespace Sys2Proof.Machine

variable {s t : State} {g : Store} {path : List PathEntry} {l m : Location} {i : Nat} {x : Int} {d : Int}

/-! ## Walks end on the path (R72) -/

theorem walkTowardA_entry (h : walkTowardA g i x path = some m) : m.entry < i + path.length := by
  induction path generalizing i x with
  | nil => cases h
  | cons e rest ih =>
    rw [walkTowardA] at h
    split at h
    · obtain rfl := Option.some.inj h
      exact Nat.lt_add_of_pos_right (Nat.succ_pos _)
    · have := ih h
      rw [List.length_cons]
      omega

theorem walkTowardB_entry (h : walkTowardB g i x path = some m) : m.entry ≤ i := by
  induction path generalizing i x with
  | nil => cases h
  | cons e rest ih =>
    rw [walkTowardB] at h
    split at h
    · obtain rfl := Option.some.inj h
      exact le_rfl
    · exact (ih h).trans (Nat.sub_le _ _)

/-- A walk starts and ends in entries of the path. -/
theorem walk_entries (h : walk g path l d = some m) : l.entry < path.length ∧ m.entry < path.length := by
  unfold walk at h
  cases stands : path[l.entry]? with
  | none =>
    rw [stands] at h
    cases h
  | some e =>
    have start : l.entry < path.length := (List.getElem?_eq_some_iff.1 stands).1
    rw [stands] at h
    dsimp only at h
    refine ⟨start, ?_⟩
    split_ifs at h
    · exact (walkTowardB_entry h).trans_lt ((Nat.sub_le _ _).trans_lt start)
    · have ends := walkTowardA_entry h
      rw [List.length_drop] at ends
      omega
    · obtain rfl := Option.some.inj h
      exact start

/-- The datum of a covered course stands on its path. -/
theorem Course.datum_lt_of_covered {v : VehicleRecord} {sign : Sign} {k : Course} (h : k.covered g v sign = true) :
    k.datum.entry < k.path.length := by
  obtain ⟨m, walked⟩ := Option.isSome_iff_exists.1 (Bool.and_eq_true_iff.1 h).1
  exact (walk_entries walked).1

theorem advanceCourse_datum {v : VehicleRecord} {sign : Sign} {n : Nat} {k : Course}
    (h : advanceCourse g v sign n path l = some k) : k.datum.entry < k.path.length := by
  obtain ⟨_, -, made⟩ := Option.bind_eq_some_iff.1 h
  dsimp only at made
  split at made
  · next covered =>
    obtain rfl := Option.some.inj made
    exact Course.datum_lt_of_covered covered
  · cases made

theorem candidateCourse_datum {v : VehicleRecord} {sign : Sign} {j : Fin 32} {n : Nat} {o : Orientation} {k : Course}
    (h : candidateCourse g v sign j n o = some k) : k.datum.entry < k.path.length := by
  simp only [candidateCourse] at h
  split at h
  · next covered =>
    obtain rfl := Option.some.inj h
    exact Course.datum_lt_of_covered covered
  · cases h

theorem matchMarker_entry {v : VehicleRecord} {p : Published} {c : Candidate} (h : matchMarker g v path p = some (c, l)) :
    l.entry < path.length := by
  obtain ⟨_, _, -, -, -, corrected⟩ := (matchWalksTheDatum g v path p c l).1 h
  exact (walk_entries corrected).2

/-! ## The tracker by itself (R40, R51, R54) -/

/-- What the invariants say of a tracker and a path, but for what is published and reported. -/
structure Tracker.Sound (x : Tracker) (path : List PathEntry) : Prop where
  datum : x.state = .unlocated ↔ x.datum = none
  lost : x.datum = none → path = [] ∧ x.uncertainty = 65535000 ∧ x.confidence = 0
  confidence : x.confidence ≤ 256
  onPath : ∀ l, x.datum = some l → l.entry < path.length

/-- A track as the tracker's invariants have it, with the datum on the path. -/
structure Track.Sound (k : Track) : Prop where
  tracker : k.tracker.Sound k.path
  published : k.tracker.published.state = k.tracker.state
  unlocated : k.unlocated = true ↔ k.tracker.state = .unlocated
  degraded : k.degraded = true ↔ k.tracker.state = .degraded

theorem track_sound_iff (s : State) : s.track.Sound ↔ TrackerSound s ∧ DatumOnPath s :=
  ⟨fun ⟨⟨datum, lost, confidence, onPath⟩, published, unlocated, degraded⟩ =>
      ⟨⟨datum, lost, confidence, published, unlocated, degraded⟩, onPath⟩,
    fun ⟨⟨datum, lost, confidence, published, unlocated, degraded⟩, onPath⟩ =>
      ⟨⟨datum, lost, confidence, onPath⟩, published, unlocated, degraded⟩⟩

/-- A tracker with a datum on the path whose C and state are derived is sound (R53, R54). -/
theorem Tracker.sound_derive (v : VehicleRecord) (mismatch : Bool) {y : Tracker} (datum : y.datum = some l)
    (onPath : l.entry < path.length) : (y.derive v mismatch).Sound path where
  datum := iff_of_false (trackerStateOf_ne_unlocated _ _ _ _) (by simp [Tracker.derive, datum])
  lost absent := by simp [Tracker.derive, datum] at absent
  confidence := confidenceOf_le ..
  onPath m stands := by
    obtain rfl : l = m := Option.some.inj (datum.symm.trans stands)
    exact onPath

theorem Tracker.sound_lose (y : Tracker) : y.lose.Sound [] where
  datum := iff_of_true rfl rfl
  lost _ := ⟨rfl, rfl, rfl⟩
  confidence := Nat.zero_le _
  onPath := nofun

/-- The tracker's invariants do not read what it measures, counts and published before. -/
theorem Tracker.Sound.congr {y z : Tracker} (h : y.Sound path) (datum : z.datum = y.datum) (state : z.state = y.state)
    (uncertainty : z.uncertainty = y.uncertainty) (confidence : z.confidence = y.confidence) : z.Sound path := by
  obtain ⟨a, b, c, d⟩ := h
  constructor <;> simpa only [datum, state, uncertainty, confidence]

/-- A tracker published over its path, with its conditions reported, has a sound track. -/
theorem sound_of_published {y : Tracker} (h : y.Sound t.path) (tracker : t.tracker = { y with published := y.toPublish t.path })
    (unlocated : t.present (ofVehicle .unlocated) = decide (y.state = .unlocated))
    (degraded : t.present (ofVehicle .positionDegraded) = decide (y.state = .degraded)) : t.track.Sound where
  tracker := by
    show t.tracker.Sound t.path
    rw [tracker]
    exact h.congr rfl rfl rfl rfl
  published := by
    show t.tracker.published.state = t.tracker.state
    rw [tracker]
    rfl
  unlocated := by
    show t.present _ = true ↔ t.tracker.state = _
    rw [tracker, unlocated]
    exact decide_eq_true_iff
  degraded := by
    show t.present _ = true ↔ t.tracker.state = _
    rw [tracker, degraded]
    exact decide_eq_true_iff

theorem sound_publish (h : s.tracker.Sound s.path) : s.publish.track.Sound :=
  sound_of_published (by rwa [State.publish_path]) (by rw [State.publish_path, State.publish_tracker])
    ((State.publish_present s _).trans (by simp [ofVehicle_inj])) ((State.publish_present s _).trans (by simp))

theorem PutInForce.sound {p : List PathEntry} {reached full : Bool} (force : PutInForce s t p reached full)
    (h : s.tracker.Sound p) : t.track.Sound :=
  sound_of_published (by rwa [force.path]) (by rw [force.path, force.tracker]) force.unlocated force.degraded

/-! ## Places kept by a points change (R86, R87) -/

variable {held : List Nat} {toeAtA : Bool} {j n : Nat} {change : PointsChange} {toe : EndRef}

/-- A joint whose B-side is removed has no held place on that side. -/
theorem classify_removeBSide (h : classify held toeAtA j = .removeBSide) (mem : n ∈ held) : j ≤ n := by
  by_contra below
  have onB : (held.any fun i => decide (i < j)) = true :=
    List.any_eq_true.2 ⟨n, mem, decide_eq_true (Nat.lt_of_not_le below)⟩
  rw [classify, onB] at h
  generalize (held.any fun i => decide (j ≤ i)) = onA at h
  cases toeAtA <;> cases onA <;> cases h

/-- A joint whose A-side is removed has no held place on that side. -/
theorem classify_removeASide (h : classify held toeAtA j = .removeASide) (mem : n ∈ held) : n < j := by
  by_contra above
  have onA : (held.any fun i => decide (j ≤ i)) = true :=
    List.any_eq_true.2 ⟨n, mem, decide_eq_true (Nat.le_of_not_lt above)⟩
  rw [classify, onA] at h
  generalize (held.any fun i => decide (i < j)) = onB at h
  cases toeAtA <;> cases onB <;> cases h

/-- A joint with an outcome but untouched is classified. -/
theorem classify_of_touched {via : Option Via} {o : JointOutcome}
    (h : (if Via.differs via change.points change.after then classify held toeAtA j else .untouched) = o)
    (touched : o ≠ .untouched) : classify held toeAtA j = o := by
  split at h
  · exact h
  · exact absurd h.symm touched

theorem keepFrom_cons_le {o : JointOutcome} {rest : List JointOutcome} (head : o = .removeBSide → j ≤ n)
    (later : keepFrom (j + 1) rest ≤ n) : keepFrom j (o :: rest) ≤ n := by
  rw [keepFrom]
  split
  · next removed => exact max_le (head removed) later
  · exact later

theorem lt_keepTo_cons {o : JointOutcome} {rest : List JointOutcome} {length : Nat} (head : o = .removeASide → n < j)
    (later : n < keepTo length (j + 1) rest) : n < keepTo length j (o :: rest) := by
  rw [keepTo]
  split
  · next removed => exact head removed
  · exact later

/-- A held place is kept at the B-end. -/
theorem keepFrom_le (mem : n ∈ held) : keepFrom j (jointOutcomes change toe held j path) ≤ n := by
  induction path generalizing j with
  | nil => exact Nat.zero_le _
  | cons e rest ih =>
    exact keepFrom_cons_le (fun removed => classify_removeBSide (classify_of_touched removed nofun) mem) ih

/-- A held place is kept at the A-end. -/
theorem lt_keepTo (mem : n ∈ held) {length : Nat} (inside : n < length) :
    n < keepTo length j (jointOutcomes change toe held j path) := by
  induction path generalizing j with
  | nil => exact inside
  | cons e rest ih =>
    exact lt_keepTo_cons (fun removed => classify_removeASide (classify_of_touched removed nofun) mem) ih

/-- The datum's entry is held. -/
theorem datum_held (g : Store) (v : VehicleRecord) (path : List PathEntry) (l : Location) :
    l.entry ∈ heldPlaces g v path l := List.mem_cons_self

theorem jointOutcomes_length : (jointOutcomes change toe held j path).length = path.length := by
  induction path generalizing j with
  | nil => rfl
  | cons e rest ih => rw [jointOutcomes, List.length_cons, ih, List.length_cons]

theorem cutPath_length (lo hi : Nat) (path : List PathEntry) : (cutPath lo hi path).length = min hi path.length - lo := by
  unfold cutPath
  split
  · next zero => rw [zero, List.length_take, Nat.sub_zero]
  · rw [bareHead_length, List.length_drop, List.length_take]

theorem markEntries_length (outcomes : List JointOutcome) :
    (markEntries path outcomes).length = min path.length outcomes.length := List.length_zipWith

/-- A held place on the path keeps its entry when the path is cut at a points change. -/
theorem sub_lt_cutPath (mem : n ∈ held) (inside : n < path.length) :
    n - keepFrom 0 (jointOutcomes change toe held 0 path) <
      (cutPath (keepFrom 0 (jointOutcomes change toe held 0 path))
        (keepTo path.length 0 (jointOutcomes change toe held 0 path))
        (markEntries path (jointOutcomes change toe held 0 path))).length := by
  have kept : keepFrom 0 (jointOutcomes change toe held 0 path) ≤ n := keepFrom_le mem
  have below : n < keepTo path.length 0 (jointOutcomes change toe held 0 path) := lt_keepTo mem inside
  rw [cutPath_length, markEntries_length, jointOutcomes_length]
  omega

/-! ## Operations that keep the tracker sound -/

/-- A change of the tracker that its invariants do not read. -/
theorem sound_setTracker {f : Tracker → Tracker} (h : s.track.Sound) (datum : (f s.tracker).datum = s.tracker.datum)
    (state : (f s.tracker).state = s.tracker.state) (uncertainty : (f s.tracker).uncertainty = s.tracker.uncertainty)
    (confidence : (f s.tracker).confidence = s.tracker.confidence)
    (published : (f s.tracker).published = s.tracker.published) : (s.setTracker f).track.Sound where
  tracker := h.tracker.congr datum state uncertainty confidence
  published := by
    show (f s.tracker).published.state = (f s.tracker).state
    rw [published, state]
    exact h.published
  unlocated := h.unlocated.trans (by rw [← show (f s.tracker).state = s.track.tracker.state from state]; rfl)
  degraded := h.degraded.trans (by rw [← show (f s.tracker).state = s.track.tracker.state from state]; rfl)

theorem sound_wheelEdge (h : s.track.Sound) (w : Fin 16) (edge : Edge) (second : Bool) :
    (s.wheelEdge w edge second).track.Sound := by
  unfold State.wheelEdge
  split
  · exact sound_setTracker h rfl rfl rfl rfl rfl
  · exact h

theorem sound_debounceOver (h : s.track.Sound) (waiting : Debounce) : (s.debounceOver waiting).track.Sound := by
  unfold State.debounceOver
  split
  · exact h
  · split
    · exact sound_setTracker (s := s.reach _) h rfl rfl rfl rfl rfl
    · exact h

theorem sound_markerLevel (h : s.track.Sound) (active : Bool) : (s.markerLevel active).track.Sound := by
  unfold State.markerLevel
  split
  · exact h
  · dsimp only
    unfold State.whileRunning
    split
    · exact sound_setTracker (s := { s with lines := { s.lines with marker := active } }) h rfl rfl rfl rfl rfl
    · exact h

theorem sound_doTick (h : s.track.Sound) : s.doTick.track.Sound := by
  rcases s.doTick_cases with ⟨-, still⟩ | ⟨datum, -, -, ⟨-, lost⟩ | ⟨k, on, tick⟩⟩
  · rw [still]
    exact sound_publish (s := s.measured) (h.tracker.congr rfl rfl rfl rfl)
  · rw [lost]
    exact s.measured.tickLost_spec.1.sound (Tracker.sound_lose _)
  · rw [tick]
    exact (s.measured.tickOn_spec _ _ _ k).1.sound (Tracker.sound_derive _ _ rfl (advanceCourse_datum on))

theorem sound_locate {v : VehicleRecord} {sign : Sign} {j : Fin 32} {o : Orientation} {k : Course}
    (made : candidateCourse g v sign j n o = some k) : (s.locate v k).track.Sound :=
  (s.locate_spec v k).1.sound (Tracker.sound_derive _ _ rfl (candidateCourse_datum made))

theorem sound_resolveMarker (h : s.track.Sound) : s.resolveMarker.track.Sound := by
  by_cases waiting : 0 < s.tracker.detections
  · rcases State.resolveMarker_cases waiting with ⟨-, resolved⟩ | ⟨located, ⟨c, l, found, resolved⟩ | ⟨-, resolved⟩⟩ <;>
      rw [resolved]
    · rw [track_count]
      exact sound_setTracker h rfl rfl rfl rfl rfl
    · rw [track_notify]
      refine sound_publish ?_
      rw [State.count_tracker, State.count_path]
      exact Tracker.sound_derive _ _ rfl (matchMarker_entry found)
    · obtain ⟨l, stands⟩ := Option.ne_none_iff_exists'.1 (mt h.tracker.datum.2 located)
      rw [State.notifyPosition, track_notify]
      refine sound_publish ?_
      rw [State.count_tracker, State.count_path]
      exact Tracker.sound_derive _ _ stands (h.tracker.onPath l stands)
  · rw [State.resolveMarker, if_pos (by omega)]
    exact h

/-! ## Points changes (R86 to R88) -/

/-- Dropping entries at the B-end moves the datum's place and nothing else that the invariants read. -/
theorem sound_dropEntries {y : Tracker} {after : List PathEntry} (h : y.Sound path) (datum : y.datum = some l)
    (inside : l.entry - n < after.length) : (y.dropEntries n).Sound after where
  datum := h.datum.trans (by simp [Tracker.dropEntries])
  lost absent := by simp [Tracker.dropEntries, datum] at absent
  confidence := h.confidence
  onPath m stands := by
    rw [Tracker.dropEntries, datum] at stands
    obtain rfl := Option.some.inj stands
    exact inside

/-- A path put in force with the entries dropped at the B-end, where it keeps the datum's entry. -/
theorem sound_setPath_dropEntries {after : List PathEntry} (h : s.track.Sound) (datum : s.tracker.datum = some l)
    (inside : l.entry - n < after.length) :
    (({ s with tracker := s.tracker.dropEntries n } : State).setPath after).track.Sound := by
  have track : (({ s with tracker := s.tracker.dropEntries n } : State).setPath after).track =
      ⟨s.tracker.dropEntries n, after, s.track.unlocated, s.track.degraded⟩ := rfl
  rw [track]
  exact ⟨sound_dropEntries h.tracker datum inside, h.published, h.unlocated, h.degraded⟩

theorem sound_applyChange (h : s.track.Sound) (datum : s.tracker.datum = some l) (record : PointsRecord) :
    (s.applyChange change record l).track.Sound := by
  have judged : ∀ u : State, u.judgeMoved.track = u.track := fun _ =>
    track_report_vehicle (k := .pointsMovedUnder) nofun nofun _
  have onPath : l.entry < s.path.length := h.tracker.onPath l datum
  have inside := sub_lt_cutPath (change := change) (toe := record.toe) (datum_held s.store s.vehicleView s.path l) onPath
  unfold State.applyChange
  dsimp only
  rw [judged]
  split
  · rw [track_report_vehicle (k := .geometryUnknownAhead) nofun nofun]
    exact sound_setPath_dropEntries h datum inside
  · exact sound_setPath_dropEntries h datum inside

theorem sound_takeChange (h : s.track.Sound) : s.takeChange.track.Sound := by
  unfold State.takeChange
  split
  · exact h
  · next rest _ =>
    dsimp only
    split
    · next datum _ => exact sound_applyChange (s := { s with store := { s.store with changes := rest } }) h datum _
    · exact h

/-! ## Resets and the loss of the supply (R40, R196, R198) -/

/-- A tracker at its initial values over an empty path, with the monitor's. -/
theorem sound_of_initial {a b : Nat} {marker : Bool} (tracker : t.tracker = Tracker.initial a marker) (path : t.path = [])
    (monitor : t.monitor = Monitor.initial b) : t.track.Sound := by
  have present : ∀ k, t.present (ofVehicle k) = decide (k = .unlocated) := fun k => by
    rw [State.present, monitor, monitor_initial_condition]
    by_cases own : k = .unlocated <;> simp [ofVehicle_inj, own]
  refine ⟨?_, ?_, ?_, ?_⟩ <;> simp only [State.track, tracker, path, present]
  · exact ⟨iff_of_true rfl rfl, fun _ => ⟨rfl, rfl, rfl⟩, Nat.zero_le _, nofun⟩
  · rfl
  · exact iff_of_true rfl rfl
  · exact iff_of_false nofun nofun

theorem sound_resetBlocks (s : State) : s.resetBlocks.track.Sound := by
  rw [State.resetBlocks_eq, track_settleAll]
  exact sound_of_initial rfl rfl rfl

theorem sound_endStartUp (h : s.track.Sound) : s.endStartUp.track.Sound := by
  unfold State.endStartUp
  split
  · exact sound_resetBlocks _
  · exact h
  · exact h

theorem sound_loseSupply (h : s.track.Sound) : s.loseSupply.track.Sound := by
  unfold State.loseSupply
  split
  · exact h
  · exact sound_of_initial rfl rfl rfl
  · exact sound_of_initial rfl rfl rfl

theorem sound_endFrame (h : s.track.Sound) : s.endFrame.track.Sound := by
  unfold State.endFrame
  split
  · exact h
  · dsimp only
    split
    · exact sound_resetBlocks _
    · exact h

theorem sound_restart (h : s.track.Sound) : s.restart.track.Sound := by
  unfold State.restart
  split
  · exact sound_resetBlocks _
  · exact h
  · exact h

/-! ## Rows -/

/-- A sound tracker is kept. -/
def KeepsTrack (s t : State) : Prop := s.track.Sound → t.track.Sound

theorem KeepsTrack.of_untracked (h : t.track = s.track) : KeepsTrack s t := fun sound => by rwa [h]

theorem KeepsTrack.whileRunning {f : State → State} (h : KeepsTrack s (f s)) : KeepsTrack s (s.whileRunning f) := by
  unfold State.whileRunning
  split
  · exact h
  · exact id

/-- A request row keeps the tracker sound where its owner does (R189). -/
theorem KeepsTrack.serve {kind : Byte} {mine fits : List Byte → Bool} {owner : Frame → State → State}
    (h : ∀ r u, KeepsTrack u (owner r u)) : KeepsTrack s (s.serve kind mine fits owner) := by
  rcases State.serve_cases (s := s) (kind := kind) (mine := mine) (fits := fits) owner with
    same | ⟨r, -, -, ⟨-, -, taken⟩ | ⟨-, refused⟩⟩
  · rw [same]
    exact id
  · rw [taken]
    exact h r s.popRequest
  · rw [refused]
    exact id

theorem KeepsTrack.serveAct {kind : Byte} {mine fits : List Byte → Bool} {act : List Byte → State → State × Answer}
    (h : ∀ body u, KeepsTrack u (act body u).1) : KeepsTrack s (s.serveAct kind mine fits act) :=
  KeepsTrack.serve fun r u => h r.body u

theorem Untracked.serveAct {kind : Byte} {mine fits : List Byte → Bool} {act : List Byte → State → State × Answer}
    (h : Untracked act) : KeepsTrack s (s.serveAct kind mine fits act) :=
  KeepsTrack.serveAct fun body u => .of_untracked (h body u)

theorem ownPosLocate_keepsTrack (body : List Byte) (s : State) : KeepsTrack s (ownPosLocate body s).1 := by
  intro sound
  unfold ownPosLocate
  dsimp only
  split
  · split
    · exact sound
    · split
      · exact sound
      · split
        · exact sound
        · split
          · exact sound
          · split
            · exact sound
            · next made => exact sound_locate made
  · exact sound

/-! ## Every command -/

theorem exec_keepsTrack {c : Instr} (h : exec c s = .next t) : KeepsTrack s t := by
  cases c <;> cases h
  case startUpBegin => exact .of_untracked track_beginStartUp
  case startUpEnd => exact sound_endStartUp
  case supplyLoss => exact sound_loseSupply
  case frameSent => exact .whileRunning sound_endFrame
  case restartTakesEffect => exact .whileRunning sound_restart
  case pointsChange => exact .whileRunning sound_takeChange
  case wheelCount w edge second => exact .whileRunning fun sound => sound_wheelEdge sound w edge second
  case tick => exact .whileRunning sound_doTick
  case markerInputChange active => exact fun sound => sound_markerLevel sound active
  case markerDetection => exact .whileRunning fun sound => sound_debounceOver sound _
  case markerDebounceRelease => exact .whileRunning fun sound => sound_debounceOver sound _
  case markerResolve => exact .whileRunning sound_resolveMarker
  case posLocate => exact .serveAct ownPosLocate_keepsTrack
  case frameReceived b => exact .whileRunning (.of_untracked (by split <;> simp))
  case frameLengthAbort b => exact .whileRunning (.of_untracked (by split <;> simp))
  case unknownKind | transmitBegin | periodTimerExpiry | byteTaken | interByteGapTimeout | snapshotTimerExpiry
      | closeCheckComplete | stageConversionComplete | passComplete | lockTimerExpiry =>
    exact .whileRunning (.of_untracked (by simp))
  case lockEngagedChange c engaged =>
    exact KeepsTrack.whileRunning (s := s.setLines c _) (.of_untracked track_settle)
  case driveFaultChange c fault ready =>
    exact KeepsTrack.whileRunning (s := s.setLines c _) (.of_untracked track_settle)
  case sysRestart => exact .serve fun r u => .of_untracked (by simp [ownSysRestart])
  case cndGet => exact .serve fun r u => .of_untracked (track_ownCndGet r)
  case secClose => exact .serve fun r u => .of_untracked (track_ownSecClose r)
  case secGet => exact readsOnly_secGet.untracked.serveAct
  case vehGet => exact readsOnly_vehGet.untracked.serveAct
  case lawGet => exact readsOnly_lawGet.untracked.serveAct
  case stgGet => exact readsOnly_stgGet.untracked.serveAct
  case posGet => exact readsOnly_posGet.untracked.serveAct
  case chGet => exact readsOnly_chGet.untracked.serveAct
  case cntGet => exact readsOnly_cntGet.untracked.serveAct
  case secOpen => exact untracked_secOpen.serveAct
  case secPut => exact untracked_secPut.serveAct
  case secMark => exact untracked_secMark.serveAct
  case secJoin => exact untracked_secJoin.serveAct
  case secJoinNone => exact untracked_secJoinNone.serveAct
  case secDrop => exact untracked_secDrop.serveAct
  case ptsDefine => exact untracked_ptsDefine.serveAct
  case ptsRemove => exact untracked_ptsRemove.serveAct
  case ptsSet => exact untracked_ptsSet.serveAct
  case vehSet => exact untracked_vehSet.serveAct
  case lawSet => exact untracked_lawSet.serveAct
  case stgSet => exact untracked_stgSet.serveAct
  case perSet => exact untracked_perSet.serveAct
  case chUnlock => exact untracked_chUnlock.serveAct
  case chHold => exact untracked_chHold.serveAct
  case chResume => exact untracked_chResume.serveAct
  case chReturn => exact untracked_chReturn.serveAct
  case chClear => exact untracked_chClear.serveAct
  case permitSetOn => exact untracked_permitSetOn.serveAct
  case permitSetOff => exact untracked_permitSetOff.serveAct
  case cndEnable => exact untracked_cndEnable.serveAct
  case cndCriteria => exact untracked_cndCriteria.serveAct
  case cntSnap => exact untracked_cntSnap.serveAct
  case cntModeAuto => exact untracked_cntModeAuto.serveAct
  case cntModeManual => exact untracked_cntModeManual.serveAct

theorem step_keepsTrack (h : step s = .next t) : KeepsTrack s t := by
  unfold step at h
  split at h
  · obtain rfl := Host.Outcome.next.inj h
    exact id
  · next rest _ => exact exec_keepsTrack (s := s.withPending rest) h

/-! ## The obligation -/

/-- Settles O60: what the invariants read of a state is its track; a command that touches the track publishes a tracker
over the path that it has put in force, or moves the datum with the entries that a points change keeps, or resets both. -/
theorem everyStepKeepsTheTrackerSound : Obligations.EveryStepKeepsTheTrackerSound := fun s t sound onPath h =>
  (track_sound_iff t).1 (step_keepsTrack h ((track_sound_iff s).2 ⟨sound, onPath⟩))

end Sys2Proof.Machine
end

