-- ==== Sys2Proof/Proofs/Walking.lean ====
section
/-!
SUPPORT. Where a walk ends, by the distance from the B-side end of the path (R72, R74): settles O31.
-/
namespace Sys2Proof.Machine

variable {g : Store} {path rest : List PathEntry} {e f : PathEntry} {l m : Location} {i j k : Nat} {x d : Int}

/-! ## One entry (R71, R72) -/

theorem Store.microLength_nonneg (g : Store) (e : PathEntry) : 0 ≤ g.microLength e := by
  unfold Store.microLength
  omega

/-- The distance from the B-side end, applied to itself, is the chainage again. -/
@[simp] theorem Store.fromB_fromB (g : Store) (e : PathEntry) (x : Int) : g.fromB e (g.fromB e x) = x := by
  unfold Store.fromB
  cases e.orientation
  · rfl
  · exact sub_sub_cancel _ _

/-- A chainage lies within its section exactly when its distance from the B-side end does. -/
theorem Store.fromB_within : 0 ≤ g.fromB e x ∧ g.fromB e x ≤ g.microLength e ↔ 0 ≤ x ∧ x ≤ g.microLength e := by
  unfold Store.fromB
  cases e.orientation
  · rfl
  · dsimp only
    omega

theorem fromBSide_eq (g : Store) (e : PathEntry) (x : Int) : fromBSide g e x = g.fromB e x := by
  obtain ⟨sec, orientation, via, moved⟩ := e
  cases orientation <;> rfl

theorem aSideEnd_eq (g : Store) (e : PathEntry) : aSideEnd g e = g.fromB e (g.microLength e) := by
  obtain ⟨sec, orientation, via, moved⟩ := e
  cases orientation
  · rfl
  · exact (sub_self _).symm

theorem bSideEnd_eq (g : Store) (e : PathEntry) : bSideEnd g e = g.fromB e 0 := by
  obtain ⟨sec, orientation, via, moved⟩ := e
  cases orientation
  · rfl
  · exact (sub_zero _).symm

/-! ## Stretches of entries -/

/-- The length of a stretch of entries, in µm. -/
def stretch (g : Store) (path : List PathEntry) : Int := (path.map g.microLength).sum

@[simp] theorem stretch_nil (g : Store) : stretch g [] = 0 := rfl

@[simp] theorem stretch_cons (g : Store) (e : PathEntry) (rest : List PathEntry) :
    stretch g (e :: rest) = g.microLength e + stretch g rest := List.sum_cons

@[simp] theorem stretch_append (g : Store) (p q : List PathEntry) : stretch g (p ++ q) = stretch g p + stretch g q := by
  simp [stretch]

theorem stretch_reverse (g : Store) (p : List PathEntry) : stretch g p.reverse = stretch g p := by
  simp [stretch, List.sum_reverse]

theorem stretch_nonneg (g : Store) (p : List PathEntry) : 0 ≤ stretch g p :=
  List.sum_nonneg fun _ mem => by
    obtain ⟨e, -, rfl⟩ := List.mem_map.1 mem
    exact g.microLength_nonneg e

/-- A path up to a place, that entry, and what lies behind it up to another place. -/
theorem take_eq_append (stands : path[i]? = some e) (h : i < j) :
    path.take j = path.take i ++ e :: (path.take j).drop (i + 1) := by
  have inside : i < (path.take j).length := by
    have := (List.getElem?_eq_some_iff.1 stands).1
    rw [List.length_take]
    omega
  have at_ : (path.take j)[i] = e := Option.some.inj
    ((List.getElem?_eq_getElem inside).symm.trans ((List.getElem?_take_of_lt h).trans stands))
  have split := (List.take_append_drop i (path.take j)).symm
  rwa [List.take_take, min_eq_left h.le, List.drop_eq_getElem_cons inside, at_] at split

theorem stretch_take (stands : path[i]? = some e) (h : i < j) : stretch g (path.take j) =
    stretch g (path.take i) + (g.microLength e + stretch g ((path.take j).drop (i + 1))) := by
  rw [take_eq_append stands h, stretch_append, stretch_cons, ← take_eq_append stands h]

/-- What lies before an entry and the entry itself lie before every later place. -/
theorem stretch_take_le (stands : path[i]? = some e) (h : i < j) :
    stretch g (path.take i) + g.microLength e ≤ stretch g (path.take j) := by
  have := stretch_nonneg g ((path.take j).drop (i + 1))
  rw [stretch_take stands h]
  omega

/-- A path is what lies before an entry, the entry, and what lies behind it. -/
theorem stretch_around (stands : path[i]? = some e) : stretch g path =
    stretch g (path.take i) + (g.microLength e + stretch g (path.drop (i + 1))) := by
  have inside := (List.getElem?_eq_some_iff.1 stands).1
  have := stretch_take (g := g) stands inside
  rwa [List.take_length] at this

/-! ## The distance from the path's B-side end (R74) -/

theorem reachOf_eq (stands : path[l.entry]? = some e) :
    reachOf g path l = stretch g (path.take l.entry) + g.fromB e l.chainage := by
  rw [reachOf, stands]
  rfl

/-- A location on the path within its section (R72). -/
structure OnPath (g : Store) (path : List PathEntry) (l : Location) (e : PathEntry) : Prop where
  stands : path[l.entry]? = some e
  low : 0 ≤ g.fromB e l.chainage
  high : g.fromB e l.chainage ≤ g.microLength e

/-- A location of an entry by its distance from the entry's B-side end. -/
theorem onPath_fromB (stands : path[i]? = some e) (low : 0 ≤ x) (high : x ≤ g.microLength e) :
    OnPath g path ⟨i, g.fromB e x⟩ e :=
  ⟨stands, by rwa [Store.fromB_fromB], by rwa [Store.fromB_fromB]⟩

theorem reachOf_fromB (stands : path[i]? = some e) (x : Int) :
    reachOf g path ⟨i, g.fromB e x⟩ = stretch g (path.take i) + x := by
  rw [reachOf_eq (l := ⟨i, _⟩) stands, Store.fromB_fromB]

/-- A location on the path lies within the path's length. -/
theorem OnPath.reachOf_within (at_ : OnPath g path l e) : 0 ≤ reachOf g path l ∧ reachOf g path l ≤ stretch g path := by
  have before := stretch_nonneg g (path.take l.entry)
  have behind := stretch_nonneg g (path.drop (l.entry + 1))
  have all := stretch_around (g := g) at_.stands
  have low := at_.low
  have high := at_.high
  rw [reachOf_eq at_.stands]
  constructor <;> omega

/-! ## Where a walk ends (R72) -/

/-- A walk from `l` by `d` ends at `m`: on the path, at that distance, and at a section end only of the entry that it was
walking through. -/
structure WalkEnds (g : Store) (path : List PathEntry) (l : Location) (d : Int) (m : Location) (f : PathEntry) : Prop where
  onPath : OnPath g path m f
  reach : reachOf g path m = reachOf g path l + d
  towardA : l.entry < m.entry → 0 < g.fromB f m.chainage
  towardB : m.entry < l.entry → g.fromB f m.chainage < g.microLength f

/-- An excess carried toward the A-end leaves the entries, or ends in one of them behind its B-side end. -/
theorem walkTowardA_spec (g : Store) (i : Nat) {x : Int} (ahead : 0 < x) (rest : List PathEntry) :
    (walkTowardA g i x rest = none ∧ stretch g rest < x) ∨
    ∃ k f y, rest[k]? = some f ∧ walkTowardA g i x rest = some ⟨i + k, g.fromB f y⟩ ∧ 0 < y ∧ y ≤ g.microLength f ∧
      stretch g (rest.take k) + y = x := by
  induction rest generalizing i x with
  | nil => exact .inl ⟨rfl, ahead⟩
  | cons e rest ih =>
    rw [walkTowardA, stretch_cons]
    split
    · next within => exact .inr ⟨0, e, x, rfl, rfl, ahead, within, zero_add x⟩
    · next beyond =>
      rcases ih (i + 1) (x := x - g.microLength e) (by omega) with ⟨left, far⟩ | ⟨k, f, y, stands, ends, low, high, reach⟩
      · exact .inl ⟨left, by omega⟩
      · refine .inr ⟨k + 1, f, y, stands, ?_, low, high, ?_⟩
        · rw [ends, Nat.add_right_comm i 1 k, Nat.add_assoc]
        · rw [List.take_succ_cons, stretch_cons]
          omega

/-- An excess carried toward the B-end leaves the entries, or ends in one of them before its A-side end. -/
theorem walkTowardB_spec (g : Store) (i : Nat) {x : Int} (behind : 0 < x) (rest : List PathEntry) :
    (walkTowardB g i x rest = none ∧ stretch g rest < x) ∨
    ∃ k f y, rest[k]? = some f ∧ walkTowardB g i x rest = some ⟨i - k, g.fromB f y⟩ ∧ 0 ≤ y ∧ y < g.microLength f ∧
      stretch g (rest.take k) + (g.microLength f - y) = x := by
  induction rest generalizing i x with
  | nil => exact .inl ⟨rfl, behind⟩
  | cons e rest ih =>
    rw [walkTowardB, stretch_cons]
    split
    · next within =>
      exact .inr ⟨0, e, g.microLength e - x, rfl, rfl, by omega, by omega, by rw [List.take_zero, stretch_nil]; omega⟩
    · next beyond =>
      rcases ih (i - 1) (x := x - g.microLength e) (by omega) with ⟨left, far⟩ | ⟨k, f, y, stands, ends, low, high, reach⟩
      · exact .inl ⟨left, by omega⟩
      · refine .inr ⟨k + 1, f, y, stands, ?_, low, high, ?_⟩
        · rw [ends, Nat.sub_sub, Nat.add_comm 1 k]
        · rw [List.take_succ_cons, stretch_cons]
          omega

/-- The entries before a place, nearest first: the one at `k` and those nearer. -/
theorem before_getElem? (inside : i ≤ path.length) (stands : (path.take i).reverse[k]? = some f) :
    k < i ∧ path[i - 1 - k]? = some f ∧
      stretch g ((path.take i).reverse.take k) = stretch g ((path.take i).drop (i - 1 - k + 1)) := by
  have length : (path.take i).length = i := by rw [List.length_take, min_eq_left inside]
  have near : k < i := by
    have := (List.getElem?_eq_some_iff.1 stands).1
    rwa [List.length_reverse, length] at this
  refine ⟨near, ?_, ?_⟩
  · rw [List.getElem?_reverse (by rwa [length]), length, List.getElem?_take_of_lt (by omega)] at stands
    exact stands
  · rw [List.take_reverse, stretch_reverse, length]
    congr 2
    omega

/-- A walk leaves the path at one of its ends, or ends as R72 has it. -/
theorem walk_spec (at_ : OnPath g path l e) (d : Int) :
    (walk g path l d = none ∧ (reachOf g path l + d < 0 ∨ stretch g path < reachOf g path l + d)) ∨
    ∃ m f, walk g path l d = some m ∧ WalkEnds g path l d m f := by
  have stands := at_.stands
  have inside := (List.getElem?_eq_some_iff.1 stands).1
  have all := stretch_around (g := g) stands
  have before := stretch_nonneg g (path.take l.entry)
  have behind := stretch_nonneg g (path.drop (l.entry + 1))
  have reach := reachOf_eq (g := g) stands
  rw [walk, stands]
  dsimp only
  split
  · next falls =>
    rcases walkTowardB_spec g (l.entry - 1) (x := -(g.fromB e l.chainage + d)) (by omega) (path.take l.entry).reverse with
      ⟨left, far⟩ | ⟨k, f, y, nearer, ends, low, high, distance⟩
    · rw [stretch_reverse] at far
      exact .inl ⟨left, .inl (by omega)⟩
    · obtain ⟨near, stands', between⟩ := before_getElem? (g := g) inside.le nearer
      have earlier := stretch_take (g := g) stands' (show l.entry - 1 - k < l.entry by omega)
      refine .inr ⟨_, f, ends, onPath_fromB stands' low high.le, ?_, fun later => ?_, fun _ => ?_⟩
      · rw [reachOf_fromB stands']
        omega
      · dsimp only at later
        omega
      · rwa [Store.fromB_fromB]
  · split
    · next rises =>
      rcases walkTowardA_spec g (l.entry + 1) (x := g.fromB e l.chainage + d - g.microLength e) (by omega)
        (path.drop (l.entry + 1)) with ⟨left, far⟩ | ⟨k, f, y, further, ends, low, high, distance⟩
      · exact .inl ⟨left, .inr (by omega)⟩
      · have stands' : path[l.entry + 1 + k]? = some f := by rwa [List.getElem?_drop] at further
        have later := stretch_take (g := g) stands (show l.entry < l.entry + 1 + k by omega)
        rw [List.drop_take, Nat.add_sub_cancel_left] at later
        refine .inr ⟨_, f, ends, onPath_fromB stands' low.le high, ?_, fun _ => ?_, fun earlier => ?_⟩
        · rw [reachOf_fromB stands']
          omega
        · rwa [Store.fromB_fromB]
        · dsimp only at earlier
          omega
    · refine .inr ⟨_, e, rfl, onPath_fromB stands (by omega) (by omega), ?_, fun h => absurd h (lt_irrefl _),
        fun h => absurd h (lt_irrefl _)⟩
      rw [reachOf_fromB stands, reach, add_assoc]

/-- The same distance in two entries is the end of the one and the beginning of the other. -/
theorem OnPath.eq_ends {m' : Location} {f' : PathEntry} (at_ : OnPath g path m f) (at_' : OnPath g path m' f')
    (reach : reachOf g path m = reachOf g path m') (h : m.entry < m'.entry) :
    g.fromB f m.chainage = g.microLength f ∧ g.fromB f' m'.chainage = 0 := by
  have between := stretch_take_le (g := g) at_.stands h
  have high := at_.high
  have low := at_'.low
  rw [reachOf_eq at_.stands, reachOf_eq at_'.stands] at reach
  constructor <;> omega

/-- There is one place where a walk can end. -/
theorem WalkEnds.unique {m' : Location} {f' : PathEntry} (ends : WalkEnds g path l d m f) (ends' : WalkEnds g path l d m' f') :
    m = m' := by
  have reach : reachOf g path m = reachOf g path m' := ends.reach.trans ends'.reach.symm
  have apart {n n' : Location} {k k' : PathEntry} (a : WalkEnds g path l d n k) (a' : WalkEnds g path l d n' k') :
      ¬n.entry < n'.entry := by
    intro h
    obtain ⟨last, first⟩ := a.onPath.eq_ends a'.onPath (a.reach.trans a'.reach.symm) h
    by_cases side : l.entry < n'.entry
    · exact absurd first (a'.towardA side).ne'
    · exact absurd last (a.towardB (by omega)).ne
  have entry : m.entry = m'.entry := le_antisymm (not_lt.1 (apart ends' ends)) (not_lt.1 (apart ends ends'))
  obtain ⟨n, x⟩ := m
  obtain ⟨n', x'⟩ := m'
  obtain rfl : n = n' := entry
  obtain rfl : f = f' := Option.some.inj (ends.onPath.stands.symm.trans ends'.onPath.stands)
  rw [reachOf_eq ends.onPath.stands, reachOf_eq ends'.onPath.stands, add_right_inj] at reach
  have chainage := congrArg (g.fromB f) reach
  rw [Store.fromB_fromB, Store.fromB_fromB] at chainage
  exact congrArg _ chainage

/-- A walk ends exactly where R72 has it end. -/
theorem walk_eq_some_iff (at_ : OnPath g path l e) : walk g path l d = some m ↔ ∃ f, WalkEnds g path l d m f := by
  rcases walk_spec at_ d with ⟨none_, out⟩ | ⟨n, k, walked, ends⟩
  · rw [none_]
    refine ⟨nofun, fun ⟨f, ends⟩ => ?_⟩
    obtain ⟨low, high⟩ := ends.onPath.reachOf_within
    have := ends.reach
    omega
  · rw [walked]
    refine ⟨fun h => ⟨k, Option.some.inj h ▸ ends⟩, fun ⟨f, ends'⟩ => ?_⟩
    rw [ends.unique ends']

/-- A walk leaves the path exactly beyond its ends. -/
theorem walk_eq_none_iff (at_ : OnPath g path l e) :
    walk g path l d = none ↔ reachOf g path l + d < 0 ∨ stretch g path < reachOf g path l + d := by
  rcases walk_spec at_ d with ⟨none_, out⟩ | ⟨n, k, walked, ends⟩
  · exact iff_of_true none_ out
  · obtain ⟨low, high⟩ := ends.onPath.reachOf_within
    have := ends.reach
    refine iff_of_false (by rw [walked]; nofun) (by omega)

/-! ## Stores that walks do not tell apart -/

/-- A walk reads the lengths of the sections alone. -/
theorem walk_congr {h : Store} (length : ∀ i : Fin 32, h.sections[i].length = g.sections[i].length) (path : List PathEntry)
    (l : Location) : walk h path l = walk g path l := by
  have micro : h.microLength = g.microLength := funext fun e => by rw [Store.microLength, length, Store.microLength]
  have fromB : h.fromB = g.fromB := funext fun e => funext fun x => by rw [Store.fromB, micro, Store.fromB]
  have towardA (i : Nat) (x : Int) (rest : List PathEntry) : walkTowardA h i x rest = walkTowardA g i x rest := by
    induction rest generalizing i x with
    | nil => rfl
    | cons e rest ih => rw [walkTowardA, walkTowardA, micro, fromB, ih]
  have towardB (i : Nat) (x : Int) (rest : List PathEntry) : walkTowardB h i x rest = walkTowardB g i x rest := by
    induction rest generalizing i x with
    | nil => rfl
    | cons e rest ih => rw [walkTowardB, walkTowardB, micro, fromB, ih]
  funext d
  simp only [walk, micro, fromB, towardA, towardB]

/-! ## The obligation -/

/-- A location within its section by its chainage. -/
theorem OnPath.of_chainage (stands : path[l.entry]? = some e) (low : 0 ≤ l.chainage) (high : l.chainage ≤ g.microLength e) :
    OnPath g path l e :=
  have within := Store.fromB_within.2 ⟨low, high⟩
  ⟨stands, within.1, within.2⟩

theorem walkEndsAtItsPathDistance_walk : Claims.WalkEndsAtItsPathDistance := by
  intro g path l d e stands low high
  have at_ : OnPath g path l e := .of_chainage stands low high
  refine ⟨fun m walked => ?_, walk_eq_none_iff at_⟩
  obtain ⟨f, ends⟩ := (walk_eq_some_iff at_).1 walked
  refine ⟨?_, f, ends.onPath.stands, Store.fromB_within.1 ⟨ends.onPath.low, ends.onPath.high⟩⟩
  rw [pathDistance, ends.reach, add_sub_cancel_left]

theorem pathDistanceFollowsTheEntries : Claims.PathDistanceFollowsTheEntries := by
  intro g path x y e f standsX standsY length
  refine ⟨(neg_sub _ _).symm, fun same up => ?_, fun same down => ?_, fun before => ?_⟩ <;>
    rw [pathDistance, reachOf_eq standsX, reachOf_eq standsY]
  · obtain rfl : e = f := Option.some.inj (standsX.symm.trans (same ▸ standsY))
    rw [same, add_sub_add_left_eq_sub]
    simp only [Store.fromB, up]
  · obtain rfl : e = f := Option.some.inj (standsX.symm.trans (same ▸ standsY))
    rw [same, add_sub_add_left_eq_sub]
    simp only [Store.fromB, down, sub_sub_sub_cancel_left]
  · have between : (((path.take y.entry).drop (x.entry + 1)).map length).sum =
        stretch g ((path.take y.entry).drop (x.entry + 1)) := rfl
    have own : length e = g.microLength e := rfl
    rw [fromBSide_eq, fromBSide_eq, stretch_take standsX before, between, own]
    omega

theorem walkStopsAtTheEndItReaches : Claims.WalkStopsAtTheEndItReaches := by
  intro g path l e stands low high
  have at_ : OnPath g path l e := .of_chainage stands low high
  refine ⟨fun j f standsJ side => ?_, fun j f standsJ side => ?_, fun d m f walked standsM => ?_⟩
  · have long := g.microLength_nonneg f
    rw [walk_eq_some_iff at_, aSideEnd_eq]
    refine ⟨f, onPath_fromB standsJ long le_rfl, (add_sub_cancel _ _).symm, fun after => ?_, fun before => ?_⟩
    · rw [Store.fromB_fromB, Store.microLength]
      dsimp only at after
      omega
    · dsimp only at before
      omega
  · have long := g.microLength_nonneg f
    rw [walk_eq_some_iff at_, bSideEnd_eq]
    refine ⟨f, onPath_fromB standsJ le_rfl long, (add_sub_cancel _ _).symm, fun after => ?_, fun before => ?_⟩
    · dsimp only at after
      omega
    · rw [Store.fromB_fromB, Store.microLength]
      dsimp only at before
      omega
  · obtain ⟨k, ends⟩ := (walk_eq_some_iff at_).1 walked
    obtain rfl : k = f := Option.some.inj (ends.onPath.stands.symm.trans standsM)
    have reach := ends.reach
    rw [reachOf_eq standsM, reachOf_eq stands] at reach
    have within := at_.high
    have above := at_.low
    have inside := ends.onPath.high
    have outside := ends.onPath.low
    rw [fromBSide_eq]
    refine ⟨fun after => ?_, fun before => ?_⟩
    · have past := ends.towardA after
      have between := stretch_take_le (g := g) stands after
      exact ⟨by omega, past⟩
    · have short := ends.towardB before
      have between := stretch_take_le (g := g) standsM before
      exact ⟨by omega, short⟩

/-- Settles O31: by induction on the entries that an excess is carried into, a walk ends at the one place that has its
distance and is no end of an entry that it has left. -/
theorem walkEndsAtItsPathDistance : Obligations.WalkEndsAtItsPathDistance :=
  ⟨walkEndsAtItsPathDistance_walk, pathDistanceFollowsTheEntries, walkStopsAtTheEndItReaches⟩

end Sys2Proof.Machine
end

