-- ==== Sys2Proof/Proofs/PointsChanges.lean ====
section
/-!
SUPPORT. What a points change makes of the joints of the path (R68, R86 to R88): settles O32 and O33.
-/
namespace Sys2Proof.Machine

variable {s t : State} {change : PointsChange} {toe : EndRef} {held : List Nat} {toeAtA : Bool} {i j n : Nat}
  {path front : List PathEntry} {e : PathEntry} {outcomes : List JointOutcome} {rest : List PointsChange}
  {record : PointsRecord} {datum : Location}

/-! ## One joint (R86) -/

/-- A joint differs where it passes the points by a branch other than the setting. -/
theorem Via.differs_iff {via : Option Via} {points : Fin 16} {setting : Setting} :
    Via.differs via points setting = true ↔ ∃ b, via = some (.points points b) ∧ setting.code ≠ b.code := by
  rcases via with _ | _ | ⟨id, branch⟩
  · simp [Via.differs]
  · simp [Via.differs]
  · cases branch <;> cases setting <;> simp [Via.differs, Setting.code, Branch.code]

/-- A place is held on the B-side of a joint. -/
def HeldOnB (held : List Nat) (j : Nat) : Prop := ∃ n ∈ held, n < j

/-- A place is held on the A-side of a joint. -/
def HeldOnA (held : List Nat) (j : Nat) : Prop := ∃ n ∈ held, j ≤ n

/-- What becomes of a joint with the toe on a side, by the sides that are held (R86). -/
theorem classify_spec (held : List Nat) (toeAtA : Bool) (j : Nat) :
    (classify held toeAtA j = .mark ↔ HeldOnB held j ∧ HeldOnA held j) ∧
    (classify held toeAtA j = .removeBSide ↔ toeAtA = true ∧ HeldOnA held j ∧ ¬HeldOnB held j) ∧
    (classify held toeAtA j = .removeASide ↔ toeAtA = false ∧ HeldOnB held j ∧ ¬HeldOnA held j) := by
  have onB : HeldOnB held j ↔ (held.any fun i => decide (i < j)) = true := by simp [HeldOnB]
  have onA : HeldOnA held j ↔ (held.any fun i => decide (j ≤ i)) = true := by simp [HeldOnA]
  rw [onB, onA, classify]
  cases (held.any fun i => decide (i < j)) <;> cases (held.any fun i => decide (j ≤ i)) <;> cases toeAtA <;> decide

/-- The outcome at the joint of an entry at a place. -/
def jointOutcome (change : PointsChange) (toe : EndRef) (held : List Nat) (j : Nat) (e : PathEntry) : JointOutcome :=
  if Via.differs e.via change.points change.after then classify held (decide (toe = ⟨e.sec, e.orientation.bSide⟩)) j
  else .untouched

/-- The joint of an entry passes the points by a branch that the change leaves. -/
def Differs (change : PointsChange) (e : PathEntry) : Prop :=
  ∃ b, e.via = some (.points change.points b) ∧ change.after.code ≠ b.code

theorem jointOutcome_of_latched (h : ¬Differs change e) : jointOutcome change toe held j e = .untouched :=
  if_neg (mt Via.differs_iff.1 h)

theorem jointOutcome_of_differs (h : Differs change e) :
    jointOutcome change toe held j e = classify held (decide (toe = ⟨e.sec, e.orientation.bSide⟩)) j :=
  if_pos (Via.differs_iff.2 h)

/-- An outcome other than untouched is that of a joint that differs. -/
theorem jointOutcome_eq_iff {o : JointOutcome} (touched : o ≠ .untouched) : jointOutcome change toe held j e = o ↔
    Differs change e ∧ classify held (decide (toe = ⟨e.sec, e.orientation.bSide⟩)) j = o := by
  by_cases differs : Differs change e
  · rw [jointOutcome_of_differs differs, and_iff_right differs]
  · rw [jointOutcome_of_latched differs]
    exact iff_of_false touched.symm fun h => differs h.1

theorem jointOutcome_mark :
    jointOutcome change toe held j e = .mark ↔ Differs change e ∧ HeldOnB held j ∧ HeldOnA held j := by
  rw [jointOutcome_eq_iff (o := .mark) nofun, (classify_spec _ _ _).1]

theorem jointOutcome_removeBSide : jointOutcome change toe held j e = .removeBSide ↔
    Differs change e ∧ toe = ⟨e.sec, e.orientation.bSide⟩ ∧ HeldOnA held j ∧ ¬HeldOnB held j := by
  rw [jointOutcome_eq_iff (o := .removeBSide) nofun, (classify_spec _ _ _).2.1, decide_eq_true_iff]

theorem jointOutcome_removeASide : jointOutcome change toe held j e = .removeASide ↔
    Differs change e ∧ toe ≠ ⟨e.sec, e.orientation.bSide⟩ ∧ HeldOnB held j ∧ ¬HeldOnA held j := by
  rw [jointOutcome_eq_iff (o := .removeASide) nofun, (classify_spec _ _ _).2.2, decide_eq_false_iff_not]

/-! ## All joints (R86) -/

theorem jointOutcomes_getElem? (i : Nat) : (jointOutcomes change toe held j path)[i]? =
    path[i]?.map fun e => jointOutcome change toe held (j + i) e := by
  induction path generalizing i j with
  | nil => rfl
  | cons e rest ih =>
    cases i with
    | zero => rfl
    | succ i =>
      rw [jointOutcomes, List.getElem?_cons_succ, List.getElem?_cons_succ, ih, Nat.add_right_comm, Nat.add_assoc]

/-- The joints of a stretch that differ nowhere are untouched. -/
theorem jointOutcomes_of_latched (h : ∀ e ∈ path, ¬Differs change e) :
    jointOutcomes change toe held j path = List.replicate path.length .untouched := by
  refine List.eq_replicate_iff.2 ⟨jointOutcomes_length, fun o mem => ?_⟩
  obtain ⟨i, at_⟩ := List.getElem?_of_mem mem
  rw [jointOutcomes_getElem?, Option.map_eq_some_iff] at at_
  obtain ⟨e, stands, rfl⟩ := at_
  exact jointOutcome_of_latched (h e (List.mem_of_getElem? stands))

theorem jointOutcomes_append : jointOutcomes change toe held j (front ++ path) =
    jointOutcomes change toe held j front ++ jointOutcomes change toe held (j + front.length) path := by
  induction front generalizing j with
  | nil => rfl
  | cons e rest ih =>
    simp only [List.cons_append, jointOutcomes, ih, List.length_cons, Nat.add_assoc, Nat.add_comm 1]

/-- The first place kept is that of the last joint whose B-side is removed (R87). -/
theorem keepFrom_spec (j : Nat) (outcomes : List JointOutcome) :
    (∀ i, outcomes[i]? = some .removeBSide → j + i ≤ keepFrom j outcomes) ∧
    (keepFrom j outcomes = 0 ∨ ∃ i, outcomes[i]? = some .removeBSide ∧ keepFrom j outcomes = j + i) := by
  induction outcomes generalizing j with
  | nil => exact ⟨nofun, .inl rfl⟩
  | cons o rest ih =>
    obtain ⟨above, reached⟩ := ih (j + 1)
    have later : keepFrom (j + 1) rest = 0 ∨
        ∃ i, (o :: rest)[i]? = some .removeBSide ∧ keepFrom (j + 1) rest = j + i := by
      refine reached.imp_right fun ⟨i, at_, place⟩ => ⟨i + 1, at_, ?_⟩
      omega
    rw [keepFrom]
    split
    · next removed =>
      refine ⟨fun i at_ => ?_, ?_⟩
      · cases i with
        | zero => exact le_max_left _ _
        | succ i => exact le_max_of_le_right (by have := above i at_; omega)
      · rcases max_choice j (keepFrom (j + 1) rest) with h | h <;> rw [h]
        · exact .inr ⟨0, congrArg some removed, rfl⟩
        · exact later
    · next kept =>
      refine ⟨fun i at_ => ?_, later⟩
      cases i with
      | zero => exact absurd (Option.some.inj at_) kept
      | succ i => have := above i at_; omega

/-- The place behind the last one kept is that of the first joint whose A-side is removed (R87). -/
theorem keepTo_spec (length j : Nat) (outcomes : List JointOutcome) :
    (∀ i, outcomes[i]? = some .removeASide → keepTo length j outcomes ≤ j + i) ∧
    (keepTo length j outcomes = length ∨
      ∃ i, outcomes[i]? = some .removeASide ∧ keepTo length j outcomes = j + i) := by
  induction outcomes generalizing j with
  | nil => exact ⟨nofun, .inl rfl⟩
  | cons o rest ih =>
    rw [keepTo]
    split
    · next removed => exact ⟨fun i _ => Nat.le_add_right j i, .inr ⟨0, congrArg some removed, rfl⟩⟩
    · next kept =>
      obtain ⟨below, reached⟩ := ih (j + 1)
      refine ⟨fun i at_ => ?_, reached.imp_right fun ⟨i, at_, place⟩ => ⟨i + 1, at_, by omega⟩⟩
      cases i with
      | zero => exact absurd (Option.some.inj at_) kept
      | succ i => have := below i at_; omega

theorem keepFrom_eq_zero (h : .removeBSide ∉ outcomes) : keepFrom j outcomes = 0 :=
  (keepFrom_spec j outcomes).2.resolve_right fun ⟨_, at_, _⟩ => h (List.mem_of_getElem? at_)

theorem keepTo_eq_length (h : .removeASide ∉ outcomes) : keepTo n j outcomes = n :=
  (keepTo_spec n j outcomes).2.resolve_right fun ⟨_, at_, _⟩ => h (List.mem_of_getElem? at_)

theorem not_mem_untouched {o : JointOutcome} (touched : o ≠ .untouched) : o ∉ List.replicate n .untouched :=
  fun mem => touched (List.eq_of_mem_replicate mem)

/-- The entries of a path with its straddled joints marked (R88). -/
theorem markEntries_getElem? (i : Nat) : (markEntries path (jointOutcomes change toe held 0 path))[i]? =
    path[i]?.map fun e => if jointOutcome change toe held i e = .mark then { e with moved := true } else e := by
  rw [markEntries, List.getElem?_zipWith, jointOutcomes_getElem?, Nat.zero_add]
  cases path[i]? <;> rfl

/-- Where no outcome marks, no entry is marked. -/
theorem markEntries_of_unmarked (length : path.length = outcomes.length) (h : .mark ∉ outcomes) :
    markEntries path outcomes = path := by
  induction path generalizing outcomes with
  | nil => rfl
  | cons e rest ih =>
    cases outcomes with
    | nil => cases length
    | cons o outcomes =>
      obtain ⟨here, later⟩ := not_or.1 (mt List.mem_cons.2 h)
      rw [markEntries, List.zipWith_cons_cons, if_neg (Ne.symm here)]
      exact congrArg _ (ih (Nat.succ.inj length) later)

/-- A path cut at neither end. -/
theorem cutPath_whole (h : path.length ≤ n) : cutPath 0 n path = path := List.take_of_length_le h

/-! ## What a points change makes of a state (R86 to R88) -/

/-- The state with a change taken from those handed over. -/
def State.changesLeft (s : State) (rest : List PointsChange) : State :=
  { s with store := { s.store with changes := rest } }

/-- The changes handed over do not show in the places held. -/
theorem heldPlaces_changesLeft (v : VehicleRecord) :
    heldPlaces (s.changesLeft rest).store v path datum = heldPlaces s.store v path datum := by
  have walks : walk (s.changesLeft rest).store path datum = walk s.store path datum :=
    walk_congr (g := s.store) (h := (s.changesLeft rest).store) (fun _ => rfl) _ _
  rw [heldPlaces, walks, heldPlaces]

/-- The outcomes at the joints of a state's path. -/
def State.outcomesOf (s : State) (c : PointsChange) (p : PointsRecord) (datum : Location) : List JointOutcome :=
  jointOutcomes c p.toe (heldPlaces s.store s.vehicleView s.path datum) 0 s.path

/-- Entries that no cut drops leave the tracker as it is. -/
theorem Tracker.dropEntries_zero (x : Tracker) : x.dropEntries 0 = x := by
  simp [Tracker.dropEntries]

/-- Whether a joint's outcome removes a side. -/
def anyRemoved (outcomes : List JointOutcome) : Bool := outcomes.any fun o => o = .removeASide ∨ o = .removeBSide

/-- From `s` to `t` a points change with these outcomes has been applied, with these changes left. -/
structure PointsChanged (s t : State) (outcomes : List JointOutcome) (rest : List PointsChange) : Prop where
  rest : t = { s with store := { s.store with sections := t.store.sections, changes := rest }, path := t.path,
                      tracker := t.tracker, monitor := t.monitor, link := { s.link with notices := t.link.notices } }
  path : t.path = cutPath (keepFrom 0 outcomes) (keepTo s.path.length 0 outcomes) (markEntries s.path outcomes)
  tracker : t.tracker = s.tracker.dropEntries (keepFrom 0 outcomes)
  sections : ∀ i : Fin 32, t.store.sections[i] =
    { s.store.sections[i] with occupancy := t.path.countP fun f => f.sec = i }
  under : t.present (ofVehicle .pointsMovedUnder) = t.path.any fun f => f.moved
  full : t.present (ofVehicle .pathFull) = s.present (ofVehicle .pathFull)
  ahead : t.present (ofVehicle .geometryUnknownAhead) =
    if anyRemoved outcomes then
      (walkDatum t.store t.path t.tracker.datum (s.vehicleView.reachTarget s.tracker.sign)).isNone
    else s.present (ofVehicle .geometryUnknownAhead)

/-- A path put in force after entries have left at the B-end (R68, R69). -/
def State.cutTo (s : State) (n : Nat) (path : List PathEntry) : State :=
  { s with tracker := s.tracker.dropEntries n }.setPath path

theorem State.trackerMoved_cutTo (n : Nat) (path : List PathEntry) : s.TrackerMoved (s.cutTo n path) :=
  State.TrackerMoved.trans (rfl : s.TrackerMoved { s with tracker := s.tracker.dropEntries n })
    (State.trackerMoved_setPath _)

/-- A change applied: the path cut and marked, GEOMETRY_UNKNOWN_AHEAD judged after a removal, and POINTS_MOVED_UNDER
(R86 to R88). -/
theorem State.applyChange_eq (s : State) (c : PointsChange) (p : PointsRecord) (datum : Location)
    (h : s.outcomesOf c p datum = outcomes) : s.applyChange c p datum =
      let u := s.cutTo (keepFrom 0 outcomes)
        (cutPath (keepFrom 0 outcomes) (keepTo s.path.length 0 outcomes) (markEntries s.path outcomes))
      (u.reportIf (ofVehicle .geometryUnknownAhead) (if anyRemoved outcomes then
        some (walkDatum u.store u.path u.tracker.datum (s.vehicleView.reachTarget s.tracker.sign)).isNone
      else none)).judgeMoved := by
  subst h
  rw [State.applyChange]
  dsimp only
  split
  · next removed =>
    have any : anyRemoved (s.outcomesOf c p datum) = true := removed
    rw [if_pos any]
    rfl
  · next kept =>
    have none_ : ¬anyRemoved (s.outcomesOf c p datum) = true := kept
    rw [if_neg none_]
    rfl

theorem State.reportIf_present (i j : Fin 48) (x : Option Bool) :
    (s.reportIf i x).present j = if i = j then x.getD (s.present i) else s.present j := by
  cases x with
  | none =>
    rw [State.reportIf, Option.getD_none]
    split
    · next same => rw [same]
    · rfl
  | some v => exact State.report_present s i j v

theorem State.trackerMoved_reportIf (i : Fin 48) (x : Option Bool) : s.TrackerMoved (s.reportIf i x) := by
  cases x with
  | none => rfl
  | some v => exact State.trackerMoved_report i v

theorem State.takeChange_eq (changes : s.store.changes = change :: rest) (at_ : s.tracker.datum = some datum)
    (defined : s.store.points[change.points] = some record) :
    s.takeChange = (s.changesLeft rest).applyChange change record datum := by
  rw [State.takeChange, changes]
  dsimp only
  rw [at_, defined]
  rfl

theorem State.exec_pointsChange (running : s.power = .running) : exec .pointsChange s = .next s.takeChange :=
  congrArg Host.Outcome.next (State.whileRunning_of_running running _)

/-- A points change with a path present (R86 to R88). -/
theorem pointsChanged (running : s.power = .running) (changes : s.store.changes = change :: rest)
    (at_ : s.tracker.datum = some datum) (defined : s.store.points[change.points] = some record) :
    ∃ t, exec .pointsChange s = .next t ∧ PointsChanged s t (s.outcomesOf change record datum) rest := by
  have same : (s.changesLeft rest).outcomesOf change record datum = s.outcomesOf change record datum := by
    rw [State.outcomesOf, heldPlaces_changesLeft]
    rfl
  refine ⟨_, State.exec_pointsChange running, ?_⟩
  rw [State.takeChange_eq changes at_ defined, State.applyChange_eq _ _ _ _ same]
  generalize s.outcomesOf change record datum = outcomes
  extract_lets u
  have cut : (s.changesLeft rest).TrackerMoved u := State.trackerMoved_cutTo _ _
  have sections (i : Fin 32) :
      u.store.sections[i] = { s.store.sections[i] with occupancy := u.path.countP fun f => f.sec = i } :=
    Store.recount_section _ _ i
  have present (i : Fin 48) : u.present i = s.present i := State.setPath_present _ i
  have path : u.path = cutPath (keepFrom 0 outcomes) (keepTo s.path.length 0 outcomes) (markEntries s.path outcomes) := rfl
  have tracker : u.tracker = s.tracker.dropEntries (keepFrom 0 outcomes) := rfl
  clear_value u
  generalize x : (if anyRemoved outcomes = true then some _ else none : Option Bool) = ahead
  have moved := (cut.trans (State.trackerMoved_reportIf (ofVehicle .geometryUnknownAhead) ahead)).trans
    (State.trackerMoved_report (ofVehicle .pointsMovedUnder) (u.path.any fun e => e.moved))
  have judged : (u.reportIf (ofVehicle .geometryUnknownAhead) ahead).judgeMoved =
      (u.reportIf (ofVehicle .geometryUnknownAhead) ahead).report (ofVehicle .pointsMovedUnder)
        (u.path.any fun e => e.moved) := by
    rw [State.judgeMoved, State.reportIf_path]
  rw [judged]
  refine ⟨moved, ?_, ?_, fun i => ?_, ?_, ?_, ?_⟩
  · simpa using path
  · simpa using tracker
  · simpa using sections i
  · simp [State.report_present]
  · simp [State.report_present, State.reportIf_present, ofVehicle_inj, present]
  · simp [State.report_present, State.reportIf_present, ofVehicle_inj, present, ← x]
    split <;> rfl
/-! ## A change that leaves the path (R86) -/

/-- Counts that are those of the path stay when it is put in force again (R69). -/
theorem Store.recount_of_counts {g : Store} (counts : ∀ i : Fin 32, g.sections[i].occupancy = path.countP fun e => e.sec = i) :
    g.recount path = g := by
  have sections : (g.recount path).sections = g.sections := Vector.ext fun i hi => by
    have same := g.recount_section path ⟨i, hi⟩
    rw [namedBy, ← counts] at same
    exact same
  exact congrArg (fun v => ({ g with sections := v } : Store)) sections

/-- A change that differs from no latched branch leaves everything as it is. -/
theorem State.applyChange_of_latched (latched : ∀ e ∈ s.path, ¬Differs change e)
    (counts : ∀ i : Fin 32, s.store.sections[i].occupancy = s.path.countP fun e => e.sec = i)
    (moved : s.present (ofVehicle .pointsMovedUnder) = s.path.any fun e => e.moved) :
    s.applyChange change record datum = s := by
  have outcomes : s.outcomesOf change record datum = List.replicate s.path.length .untouched :=
    jointOutcomes_of_latched latched
  have kept : anyRemoved (List.replicate s.path.length .untouched) = false :=
    List.any_eq_false.2 fun o mem => by rw [List.eq_of_mem_replicate mem]; decide
  have same : s.cutTo 0 s.path = s := by
    rw [State.cutTo, Tracker.dropEntries_zero, State.setPath, Store.recount_of_counts counts]
  rw [State.applyChange_eq _ _ _ _ outcomes, keepFrom_eq_zero (not_mem_untouched nofun),
    keepTo_eq_length (not_mem_untouched nofun),
    markEntries_of_unmarked (List.length_replicate ..).symm (not_mem_untouched nofun), cutPath_whole le_rfl, kept, same]
  exact State.report_of_present moved

/-- Settles O32: a change that meets no path changes none, and one that differs from no latched branch leaves every joint
untouched. -/
theorem pointsChangeMayLeaveThePath : Obligations.PointsChangeMayLeaveThePath := by
  intro s running sound moved
  refine ⟨fun none_ => ?_, fun c rest changes latched => ?_⟩
  · rw [State.exec_pointsChange running, State.takeChange, none_]
  · rw [State.exec_pointsChange running]
    refine congrArg _ ?_
    cases at_ : s.tracker.datum with
    | none =>
      rw [State.takeChange, changes]
      dsimp only
      rw [at_]
    | some datum =>
      cases defined : s.store.points[c.points] with
      | none =>
        rw [State.takeChange, changes]
        dsimp only
        rw [at_, defined]
      | some p =>
        rw [at_, defined] at latched
        have same : ∀ e ∈ s.path, ¬Differs c e := fun e mem ⟨b, via, differs⟩ =>
          differs ((latched.resolve_left nofun).resolve_left nofun e mem b via)
        rw [State.takeChange_eq changes at_ defined]
        refine State.applyChange_of_latched (s := s.changesLeft rest) same sound.occupancy ?_
        exact Bool.eq_iff_iff.2 (moved.trans (by simp [State.changesLeft]))

/-! ## A change at one joint (R86 to R88) -/

/-- The outcomes at a path's joints where one of them alone differs. -/
def soleOutcome (n k : Nat) (o : JointOutcome) : List JointOutcome :=
  List.replicate n .untouched ++ o :: List.replicate k .untouched

theorem keepFrom_untouched_append (n j : Nat) (outcomes : List JointOutcome) :
    keepFrom j (List.replicate n .untouched ++ outcomes) = keepFrom (j + n) outcomes := by
  induction n generalizing j with
  | zero => rfl
  | succ n ih =>
    rw [List.replicate_succ, List.cons_append, keepFrom, if_neg nofun, ih, Nat.add_right_comm, Nat.add_assoc]

theorem keepTo_untouched_append (length n j : Nat) (outcomes : List JointOutcome) :
    keepTo length j (List.replicate n .untouched ++ outcomes) = keepTo length (j + n) outcomes := by
  induction n generalizing j with
  | zero => rfl
  | succ n ih =>
    rw [List.replicate_succ, List.cons_append, keepTo, if_neg nofun, ih, Nat.add_right_comm, Nat.add_assoc]

theorem keepFrom_sole (n k : Nat) (o : JointOutcome) :
    keepFrom 0 (soleOutcome n k o) = if o = .removeBSide then n else 0 := by
  rw [soleOutcome, keepFrom_untouched_append, keepFrom, keepFrom_eq_zero (not_mem_untouched nofun), Nat.zero_add,
    Nat.max_zero]

theorem keepTo_sole (length n k : Nat) (o : JointOutcome) :
    keepTo length 0 (soleOutcome n k o) = if o = .removeASide then n else length := by
  rw [soleOutcome, keepTo_untouched_append, keepTo, keepTo_eq_length (not_mem_untouched nofun), Nat.zero_add]

theorem markEntries_untouched : markEntries path (List.replicate path.length .untouched) = path :=
  markEntries_of_unmarked (List.length_replicate ..).symm (not_mem_untouched nofun)

theorem markEntries_sole (o : JointOutcome) : markEntries (front ++ e :: path) (soleOutcome front.length path.length o) =
    front ++ (if o = .mark then { e with moved := true } else e) :: path := by
  have split : markEntries (front ++ e :: path) (soleOutcome front.length path.length o) =
      markEntries front (List.replicate front.length .untouched) ++
        (if o = .mark then { e with moved := true } else e) :: markEntries path (List.replicate path.length .untouched) :=
    List.zipWith_append (List.length_replicate ..).symm
  rw [split, markEntries_untouched, markEntries_untouched]

theorem anyRemoved_sole (n k : Nat) (o : JointOutcome) :
    anyRemoved (soleOutcome n k o) = decide (o = .removeASide ∨ o = .removeBSide) := by
  have none_ (n : Nat) : anyRemoved (List.replicate n .untouched) = false :=
    List.any_eq_false.2 fun o mem => by rw [List.eq_of_mem_replicate mem]; decide
  unfold anyRemoved at none_ ⊢
  rw [soleOutcome, List.any_append, List.any_cons, none_, none_, Bool.false_or, Bool.or_false]

/-- What is left of a path by the outcome at its one joint that differs (R86 to R88). -/
def cutAtJoint (onB : List PathEntry) (e : PathEntry) (onA : List PathEntry) : JointOutcome → List PathEntry
  | .untouched => onB ++ e :: onA
  | .removeBSide => { e with via := none, moved := false } :: onA
  | .removeASide => onB
  | .mark => onB ++ { e with moved := true } :: onA

theorem cutPath_sole {onB onA : List PathEntry} (some_ : onB ≠ []) (o : JointOutcome) :
    let outcomes := soleOutcome onB.length onA.length o
    cutPath (keepFrom 0 outcomes) (keepTo (onB ++ e :: onA).length 0 outcomes) (markEntries (onB ++ e :: onA) outcomes) =
      cutAtJoint onB e onA o := by
  intro outcomes
  rw [keepFrom_sole, keepTo_sole, markEntries_sole]
  cases o with
  | untouched => exact cutPath_whole le_rfl
  | mark => exact cutPath_whole (by simp)
  | removeASide => exact List.take_left
  | removeBSide =>
    have long : onB.length ≠ 0 := mt List.length_eq_zero_iff.1 some_
    show cutPath onB.length (onB ++ e :: onA).length (onB ++ e :: onA) = _
    rw [cutPath_rear, if_neg long, List.drop_left]
    rfl

theorem pointsChangeClassifiesTheJoint_sole : Claims.PointsChangeClassifiesTheJoint := by
  intro s c rest p datum onB onA e branch running changes at_ defined shape some_ via differs others
  obtain ⟨t, stepped, changed⟩ := pointsChanged running changes at_ defined
  have latched : ∀ f ∈ onB ++ onA, ¬Differs c f := fun f mem ⟨b, via, _⟩ => others f mem b via
  have sole : s.outcomesOf c p datum = soleOutcome onB.length onA.length
      (classify (heldPlaces s.store s.vehicleView s.path datum) (decide (p.toe = ⟨e.sec, e.orientation.bSide⟩)) onB.length) := by
    rw [State.outcomesOf]
    generalize heldPlaces s.store s.vehicleView s.path datum = held
    rw [shape, jointOutcomes_append, jointOutcomes_of_latched fun f mem => latched f (List.mem_append_left _ mem),
      Nat.zero_add, jointOutcomes.eq_def]
    dsimp only
    rw [jointOutcomes_of_latched fun f mem => latched f (List.mem_append_right _ mem),
      if_pos (Via.differs_iff.2 ⟨branch, via, differs⟩)]
    rfl
  obtain ⟨mark, removeB, removeA⟩ := classify_spec (heldPlaces s.store s.vehicleView s.path datum)
    (decide (p.toe = ⟨e.sec, e.orientation.bSide⟩)) onB.length
  rw [decide_eq_true_iff] at removeB
  rw [decide_eq_false_iff_not] at removeA
  generalize classify _ _ _ = o at sole mark removeB removeA
  rw [sole] at changed
  have path := changed.path
  have tracker := changed.tracker
  have ahead := changed.ahead
  rw [shape, cutPath_sole some_] at path
  rw [keepFrom_sole] at tracker
  rw [anyRemoved_sole] at ahead
  refine ⟨t, stepped, ?_⟩
  intro held holdsB holdsA toeOnA unknownAhead
  refine ⟨fun toe a b => ?_, fun toe b a => ?_, fun b a => ?_, fun noToe => ?_, changed.under, changed.full,
    changed.sections, changed.rest⟩
  · obtain rfl := removeB.2 ⟨toe, a, b⟩
    refine ⟨path, tracker, ?_, ahead⟩
    rw [tracker, Tracker.dropEntries, at_]
    rfl
  · obtain rfl := removeA.2 ⟨toe, b, a⟩
    exact ⟨path, tracker.trans (Tracker.dropEntries_zero _), ahead⟩
  · obtain rfl := mark.2 ⟨b, a⟩
    exact ⟨path, tracker.trans (Tracker.dropEntries_zero _), ahead⟩
  · have untouched : o = .untouched := by
      cases o with
      | untouched => rfl
      | mark =>
        obtain ⟨b, a⟩ := mark.1 rfl
        exact absurd (by split <;> assumption) noToe
      | removeBSide =>
        obtain ⟨toe, a, -⟩ := removeB.1 rfl
        exact absurd (by rwa [if_pos toe]) noToe
      | removeASide =>
        obtain ⟨toe, b, -⟩ := removeA.1 rfl
        exact absurd (by rwa [if_neg toe]) noToe
    subst untouched
    exact ⟨path.trans shape.symm, tracker.trans (Tracker.dropEntries_zero _)⟩

/-! ## A change at any number of joints (R86 to R88) -/

/-- What stands at a place of a path cut at both ends (R68, R81). -/
theorem cutPath_getElem? {lo hi : Nat} (inside : i < hi - lo) : (cutPath lo hi path)[i]? =
    path[lo + i]?.map fun e => if i = 0 ∧ lo ≠ 0 then { e with via := none, moved := false } else e := by
  have taken : lo + i < hi := by omega
  unfold cutPath
  split
  · next zero =>
    subst zero
    rw [Nat.zero_add] at taken ⊢
    rw [List.getElem?_take_of_lt taken]
    simp
  · next cut =>
    have at_ : ((path.take hi).drop lo)[i]? = path[lo + i]? := by
      rw [List.getElem?_drop, List.getElem?_take_of_lt taken]
    rw [← at_]
    cases i with
    | zero => cases (path.take hi).drop lo <;> simp [bareHead, cut]
    | succ i => rw [bareHead_getElem?_pos (Nat.succ_pos i)]; simp

/-- The joint of the entry at a place passes the points by a branch that the change leaves, and the entry meets a test. -/
def JointAt (path : List PathEntry) (change : PointsChange) (j : Nat) (meets : PathEntry → Prop) : Prop :=
  ∃ e branch, path[j]? = some e ∧ e.via = some (.points change.points branch) ∧ change.after.code ≠ branch.code ∧ meets e

theorem jointAt_iff {meets : PathEntry → Prop} :
    JointAt path change j meets ↔ ∃ e, path[j]? = some e ∧ Differs change e ∧ meets e :=
  exists_congr fun _ => ⟨fun ⟨b, stands, via, differs, met⟩ => ⟨stands, ⟨b, via, differs⟩, met⟩,
    fun ⟨stands, ⟨b, via, differs⟩, met⟩ => ⟨b, stands, via, differs, met⟩⟩

theorem jointOutcomes_eq_iff {o : JointOutcome} : (jointOutcomes change toe held 0 path)[j]? = some o ↔
    ∃ e, path[j]? = some e ∧ jointOutcome change toe held j e = o := by
  rw [jointOutcomes_getElem?, Nat.zero_add, Option.map_eq_some_iff]

theorem jointOutcomes_removeBSide : (jointOutcomes change toe held 0 path)[j]? = some .removeBSide ↔
    JointAt path change j fun e => toe = ⟨e.sec, e.orientation.bSide⟩ ∧ HeldOnA held j ∧ ¬HeldOnB held j := by
  rw [jointOutcomes_eq_iff, jointAt_iff]
  simp only [jointOutcome_removeBSide]

theorem jointOutcomes_removeASide : (jointOutcomes change toe held 0 path)[j]? = some .removeASide ↔
    JointAt path change j fun e => toe ≠ ⟨e.sec, e.orientation.bSide⟩ ∧ HeldOnB held j ∧ ¬HeldOnA held j := by
  rw [jointOutcomes_eq_iff, jointAt_iff]
  simp only [jointOutcome_removeASide]

theorem jointOutcome_mark_iff (stands : path[j]? = some e) : jointOutcome change toe held j e = .mark ↔
    JointAt path change j fun _ => HeldOnB held j ∧ HeldOnA held j := by
  rw [jointOutcome_mark, jointAt_iff]
  refine ⟨fun ⟨differs, sides⟩ => ⟨e, stands, differs, sides⟩, fun ⟨f, stands', differs, sides⟩ => ?_⟩
  obtain rfl : e = f := Option.some.inj (stands.symm.trans stands')
  exact ⟨differs, sides⟩

/-- A side is removed where a joint removes it. -/
theorem anyRemoved_iff : anyRemoved outcomes = true ↔
    ∃ j : Nat, outcomes[j]? = some .removeBSide ∨ outcomes[j]? = some .removeASide := by
  simp only [anyRemoved, List.any_eq_true, decide_eq_true_eq, List.mem_iff_getElem?]
  constructor
  · rintro ⟨o, ⟨j, at_⟩, rfl | rfl⟩
    exacts [⟨j, .inr at_⟩, ⟨j, .inl at_⟩]
  · rintro ⟨j, at_ | at_⟩
    exacts [⟨_, ⟨j, at_⟩, .inr rfl⟩, ⟨_, ⟨j, at_⟩, .inl rfl⟩]

/-- The first place kept and the one behind the last are 0 and the length, or those of joints that remove a side. -/
theorem keep_spec (length : Nat) (outcomes : List JointOutcome) :
    ((∀ j, outcomes[j]? = some .removeBSide → j ≤ keepFrom 0 outcomes) ∧
      (keepFrom 0 outcomes = 0 ∨ outcomes[keepFrom 0 outcomes]? = some .removeBSide)) ∧
    (∀ j, outcomes[j]? = some .removeASide → keepTo length 0 outcomes ≤ j) ∧
      (keepTo length 0 outcomes = length ∨ outcomes[keepTo length 0 outcomes]? = some .removeASide) := by
  obtain ⟨above, fromAt⟩ := keepFrom_spec 0 outcomes
  obtain ⟨below, toAt⟩ := keepTo_spec length 0 outcomes
  simp only [Nat.zero_add] at above fromAt below toAt
  exact ⟨⟨above, fromAt.imp_right fun ⟨j, at_, place⟩ => place ▸ at_⟩, below,
    toAt.imp_right fun ⟨j, at_, place⟩ => place ▸ at_⟩

theorem pointsChangeClassifiesEveryJoint : Claims.PointsChangeClassifiesEveryJoint := by
  intro s c rest p datum running changes at_ defined
  obtain ⟨t, stepped, changed⟩ := pointsChanged running changes at_ defined
  obtain ⟨⟨above, fromAt⟩, below, toAt⟩ := keep_spec s.path.length (s.outcomesOf c p datum)
  have path := changed.path
  have tracker := changed.tracker
  have ahead := changed.ahead
  have length : (s.outcomesOf c p datum).length = s.path.length := jointOutcomes_length
  have marks (j : Nat) := markEntries_getElem? (change := c) (toe := p.toe)
    (held := heldPlaces s.store s.vehicleView s.path datum) (path := s.path) j
  have marked : (markEntries s.path (s.outcomesOf c p datum)).length = s.path.length := by
    rw [markEntries_length, length, min_self]
  generalize keepFrom 0 (s.outcomesOf c p datum) = lo at above fromAt path tracker
  generalize keepTo s.path.length 0 (s.outcomesOf c p datum) = hi at below toAt path
  have inside : hi ≤ s.path.length := by
    rcases toAt with whole | at_
    · exact whole.le
    · exact length ▸ (List.getElem?_eq_some_iff.1 at_).1.le
  refine ⟨t, stepped, lo, hi, fun j leaves => above j (jointOutcomes_removeBSide.2 leaves),
    fromAt.imp_right jointOutcomes_removeBSide.1, fun j leaves => below j (jointOutcomes_removeASide.2 leaves),
    toAt.imp_right jointOutcomes_removeASide.1, ?_, fun i e within stands => ?_, tracker, changed.under, changed.full,
    fun ⟨j, leaves⟩ => ?_, fun stays => ?_⟩
  · rw [path, cutPath_length, marked, min_eq_left inside]
  · have at_ : (markEntries s.path (s.outcomesOf c p datum))[lo + i]? = some (if jointOutcome c p.toe
        (heldPlaces s.store s.vehicleView s.path datum) (lo + i) e = .mark then { e with moved := true } else e) :=
      (marks (lo + i)).trans (by rw [stands]; rfl)
    refine ⟨fun first cut => ?_, fun later => ⟨fun straddled => ?_, fun kept => ?_⟩⟩
    · subst first
      rw [path, cutPath_getElem? within, at_, Option.map_some, if_pos ⟨rfl, cut⟩]
      split <;> rfl
    · rw [path, cutPath_getElem? within, at_, Option.map_some, if_neg (by omega),
        if_pos ((jointOutcome_mark_iff stands).2 straddled)]
    · rw [path, cutPath_getElem? within, at_, Option.map_some, if_neg (by omega),
        if_neg (mt (jointOutcome_mark_iff stands).1 kept)]
  · exact ahead.trans
      (if_pos (anyRemoved_iff.2 ⟨j, leaves.imp jointOutcomes_removeBSide.2 jointOutcomes_removeASide.2⟩))
  · refine ahead.trans (if_neg fun any => stays ?_)
    obtain ⟨j, at_⟩ := anyRemoved_iff.1 any
    exact ⟨j, at_.imp jointOutcomes_removeBSide.1 jointOutcomes_removeASide.1⟩

/-! ## The places held (R68, R86) -/

theorem placesHeldAreTheVehicles : Claims.PlacesHeldAreTheVehicles := by
  refine ⟨fun g v path datum n => ?_, fun n t => ⟨rfl, rfl, fun none_ => ?_, fun l at_ => ?_, fun none_ => ?_, fun d at_ => ?_⟩⟩
  · simp only [heldPlaces, List.mem_cons, List.mem_map, List.mem_filterMap, mem_offsets]
    refine or_congr_right ⟨?_, ?_⟩
    · rintro ⟨l, ⟨o, ⟨c, configured, rfl⟩, walked⟩, place⟩
      exact ⟨c, l, configured, walked, place⟩
    · rintro ⟨c, l, configured, walked, place⟩
      exact ⟨l, ⟨_, ⟨c, configured, rfl⟩, walked⟩, place⟩
  all_goals simp [Tracker.dropEntries, *]

/-- Settles O33: each joint by the classes of its held sides, the cuts as the last and the first joint that remove a side,
and what a path put in force leaves to be seen. -/
theorem pointsChangeClassifiesTheJoint : Obligations.PointsChangeClassifiesTheJoint :=
  ⟨pointsChangeClassifiesTheJoint_sole, pointsChangeClassifiesEveryJoint, placesHeldAreTheVehicles⟩

end Sys2Proof.Machine
end

