-- ==== Sys2Proof/Proofs/PathViews.lean ====
section
/-!
SUPPORT. The operations and owners that leave what the path's invariants read of a state (R15, R68, R69).
-/
namespace Sys2Proof.Machine

/-! ## The ground of a state -/

/-- What the path's invariants read of a state: the path, the geometry store and the request handler. -/
structure Ground where
  path : List PathEntry
  store : Store
  handler : Handler

/-- The ground of a state. -/
def State.ground (s : State) : Ground := ⟨s.path, s.store, s.link.handler⟩

variable {s t : State} {c : Fin 8} {b : Fin 4}

/-- Where only the tracker's own part of a state has changed, path and sections stand for the ground. -/
theorem State.TrackerMoved.handler (h : s.TrackerMoved t) : t.link.handler = s.link.handler := by
  rw [h]

/-! ## Operations that the ground does not show -/

@[simp] theorem ground_reach (n : Nat) : (s.reach n).ground = s.ground := rfl
@[simp] theorem ground_notify (n : Notice) : (s.notify n).ground = s.ground := rfl
@[simp] theorem ground_setLive (l : CounterSet) : (s.setLive l).ground = s.ground := rfl
@[simp] theorem ground_offerPeak (k : Fin 16) (n : Nat) : (s.offerPeak k n).ground = s.ground := rfl
@[simp] theorem ground_queueReply (r : Frame) (a : Answer) (x : Bool) : (s.queueReply r a x).ground = s.ground := rfl
@[simp] theorem ground_popRequest : s.popRequest.ground = s.ground := rfl
@[simp] theorem ground_setMonitor (f : Monitor → Monitor) : (s.setMonitor f).ground = s.ground := rfl
@[simp] theorem ground_setTracker (f : Tracker → Tracker) : (s.setTracker f).ground = s.ground := rfl
@[simp] theorem ground_setRecord (f : ComputationRecord → ComputationRecord) : (s.setRecord c f).ground = s.ground := rfl
@[simp] theorem ground_setChannel (f : Channel → Channel) : (s.setChannel c f).ground = s.ground := rfl
@[simp] theorem ground_setComputation (f : Computation → Computation) : (s.setComputation f).ground = s.ground := rfl
@[simp] theorem ground_setAcquisition (f : Acquisition → Acquisition) : (s.setAcquisition f).ground = s.ground := rfl
@[simp] theorem ground_startTimer : (s.startTimer b).ground = s.ground := rfl
@[simp] theorem ground_stopTimer : (s.stopTimer b).ground = s.ground := rfl
@[simp] theorem ground_setLines (f : DriveLines → DriveLines) : (s.setLines c f).ground = s.ground := rfl
@[simp] theorem ground_setPermit (x : Bool) : (s.setPermit x).ground = s.ground := rfl
@[simp] theorem ground_withPending (l : List Instr) : (s.withPending l).ground = s.ground := rfl
@[simp] theorem ground_notifyChannel (x : ChannelState) (e : ChannelEvent) : (s.notifyChannel c x e).ground = s.ground := rfl

/-- A change of the link that leaves the handler. -/
theorem ground_changeLink {f : LinkState → LinkState} (h : (f s.link).handler = s.link.handler) :
    (s.changeLink f).ground = s.ground := by
  simp [State.ground, h]

@[simp] theorem ground_report (i : Fin 48) (x : Bool) : (s.report i x).ground = s.ground := by
  simp [State.ground, (State.trackerMoved_report (s := s) i x).handler]

@[simp] theorem ground_reportIf (i : Fin 48) (x : Option Bool) : (s.reportIf i x).ground = s.ground := by
  cases x <;> simp [State.reportIf]

@[simp] theorem ground_count (k : Fin 52) : (s.count k).ground = s.ground := by
  simp [State.ground, (State.trackerMoved_count (s := s) k).handler]

@[simp] theorem ground_countIf (x : Bool) (k : Fin 52) : (s.countIf x k).ground = s.ground := by
  cases x <;> simp [State.countIf]

@[simp] theorem ground_snapshot (k : SnapshotCause) : (s.snapshot k).ground = s.ground := by
  unfold State.snapshot
  dsimp only
  rw [ground_report]
  rfl

@[simp] theorem ground_publish : s.publish.ground = s.ground := by simp [State.publish]

@[simp] theorem ground_notifyPosition (k : PositionCause) : (s.notifyPosition k).ground = s.ground := rfl

@[simp] theorem ground_judgeMoved : s.judgeMoved.ground = s.ground := by simp [State.judgeMoved]

@[simp] theorem ground_judgePath (reached full : Bool) : (s.judgePath reached full).ground = s.ground := by
  simp [State.judgePath]

/-! ## Moves of the channels -/

@[simp] theorem ground_enterFault (k : FaultCause) : (s.enterFault c k).ground = s.ground := by simp [State.enterFault]

@[simp] theorem ground_enterLocking (e : ChannelEvent) : (s.enterLocking c e).ground = s.ground := by
  simp [State.enterLocking]

@[simp] theorem ground_settleOnce : (s.settleOnce c).ground = s.ground := by
  rcases s.settleOnce_cases c with ⟨-, -, h⟩ | ⟨-, -, -, h⟩ | ⟨-, -, h⟩ | ⟨-, -, -, h⟩ | h <;>
    simp [h, State.enterLocked, State.enterSteering]

@[simp] theorem ground_settle : (s.settle c).ground = s.ground := by simp [State.settle]

@[simp] theorem ground_bringBack (e : ChannelEvent) : (s.bringBack e c).ground = s.ground := by
  unfold State.bringBack
  split <;> simp [State.enterReturning]

/-- A fold of operations that the ground does not show. -/
theorem ground_foldl {α : Type} {f : State → α → State} (h : ∀ u a, (f u a).ground = u.ground) (l : List α) :
    (l.foldl f s).ground = s.ground := by
  induction l generalizing s with
  | nil => rfl
  | cons a rest ih => rw [List.foldl_cons, ih, h]

@[simp] theorem ground_settleAll : s.settleAll.ground = s.ground := ground_foldl (fun _ _ => ground_settle) _

@[simp] theorem ground_permitOff : s.permitOff.ground = s.ground := by
  unfold State.permitOff
  split
  · exact ground_foldl (fun _ _ => ground_bringBack _) _
  · rfl

@[simp] theorem ground_lockExpiry : (s.lockExpiry c).ground = s.ground := by
  unfold State.lockExpiry
  split
  · rfl
  · split <;> simp

/-! ## Scans and passes -/

@[simp] theorem ground_takeScan : s.takeScan.ground = s.ground := by
  unfold State.takeScan
  split <;> simp

@[simp] theorem ground_startPass : s.startPass.ground = s.ground := by
  unfold State.startPass
  split <;> simp

@[simp] theorem ground_supervise (law : LawRecord) (x : Sample) (taken : Option LaneResult) :
    (s.supervise c law x taken).ground = s.ground := by
  unfold State.supervise
  dsimp only
  cases comparison s.channels.bank[c] x <;> simp only [ground_offerPeak, ground_countIf, ground_report]
  all_goals
    split
    · simp
    · split
      · split <;> simp
      · simp

@[simp] theorem ground_finishLane (e : LaneEnd) : (s.finishLane e).ground = s.ground := by simp [State.finishLane]

@[simp] theorem ground_reportLane (k : Criteria) (e : LaneEnd) : (s.reportLane k e).ground = s.ground := by
  unfold State.reportLane
  dsimp only
  cases e.taken with
  | none => dsimp only; split <;> simp <;> split <;> simp
  | some x => dsimp only; split <;> simp

@[simp] theorem ground_setYaw (r : YawRecord) : (s.setYaw b r).ground = s.ground := by simp [State.setYaw]

@[simp] theorem ground_resetBogie : (s.resetBogie b).ground = s.ground := by simp [State.resetBogie, State.resetLane]

@[simp] theorem ground_completePass : s.completePass.ground = s.ground := by
  unfold State.completePass
  split
  · rfl
  · dsimp only
    split <;> simp

@[simp] theorem ground_reschedule : (s.reschedule b).ground = s.ground := by
  unfold State.reschedule State.unscheduled
  split
  · simp
  · split <;> simp
  · rfl

@[simp] theorem ground_rescheduleOwner (x : Option (Fin 4)) : (s.rescheduleOwner x).ground = s.ground := by
  cases x <;> simp [State.rescheduleOwner]

@[simp] theorem ground_periodExpiry : (s.periodExpiry b).ground = s.ground := by
  unfold State.periodExpiry State.createScan State.overrun
  split
  · rfl
  · dsimp only
    split
    · simp only [ground_takeScan]
      split <;> simp
    · simp

@[simp] theorem ground_conversionEnd (raw : Nat) : (s.conversionEnd raw).ground = s.ground := by
  unfold State.conversionEnd
  split
  · rfl
  · dsimp only
    split <;> simp

/-! ## Wheels, markers, the line and the counters -/

@[simp] theorem ground_wheelEdge (w : Fin 16) (e : Edge) (x : Bool) : (s.wheelEdge w e x).ground = s.ground := by
  unfold State.wheelEdge
  split <;> rfl

@[simp] theorem ground_debounceOver (w : Debounce) : (s.debounceOver w).ground = s.ground := by
  unfold State.debounceOver
  split
  · rfl
  · split <;> rfl

@[simp] theorem ground_markerLevel (x : Bool) : (s.markerLevel x).ground = s.ground := by
  unfold State.markerLevel State.whileRunning
  split
  · rfl
  · dsimp only
    split <;> rfl

@[simp] theorem ground_resolveMarker : s.resolveMarker.ground = s.ground := by
  unfold State.resolveMarker State.markerMatch State.markerMiss
  dsimp only
  split
  · rfl
  · split
    · simp
    · split <;> simp

@[simp] theorem ground_arrive (r : Frame) : (s.arrive r).ground = s.ground := by
  unfold State.arrive
  split
  · rfl
  · simp

@[simp] theorem ground_takeByte (x : Byte) : (s.takeByte x).ground = s.ground := by
  have hunted : ∀ l : LinkState, l.hunting.handler = l.handler := fun _ => rfl
  have before : s.beforeByte.handler = s.link.handler := by
    unfold State.beforeByte
    split <;> rfl
  have taken : ∀ (l : LinkState) (y : Byte), (l.take y).handler = l.handler := by
    intro l y
    unfold LinkState.take
    split <;> repeat' split
    all_goals rfl
  have checked : ∀ (u : State) (covered : List Byte) (crc : BitVec 16), (u.checkFrame covered crc).ground = u.ground := by
    intro u covered crc
    unfold State.checkFrame
    split_ifs <;> simp
  unfold State.takeByte
  split
  · rfl
  · dsimp only
    split
    · rw [State.completeFrame, checked, ground_changeLink (hunted _)]
      simp [State.ground, before]
    · rw [ground_changeLink (taken _ _)]
      simp [State.ground, before]

@[simp] theorem ground_beginFrame : s.beginFrame.ground = s.ground := by
  unfold State.beginFrame
  split
  · split <;> rfl
  · rfl

@[simp] theorem ground_refuseKind : s.refuseKind.ground = s.ground := by
  unfold State.refuseKind
  split
  · rfl
  · split <;> simp

@[simp] theorem ground_gapTimeout : s.gapTimeout.ground = s.ground := by
  unfold State.gapTimeout
  split <;> rfl

@[simp] theorem ground_snapshotExpiry : s.snapshotExpiry.ground = s.ground := by
  unfold State.snapshotExpiry
  split
  · rfl
  · split <;> simp

@[simp] theorem ground_beginStartUp : s.beginStartUp.ground = s.ground := by
  unfold State.beginStartUp
  split <;> rfl

/-! ## Owners of requests -/

/-- An owner that the ground does not show. -/
def Groundless (act : List Byte → State → State × Answer) : Prop := ∀ body s, (act body s).1.ground = s.ground

theorem ReadsOnly.groundless {act : List Byte → State → State × Answer} (h : ReadsOnly act) : Groundless act :=
  fun body s => congrArg State.ground (h body s)

theorem groundless_vehSet : Groundless ownVehSet := by
  intro body s
  unfold ownVehSet
  repeat' split
  · rfl
  · rfl
  · exact ground_foldl (fun _ _ => ground_reschedule) _

theorem groundless_lawSet : Groundless ownLawSet := by
  intro body s
  unfold ownLawSet
  repeat' split
  all_goals rfl

theorem groundless_stgSet : Groundless ownStgSet := by
  intro body s
  unfold ownStgSet State.stageAnswer State.writeStage
  repeat' split
  all_goals simp

theorem groundless_perSet : Groundless ownPerSet := by
  intro body s
  unfold ownPerSet State.setPeriod
  dsimp only
  repeat' split
  all_goals rfl

theorem groundless_permitSetOn : Groundless ownPermitSetOn := by
  intro body s
  unfold ownPermitSetOn
  split <;> rfl

theorem groundless_permitSetOff : Groundless ownPermitSetOff := fun _ _ => ground_permitOff

/-- A channel request is not shown where its act is not. -/
theorem ground_channelRequest {reason : Option Reason} {act : State → State} (h : (act s).ground = s.ground) :
    (channelRequest reason act c s).1.ground = s.ground := by
  unfold channelRequest
  split
  · rfl
  · exact h

theorem groundless_chUnlock : Groundless ownChUnlock := by
  intro body s
  unfold ownChUnlock
  repeat' split
  · rfl
  · rfl
  · exact ground_channelRequest (by simp [State.unlock])

theorem groundless_chHold : Groundless ownChHold := by
  intro body s
  unfold ownChHold
  split
  · rfl
  · exact ground_channelRequest rfl

theorem groundless_chResume : Groundless ownChResume := by
  intro body s
  unfold ownChResume
  split
  · rfl
  · exact ground_channelRequest rfl

theorem groundless_chReturn : Groundless ownChReturn := by
  intro body s
  unfold ownChReturn
  split
  · rfl
  · exact ground_channelRequest (ground_bringBack _)

theorem groundless_chClear : Groundless ownChClear := by
  intro body s
  unfold ownChClear
  split
  · rfl
  · exact ground_channelRequest (by simp [State.clearFault])

theorem ground_ownCndGet (r : Frame) : (ownCndGet r s).ground = s.ground := by
  rw [ownCndGet, State.clearLatches, ground_setMonitor, ground_queueReply]

theorem ground_ownSysRestart (r : Frame) : (ownSysRestart r s).ground = s.ground := rfl

theorem groundless_cndEnable : Groundless ownCndEnable := by
  intro body s
  unfold ownCndEnable State.setModes
  dsimp only
  repeat' split
  all_goals simp only [ground_setMonitor]

theorem groundless_cndCriteria : Groundless ownCndCriteria := by
  intro body s
  unfold ownCndCriteria
  repeat' split
  all_goals rfl

theorem groundless_cntSnap : Groundless ownCntSnap := fun _ _ => ground_snapshot _

theorem groundless_cntModeAuto : Groundless ownCntModeAuto := by
  intro body s
  unfold ownCntModeAuto State.modeAuto
  split <;> rfl

theorem groundless_cntModeManual : Groundless ownCntModeManual := by
  intro body s
  unfold ownCntModeManual State.modeManual
  repeat' split
  all_goals rfl

end Sys2Proof.Machine
end

