-- ==== Sys2Proof/Proofs/PathSound.lean ====
section
/-!
SUPPORT. Every command keeps the path within 16 entries of READY sections, with every occupancy count that of the path:
settles O56.
-/
namespace Sys2Proof.Machine

variable {s t : State} {g : Store} {path : List PathEntry} {e : PathEntry} {i : Fin 32} {k : Course} {side : Side}
  {v : VehicleRecord} {sign : Sign}

/-! ## Paths over a store (R68) -/

/-- An entry as R68 has it: its section READY, and a mark only with a POINTS entry via. -/
def PathEntry.Good (e : PathEntry) (g : Store) : Prop :=
  g.sections[e.sec].state = .ready ∧ (e.moved = true → ∃ id b, e.via = some (.points id b))

/-- The B-most entry is bare (R68). -/
def BareFirst (path : List PathEntry) : Prop := ∀ e, path.head? = some e → e.via = none ∧ e.moved = false

/-- A path as R68 has it: at most 16 good entries, the B-most one bare. -/
structure GoodPath (g : Store) (path : List PathEntry) : Prop where
  length : path.length ≤ 16
  entries : ∀ e ∈ path, e.Good g
  first : BareFirst path

theorem goodPath_nil (g : Store) : GoodPath g [] := ⟨Nat.zero_le _, nofun, nofun⟩

/-- An entry without a mark is good where its section is READY. -/
theorem PathEntry.good_of_unmarked (ready : g.sections[e.sec].state = .ready) (unmarked : e.moved = false) : e.Good g :=
  ⟨ready, fun moved => absurd (moved.symm.trans unmarked) nofun⟩

theorem goodPath_seed {o : Orientation} (ready : g.sections[i].state = .ready) : GoodPath g [⟨i, o, none, false⟩] where
  length := Nat.le_of_ble_eq_true rfl
  entries _ mem := List.mem_singleton.1 mem ▸ PathEntry.good_of_unmarked ready rfl
  first _ head := Option.some.inj head ▸ ⟨rfl, rfl⟩

/-- A bared path of good entries is good. -/
theorem goodPath_bareHead (length : path.length ≤ 16) (entries : ∀ e ∈ path, e.Good g) : GoodPath g (bareHead path) := by
  cases path with
  | nil => exact goodPath_nil g
  | cons e rest =>
    obtain ⟨⟨ready, -⟩, others⟩ := List.forall_mem_cons.1 entries
    exact ⟨length, List.forall_mem_cons.2 ⟨PathEntry.good_of_unmarked ready rfl, others⟩,
      fun f head => Option.some.inj head ▸ ⟨rfl, rfl⟩⟩

/-- A good path cut at its ends is good (R81, R87). -/
theorem GoodPath.cut (good : GoodPath g path) (lo hi : Nat) : GoodPath g (cutPath lo hi path) := by
  have length : (path.take hi).length ≤ 16 := (List.length_take_le' _ _).trans good.length
  have entries : ∀ e ∈ path.take hi, e.Good g := fun e mem => good.entries e (List.mem_of_mem_take mem)
  unfold cutPath
  split
  · refine ⟨length, entries, fun e head => good.first e ?_⟩
    rw [List.head?_take] at head
    split at head
    · cases head
    · exact head
  · exact goodPath_bareHead ((List.length_drop ▸ Nat.sub_le _ _).trans length) fun e mem =>
      entries e (List.mem_of_mem_drop mem)

/-- Marks set at the joints of the points keep a path good (R88). -/
theorem GoodPath.marked {change : PointsChange} {toe : EndRef} {held : List Nat} (good : GoodPath g path) :
    GoodPath g (markEntries path (jointOutcomes change toe held 0 path)) := by
  refine ⟨?_, fun e mem => ?_, fun e head => ?_⟩
  · rw [markEntries_length, jointOutcomes_length, min_self]
    exact good.length
  · obtain ⟨n, at_⟩ := List.getElem?_of_mem mem
    rw [markEntries_getElem?, Option.map_eq_some_iff] at at_
    obtain ⟨f, stands, rfl⟩ := at_
    have before := good.entries f (List.mem_of_getElem? stands)
    split
    · next straddled =>
      obtain ⟨⟨b, via, -⟩, -⟩ := jointOutcome_mark.1 straddled
      exact ⟨before.1, fun _ => ⟨_, b, via⟩⟩
    · exact before
  · rw [List.head?_eq_getElem?, markEntries_getElem?, Option.map_eq_some_iff] at head
    obtain ⟨f, stands, rfl⟩ := head
    obtain ⟨via, unmoved⟩ := good.first f (List.head?_eq_getElem? ▸ stands)
    rw [if_neg fun straddled => ?_]
    · exact ⟨via, unmoved⟩
    · obtain ⟨⟨b, joint, -⟩, -⟩ := jointOutcome_mark.1 straddled
      cases via.symm.trans joint

/-! ## Paths that grow (R77 to R80, R84) -/

/-- A section end that is entered is of a READY section (R77). -/
theorem enterReady_ready {a at_ : EndRef} {w via : Via} (h : g.enterReady a w = .enter at_ via) :
    g.sections[at_.sec].state = .ready := by
  unfold Store.enterReady at h
  split at h
  · next ready =>
    cases h
    exact ready
  · cases h

theorem beyond_ready {l : Link} {at_ : EndRef} {via : Via} (h : g.beyond l = .enter at_ via) :
    g.sections[at_.sec].state = .ready := by
  cases l with
  | none => cases h
  | sec => exact enterReady_ready h
  | points id role =>
    rw [Store.beyond] at h
    split at h
    · cases h
    · cases role with
      | toe =>
        dsimp only at h
        split at h
        · exact enterReady_ready h
        · exact enterReady_ready h
        · cases h
      | left | right => exact enterReady_ready h

/-- An entry joined at either end keeps a path good that has room for it (R71, R78). -/
theorem GoodPath.withJoined (good : GoodPath g path) (room : path.length < 16) {at_ : EndRef} {via : Via}
    (outer : outerEntry path side = some e) (ready : g.sections[at_.sec].state = .ready) :
    GoodPath g (joined path e at_ via side) := by
  have length : (joined path e at_ via side).length ≤ 16 := by
    rw [joined_length outer]
    exact room
  cases side with
  | aEnd =>
    refine ⟨length, fun f mem => ?_, fun f head => good.first f ?_⟩
    · rcases List.mem_append.1 mem with old | new
      · exact good.entries f old
      · exact List.mem_singleton.1 new ▸ PathEntry.good_of_unmarked ready rfl
    · have some_ : path ≠ [] := by
        rintro rfl
        cases outer
      exact (List.head?_append_of_ne_nil _ some_).symm.trans head
  | bEnd =>
    have old : e ∈ path := List.mem_of_head? outer
    refine ⟨length, List.forall_mem_cons.2 ⟨PathEntry.good_of_unmarked ready rfl, List.forall_mem_cons.2 ⟨?_, ?_⟩⟩,
      fun f head => Option.some.inj head ▸ ⟨rfl, rfl⟩⟩
    · exact PathEntry.good_of_unmarked (good.entries e old).1 rfl
    · exact fun f mem => good.entries f (List.mem_of_mem_tail mem)

theorem GoodPath.extendOnce {longer : List PathEntry} (good : GoodPath g path)
    (h : extendOnce g side path = .ok longer) : GoodPath g longer := by
  obtain ⟨room, e, -, -, outer, -⟩ := extendOnce_ok h
  rw [extendOnce_eq outer] at h
  unfold extendAt at h
  split at h
  · cases h
  · next at_ via found =>
    rw [if_neg (Nat.not_le_of_lt room)] at h
    obtain rfl := Except.ok.inj h
    exact good.withJoined room outer (beyond_ready found)

theorem GoodPath.extendTo (offset : Int) (fuel : Nat) (good : GoodPath g k.path) :
    GoodPath g (extendTo g side offset fuel k).path := by
  induction fuel generalizing k with
  | zero => exact good
  | succ fuel ih =>
    rcases extendTo_cases g side offset fuel k with
      ⟨-, same⟩ | ⟨-, ⟨-, stopped⟩ | ⟨reason, -, -, same⟩ | ⟨path, once, goesOn⟩⟩
    · rwa [same]
    · rwa [stopped]
    · rwa [same]
    · rw [goesOn]
      refine ih ?_
      rw [Course.grown_path]
      exact good.extendOnce once

theorem GoodPath.extend (good : GoodPath g k.path) : GoodPath g (k.extend g v sign).path :=
  (good.extendTo _ _).extendTo _ _

theorem GoodPath.trim (good : GoodPath g k.path) : GoodPath g (k.trim g v sign).path := by
  unfold Course.trim
  split
  · exact good
  · next l _ =>
    cases sign with
    | plus => exact good.cut l.entry k.path.length
    | minus => exact good.cut 0 (l.entry + 1)

theorem GoodPath.advanceCourse {distance : Nat} {datum : Location} (good : GoodPath g path)
    (h : advanceCourse g v sign distance path datum = some k) : GoodPath g k.path := by
  obtain ⟨l, -, made⟩ := Option.bind_eq_some_iff.1 h
  dsimp only at made
  split at made
  · obtain rfl := Option.some.inj made
    exact (GoodPath.trim (k := ⟨path, l, false⟩) good).extend
  · cases made

theorem goodPath_candidateCourse {n : Nat} {o : Orientation} (ready : g.sections[i].state = .ready)
    (h : candidateCourse g v sign i n o = some k) : GoodPath g k.path := by
  simp only [candidateCourse] at h
  split at h
  · obtain rfl := Option.some.inj h
    exact GoodPath.extend (k := ⟨_, ⟨0, _⟩, false⟩) (goodPath_seed ready)
  · cases h

/-! ## The ground by itself (R15, R68, R69) -/

/-- The section of a running close check is CHECKING (R15). -/
def Handler.Checking (h : Handler) (g : Store) : Prop :=
  ∀ tag i endsAt, h = .closing tag i endsAt → g.sections[i].state = .checking

/-- A ground as the path's invariants have it. -/
structure Ground.Sound (k : Ground) : Prop where
  path : GoodPath k.store k.path
  closing : k.handler.Checking k.store
  occupancy : ∀ i : Fin 32, k.store.sections[i].occupancy = k.path.countP fun e => e.sec = i

theorem ground_sound_iff (s : State) : s.ground.Sound ↔ PathSound s :=
  ⟨fun ⟨⟨length, entries, first⟩, closing, occupancy⟩ =>
      ⟨length, fun e mem => (entries e mem).1, fun e mem => (entries e mem).2, closing, occupancy, first⟩,
    fun ⟨length, ready, marks, closing, occupancy, first⟩ =>
      ⟨⟨length, fun e mem => ⟨ready e mem, marks e mem⟩, first⟩, closing, occupancy⟩⟩

/-- A section on the path of a sound ground is occupied and READY. -/
theorem Ground.Sound.on_path {k : Ground} (h : k.Sound) (mem : e ∈ k.path) :
    0 < k.store.sections[e.sec].occupancy ∧ k.store.sections[e.sec].state = .ready := by
  rw [h.occupancy]
  exact ⟨List.countP_pos_iff.2 ⟨e, mem, decide_eq_true rfl⟩, (h.path.entries e mem).1⟩

/-- No close check runs (R189). -/
theorem Handler.checking_of_idle {h : Handler} (idle : h = .idle) (g : Store) : h.Checking g := by
  subst idle
  exact nofun

/-- A sound ground with another handler. -/
theorem Ground.Sound.withHandler {k : Ground} (h : k.Sound) {x : Handler} (closing : x.Checking k.store) :
    ({ k with handler := x } : Ground).Sound := ⟨h.path, closing, h.occupancy⟩

/-- From one ground to another the path and the handler stay, with the occupancy counts; a READY section that is occupied
stays READY. -/
structure Ground.Kept (k m : Ground) : Prop where
  path : m.path = k.path
  handler : m.handler = k.handler
  occupancy : ∀ i : Fin 32, m.store.sections[i].occupancy = k.store.sections[i].occupancy
  ready : ∀ i : Fin 32, 0 < k.store.sections[i].occupancy → k.store.sections[i].state = .ready →
    m.store.sections[i].state = .ready

theorem Ground.Kept.trans {k m n : Ground} (h : k.Kept m) (h' : m.Kept n) : k.Kept n :=
  ⟨h'.path.trans h.path, h'.handler.trans h.handler, fun i => (h'.occupancy i).trans (h.occupancy i),
    fun i occupied ready => h'.ready i (by rwa [h.occupancy]) (h.ready i occupied ready)⟩

/-- A sound ground kept while no close check runs is sound. -/
theorem Ground.Kept.sound {k m : Ground} (kept : k.Kept m) (h : k.Sound) (idle : k.handler = .idle) : m.Sound := by
  refine ⟨⟨?_, fun e mem => ?_, ?_⟩, Handler.checking_of_idle (kept.handler.trans idle) _, fun i => ?_⟩
  · rw [kept.path]
    exact h.path.length
  · rw [kept.path] at mem
    obtain ⟨occupied, ready⟩ := h.on_path mem
    exact ⟨kept.ready _ occupied ready, (h.path.entries e mem).2⟩
  · rw [kept.path]
    exact h.path.first
  · rw [kept.occupancy, kept.path]
    exact h.occupancy i

/-- A change of the store that leaves every section's state and count keeps the ground. -/
theorem ground_kept_of_store (store : t = { s with store := t.store })
    (sections : ∀ i : Fin 32, t.store.sections[i].occupancy = s.store.sections[i].occupancy ∧
      t.store.sections[i].state = s.store.sections[i].state) : s.ground.Kept t.ground where
  path := by
    show t.path = s.path
    rw [store]
  handler := by
    show t.link.handler = s.link.handler
    rw [store]
  occupancy i := (sections i).1
  ready i _ ready := (sections i).2.trans ready

theorem Ground.Kept.refl (s : State) : s.ground.Kept s.ground := ground_kept_of_store rfl fun _ => ⟨rfl, rfl⟩

/-- A change of links keeps the ground. -/
theorem ground_kept_of_links (store : t = { s with store := t.store }) (links : s.store.SameButLinks t.store) :
    s.ground.Kept t.ground :=
  ground_kept_of_store store fun i => by
    rw [links.2 i]
    exact ⟨rfl, rfl⟩

/-- A section written with its count kept, and READY where it was READY and occupied, keeps the ground. -/
theorem ground_kept_setSection (s : State) (i : Fin 32) {f : SectionRecord → SectionRecord}
    (occupancy : (f s.store.sections[i]).occupancy = s.store.sections[i].occupancy)
    (ready : 0 < s.store.sections[i].occupancy → s.store.sections[i].state = .ready →
      (f s.store.sections[i]).state = .ready) : s.ground.Kept (s.setSection i f).ground := by
  have atI := section_setSection s i f
  have others := (oneSection_setSection s i f).others
  refine ⟨rfl, rfl, fun j => ?_, fun j => ?_⟩ <;> rcases eq_or_ne j i with rfl | other
  · exact (congrArg SectionRecord.occupancy atI).trans occupancy
  · exact congrArg SectionRecord.occupancy (others j other)
  · exact fun occupied before => (congrArg SectionRecord.state atI).trans (ready occupied before)
  · exact fun _ before => (congrArg SectionRecord.state (others j other)).trans before

/-- A section that is not READY written with its count kept, and with its slots taken from or given to the pool. -/
theorem ground_kept_written (s : State) (n : Nat) (i : Fin 32) {f : SectionRecord → SectionRecord}
    (occupancy : (f s.store.sections[i]).occupancy = s.store.sections[i].occupancy)
    (free : 0 < s.store.sections[i].occupancy → s.store.sections[i].state ≠ .ready) :
    s.ground.Kept ((s.setPool n).setSection i f).ground :=
  (ground_kept_of_store (t := s.setPool n) rfl fun _ => ⟨rfl, rfl⟩).trans
    (ground_kept_setSection _ i occupancy fun occupied ready => absurd ready (free occupied))

/-! ## Owners of the geometry store (R10 to R24) -/

/-- An owner that keeps the ground. -/
def KeepsGround (act : List Byte → State → State × Answer) : Prop :=
  ∀ (body : List Byte) (s : State), s.ground.Kept (act body s).1.ground

theorem not_ready_of_eq {x y : SectionState} (h : x = y) (other : y ≠ .ready) : x ≠ .ready := h ▸ other

theorem keepsGround_secOpen : KeepsGround ownSecOpen := by
  intro body s
  unfold ownSecOpen
  dsimp only
  split
  · exact .refl s
  · split
    · exact .refl s
    · split
      · exact .refl s
      · exact .refl s
      · next free => exact ground_kept_setSection s _ rfl fun _ ready => absurd ready (not_ready_of_eq free nofun)
      · split
        · exact .refl s
        · next empty => exact ground_kept_written s _ _ rfl fun occupied => absurd (decide_eq_true occupied) empty

theorem keepsGround_secPut : KeepsGround ownSecPut := by
  intro body s
  unfold ownSecPut
  dsimp only
  split
  · split
    · exact .refl s
    · next loading =>
      split
      · exact .refl s
      · exact ground_kept_written s _ _ rfl fun _ => not_ready_of_eq (not_not.1 loading) nofun
  · exact .refl s

theorem keepsGround_secMark : KeepsGround ownSecMark := by
  intro body s
  unfold ownSecMark
  dsimp only
  split
  · exact .refl s
  · split
    · exact .refl s
    · split
      · exact .refl s
      · next loading =>
        exact ground_kept_setSection s _ rfl fun _ ready => absurd ready (not_ready_of_eq (not_not.1 loading) nofun)

theorem ground_kept_unlink (s : State) (e : EndRef) : s.ground.Kept (s.unlink e).ground :=
  ground_kept_of_links (s.unlink_eq e) (s.unlink_sameButLinks e)

theorem keepsGround_secJoin : KeepsGround ownSecJoin := by
  have linked (s : State) (e : EndRef) (l : Link) : s.ground.Kept (s.setLink e l).ground :=
    ground_kept_of_links (s.setLink_eq e l) (s.setLink_sameButLinks e l)
  intro body s
  unfold ownSecJoin
  dsimp only
  split
  · exact .refl s
  · split
    · split
      · exact .refl s
      · split
        · exact .refl s
        · split
          · exact .refl s
          · split
            · exact .refl s
            · split
              · exact .refl s
              · exact (linked s _ _).trans (linked _ _ _)
    · exact .refl s

theorem keepsGround_secJoinNone : KeepsGround ownSecJoinNone := by
  intro body s
  unfold ownSecJoinNone
  dsimp only
  split
  · exact .refl s
  · split
    · exact .refl s
    · split
      · exact .refl s
      · split
        · exact .refl s
        · exact ground_kept_unlink s _

theorem keepsGround_secDrop : KeepsGround ownSecDrop := by
  intro body s
  unfold ownSecDrop
  dsimp only
  split
  · exact .refl s
  · next i _ =>
    split
    · exact .refl s
    · split
      · exact .refl s
      · split
        · exact .refl s
        · next empty =>
          have unlinked : s.ground.Kept (s.unlinkBoth i).ground :=
            (ground_kept_unlink s _).trans (ground_kept_unlink _ _)
          refine unlinked.trans (ground_kept_written (s.unlinkBoth i) _ i rfl fun occupied => ?_)
          have before : 0 < s.store.sections[i].occupancy := unlinked.occupancy i ▸ occupied
          exact absurd (Or.inl (decide_eq_true before)) empty

theorem ground_kept_members (s : State) (i : Fin 16) (x : Option PointsRecord) (p : PointsRecord) (l : PointsRole → Link) :
    s.ground.Kept ((s.setPoints i x).setMembers p l).ground :=
  (ground_kept_of_store (t := s.setPoints i x) rfl fun _ => ⟨rfl, rfl⟩).trans
    (ground_kept_of_links rfl ((s.setPoints i x).setMembers_sameButLinks p l))

theorem keepsGround_ptsDefine : KeepsGround ownPtsDefine := by
  intro body s
  unfold ownPtsDefine
  dsimp only
  split
  · next i toe left right _ _ _ _ =>
    split
    · exact .refl s
    · split
      · exact .refl s
      · split
        · exact .refl s
        · split
          · exact .refl s
          · split
            · exact .refl s
            · rw [s.definePoints_eq i ⟨toe, left, right, .unknown⟩ rfl]
              exact ground_kept_members s i _ _ _
  · exact .refl s

theorem keepsGround_ptsRemove : KeepsGround ownPtsRemove := by
  intro body s
  unfold ownPtsRemove
  split
  · exact .refl s
  · split
    · exact .refl s
    · split
      · exact .refl s
      · dsimp only
        rw [State.removePoints_eq]
        exact ground_kept_members s _ _ _ _

theorem keepsGround_ptsSet : KeepsGround ownPtsSet := by
  intro body s
  unfold ownPtsSet
  repeat' split
  all_goals exact ground_kept_of_store rfl fun _ => ⟨rfl, rfl⟩

/-! ## SEC.CLOSE and the end of its check (R15, R17) -/

/-- A check that begins makes its section CHECKING, which was LOADING and so on no path. -/
theorem sound_ownSecClose (r : Frame) (h : s.ground.Sound) (idle : s.link.handler = .idle) :
    (ownSecClose r s).ground.Sound := by
  unfold ownSecClose
  split
  · exact h
  · next i _ =>
    split
    · exact h
    · next loading =>
      have kept := ground_kept_setSection s i (f := fun r => { r with state := .checking }) rfl fun _ ready =>
        absurd ready (not_ready_of_eq (not_not.1 loading) nofun)
      refine (kept.sound h idle).withHandler fun tag j endsAt closing => ?_
      obtain ⟨-, rfl, -⟩ := Handler.closing.inj closing
      exact congrArg SectionRecord.state (section_setSection s _ _)

/-- A check that ends leaves its section READY or LOADING, which was CHECKING and so on no path. -/
theorem sound_completeClose (h : s.ground.Sound) : s.completeClose.ground.Sound := by
  unfold State.completeClose
  split
  · exact h
  · next tag i endsAt closing =>
    have checking : s.store.sections[i].state = .checking := h.closing tag i endsAt closing
    let u : State := { s.reach endsAt with link := { (s.reach endsAt).link with handler := .idle } }
    have idle : u.ground.Sound := h.withHandler (Handler.checking_of_idle rfl _)
    have ended (state : SectionState) : (u.setSection i fun r => { r with state := state }).ground.Sound :=
      (ground_kept_setSection u i rfl fun _ ready => absurd ready (not_ready_of_eq checking nofun)).sound idle rfl
    dsimp only
    split <;> exact ended _

/-! ## Paths put in force (R69) -/

/-- A good path put in force has a sound ground, where the section of a running close check is CHECKING. -/
theorem sound_of_force (good : GoodPath s.store t.path) (closing : s.ground.handler.Checking s.store)
    (handler : t.link.handler = s.link.handler) (sections : ∀ i : Fin 32,
      t.store.sections[i] = { s.store.sections[i] with occupancy := t.path.countP fun e => e.sec = i }) :
    t.ground.Sound := by
  have state (i : Fin 32) : t.store.sections[i].state = s.store.sections[i].state := by rw [sections]
  refine ⟨⟨good.length, fun e mem => ⟨(state _).trans (good.entries e mem).1, (good.entries e mem).2⟩, good.first⟩,
    fun tag i endsAt running => (state i).trans (closing tag i endsAt (handler.symm.trans running)), fun i => ?_⟩
  exact congrArg SectionRecord.occupancy (sections i)

theorem PutInForce.ground_sound {reached full : Bool} (force : PutInForce s t path reached full)
    (good : GoodPath s.store path) (closing : s.ground.handler.Checking s.store) : t.ground.Sound := by
  obtain rfl := force.path
  exact sound_of_force good closing force.moved.handler force.sections

theorem ground_sound_doTick (h : s.ground.Sound) : s.doTick.ground.Sound := by
  rcases s.doTick_cases with ⟨-, still⟩ | ⟨datum, -, -, ⟨-, lost⟩ | ⟨k, on, tick⟩⟩
  · rw [still, ground_publish]
    exact h
  · rw [lost]
    exact s.measured.tickLost_spec.1.ground_sound (goodPath_nil _) h.closing
  · rw [tick]
    exact (s.measured.tickOn_spec _ _ _ k).1.ground_sound (h.path.advanceCourse on) h.closing

theorem ground_sound_ownPosLocate (body : List Byte) (h : s.ground.Sound) : (ownPosLocate body s).1.ground.Sound := by
  unfold ownPosLocate
  dsimp only
  split
  · split
    · exact h
    · split
      · exact h
      · split
        · exact h
        · next ready =>
          split
          · exact h
          · split
            · exact h
            · next made =>
              exact (s.locate_spec _ _).1.ground_sound (goodPath_candidateCourse (not_not.1 ready) made) h.closing
  · exact h

theorem PointsChanged.ground_sound {change : PointsChange} {record : PointsRecord} {datum : Location}
    {rest : List PointsChange} (changed : PointsChanged s t (s.outcomesOf change record datum) rest)
    (h : s.ground.Sound) : t.ground.Sound := by
  have good : GoodPath s.store t.path := changed.path ▸ (GoodPath.marked h.path).cut _ _
  exact sound_of_force good h.closing (by rw [changed.rest]) changed.sections

theorem ground_sound_takeChange (running : s.power = .running) (h : s.ground.Sound) : s.takeChange.ground.Sound := by
  cases changes : s.store.changes with
  | nil =>
    rw [State.takeChange, changes]
    exact h
  | cons change rest =>
    have left : (s.changesLeft rest).ground.Sound :=
      ⟨⟨h.path.length, fun e mem => h.path.entries e mem, h.path.first⟩, h.closing, h.occupancy⟩
    cases datum : s.tracker.datum with
    | none =>
      rw [State.takeChange, changes]
      dsimp only
      rw [datum]
      exact left
    | some l =>
      cases defined : s.store.points[change.points] with
      | none =>
        rw [State.takeChange, changes]
        dsimp only
        rw [datum, defined]
        exact left
      | some record =>
        obtain ⟨t, stepped, changed⟩ := pointsChanged running changes datum defined
        rw [State.exec_pointsChange running] at stepped
        rw [Host.Outcome.next.inj stepped]
        exact changed.ground_sound h

/-! ## Resets and the loss of the supply (R196, R198, R207, R208) -/

/-- The empty path over the initial store, with no close check. -/
theorem ground_sound_initial : Ground.Sound ⟨[], Store.initial, .idle⟩ :=
  ⟨goodPath_nil _, Handler.checking_of_idle rfl _, fun i => by simp [Store.initial, SectionRecord.initial]⟩

theorem ground_sound_resetBlocks (s : State) : s.resetBlocks.ground.Sound := by
  rw [State.resetBlocks_eq, ground_settleAll]
  exact ground_sound_initial

theorem ground_sound_endStartUp (h : s.ground.Sound) : s.endStartUp.ground.Sound := by
  unfold State.endStartUp
  split
  · exact ground_sound_resetBlocks _
  · exact h
  · exact h

theorem ground_sound_loseSupply (h : s.ground.Sound) : s.loseSupply.ground.Sound := by
  unfold State.loseSupply
  split
  · exact h
  · exact ground_sound_initial
  · exact ground_sound_initial

theorem ground_sound_endFrame (h : s.ground.Sound) : s.endFrame.ground.Sound := by
  unfold State.endFrame
  split
  · exact h
  · dsimp only
    split
    · exact ground_sound_resetBlocks _
    · exact h

theorem ground_sound_restart (h : s.ground.Sound) : s.restart.ground.Sound := by
  unfold State.restart
  split
  · exact ground_sound_resetBlocks _
  · exact h
  · exact h

/-! ## Rows -/

/-- A sound ground is kept. -/
def KeepsPath (s t : State) : Prop := s.ground.Sound → t.ground.Sound

theorem KeepsPath.of_ground (h : t.ground = s.ground) : KeepsPath s t := fun sound => by rwa [h]

theorem KeepsPath.whileRunning {f : State → State} (h : s.power = .running → KeepsPath s (f s)) :
    KeepsPath s (s.whileRunning f) := by
  unfold State.whileRunning
  split
  · next running => exact h running
  · exact id

/-- A request row keeps the path sound where its owner does, which acts while no close check runs (R189). -/
theorem KeepsPath.serve {kind : Byte} {mine fits : List Byte → Bool} {owner : Frame → State → State}
    (h : ∀ r u, u.link.handler = .idle → KeepsPath u (owner r u)) : KeepsPath s (s.serve kind mine fits owner) := by
  rcases State.serve_cases (s := s) (kind := kind) (mine := mine) (fits := fits) owner with
    same | ⟨r, ⟨-, idle, -⟩, -, ⟨-, -, taken⟩ | ⟨-, refused⟩⟩
  · rw [same]
    exact id
  · rw [taken]
    exact h r s.popRequest idle
  · rw [refused]
    exact id

theorem KeepsPath.serveAct {kind : Byte} {mine fits : List Byte → Bool} {act : List Byte → State → State × Answer}
    (h : ∀ body u, KeepsPath u (act body u).1) : KeepsPath s (s.serveAct kind mine fits act) :=
  KeepsPath.serve fun r u _ => h r.body u

theorem Groundless.serveAct {kind : Byte} {mine fits : List Byte → Bool} {act : List Byte → State → State × Answer}
    (h : Groundless act) : KeepsPath s (s.serveAct kind mine fits act) :=
  KeepsPath.serveAct fun body u => .of_ground (h body u)

theorem KeepsGround.serveAct {kind : Byte} {mine fits : List Byte → Bool} {act : List Byte → State → State × Answer}
    (h : KeepsGround act) : KeepsPath s (s.serveAct kind mine fits act) :=
  KeepsPath.serve fun r u idle sound => (h r.body u).sound sound idle

/-! ## Every command -/

theorem exec_keepsPath {c : Instr} (h : exec c s = .next t) : KeepsPath s t := by
  cases c <;> cases h
  case startUpBegin => exact .of_ground ground_beginStartUp
  case startUpEnd => exact ground_sound_endStartUp
  case supplyLoss => exact ground_sound_loseSupply
  case frameSent => exact .whileRunning fun _ => ground_sound_endFrame
  case restartTakesEffect => exact .whileRunning fun _ => ground_sound_restart
  case pointsChange => exact .whileRunning ground_sound_takeChange
  case tick => exact .whileRunning fun _ => ground_sound_doTick
  case closeCheckComplete => exact .whileRunning fun _ => sound_completeClose
  case markerInputChange active => exact .of_ground (ground_markerLevel active)
  case frameReceived b => exact .whileRunning fun _ => .of_ground (by split <;> simp)
  case frameLengthAbort b => exact .whileRunning fun _ => .of_ground (by split <;> simp)
  case unknownKind | transmitBegin | wheelCount | markerDetection | markerDebounceRelease | markerResolve
      | periodTimerExpiry | byteTaken | interByteGapTimeout | snapshotTimerExpiry | stageConversionComplete | passComplete
      | lockTimerExpiry =>
    exact .whileRunning fun _ => .of_ground (by simp)
  case lockEngagedChange c engaged =>
    exact KeepsPath.whileRunning (s := s.setLines c _) fun _ => .of_ground ground_settle
  case driveFaultChange c fault ready =>
    exact KeepsPath.whileRunning (s := s.setLines c _) fun _ => .of_ground ground_settle
  case posLocate => exact .serveAct fun body u => ground_sound_ownPosLocate body
  case secClose => exact .serve fun r u idle sound => sound_ownSecClose r sound idle
  case sysRestart => exact .serve fun r u _ => .of_ground (ground_ownSysRestart r)
  case cndGet => exact .serve fun r u _ => .of_ground (ground_ownCndGet r)
  case secOpen => exact keepsGround_secOpen.serveAct
  case secPut => exact keepsGround_secPut.serveAct
  case secMark => exact keepsGround_secMark.serveAct
  case secJoin => exact keepsGround_secJoin.serveAct
  case secJoinNone => exact keepsGround_secJoinNone.serveAct
  case secDrop => exact keepsGround_secDrop.serveAct
  case ptsDefine => exact keepsGround_ptsDefine.serveAct
  case ptsRemove => exact keepsGround_ptsRemove.serveAct
  case ptsSet => exact keepsGround_ptsSet.serveAct
  case secGet => exact readsOnly_secGet.groundless.serveAct
  case vehGet => exact readsOnly_vehGet.groundless.serveAct
  case lawGet => exact readsOnly_lawGet.groundless.serveAct
  case stgGet => exact readsOnly_stgGet.groundless.serveAct
  case posGet => exact readsOnly_posGet.groundless.serveAct
  case chGet => exact readsOnly_chGet.groundless.serveAct
  case cntGet => exact readsOnly_cntGet.groundless.serveAct
  case vehSet => exact groundless_vehSet.serveAct
  case lawSet => exact groundless_lawSet.serveAct
  case stgSet => exact groundless_stgSet.serveAct
  case perSet => exact groundless_perSet.serveAct
  case chUnlock => exact groundless_chUnlock.serveAct
  case chHold => exact groundless_chHold.serveAct
  case chResume => exact groundless_chResume.serveAct
  case chReturn => exact groundless_chReturn.serveAct
  case chClear => exact groundless_chClear.serveAct
  case permitSetOn => exact groundless_permitSetOn.serveAct
  case permitSetOff => exact groundless_permitSetOff.serveAct
  case cndEnable => exact groundless_cndEnable.serveAct
  case cndCriteria => exact groundless_cndCriteria.serveAct
  case cntSnap => exact groundless_cntSnap.serveAct
  case cntModeAuto => exact groundless_cntModeAuto.serveAct
  case cntModeManual => exact groundless_cntModeManual.serveAct

theorem step_keepsPath (h : step s = .next t) : KeepsPath s t := by
  unfold step at h
  split at h
  · obtain rfl := Host.Outcome.next.inj h
    exact id
  · next rest _ => exact exec_keepsPath (s := s.withPending rest) h

/-- Settles O56: what the invariants read of a state is its ground; a command that writes a section leaves it READY where it
is occupied, and one that changes the path puts a path of READY sections in force, or cuts the one that stands. -/
theorem everyStepKeepsThePathSound : Obligations.EveryStepKeepsThePathSound := fun s t sound h =>
  (ground_sound_iff t).1 (step_keepsPath h ((ground_sound_iff s).2 sound))

end Sys2Proof.Machine
end

