-- ==== Sys2Proof/Proofs/PassStarts.lean ====
section
/-!
SUPPORT. What a pass reads when it starts, at the last conversion of a scan and at the completion of the pass before (R114,
R115, R118, R119, R123, R135, R138): settles O38.
-/
namespace Sys2Proof.Machine

variable {s t : State} {c : Fin 8} {b : Fin 4} {p : Pass} {r : SampleRecord} {rest : List SampleRecord}

/-! ## Lookups from the published datum (R75, R119, R123) -/

theorem State.sampleLocation_eq (s : State) (offset : Int) : s.sampleLocation offset =
    walkDatum s.store s.path (s.tracker.published.datum.map (·.location)) offset := by
  rw [State.sampleLocation]
  cases s.tracker.published.datum <;> rfl

theorem State.seenCurvature_eq (s : State) (offset : Int) : s.seenCurvature offset = s.curvatureAtOffset offset := by
  rw [State.seenCurvature, State.sampleLocation_eq, State.curvatureAtOffset]
  cases walkDatum s.store s.path (s.tracker.published.datum.map (·.location)) offset with
  | none => rfl
  | some l =>
    dsimp only [Option.bind_some]
    rw [curvatureAlong]
    cases s.path[l.entry]? with
    | none => rfl
    | some e =>
      dsimp only [Option.bind_some, Location.mm]
      cases s.store.sections[e.sec].curvature (roundDiv l.chainage 1000).toNat with
      | none => rfl
      | some k =>
        obtain ⟨sec, orientation, via, moved⟩ := e
        cases orientation <;> rfl

theorem State.seenClearance_eq (s : State) (offset : Int) : s.seenClearance offset = s.clearanceAtOffset offset := by
  rw [State.seenClearance, State.sampleLocation_eq, State.clearanceAtOffset]
  cases walkDatum s.store s.path (s.tracker.published.datum.map (·.location)) offset with
  | none => rfl
  | some l =>
    dsimp only [Option.bind_some]
    rw [clearanceAlong]
    cases s.path[l.entry]? <;> rfl

/-! ## What a pass reads (R115, R138) -/

theorem laneReads_readLane (s : State) (b : Fin 4) (lane : Lane) :
    LaneReads s s.vehicleView.bogies[b].centre (lane.channel b) (s.readLane b lane) where
  start := rfl
  law := rfl
  fields := rfl
  samples := by
    rintro _ rfl
    exact ⟨(s.seenCurvature_eq _).symm, (s.seenCurvature_eq _).symm⟩
  clearance := (s.seenClearance_eq _).symm

theorem laneDuration_eq (start : ChannelState) :
    laneDuration start = if start = .steering then 12 else if start = .returning then 6 else 4 := by
  cases start <;> rfl

theorem passReads_readPass (s : State) (r : SampleRecord) : PassReads s (s.readPass r) where
  position := rfl
  bogie := rfl
  criteria := rfl
  laneA := laneReads_readLane s r.bogie .laneA
  laneB := laneReads_readLane s r.bogie .laneB
  yawCentre := (s.seenCurvature_eq _).symm
  yawBody := (s.seenCurvature_eq _).symm
  duration := by
    have duration : (s.readPass r).endsAt = s.clock + passDuration (s.readPass r).laneA.start (s.readPass r).laneB.start
        r.yaw.isSome := rfl
    have sample : (s.readPass r).sample = r := rfl
    rw [duration, sample, passDuration, laneDuration_eq, laneDuration_eq]
    cases r.yaw <;> simp [Nat.add_assoc]

/-- The states that a pass reads alike: the two states differ in what no pass reads. -/
theorem PassReads.congr (h : PassReads s p) (clock : t.clock = s.clock) (store : t.store = s.store)
    (path : t.path = s.path) (tracker : t.tracker = s.tracker) (vehicle : t.vehicle = s.vehicle)
    (monitor : t.monitor = s.monitor) (laws : t.computation.laws = s.computation.laws)
    (states : ∀ c : Fin 8, t.channels.bank[c].state = s.channels.bank[c].state) : PassReads t p := by
  have view : t.vehicleView = s.vehicleView := by rw [State.vehicleView, vehicle, State.vehicleView]
  have location : t.sampleLocation = s.sampleLocation := by
    funext offset
    rw [State.sampleLocation, tracker, store, path, State.sampleLocation]
  have curvature : t.seenCurvature = s.seenCurvature := by
    funext offset
    rw [State.seenCurvature, location, store, path, State.seenCurvature]
  have clearance : t.seenClearance = s.seenClearance := by
    funext offset
    rw [State.seenClearance, location, store, path, State.seenClearance]
  have lane {centre : Int} {c : Fin 8} {l : LaneRead} (h : LaneReads s centre c l) : LaneReads t centre c l := by
    obtain ⟨start, law, fields, samples, clear⟩ := h
    refine ⟨?_, ?_, ?_, ?_, ?_⟩
    · rw [states, start]
    · rw [laws, law]
    · rw [view, fields]
    · rw [tracker, curvature]
      exact samples
    · rw [clearance, clear]
  obtain ⟨position, bogie, criteria, laneA, laneB, yawCentre, yawBody, duration⟩ := h
  refine ⟨?_, ?_, ?_, lane laneA, lane laneB, ?_, ?_, ?_⟩
  · rw [tracker, position]
  · rw [view, bogie]
  · rw [monitor, criteria]
  · rw [curvature, yawCentre]
  · rw [curvature, yawBody]
  · rw [clock, duration]

/-! ## The start of a pass (R114) -/

/-- A pass of the oldest record has started, with the records behind it left (R114, R115). -/
def State.passStarted (s : State) (r : SampleRecord) (rest : List SampleRecord) : State :=
  ((s.setComputation fun k =>
    { k with queue := rest, pass := some (s.readPass r),
             resetDue := changeAt k.resetDue r.bogie fun _ => false }).setChannel (channelA r.bogie)
      fun ch => { ch with entered := false }).setChannel (channelB r.bogie) fun ch => { ch with entered := false }

/-- An idle unit starts the pass of the oldest record, if one waits. -/
theorem State.startPass_cases (idle : s.computation.pass = none) :
    (s.computation.queue = [] ∧ s.startPass = s) ∨
    ∃ r rest, s.computation.queue = r :: rest ∧ s.startPass = s.passStarted r rest := by
  rw [State.startPass, idle]
  cases s.computation.queue with
  | nil => exact .inl ⟨rfl, rfl⟩
  | cons r rest => exact .inr ⟨r, rest, rfl, rfl⟩

/-- A channel watched from here on keeps its state, and no entry is behind it; every other one stays (R116). -/
theorem State.watched_channel (s : State) (c d : Fin 8) :
    let ch := (s.setChannel c fun ch => { ch with entered := false }).channels.bank[d]
    ch.state = s.channels.bank[d].state ∧ (d = c ∨ s.channels.bank[d].entered = false → ch.entered = false) := by
  intro ch
  rcases eq_or_ne d c with rfl | other
  · have same : ch = { s.channels.bank[d] with entered := false } := changeAt_same ..
    rw [same]
    exact ⟨rfl, fun _ => rfl⟩
  · have same : ch = s.channels.bank[d] := changeAt_other _ _ _ _ other
    rw [same]
    exact ⟨rfl, fun h => h.resolve_left other⟩

/-- After the start of a pass both channels of its bogie are watched, and every state is as it was (R114, R116). -/
theorem State.passStarted_channel (s : State) (r : SampleRecord) (rest : List SampleRecord) (c : Fin 8) :
    (s.passStarted r rest).channels.bank[c].state = s.channels.bank[c].state ∧
    (c = channelA r.bogie ∨ c = channelB r.bogie → (s.passStarted r rest).channels.bank[c].entered = false) := by
  let u := s.setComputation fun k =>
    { k with queue := rest, pass := some (s.readPass r), resetDue := changeAt k.resetDue r.bogie fun _ => false }
  obtain ⟨stateA, enteredA⟩ := u.watched_channel (channelA r.bogie) c
  obtain ⟨stateB, enteredB⟩ := State.watched_channel (u.setChannel (channelA r.bogie) _) (channelB r.bogie) c
  exact ⟨stateB.trans stateA, fun watched => enteredB (watched.symm.imp_right fun a => enteredA (.inl a))⟩

/-- From `s` to `t` the pass `p` has started: of the oldest record, with a reset that was due, and with the two channels
watched. -/
structure PassStarts (s t : State) (p : Pass) : Prop where
  reads : PassReads t p
  resetAfter : p.resetAfter = s.computation.resetDue[p.sample.bogie]
  resetDue : t.computation.resetDue[p.sample.bogie] = false
  enteredA : t.channels.bank[channelA p.sample.bogie].entered = false
  enteredB : t.channels.bank[channelB p.sample.bogie].entered = false
  oldest : s.computation.queue = p.sample :: t.computation.queue

theorem passStarts_startPass (idle : s.computation.pass = none) (started : s.startPass.computation.pass = some p) :
    PassStarts s s.startPass p := by
  rcases State.startPass_cases idle with ⟨-, same⟩ | ⟨r, rest, queue, starts⟩
  · rw [same, idle] at started
    cases started
  · rw [starts] at started ⊢
    obtain rfl : s.readPass r = p := Option.some.inj started
    have sample : (s.readPass r).sample = r := rfl
    refine ⟨(passReads_readPass s r).congr rfl rfl rfl rfl rfl rfl rfl fun c => (s.passStarted_channel r rest c).1, rfl, ?_,
      (s.passStarted_channel r rest _).2 (.inl rfl), (s.passStarted_channel r rest _).2 (.inr rfl), queue⟩
    exact changeAt_same _ _ _

/-! ## What waits for the computation unit -/

/-- What a completion leaves of the computation unit's state up to the start of the next pass. -/
def State.awaiting (s : State) : Option Pass × List SampleRecord × Vector Bool 4 :=
  (s.computation.pass, s.computation.queue, s.computation.resetDue)

/-- What leaves the computation unit leaves what waits for it. -/
theorem awaiting_of_computation (h : t.computation = s.computation) : t.awaiting = s.awaiting := by
  rw [State.awaiting, h, State.awaiting]

@[simp] theorem awaiting_report (i : Fin 48) (x : Bool) : (s.report i x).awaiting = s.awaiting :=
  awaiting_of_computation (State.report_computation ..)
@[simp] theorem awaiting_reportIf (i : Fin 48) (x : Option Bool) : (s.reportIf i x).awaiting = s.awaiting :=
  awaiting_of_computation (State.reportIf_computation ..)
@[simp] theorem awaiting_countIf (x : Bool) (k : Fin 52) : (s.countIf x k).awaiting = s.awaiting :=
  awaiting_of_computation (State.countIf_computation ..)
@[simp] theorem awaiting_offerPeak (k : Fin 16) (n : Nat) : (s.offerPeak k n).awaiting = s.awaiting := rfl
@[simp] theorem awaiting_setChannel (f : Channel → Channel) : (s.setChannel c f).awaiting = s.awaiting := rfl
@[simp] theorem awaiting_setRecord (f : ComputationRecord → ComputationRecord) :
    (s.setRecord c f).awaiting = s.awaiting := rfl
@[simp] theorem awaiting_enterFault (k : FaultCause) : (s.enterFault c k).awaiting = s.awaiting :=
  awaiting_of_computation (State.enterFault_computation ..)
@[simp] theorem awaiting_enterLocking (e : ChannelEvent) : (s.enterLocking c e).awaiting = s.awaiting := rfl

@[simp] theorem awaiting_settleOnce : (s.settleOnce c).awaiting = s.awaiting := by
  rcases s.settleOnce_cases c with ⟨-, -, h⟩ | ⟨-, -, -, h⟩ | ⟨-, -, h⟩ | ⟨-, -, -, h⟩ | h <;> rw [h]
  · exact awaiting_enterFault _
  all_goals rfl

@[simp] theorem awaiting_settle : (s.settle c).awaiting = s.awaiting := by simp [State.settle]

@[simp] theorem awaiting_supervise (law : LawRecord) (x : Sample) (taken : Option LaneResult) :
    (s.supervise c law x taken).awaiting = s.awaiting := by
  unfold State.supervise
  dsimp only
  cases comparison s.channels.bank[c] x <;> simp only [awaiting_offerPeak, awaiting_countIf, awaiting_report]
  all_goals
    split
    · simp
    · split
      · split <;> simp
      · simp

@[simp] theorem awaiting_finishLane (e : LaneEnd) : (s.finishLane e).awaiting = s.awaiting := by simp [State.finishLane]

@[simp] theorem awaiting_reportLane (k : Criteria) (e : LaneEnd) : (s.reportLane k e).awaiting = s.awaiting := by
  unfold State.reportLane
  dsimp only
  cases e.taken with
  | none => dsimp only; split <;> simp <;> split <;> simp
  | some x => dsimp only; split <;> simp

@[simp] theorem awaiting_setYaw (x : YawRecord) : (s.setYaw b x).awaiting = s.awaiting := by
  simp only [State.setYaw, awaiting_report]
  rfl

@[simp] theorem awaiting_resetBogie : (s.resetBogie b).awaiting = s.awaiting := by
  simp [State.resetBogie, State.resetLane]

/-! ## The obligation -/

/-- A completion starts the next pass from a state with no pass in flight and the queue and the resets due as they were
(R114, R116). -/
theorem State.completePass_eq (inFlight : s.computation.pass = some p) : ∃ u : State,
    s.completePass = u.startPass ∧ u.awaiting = (none, s.computation.queue, s.computation.resetDue) := by
  rw [State.completePass, inFlight]
  refine ⟨_, rfl, ?_⟩
  split <;> simp only [awaiting_resetBogie, awaiting_setYaw, awaiting_reportLane, awaiting_finishLane] <;> rfl

/-- The last conversion of a scan starts a pass from a state with the queue and the resets due as the record left them; any
other conversion leaves the computation unit (R106, R114). -/
theorem State.conversionEnd_cases (s : State) (raw : Nat) : (s.conversionEnd raw).computation = s.computation ∨
    ∃ u : State, s.conversionEnd raw = u.startPass ∧ u.computation.pass = s.computation.pass ∧
      u.computation.resetDue = s.computation.resetDue := by
  unfold State.conversionEnd
  split
  · exact .inl rfl
  · dsimp only
    split
    · exact .inl rfl
    · refine .inr ⟨_, rfl, ?_⟩
      unfold State.takeScan
      split <;> exact ⟨rfl, rfl⟩

/-- Settles O38: both commands end with the start of a pass from a state with none in flight, and a pass that starts reads
that state, which its start changes in nothing that it reads. -/
theorem passesReadWhatStandsAtTheirStart : Obligations.PassesReadWhatStandsAtTheirStart := by
  intro c s t p running stepped starting
  rcases starting with ⟨rfl, inFlight⟩ | ⟨idle, raw, rfl⟩
  · obtain ⟨q, inFlight⟩ := Option.ne_none_iff_exists'.1 inFlight
    obtain ⟨u, completed, awaiting⟩ := State.completePass_eq inFlight
    have pass : u.computation.pass = none := congrArg Prod.fst awaiting
    have queue : u.computation.queue = s.computation.queue := congrArg (fun w => w.2.1) awaiting
    have due : u.computation.resetDue = s.computation.resetDue := congrArg (fun w => w.2.2) awaiting
    obtain rfl : u.startPass = t :=
      completed.symm.trans ((State.whileRunning_of_running running _).symm.trans (Host.Outcome.next.inj stepped))
    refine ⟨fun _ => ?_, fun started => ?_⟩
    · rw [← queue]
      rcases State.startPass_cases pass with ⟨empty, same⟩ | ⟨r, rest, waits, starts⟩
      · exact iff_of_true ((congrArg (·.computation.pass) same).trans pass) empty
      · rw [starts, waits]
        exact iff_of_false nofun nofun
    · obtain ⟨reads, reset, cleared, enteredA, enteredB, oldest⟩ := passStarts_startPass pass started
      exact ⟨reads, due ▸ reset, cleared, enteredA, enteredB, fun _ => queue ▸ oldest⟩
  · obtain rfl : s.conversionEnd raw.toNat = t :=
      (State.whileRunning_of_running running _).symm.trans (Host.Outcome.next.inj stepped)
    refine ⟨nofun, fun started => ?_⟩
    rcases s.conversionEnd_cases raw.toNat with same | ⟨u, ends, pass, due⟩
    · rw [same, idle] at started
      cases started
    · rw [ends] at started ⊢
      obtain ⟨reads, reset, cleared, enteredA, enteredB, -⟩ := passStarts_startPass (pass.trans idle) started
      exact ⟨reads, due ▸ reset, cleared, enteredA, enteredB, nofun⟩

end Sys2Proof.Machine
end

