-- ==== Sys2Proof/Proofs/ScanViews.lean ====
section
/-!
SUPPORT. What the invariants of the schedule and the scans read of a state, and the operations and owners that leave it
alone (R93, R99 to R102, R105, R114).
-/
namespace Sys2Proof.Machine

/-! ## The scanning of a state -/

/-- What the invariants of the schedule and the scans read of a state: the vehicle record, the acquisition unit, the pass
in flight and the pass queue. -/
structure Scanning where
  vehicle : Option VehicleRecord
  acquisition : Acquisition
  pass : Option Pass
  queue : List SampleRecord

/-- The scanning of a state. -/
def State.scanning (s : State) : Scanning := ⟨s.vehicle, s.acquisition, s.computation.pass, s.computation.queue⟩

variable {s t : State} {c : Fin 8} {b : Fin 4}

theorem scanning_eq (vehicle : t.vehicle = s.vehicle) (acquisition : t.acquisition = s.acquisition)
    (awaiting : t.awaiting = s.awaiting) : t.scanning = s.scanning := by
  have pass : t.computation.pass = s.computation.pass := congrArg Prod.fst awaiting
  have queue : t.computation.queue = s.computation.queue := congrArg (fun w => w.2.1) awaiting
  rw [State.scanning, vehicle, acquisition, pass, queue, State.scanning]

/-! ## Operations that the scanning does not show -/

@[simp] theorem scanning_reach (n : Nat) : (s.reach n).scanning = s.scanning := rfl
@[simp] theorem scanning_notify (n : Notice) : (s.notify n).scanning = s.scanning := rfl
@[simp] theorem scanning_offerPeak (k : Fin 16) (n : Nat) : (s.offerPeak k n).scanning = s.scanning := rfl
@[simp] theorem scanning_queueReply (r : Frame) (a : Answer) (x : Bool) :
    (s.queueReply r a x).scanning = s.scanning := rfl
@[simp] theorem scanning_popRequest : s.popRequest.scanning = s.scanning := rfl
@[simp] theorem scanning_changeLink (f : LinkState → LinkState) : (s.changeLink f).scanning = s.scanning := rfl
@[simp] theorem scanning_setMonitor (f : Monitor → Monitor) : (s.setMonitor f).scanning = s.scanning := rfl
@[simp] theorem scanning_setTracker (f : Tracker → Tracker) : (s.setTracker f).scanning = s.scanning := rfl
@[simp] theorem scanning_setRecord (f : ComputationRecord → ComputationRecord) :
    (s.setRecord c f).scanning = s.scanning := rfl
@[simp] theorem scanning_setChannel (f : Channel → Channel) : (s.setChannel c f).scanning = s.scanning := rfl
@[simp] theorem scanning_setLines (f : DriveLines → DriveLines) : (s.setLines c f).scanning = s.scanning := rfl
@[simp] theorem scanning_setPermit (x : Bool) : (s.setPermit x).scanning = s.scanning := rfl
@[simp] theorem scanning_notifyChannel (x : ChannelState) (e : ChannelEvent) :
    (s.notifyChannel c x e).scanning = s.scanning := rfl

@[simp] theorem scanning_setPath (l : List PathEntry) : (s.setPath l).scanning = s.scanning := by
  have onPath : ∀ g, ({ s with path := l, store := g } : State).scanning = s.scanning := fun _ => rfl
  exact onPath _

/-- A change of the store alone. -/
theorem scanning_of_store (h : t = { s with store := t.store }) : t.scanning = s.scanning := by
  rw [h]
  rfl

/-- Where only the tracker's own part of a state has changed. -/
theorem State.TrackerMoved.scanning (h : s.TrackerMoved t) : t.scanning = s.scanning := by
  rw [h]
  rfl

@[simp] theorem scanning_report (i : Fin 48) (x : Bool) : (s.report i x).scanning = s.scanning :=
  (State.trackerMoved_report i x).scanning

@[simp] theorem scanning_reportIf (i : Fin 48) (x : Option Bool) : (s.reportIf i x).scanning = s.scanning :=
  (State.trackerMoved_reportIf i x).scanning

@[simp] theorem scanning_count (k : Fin 52) : (s.count k).scanning = s.scanning := (State.trackerMoved_count k).scanning

@[simp] theorem scanning_countIf (x : Bool) (k : Fin 52) : (s.countIf x k).scanning = s.scanning := by
  cases x <;> simp [State.countIf]

@[simp] theorem scanning_snapshot (k : SnapshotCause) : (s.snapshot k).scanning = s.scanning := by
  unfold State.snapshot
  dsimp only
  rw [scanning_report]
  rfl

/-! ## Moves of the channels -/

@[simp] theorem scanning_settle : (s.settle c).scanning = s.scanning :=
  scanning_eq (State.settle_vehicle ..) (State.settle_acquisition ..) awaiting_settle

@[simp] theorem scanning_bringBack (e : ChannelEvent) : (s.bringBack e c).scanning = s.scanning := by
  unfold State.bringBack
  split
  · exact scanning_settle
  all_goals rfl

/-- A fold of operations that the scanning does not show. -/
theorem scanning_foldl {α : Type} {f : State → α → State} (h : ∀ u a, (f u a).scanning = u.scanning) (l : List α) :
    (l.foldl f s).scanning = s.scanning := by
  induction l generalizing s with
  | nil => rfl
  | cons a rest ih => rw [List.foldl_cons, ih, h]

@[simp] theorem scanning_settleAll : s.settleAll.scanning = s.scanning := scanning_foldl (fun _ _ => scanning_settle) _

@[simp] theorem scanning_permitOff : s.permitOff.scanning = s.scanning := by
  unfold State.permitOff
  split
  · exact scanning_foldl (fun _ _ => scanning_bringBack _) _
  · rfl

@[simp] theorem scanning_enterFault (k : FaultCause) : (s.enterFault c k).scanning = s.scanning :=
  scanning_eq (State.enterFault_vehicle ..) (State.enterFault_acquisition ..) (awaiting_enterFault k)

@[simp] theorem scanning_lockExpiry : (s.lockExpiry c).scanning = s.scanning := by
  unfold State.lockExpiry
  split
  · rfl
  · split
    · rw [scanning_enterFault, scanning_reach]
    · rfl

/-! ## The completion of a pass -/

@[simp] theorem scanning_supervise (law : LawRecord) (x : Sample) (taken : Option LaneResult) :
    (s.supervise c law x taken).scanning = s.scanning := by
  have locked (u : State) (e : ChannelEvent) : ((u.enterLocking c e).settle c).scanning = u.scanning := scanning_settle
  unfold State.supervise
  dsimp only
  cases comparison s.channels.bank[c] x <;> simp only [scanning_offerPeak, scanning_countIf, scanning_report]
  all_goals
    split
    · simp
    · split
      · split <;> simp [locked]
      · simp

@[simp] theorem scanning_finishLane (e : LaneEnd) : (s.finishLane e).scanning = s.scanning := by
  simp [State.finishLane]

@[simp] theorem scanning_reportLane (k : Criteria) (e : LaneEnd) : (s.reportLane k e).scanning = s.scanning := by
  unfold State.reportLane
  dsimp only
  cases e.taken with
  | none => dsimp only; split <;> simp <;> split <;> simp
  | some x => dsimp only; split <;> simp

@[simp] theorem scanning_setYaw (r : YawRecord) : (s.setYaw b r).scanning = s.scanning := by
  simp only [State.setYaw, scanning_report]
  rfl

@[simp] theorem scanning_resetBogie : (s.resetBogie b).scanning = s.scanning := by
  simp [State.resetBogie, State.resetLane]

/-! ## The path and the tracker -/

@[simp] theorem scanning_publish : s.publish.scanning = s.scanning := (State.trackerMoved_publish s).scanning

@[simp] theorem scanning_notifyPosition (k : PositionCause) : (s.notifyPosition k).scanning = s.scanning := rfl

@[simp] theorem scanning_judgePath (reached full : Bool) : (s.judgePath reached full).scanning = s.scanning :=
  (State.trackerMoved_judgePath reached full).scanning

@[simp] theorem scanning_doTick : s.doTick.scanning = s.scanning := by
  unfold State.doTick
  dsimp only
  split
  · simp
  · split
    · simp [State.tickLost, State.clearPath]
    · unfold State.tickOn
      dsimp only
      split <;> simp

@[simp] theorem scanning_wheelEdge (w : Fin 16) (e : Edge) (x : Bool) :
    (s.wheelEdge w e x).scanning = s.scanning := by
  unfold State.wheelEdge
  split <;> rfl

@[simp] theorem scanning_debounceOver (w : Debounce) : (s.debounceOver w).scanning = s.scanning := by
  unfold State.debounceOver
  split
  · rfl
  · split <;> rfl

@[simp] theorem scanning_markerLevel (x : Bool) : (s.markerLevel x).scanning = s.scanning := by
  unfold State.markerLevel State.whileRunning
  split
  · rfl
  · dsimp only
    split <;> rfl

@[simp] theorem scanning_resolveMarker : s.resolveMarker.scanning = s.scanning := by
  unfold State.resolveMarker State.markerMatch State.markerMiss
  dsimp only
  split
  · rfl
  · split
    · simp
    · split <;> simp

@[simp] theorem scanning_applyChange (k : PointsChange) (r : PointsRecord) (l : Location) :
    (s.applyChange k r l).scanning = s.scanning := by
  have tracked : ∀ u : Tracker, ({ s with tracker := u } : State).scanning = s.scanning := fun _ => rfl
  unfold State.applyChange
  dsimp only
  split <;> simp [State.judgeMoved, tracked]

@[simp] theorem scanning_takeChange : s.takeChange.scanning = s.scanning := by
  have taken : ∀ l, ({ s with store := { s.store with changes := l } } : State).scanning = s.scanning := fun _ => rfl
  unfold State.takeChange
  split
  · rfl
  · dsimp only
    split <;> simp [taken]

/-! ## The line -/

@[simp] theorem scanning_arrive (r : Frame) : (s.arrive r).scanning = s.scanning := by
  unfold State.arrive
  split
  · rfl
  · simp

@[simp] theorem scanning_takeByte (x : Byte) : (s.takeByte x).scanning = s.scanning := by
  have heard : ∀ (n : Nat) (l : LinkState), ({ s with clock := n, link := l } : State).scanning = s.scanning :=
    fun _ _ => rfl
  have checked : ∀ (u : State) (covered : List Byte) (crc : BitVec 16),
      (u.checkFrame covered crc).scanning = u.scanning := by
    intro u covered crc
    unfold State.checkFrame
    split_ifs <;> simp
  unfold State.takeByte
  split
  · rfl
  · dsimp only
    split <;> simp [State.completeFrame, heard, checked]

@[simp] theorem scanning_beginFrame : s.beginFrame.scanning = s.scanning := by
  unfold State.beginFrame
  split
  · split <;> rfl
  · rfl

@[simp] theorem scanning_refuseKind : s.refuseKind.scanning = s.scanning := by
  unfold State.refuseKind
  split
  · rfl
  · split <;> rfl

@[simp] theorem scanning_gapTimeout : s.gapTimeout.scanning = s.scanning := by
  unfold State.gapTimeout
  split <;> rfl

@[simp] theorem scanning_snapshotExpiry : s.snapshotExpiry.scanning = s.scanning := by
  unfold State.snapshotExpiry
  split
  · rfl
  · split <;> simp

@[simp] theorem scanning_completeClose : s.completeClose.scanning = s.scanning := by
  unfold State.completeClose
  split
  · rfl
  · dsimp only
    split <;> rfl

@[simp] theorem scanning_beginStartUp : s.beginStartUp.scanning = s.scanning := by
  unfold State.beginStartUp
  split <;> rfl

/-! ## Owners of requests -/

/-- An owner that the scanning does not show. -/
def Unscanned (act : List Byte → State → State × Answer) : Prop := ∀ body s, (act body s).1.scanning = s.scanning

theorem ReadsOnly.unscanned {act : List Byte → State → State × Answer} (h : ReadsOnly act) : Unscanned act :=
  fun body s => congrArg State.scanning (h body s)

theorem unscanned_secOpen : Unscanned ownSecOpen := by
  intro body s
  unfold ownSecOpen
  dsimp only
  repeat' split
  all_goals rfl

theorem unscanned_secPut : Unscanned ownSecPut := by
  intro body s
  unfold ownSecPut
  dsimp only
  repeat' split
  all_goals rfl

theorem unscanned_secMark : Unscanned ownSecMark := by
  intro body s
  unfold ownSecMark
  dsimp only
  repeat' split
  all_goals rfl

theorem scanning_ownSecClose (r : Frame) : (ownSecClose r s).scanning = s.scanning := by
  unfold ownSecClose
  repeat' split
  all_goals rfl

theorem unscanned_secJoin : Unscanned ownSecJoin := by
  intro body s
  unfold ownSecJoin
  dsimp only
  repeat' split
  all_goals rfl

theorem unscanned_secJoinNone : Unscanned ownSecJoinNone := by
  intro body s
  have unlinked : ∀ a, (s.unlink a).scanning = s.scanning := fun a => scanning_of_store (s.unlink_eq a)
  unfold ownSecJoinNone
  dsimp only
  repeat' split
  all_goals simp only [unlinked]

theorem unscanned_secDrop : Unscanned ownSecDrop := by
  intro body s
  have dropped : ∀ i, (s.dropSection i).scanning = s.scanning := fun i =>
    (scanning_of_store (s := s) (s.unlinkBoth_eq i) :)
  unfold ownSecDrop
  dsimp only
  repeat' split
  all_goals simp only [dropped]

theorem unscanned_ptsDefine : Unscanned ownPtsDefine := by
  intro body s
  unfold ownPtsDefine
  dsimp only
  repeat' split
  all_goals rfl

theorem unscanned_ptsRemove : Unscanned ownPtsRemove := by
  intro body s
  unfold ownPtsRemove
  repeat' split
  all_goals rfl

theorem unscanned_ptsSet : Unscanned ownPtsSet := by
  intro body s
  unfold ownPtsSet
  repeat' split
  all_goals rfl

theorem unscanned_lawSet : Unscanned ownLawSet := by
  intro body s
  unfold ownLawSet
  repeat' split
  all_goals rfl

theorem unscanned_posLocate : Unscanned ownPosLocate := by
  intro body s
  unfold ownPosLocate
  dsimp only
  repeat' split
  all_goals simp [State.locate]

theorem unscanned_permitSetOn : Unscanned ownPermitSetOn := by
  intro body s
  unfold ownPermitSetOn
  split <;> rfl

theorem unscanned_permitSetOff : Unscanned ownPermitSetOff := fun _ _ => scanning_permitOff

/-- A channel request is not shown where its act is not. -/
theorem scanning_channelRequest {reason : Option Reason} {act : State → State} (h : (act s).scanning = s.scanning) :
    (channelRequest reason act c s).1.scanning = s.scanning := by
  unfold channelRequest
  split
  · rfl
  · exact h

theorem unscanned_chUnlock : Unscanned ownChUnlock := by
  intro body s
  unfold ownChUnlock
  repeat' split
  · rfl
  · rfl
  · exact scanning_channelRequest (by simp [State.unlock])

theorem unscanned_chHold : Unscanned ownChHold := by
  intro body s
  unfold ownChHold
  split
  · rfl
  · exact scanning_channelRequest rfl

theorem unscanned_chResume : Unscanned ownChResume := by
  intro body s
  unfold ownChResume
  split
  · rfl
  · exact scanning_channelRequest rfl

theorem unscanned_chReturn : Unscanned ownChReturn := by
  intro body s
  unfold ownChReturn
  split
  · rfl
  · exact scanning_channelRequest (scanning_bringBack _)

theorem unscanned_chClear : Unscanned ownChClear := by
  intro body s
  unfold ownChClear
  split
  · rfl
  · exact scanning_channelRequest (by simp [State.clearFault])

theorem scanning_ownCndGet (r : Frame) : (ownCndGet r s).scanning = s.scanning := by
  rw [ownCndGet, State.clearLatches, scanning_setMonitor, scanning_queueReply]

theorem scanning_ownSysRestart (r : Frame) : (ownSysRestart r s).scanning = s.scanning := rfl

theorem unscanned_cndEnable : Unscanned ownCndEnable := by
  intro body s
  unfold ownCndEnable State.setModes
  dsimp only
  repeat' split
  all_goals simp only [scanning_setMonitor]

theorem unscanned_cndCriteria : Unscanned ownCndCriteria := by
  intro body s
  unfold ownCndCriteria
  repeat' split
  all_goals rfl

theorem unscanned_cntSnap : Unscanned ownCntSnap := fun _ _ => scanning_snapshot _

theorem unscanned_cntModeAuto : Unscanned ownCntModeAuto := by
  intro body s
  unfold ownCntModeAuto State.modeAuto
  split <;> rfl

theorem unscanned_cntModeManual : Unscanned ownCntModeManual := by
  intro body s
  unfold ownCntModeManual State.modeManual
  repeat' split
  all_goals rfl

end Sys2Proof.Machine
end

