-- ==== Sys2Proof/Proofs/Schedules.lean ====
section
/-!
SUPPORT. STG.SET: the schedules of the old and the new owner set afresh, and the row's checks in order (R94, R95, R99,
R100): settles O35.
-/
namespace Sys2Proof.Machine

variable {s t u : State} {b d : Fin 4} {i : Fin 32} {e : StageEntry} {l l' : List (Fin 4)} {r : Frame}

/-! ## Schedules set afresh one after the other (R99, R100) -/

theorem State.timerAfter_isSome (s : State) (b : Fin 4) : (s.timerAfter b).isSome = s.schedulable b := by
  rw [State.timerAfter]
  cases s.schedulable b <;> cases s.acquisition.timers[b] <;> rfl

/-- A timer that runs exactly while its bogie is scheduled is the one that the schedule asks for. -/
theorem State.timerAfter_of_scheduled (h : s.acquisition.timers[b].isSome = s.schedulable b) :
    s.timerAfter b = s.acquisition.timers[b] := by
  rw [State.timerAfter, ← h]
  cases s.acquisition.timers[b] <;> rfl

theorem Rescheduled.schedulable (h : Rescheduled s t l) (b : Fin 4) : t.schedulable b = s.schedulable b := by
  rw [h.rest]
  rfl

/-- A schedule set afresh asks for the same timer again. -/
theorem Rescheduled.timerAfter_eq (h : Rescheduled s t l) (d : Fin 4) : t.timerAfter d = s.timerAfter d := by
  by_cases mem : d ∈ l
  · have timer : t.acquisition.timers[d] = s.timerAfter d := (h.timers d).trans (if_pos mem)
    rw [State.timerAfter_of_scheduled (by rw [timer, State.timerAfter_isSome, h.schedulable]), timer]
  · exact h.timerAfter mem

theorem Rescheduled.trans (h : Rescheduled s t l) (k : Rescheduled t u l') : Rescheduled s u (l ++ l') := by
  refine ⟨fun d => ?_, by rw [k.rest, h.rest]⟩
  rw [k.timers d, h.timerAfter_eq, h.timers d]
  by_cases second : d ∈ l' <;> by_cases first : d ∈ l <;> simp [first, second]

theorem rescheduled_owner (s : State) (o : Option (Fin 4)) : Rescheduled s (s.rescheduleOwner o) o.toList := by
  cases o with
  | none => exact .nil
  | some b => exact rescheduled_reschedule s b

/-! ## The stage entry replaced (R95) -/

/-- The stage table with one entry replaced whole. -/
def State.replaceStage (s : State) (i : Fin 32) (e : StageEntry) : State :=
  s.setAcquisition fun k => { k with stages := changeAt k.stages i fun _ => e }

theorem rescheduled_writeStage (s : State) (i : Fin 32) (e : StageEntry) : Rescheduled (s.replaceStage i e)
    (s.writeStage i e) (s.acquisition.stages[i].owner.toList ++ e.owner.toList) :=
  (rescheduled_owner (s.replaceStage i e) _).trans (rescheduled_owner _ _)

/-- An entry replaced shows in the schedules of its old and its new owner alone. -/
theorem replaceStage_schedulable (old : s.acquisition.stages[i].owner ≠ some b) (new : e.owner ≠ some b) :
    (s.replaceStage i e).schedulable b = s.schedulable b := by
  have holds (r : Role) : holdsRole (changeAt s.acquisition.stages i fun _ => e) b r =
      holdsRole s.acquisition.stages b r := by
    refine congrArg allStages.any (funext fun j => ?_)
    by_cases same : j = i
    · subst same
      rw [changeAt_same]
      simp only [old, new, false_and]
    · rw [changeAt_other _ _ _ _ same]
  have complete : (s.replaceStage i e).complete b = s.complete b := congrArg laneRoles.all (funext holds)
  rw [State.schedulable, complete]
  rfl

/-- STG.SET leaves every timer as its schedule asks for it (R100). -/
theorem writeStage_timer (running : ∀ b : Fin 4, s.acquisition.timers[b].isSome = s.schedulable b) (b : Fin 4) :
    (s.writeStage i e).acquisition.timers[b] = (s.replaceStage i e).timerAfter b := by
  rw [(rescheduled_writeStage s i e).timers b]
  split
  · rfl
  · next apart =>
    simp only [List.mem_append, Option.mem_toList, not_or] at apart
    obtain ⟨old, new⟩ := apart
    have timer : (s.replaceStage i e).acquisition.timers[b] = s.acquisition.timers[b] := rfl
    exact (State.timerAfter_of_scheduled (by rw [timer, running, replaceStage_schedulable old new])).symm

/-! ## The checks in order (R94) -/

theorem roleOf?_code (r : Role) : roleOf? r.code = some r := by cases r <;> rfl

/-- The roles whose values are not negative (R93). -/
theorem Role.isGap_iff (r : Role) : r.isGap = true ↔ r ∈ [.gapLeftA, .gapRightA, .gapLeftB, .gapRightB] := by
  cases r <;> decide

theorem stageEntryOf?_released {body : List Byte} (none : fieldU body 1 1 = 255) :
    stageEntryOf? body = some StageEntry.released := if_pos none

/-- An owned entry is read from its fields in their ranges (R93, R94). -/
theorem stageEntryOf?_owned {body : List Byte} {role : Role} (owner : e.owner = some b) (holds : e.role = some role)
    (inRange : e.inRange role = true) (bogie : fieldU body 1 1 = b.val) (code : fieldU body 2 1 = role.code)
    (fields : e.input = fieldU body 3 1 ∧ e.scale = fieldS body 4 3 ∧ e.offset = fieldS body 7 3 ∧
      e.validLow = fieldS body 10 3 ∧ e.validHigh = fieldS body 13 3) : stageEntryOf? body = some e := by
  obtain ⟨input, scale, offset, low, high⟩ := fields
  rw [stageEntryOf?, if_neg (by omega), bogie, code, bogieOf?_val, roleOf?_code, ← input, ← scale, ← offset, ← low,
    ← high]
  dsimp only
  rw [← owner, ← holds, if_pos inRange]

theorem bogieOf_eq_iff {c : Fin 8} : bogieOf c = b ↔ c = channelA b ∨ c = channelB b := by
  simp only [Fin.ext_iff, bogieOf, channelA, channelB]
  omega

/-- Whether every channel of an owner is LOCKED (R94). -/
theorem ownerLocked_iff {o : Option (Fin 4)} :
    s.ownerLocked o = true ↔ ∀ c : Fin 8, some (bogieOf c) = o → s.channels.bank[c].state = .locked := by
  cases o with
  | none => simp [State.ownerLocked]
  | some b =>
    simp only [State.ownerLocked, decide_eq_true_eq, Option.some.injEq, bogieOf_eq_iff]
    exact ⟨fun ⟨lockedA, lockedB⟩ c lane => by rcases lane with rfl | rfl <;> assumption,
      fun locked => ⟨locked _ (.inl rfl), locked _ (.inr rfl)⟩⟩

/-- A channel of the old or the new owner of a stage is not LOCKED. -/
theorem ownersLocked_iff {old new : Option (Fin 4)} : (s.ownerLocked old && s.ownerLocked new) = false ↔
    ∃ c : Fin 8, (some (bogieOf c) = old ∨ some (bogieOf c) = new) ∧ s.channels.bank[c].state ≠ .locked := by
  rw [← Bool.not_eq_true, Bool.and_eq_true, ownerLocked_iff, ownerLocked_iff, ← forall_and, not_forall]
  simp only [← or_imp, Classical.not_imp]

theorem duplicateRole_iff : s.duplicateRole i e = true ↔ e.owner ≠ none ∧ ∃ j : Fin 32, j ≠ i ∧
    s.acquisition.stages[j].owner = e.owner ∧ s.acquisition.stages[j].role = e.role := by
  rw [State.duplicateRole, decide_eq_true_eq, Option.isSome_iff_ne_none]
  refine and_congr_right' ?_
  simp only [List.any_eq_true, decide_eq_true_eq, allStages, List.mem_finRange, true_and]

/-- STG.SET with a stage named and an entry in its ranges (R94, R95). -/
theorem ownStgSet_eq {body : List Byte} (stage : fieldU body 0 1 = i.val) (entry : stageEntryOf? body = some e) :
    ownStgSet body s =
      if s.vehicle.isNone then s.stageAnswer .noVehicle
      else if (s.ownerLocked s.acquisition.stages[i].owner && s.ownerLocked e.owner) = false then s.stageAnswer .notLocked
      else if s.duplicateRole i e then s.stageAnswer .duplicate
      else (s.writeStage i e).stageAnswer .ok := by
  rw [ownStgSet, stage, stageOf?_val, entry]

/-- STG.SET taken: the entry replaced, and every timer as its schedule after it asks for it. -/
theorem stgSet_replaces (sound : ScansSound s) (r : Frame) :
    let t := (s.popRequest.writeStage i e).queueReply r ⟨.ok, (s.popRequest.writeStage i e).scheduleRecords⟩ false
    s.answered t r .ok t.scheduleRecords ∧
      t.acquisition.stages = s.acquisition.stages.set i.val e i.isLt ∧
      (∀ b : Fin 4, t.acquisition.timers[b] =
        if t.schedulable b then
          (match s.acquisition.timers[b] with
            | some at_ => some at_
            | none => some (s.clock + 1000 * s.acquisition.periods[b]))
        else none) ∧
      t.acquisition = { s.acquisition with stages := t.acquisition.stages, timers := t.acquisition.timers } ∧
      t = { s with acquisition := t.acquisition, computation := t.computation, monitor := t.monitor, link := t.link } := by
  have timers (b : Fin 4) : (s.popRequest.writeStage i e).acquisition.timers[b] =
      (s.popRequest.replaceStage i e).timerAfter b := writeStage_timer (s := s.popRequest) sound.timers b
  have written := rescheduled_writeStage s.popRequest i e
  have schedulable := written.schedulable
  have rest := written.rest
  generalize s.popRequest.writeStage i e = u at timers schedulable rest
  dsimp only
  refine ⟨?_, ?_, fun b => ?_, ?_, ?_⟩
  · have link : u.link = { s.popRequest.link with notices := u.link.notices } := by rw [rest]; rfl
    show { u.link with replies := u.link.replies ++ [replyOf r .ok u.summary u.scheduleRecords] } = _
    rw [link]
    rfl
  · show u.acquisition.stages = _
    rw [rest]
    rfl
  · refine (timers b).trans ?_
    show _ = if u.schedulable b then _ else _
    rw [schedulable b]
    rfl
  · show u.acquisition = { s.acquisition with stages := u.acquisition.stages, timers := u.acquisition.timers }
    rw [rest]
    rfl
  · rw [rest]
    rfl

/-- Settles O35: the checks in their order, then the schedules of the old and the new owner set afresh; the timers of the
other bogies stand as their schedules, which do not change, ask for them. -/
theorem stgSetReplacesTheEntry : Obligations.StgSetReplacesTheEntry := by
  intro s r i e sound taken kind length stage entry
  have read : stageEntryOf? r.body = some e := by
    rcases entry with ⟨rfl, none⟩ | ⟨b, role, rfl, bogie, code, input, low, high, offset, validLow, validHigh, order, gap⟩
    · exact stageEntryOf?_released none
    · refine stageEntryOf?_owned (b := b) (role := role) rfl rfl ?_ bogie code ⟨rfl, rfl, rfl, rfl, rfl⟩
      exact decide_eq_true ⟨input, low, high, offset, validLow, validHigh, order, fun isGap => gap (role.isGap_iff.1 isGap)⟩
  have own := ownStgSet_eq (s := s.popRequest) stage read
  have fits := lengthIs_of_eq length
  have only {st : Status} (answers : ownStgSet r.body s.popRequest = s.popRequest.stageAnswer st) :
      s.onlyAnswers (s.serveAct 0x30 anyBody (lengthIs 16) ownStgSet) r st s.scheduleRecords :=
    State.onlyAnswers_of_owner taken kind fits rfl answers
  refine ⟨_, rfl, fun absent => ?_, fun present unlocked => ?_, fun present locked held => ?_,
    fun present locked free => ?_⟩
  · exact only (own.trans (if_pos (by simpa using absent)))
  all_goals replace own := own.trans (if_neg (by simpa using present))
  · exact only (own.trans (if_pos (ownersLocked_iff.2 unlocked)))
  all_goals replace own := own.trans (if_neg (mt ownersLocked_iff.1 locked))
  · exact only (own.trans (if_pos (duplicateRole_iff.2 held)))
  · replace own := own.trans (if_neg (mt duplicateRole_iff.1 free))
    have served := State.serveAct_taken (mine := anyBody) taken kind fits rfl (act := ownStgSet)
    rw [own] at served
    rw [served]
    exact stgSet_replaces sound r

end Sys2Proof.Machine
end

