-- ==== Sys2Proof/Proofs/PeriodTimers.lean ====
section
/-!
SUPPORT. PER.SET, and the expiry of a period timer: a new scan, or an overrun (R100 to R105): settles O36.
-/
namespace Sys2Proof.Machine

variable {s t u : State} {b : Fin 4} {r : Frame}

/-! ## What the acquisition unit's operations leave alone -/

/-- From one state to another only the acquisition unit, the monitor and the notices have changed. -/
def State.Acquired (s t : State) : Prop :=
  t = { s with acquisition := t.acquisition, monitor := t.monitor, link := { s.link with notices := t.link.notices } }

theorem State.Acquired.trans (h : s.Acquired t) (k : t.Acquired u) : s.Acquired u := by
  unfold State.Acquired at *
  rw [k, h]

theorem State.acquired_setAcquisition (f : Acquisition → Acquisition) : s.Acquired (s.setAcquisition f) := rfl

theorem State.acquired_report (i : Fin 48) (v : Bool) : s.Acquired (s.report i v) := by
  unfold State.report
  dsimp only
  split_ifs <;> rfl

theorem State.acquired_count (k : Fin 52) : s.Acquired (s.count k) := by
  unfold State.count
  dsimp only
  split_ifs
  · exact State.Acquired.trans (rfl : s.Acquired (s.setLive _)) (State.acquired_report _ _)
  · rfl
  · rfl

/-! ## The converter and its queue (R105) -/

/-- The oldest queued scan taken by the converter, with the scans behind it left (R105). -/
def State.scanTaken (s : State) (q : Scan) (rest : List Scan) : State :=
  s.setAcquisition fun k =>
    { k with queue := rest, converter := some ⟨q, 0, SampleRecord.blank q.bogie q.period, s.clock + 20⟩ }

/-- A converter that is not idle takes no scan. -/
theorem State.takeScan_of_busy (busy : s.acquisition.converter ≠ none) : s.takeScan = s := by
  unfold State.takeScan
  split
  · next idle _ => exact absurd idle busy
  · rfl

/-- An idle converter takes the oldest queued scan, if there is one. -/
theorem State.takeScan_of_idle (idle : s.acquisition.converter = none) :
    s.takeScan = match s.acquisition.queue with
      | [] => s
      | q :: rest => s.scanTaken q rest := by
  unfold State.takeScan
  rw [idle]
  cases s.acquisition.queue <;> rfl

theorem State.acquired_takeScan (s : State) : s.Acquired s.takeScan := by
  unfold State.takeScan
  split <;> rfl

/-! ## PER.SET (R101) -/

/-- PER.SET taken: the period is held, and a running timer starts again with it (R101). -/
theorem State.setPeriod_eq (s : State) (b : Fin 4) (period : Nat) : s.setPeriod b period =
    s.setAcquisition fun k => { k with
      periods := k.periods.set b.val period b.isLt
      timers := k.timers.set b.val (if k.timers[b] = none then none else some (s.clock + 1000 * period)) b.isLt } := by
  unfold State.setPeriod
  dsimp only
  split
  · next runs =>
    have running : s.acquisition.timers[b] ≠ none := Option.isSome_iff_ne_none.1 runs
    have held : (changeAt s.acquisition.periods b fun _ => period)[b] = period := changeAt_same ..
    simp only [State.startTimer, State.setAcquisition, State.mk.injEq, true_and, and_true, Acquisition.mk.injEq]
    exact ⟨rfl, by rw [held, if_neg running]; rfl⟩
  · next stops =>
    have stopped : s.acquisition.timers[b] = none := by simpa using stops
    simp only [State.setAcquisition, State.mk.injEq, true_and, and_true, Acquisition.mk.injEq]
    refine ⟨rfl, ?_⟩
    rw [if_pos stopped, ← stopped]
    exact (Vector.set_getElem_self _).symm

/-- PER.SET with a bogie named (R101). -/
theorem ownPerSet_eq {body : List Byte} (bogie : fieldU body 0 1 = b.val) : ownPerSet body s =
    if fieldU body 1 1 < 2 ∨ 50 < fieldU body 1 1 then (s, Answer.plain .outOfRange)
    else if s.vehicle.isNone then (s, Answer.plain .noVehicle)
    else (s.setPeriod b (fieldU body 1 1), ⟨.ok, (s.setPeriod b (fieldU body 1 1)).scheduleRecords⟩) := by
  rw [ownPerSet, bogie, bogieOf?_val]

theorem ownPerSet_outOfRange {body : List Byte}
    (h : 3 < fieldU body 0 1 ∨ fieldU body 1 1 < 2 ∨ 50 < fieldU body 1 1) :
    ownPerSet body s = (s, Answer.plain .outOfRange) := by
  unfold ownPerSet
  split
  · rfl
  · next b bogie =>
    have named : ¬3 < fieldU body 0 1 := by
      unfold bogieOf? at bogie
      split at bogie
      · omega
      · cases bogie
    exact if_pos (h.resolve_left named)

theorem perSetRestartsTheTimer : Claims.PerSetRestartsTheTimer := by
  intro s r taken kind length
  have fits := lengthIs_of_eq length
  refine ⟨_, rfl, fun beyond => ?_, fun b bogie low high => ?_⟩
  · exact State.onlyAnswers_of_owner taken kind fits rfl (ownPerSet_outOfRange beyond)
  · have own := (ownPerSet_eq (s := s.popRequest) bogie).trans (if_neg (by omega))
    split
    · next absent =>
      exact State.onlyAnswers_of_owner taken kind fits rfl (own.trans (if_pos (by simpa using absent)))
    · next present =>
      replace own := own.trans (if_neg (by simpa using present))
      rw [State.setPeriod_eq] at own
      have served := State.serveAct_taken (mine := anyBody) taken kind fits rfl (act := ownPerSet)
      rw [own] at served
      rw [served]
      exact ⟨⟨rfl, rfl⟩, rfl⟩

/-! ## The expiry of a period timer (R100, R102 to R105) -/

/-- The bogies of the outstanding scans: those of the converter queue, of the converter and of the pass queue (R102). -/
def Acquisition.scanBogies (k : Acquisition) (waiting : List SampleRecord) : List (Fin 4) :=
  k.queue.map (·.bogie) ++ k.converter.toList.map (·.scan.bogie) ++ waiting.map (·.bogie)

theorem outstanding_eq_count (s : State) (b : Fin 4) :
    s.outstanding b = (s.acquisition.scanBogies s.computation.queue).count b := by
  have converting : (match s.acquisition.converter with
      | some c => if c.scan.bogie = b then 1 else 0
      | none => 0) = (s.acquisition.converter.toList.map (·.scan.bogie)).count b := by
    cases s.acquisition.converter <;> simp [List.count_singleton]
  rw [Acquisition.scanBogies, List.count_append, List.count_append, ← converting, List.count_eq_countP,
    List.count_eq_countP, List.countP_map, List.countP_map]
  rfl

/-- No scan of a bogie is outstanding exactly where none stands in one of the three places (R102). -/
theorem scanState_eq_none_iff : s.scanState b = .none ↔ s.outstanding b = 0 := by
  rw [outstanding_eq_count, List.count_eq_zero, Acquisition.scanBogies, List.mem_append, List.mem_append, State.scanState]
  cases s.acquisition.converter <;> split_ifs <;> simp_all [eq_comm (a := b)]

/-- An expiry that finds the bogie's scan outstanding (R103, R104). -/
theorem overrun_counts (s : State) : s.Acquired s.overrun ∧ s.counted s.overrun (vehicleCounter .scanOverrun) ∧
    s.overrun.present (ofVehicle .scanOverrun) = true ∧
    s.overrun.acquisition = { s.acquisition with cleanRun := 0 } := by
  unfold State.overrun
  refine ⟨((State.acquired_count _).trans (State.acquired_setAcquisition _)).trans (State.acquired_report _ _),
    fun j => ?_, ?_, ?_⟩
  · rw [State.report_live, State.setAcquisition_monitor, State.count_counts]
    by_cases same : vehicleCounter .scanOverrun = j
    · subst same
      simp
    · rw [if_neg fun h => same h.1, if_neg fun h => same h.1.symm]
  · rw [State.report_present, if_pos rfl]
  · rw [State.report_acquisition, State.setAcquisition_acquisition, State.count_acquisition]

/-- A new scan joins the converter queue, and an idle converter takes it at once, as no other one waits then (R102, R104,
R105). -/
theorem createScan_joins (s : State) (b : Fin 4) (alone : s.acquisition.converter = none → s.acquisition.queue = []) :
    s.Acquired (s.createScan b) ∧ (s.createScan b).monitor.live = s.monitor.live ∧
    ((s.createScan b).present (ofVehicle .scanOverrun) = true ↔ s.present (ofVehicle .scanOverrun) = true ∧
      runUp s.acquisition.cleanRun < s.monitor.criteria.overrunClear) ∧
    (s.createScan b).acquisition = { s.acquisition with
      cleanRun := runUp s.acquisition.cleanRun
      queue := if s.acquisition.converter = none then [] else s.acquisition.queue ++ [s.newScan b]
      converter := if s.acquisition.converter = none then
        some ⟨s.newScan b, 0, SampleRecord.blank b (s.newScan b).period, s.clock + 20⟩ else s.acquisition.converter } := by
  unfold State.createScan
  extract_lets run s1 s2
  have judged : s1.Acquired s2 ∧ s2.monitor.live = s1.monitor.live ∧ s2.acquisition = s1.acquisition ∧
      s2.clock = s1.clock ∧ (s2.present (ofVehicle .scanOverrun) = true ↔
        s1.present (ofVehicle .scanOverrun) = true ∧ run < s.monitor.criteria.overrunClear) := by
    by_cases clears : s.monitor.criteria.overrunClear ≤ run
    · have reported : s2 = s1.report (ofVehicle .scanOverrun) false := if_pos clears
      rw [reported, State.report_present]
      exact ⟨State.acquired_report _ _, State.report_live .., State.report_acquisition .., State.report_clock ..,
        iff_of_false nofun fun h => absurd h.2 (Nat.not_lt.2 clears)⟩
    · have same : s2 = s1 := if_neg clears
      rw [same]
      exact ⟨rfl, rfl, rfl, rfl, (and_iff_left (Nat.lt_of_not_le clears)).symm⟩
  obtain ⟨rest, live, acquisition, clock, present⟩ := judged
  have queued : s1.Acquired s2.takeScan := rest.trans (State.acquired_takeScan s2)
  have monitor : s2.takeScan.monitor = s2.monitor := by
    unfold State.takeScan
    split <;> rfl
  refine ⟨State.Acquired.trans (State.acquired_setAcquisition _) queued, by rw [monitor, live]; rfl, ?_, ?_⟩
  · rw [State.present, monitor]
    exact present
  · by_cases idle : s.acquisition.converter = none
    · have waiting : s2.acquisition.queue = [s.newScan b] := by
        rw [acquisition]
        show s.acquisition.queue ++ [s.newScan b] = _
        rw [alone idle]
        rfl
      rw [State.takeScan_of_idle (by rw [acquisition]; exact idle), waiting, if_pos idle, if_pos idle]
      dsimp only [State.scanTaken, State.setAcquisition_acquisition]
      rw [acquisition, clock]
      rfl
    · rw [State.takeScan_of_busy (by rw [acquisition]; exact idle), acquisition, if_neg idle, if_neg idle]
      rfl

/-- A period timer that expires starts again, and the expiry is taken (R100, R102, R103). -/
theorem periodExpiry_of_running {n : Nat} (runs : s.acquisition.timers[b] = some n) : s.periodExpiry b =
    if s.outstanding b = 0 then ((s.reach n).startTimer b).createScan b else ((s.reach n).startTimer b).overrun := by
  unfold State.periodExpiry
  rw [runs]
  exact if_congr scanState_eq_none_iff rfl rfl

theorem periodExpiryCreatesAScan : Claims.PeriodExpiryCreatesAScan := by
  intro s b n running sound runs
  refine ⟨s.periodExpiry b, congrArg Host.Outcome.next (State.whileRunning_of_running running _), ?_⟩
  rw [periodExpiry_of_running runs]
  by_cases free : s.outstanding b = 0
  · obtain ⟨rest, live, present, acquisition⟩ := createScan_joins ((s.reach n).startTimer b) b sound.converter
    rw [if_pos free]
    generalize ((s.reach n).startTimer b).createScan b = t at *
    refine ⟨?_, ?_, fun held => absurd free held, fun _ => ⟨live, present, ?_⟩⟩
    · rw [acquisition]
      rfl
    · rw [rest]
      rfl
    · rw [acquisition]
      rfl
  · obtain ⟨rest, counted, present, acquisition⟩ := overrun_counts ((s.reach n).startTimer b)
    rw [if_neg free]
    generalize ((s.reach n).startTimer b).overrun = t at *
    refine ⟨?_, ?_, fun _ => ⟨counted, present, ?_⟩, fun none => absurd none free⟩
    · rw [acquisition]
      rfl
    · rw [rest]
      rfl
    · rw [acquisition]
      rfl

/-- Settles O36: PER.SET from its owner's answer, and an expiry from what the bogie's outstanding scan makes of it. -/
theorem periodTimersDriveTheScans : Obligations.PeriodTimersDriveTheScans :=
  ⟨perSetRestartsTheTimer, periodExpiryCreatesAScan⟩

end Sys2Proof.Machine
end

