-- ==== Sys2Proof/Proofs/Conversions.lean ====
section
/-!
SUPPORT. A stage's value and its place in the sample record, and the end of its conversion (R98, R105 to R107, R114): settles
O37.
-/
namespace Sys2Proof.Machine

variable {s t u : State} {b : Fin 4} {c : Conversion} {raw : Nat}

/-! ## Values and their places (R98, R107) -/

theorem stageValueAndValidity : Claims.StageValueAndValidity := by
  intro e raw _
  have rounded : (e.sample raw).value - e.offset = roundDiv (raw * e.scale) 4096 := Int.add_sub_cancel ..
  have nearest := roundingGoesToTheNearest (raw * e.scale) 4096 (by decide)
  dsimp only
  rw [rounded]
  refine ⟨nearest.1, nearest.2, ?_⟩
  simp only [StageEntry.sample, Bool.and_eq_true, decide_eq_true_eq]
  omega

theorem rolesNameTheirFields : Claims.RolesNameTheirFields :=
  ⟨fun _ _ => ⟨rfl, rfl, rfl, rfl, rfl, rfl, rfl⟩, fun _ _ => ⟨rfl, rfl, rfl⟩⟩

/-- A value is written at the place of its stage's role (R98). -/
theorem Conversion.written_eq {e : StageEntry} {role : Role} (stage : c.scan.stages[c.position]? = some e)
    (holds : e.role = some role) : c.written raw = c.record.write (e.sample raw) role := by
  simp only [Conversion.written, stage, holds]

/-- A value written leaves the bogie of the record. -/
theorem Conversion.written_bogie (c : Conversion) (raw : Nat) : (c.written raw).bogie = c.record.bogie := by
  unfold Conversion.written
  split
  · rfl
  · split
    · rfl
    · next r _ => cases r <;> rfl

/-! ## The end of a conversion (R98, R105, R106, R114) -/

/-- A further stage begins at once (R106). -/
theorem conversionEnd_of_more (converting : s.acquisition.converter = some c)
    (more : c.position + 1 < c.scan.stages.length) : s.conversionEnd raw =
      (s.reach c.endsAt).setAcquisition fun k =>
        { k with converter := some ⟨c.scan, c.position + 1, c.written raw, max s.clock c.endsAt + 20⟩ } := by
  rw [State.conversionEnd, converting]
  exact if_pos more

/-- The last value is written, the converter freed and the record handed to the pass queue (R106). -/
def State.handedOver (s : State) (c : Conversion) (raw : Nat) : State :=
  ((s.reach c.endsAt).setAcquisition fun k => { k with converter := none }).setComputation fun k =>
    { k with queue := k.queue ++ [c.written raw] }

/-- After the last stage the freed converter takes the next scan, and an idle computation unit starts a pass (R105, R106,
R114). -/
theorem conversionEnd_of_last (converting : s.acquisition.converter = some c)
    (last : c.scan.stages.length ≤ c.position + 1) :
    s.conversionEnd raw = (s.handedOver c raw).takeScan.startPass := by
  rw [State.conversionEnd, converting]
  exact if_neg (Nat.not_lt.2 last)

/-- The acquisition unit when its converter is freed at a moment: it takes the oldest queued scan, or is idle (R105). -/
def Acquisition.freed (k : Acquisition) (now : Nat) : Acquisition :=
  match k.queue with
  | [] => { k with converter := none }
  | q :: rest =>
    { k with queue := rest, converter := some ⟨q, 0, SampleRecord.blank q.bogie q.period, now + 20⟩ }

theorem Acquisition.freed_of_empty {k : Acquisition} (empty : k.queue = []) (now : Nat) :
    k.freed now = { k with converter := none } := by
  simp only [Acquisition.freed, empty]

theorem Acquisition.freed_of_queued {k : Acquisition} {q : Scan} {rest : List Scan} (queue : k.queue = q :: rest)
    (now : Nat) : k.freed now =
      { k with queue := rest, converter := some ⟨q, 0, SampleRecord.blank q.bogie q.period, now + 20⟩ } := by
  simp only [Acquisition.freed, queue]

theorem takeScan_handedOver (s : State) (c : Conversion) (raw : Nat) : (s.handedOver c raw).takeScan =
    { s.handedOver c raw with acquisition := s.acquisition.freed (max s.clock c.endsAt) } := by
  have queue : (s.handedOver c raw).acquisition.queue = s.acquisition.queue := rfl
  rw [State.takeScan_of_idle (s := s.handedOver c raw) rfl, queue]
  split
  · next empty =>
    rw [Acquisition.freed_of_empty empty]
    rfl
  · next queued =>
    rw [Acquisition.freed_of_queued queued]
    rfl

/-- A unit with a pass in flight starts none. -/
theorem State.startPass_of_busy (busy : s.computation.pass ≠ none) : s.startPass = s := by
  unfold State.startPass
  split
  · next idle _ => exact absurd idle busy
  · rfl

/-- The mark of an entry is taken from a channel that is watched from here on (R116). -/
theorem State.watched_eq (s : State) (c d : Fin 8) :
    (s.setChannel c fun ch => { ch with entered := false }).channels.bank[d] =
      { s.channels.bank[d] with entered := s.channels.bank[d].entered && decide (d ≠ c) } := by
  rw [State.setChannel_channels]
  by_cases same : d = c
  · subst same
    rw [changeAt_same]
    simp
  · rw [changeAt_other _ _ _ _ same]
    simp [same]

theorem State.passStarted_bank (s : State) (r : SampleRecord) (rest : List SampleRecord) (k : Fin 8) :
    (s.passStarted r rest).channels.bank[k] =
      { s.channels.bank[k] with entered := s.channels.bank[k].entered && decide (bogieOf k ≠ r.bogie) } := by
  rw [State.passStarted, State.watched_eq, State.watched_eq, Bool.and_assoc]
  simp [bogieOf_eq_iff]

theorem conversionEndWritesTheStage : Claims.ConversionEndWritesTheStage := by
  intro s raw c e role running converting stage holds
  refine ⟨s.conversionEnd raw.toNat, congrArg Host.Outcome.next (State.whileRunning_of_running running _), ?_⟩
  dsimp only
  rw [← Conversion.written_eq stage holds]
  rcases Nat.lt_or_ge (c.position + 1) c.scan.stages.length with more | last
  · rw [conversionEnd_of_more converting more]
    exact ⟨rfl, fun _ => rfl, fun last => absurd more (Nat.not_lt.2 last)⟩
  · rw [conversionEnd_of_last converting last, takeScan_handedOver]
    have taken : match s.acquisition.queue with
        | [] => s.acquisition.freed (max s.clock c.endsAt) = { s.acquisition with converter := none }
        | q :: rest => s.acquisition.freed (max s.clock c.endsAt) = { s.acquisition with
            queue := rest
            converter := some ⟨q, 0, SampleRecord.blank q.bogie q.period, max s.clock c.endsAt + 20⟩ } := by
      split
      · next empty => exact Acquisition.freed_of_empty empty _
      · next queued => exact Acquisition.freed_of_queued queued _
    generalize s.acquisition.freed (max s.clock c.endsAt) = a at taken ⊢
    by_cases idle : s.computation.pass = none
    · rcases State.startPass_cases (s := { s.handedOver c raw.toNat with acquisition := a }) idle with
        ⟨empty, -⟩ | ⟨r, rest, queue, starts⟩
      · exact absurd empty (List.append_ne_nil_of_right_ne_nil _ (List.cons_ne_nil _ _))
      · have arrived : s.computation.queue ++ [c.written raw.toNat] = r :: rest := queue
        rw [starts, arrived]
        exact ⟨rfl, fun more => absurd more (Nat.not_lt.2 last), fun _ => ⟨taken, fun busy => absurd idle busy,
          fun _ => ⟨rfl, _, rfl, rfl, rfl, rfl, rfl, rfl, rfl, rfl, rfl, State.passStarted_bank _ r rest⟩, rfl⟩⟩
    · rw [State.startPass_of_busy (s := { s.handedOver c raw.toNat with acquisition := a }) idle]
      exact ⟨rfl, fun more => absurd more (Nat.not_lt.2 last), fun _ => ⟨taken, fun _ => ⟨rfl, rfl⟩,
        fun none => absurd none idle, rfl⟩⟩

/-- Settles O37: a value by the rounding rule, its field by the role, and the end of a conversion by whether a further stage
follows and whether a pass is in flight. -/
theorem conversionsFillTheSampleRecord : Obligations.ConversionsFillTheSampleRecord :=
  ⟨stageValueAndValidity, rolesNameTheirFields, conversionEndWritesTheStage⟩

end Sys2Proof.Machine
end

