-- ==== Sys2Proof/Proofs/ScansSound.lean ====
section
/-!
SUPPORT. Every command keeps the period timers, the stage roles and the scans sound: settles O59.
-/
namespace Sys2Proof.Machine

variable {s t u : State} {b : Fin 4} {i : Fin 32} {e : StageEntry} {l : List (Fin 4)} {r : Frame}

/-! ## The invariant by its parts (R93, R100 to R102, R105, R114) -/

/-- A timer runs exactly while its bogie is scheduled (R100). -/
def State.TimersRun (s : State) : Prop := ∀ b : Fin 4, s.acquisition.timers[b].isSome = s.schedulable b

/-- The unit is not idle while a record waits for it (R114). -/
def State.UnitBusy (s : State) : Prop := s.computation.pass = none → s.computation.queue = []

/-- The rest of the invariant: the periods, the roles, and the scans with the converter that takes them. -/
structure Acquisition.ScansKept (k : Acquisition) (waiting : List SampleRecord) : Prop where
  periods : ∀ b : Fin 4, 2 ≤ k.periods[b] ∧ k.periods[b] ≤ 50
  roles : ∀ i j : Fin 32, k.stages[i].owner.isSome = true → k.stages[i].owner = k.stages[j].owner →
    k.stages[i].role = k.stages[j].role → i = j
  outstanding : ∀ b, (k.scanBogies waiting).count b ≤ 1
  record : ∀ c, k.converter = some c → c.record.bogie = c.scan.bogie
  converter : k.converter = none → k.queue = []

/-- The rest of the invariant, of a state. -/
def State.ScansKept (s : State) : Prop := s.acquisition.ScansKept s.computation.queue

theorem scansSound_iff : ScansSound s ↔ s.TimersRun ∧ s.ScansKept ∧ s.UnitBusy := by
  have outstanding : (∀ b, s.outstanding b ≤ 1) ↔ ∀ b, (s.acquisition.scanBogies s.computation.queue).count b ≤ 1 :=
    forall_congr' fun b => by rw [outstanding_eq_count]
  exact ⟨fun h => ⟨h.timers, ⟨h.periods, h.roles, outstanding.1 h.outstanding, h.record, h.converter⟩, h.pass⟩,
    fun ⟨timers, kept, pass⟩ =>
      ⟨timers, kept.periods, kept.roles, outstanding.2 kept.outstanding, kept.record, kept.converter, pass⟩⟩

theorem schedulable_congr (vehicle : t.vehicle = s.vehicle) (stages : t.acquisition.stages = s.acquisition.stages)
    (b : Fin 4) : t.schedulable b = s.schedulable b := by
  have configured : t.configured b = s.configured b := by
    rw [State.configured, State.vehicleView, vehicle]
    rfl
  have complete : t.complete b = s.complete b := by
    rw [State.complete, stages]
    rfl
  rw [State.schedulable, configured, complete]
  rfl

/-- The timers run as before where the record, the stages and the timers are those of before. -/
theorem State.TimersRun.congr (h : s.TimersRun) (vehicle : t.vehicle = s.vehicle)
    (stages : t.acquisition.stages = s.acquisition.stages) (timers : t.acquisition.timers = s.acquisition.timers) :
    t.TimersRun := fun b => by
  rw [schedulable_congr vehicle stages, timers]
  exact h b

theorem State.ScansKept.congr (h : s.ScansKept) (acquisition : t.acquisition = s.acquisition)
    (queue : t.computation.queue = s.computation.queue) : t.ScansKept := by
  rw [State.ScansKept, acquisition, queue]
  exact h

/-- The invariants read the scanning alone. -/
theorem ScansSound.of_scanning (h : t.scanning = s.scanning) (sound : ScansSound s) : ScansSound t := by
  have vehicle : t.vehicle = s.vehicle := congrArg Scanning.vehicle h
  have acquisition : t.acquisition = s.acquisition := congrArg Scanning.acquisition h
  have pass : t.computation.pass = s.computation.pass := congrArg Scanning.pass h
  have queue : t.computation.queue = s.computation.queue := congrArg Scanning.queue h
  obtain ⟨timers, kept, busy⟩ := scansSound_iff.1 sound
  refine scansSound_iff.2
    ⟨timers.congr vehicle (by rw [acquisition]) (by rw [acquisition]), kept.congr acquisition queue, ?_⟩
  rw [State.UnitBusy, pass, queue]
  exact busy

/-! ## Schedules set afresh (R99, R100) -/

/-- The pass in flight and the records that wait. -/
def State.passing (s : State) : Option Pass × List SampleRecord := (s.computation.pass, s.computation.queue)

@[simp] theorem passing_reschedule : (s.reschedule b).passing = s.passing := by
  have reset (u : State) : (u.resetBogie b).passing = u.passing := by
    have awaiting : (u.resetBogie b).awaiting = u.awaiting := awaiting_resetBogie
    exact congrArg (fun w => (w.1, w.2.1)) awaiting
  unfold State.reschedule State.unscheduled
  split
  · rfl
  · split
    · exact reset _
    · rfl
  · rfl

@[simp] theorem passing_rescheduleOwner (o : Option (Fin 4)) : (s.rescheduleOwner o).passing = s.passing := by
  cases o <;> simp [State.rescheduleOwner]

theorem passing_foldl (l : List (Fin 4)) (s : State) : (l.foldl (fun s b => s.reschedule b) s).passing = s.passing := by
  induction l generalizing s with
  | nil => rfl
  | cons b rest ih => rw [List.foldl_cons, ih, passing_reschedule]

/-- Where every timer is as its schedule asks for it, the timers run exactly while their bogies are scheduled, and the rest is
as it was. -/
theorem scansSound_of_rescheduled (h : Rescheduled s t l) (passing : t.passing = s.passing)
    (timers : ∀ b : Fin 4, t.acquisition.timers[b] = s.timerAfter b) (kept : s.ScansKept) (busy : s.UnitBusy) :
    ScansSound t := by
  have pass : t.computation.pass = s.computation.pass := congrArg Prod.fst passing
  have queue : t.computation.queue = s.computation.queue := congrArg Prod.snd passing
  refine scansSound_iff.2 ⟨fun b => ?_, ?_, ?_⟩
  · rw [timers, State.timerAfter_isSome, h.schedulable]
  · have rest := h.rest
    have acquired : t.acquisition = { s.acquisition with timers := t.acquisition.timers } := by rw [rest]
    generalize t.acquisition.timers = timers at acquired
    have kept' : ({ s with acquisition := { s.acquisition with timers := timers } } : State).ScansKept :=
      ⟨kept.periods, kept.roles, kept.outstanding, kept.record, kept.converter⟩
    exact kept'.congr acquired queue
  · rw [State.UnitBusy, pass, queue]
    exact busy

theorem setVehicle_scansSound (sound : ScansSound s) (v : VehicleRecord) : ScansSound (s.setVehicle v) := by
  obtain ⟨-, kept, busy⟩ := scansSound_iff.1 sound
  have set := setVehicle_rescheduled s v
  exact scansSound_of_rescheduled set (passing_foldl allBogies _) (fun b => (set.timers b).trans (if_pos (mem_allBogies b)))
    ⟨kept.periods, kept.roles, kept.outstanding, kept.record, kept.converter⟩ busy

/-- An entry whose role no other stage of its bogie holds leaves each role of a bogie with one stage (R93, R94). -/
theorem replaceStage_roles (kept : s.ScansKept) (free : s.duplicateRole i e = false) (j k : Fin 32)
    (owned : (s.replaceStage i e).acquisition.stages[j].owner.isSome = true)
    (owner : (s.replaceStage i e).acquisition.stages[j].owner = (s.replaceStage i e).acquisition.stages[k].owner)
    (role : (s.replaceStage i e).acquisition.stages[j].role = (s.replaceStage i e).acquisition.stages[k].role) : j = k := by
  have replaced : (s.replaceStage i e).acquisition.stages[i] = e := changeAt_same ..
  have other {n : Fin 32} (h : n ≠ i) : (s.replaceStage i e).acquisition.stages[n] = s.acquisition.stages[n] :=
    changeAt_other _ _ _ _ h
  have single {n : Fin 32} (owned : e.owner.isSome = true) (h : n ≠ i) (owner : s.acquisition.stages[n].owner = e.owner)
      (role : s.acquisition.stages[n].role = e.role) : False :=
    Bool.eq_false_iff.1 free (duplicateRole_iff.2 ⟨Option.isSome_iff_ne_none.1 owned, n, h, owner, role⟩)
  by_cases atJ : j = i <;> by_cases atK : k = i
  · rw [atJ, atK]
  · rw [atJ, replaced] at owned
    rw [atJ, replaced, other atK] at owner role
    exact (single owned atK owner.symm role.symm).elim
  · rw [owner, atK, replaced] at owned
    rw [atK, replaced, other atJ] at owner role
    exact (single owned atJ owner role).elim
  · rw [other atJ] at owned
    rw [other atJ, other atK] at owner role
    exact kept.roles j k owned owner role

theorem writeStage_scansSound (sound : ScansSound s) (free : s.duplicateRole i e = false) :
    ScansSound (s.writeStage i e) := by
  obtain ⟨timers, kept, busy⟩ := scansSound_iff.1 sound
  have passing : (s.writeStage i e).passing = (s.replaceStage i e).passing := by
    rw [State.writeStage, passing_rescheduleOwner, passing_rescheduleOwner]
    rfl
  exact scansSound_of_rescheduled (rescheduled_writeStage s i e) passing (writeStage_timer timers)
    ⟨kept.periods, replaceStage_roles kept free, kept.outstanding, kept.record, kept.converter⟩ busy

/-! ## Periods and their expiries (R101 to R105) -/

theorem setPeriod_scansSound (sound : ScansSound s) {period : Nat} (low : 2 ≤ period) (high : period ≤ 50) (b : Fin 4) :
    ScansSound (s.setPeriod b period) := by
  obtain ⟨timers, kept, busy⟩ := scansSound_iff.1 sound
  rw [State.setPeriod_eq]
  refine scansSound_iff.2 ⟨fun d => ?_, ⟨fun d => ?_, kept.roles, kept.outstanding, kept.record, kept.converter⟩, busy⟩
  · refine Eq.trans ?_ ((timers d).trans (schedulable_congr rfl rfl d).symm)
    rw [State.setAcquisition_acquisition]
    by_cases same : b = d
    · subst same
      cases running : s.acquisition.timers[b] <;> simp
    · have apart : b.val ≠ d.val := fun e => same (Fin.ext e)
      simp [apart]
  · rw [State.setAcquisition_acquisition]
    by_cases same : b.val = d.val
    · simp [same, low, high]
    · simpa [same] using kept.periods d

/-- A timer that runs starts again (R100). -/
theorem startTimer_scansSound (sound : ScansSound s) (runs : s.acquisition.timers[b].isSome = true) :
    ScansSound (s.startTimer b) := by
  obtain ⟨timers, kept, busy⟩ := scansSound_iff.1 sound
  refine scansSound_iff.2 ⟨fun d => ?_, ⟨kept.periods, kept.roles, kept.outstanding, kept.record, kept.converter⟩, busy⟩
  refine Eq.trans ?_ ((timers d).trans (schedulable_congr rfl rfl d).symm)
  rw [State.startTimer, State.setAcquisition_acquisition]
  by_cases same : d = b
  · subst same
    rw [changeAt_same, runs]
    rfl
  · rw [changeAt_other _ _ _ _ same]

theorem overrun_scansSound (sound : ScansSound s) : ScansSound s.overrun := by
  obtain ⟨timers, kept, busy⟩ := scansSound_iff.1 sound
  obtain ⟨rest, -, -, acquisition⟩ := overrun_counts s
  have computation : s.overrun.computation = s.computation := by rw [rest]
  refine scansSound_iff.2 ⟨timers.congr (by rw [rest]) (by rw [acquisition]) (by rw [acquisition]), ?_, ?_⟩
  · rw [State.ScansKept, acquisition, computation]
    exact ⟨kept.periods, kept.roles, kept.outstanding, kept.record, kept.converter⟩
  · rw [State.UnitBusy, computation]
    exact busy

/-- A bogie without an outstanding scan may have a new one: at an idle converter at once, else in the converter queue (R102,
R105). -/
theorem Acquisition.ScansKept.joined {k : Acquisition} {waiting : List SampleRecord} {q : Scan} {record : SampleRecord}
    (kept : k.ScansKept waiting) (free : (k.scanBogies waiting).count q.bogie = 0) (bogie : record.bogie = q.bogie)
    (run now : Nat) : ScansKept { k with
      cleanRun := run
      queue := if k.converter = none then [] else k.queue ++ [q]
      converter := if k.converter = none then some ⟨q, 0, record, now⟩ else k.converter } waiting := by
  have joined (d : Fin 4) (n m : Nat) (one : n ≤ 1) (alone : q.bogie = d → n = 0)
      (more : m = n + [q.bogie].count d) : m ≤ 1 := by
    rw [List.count_singleton] at more
    by_cases same : q.bogie = d
    · simp [more, alone same, same]
    · simp [more, one, same]
  have alone (d : Fin 4) (same : q.bogie = d) : (k.scanBogies waiting).count d = 0 := same ▸ free
  by_cases idle : k.converter = none
  · have queue := kept.converter idle
    simp only [if_pos idle]
    refine ⟨kept.periods, kept.roles, fun d => joined d _ _ (kept.outstanding d) (alone d) ?_, ?_, fun _ => rfl⟩
    · simp only [scanBogies, idle, queue, List.map_nil, Option.toList, List.map_cons, List.count_append, List.count_nil]
      omega
    · intro c taken
      obtain rfl := Option.some.inj taken
      exact bogie
  · simp only [if_neg idle]
    refine ⟨kept.periods, kept.roles, fun d => joined d _ _ (kept.outstanding d) (alone d) ?_, kept.record,
      fun none => absurd none idle⟩
    simp only [scanBogies, List.map_append, List.map_cons, List.map_nil, List.count_append]
    omega

theorem createScan_scansSound (sound : ScansSound s) (free : s.outstanding b = 0) : ScansSound (s.createScan b) := by
  obtain ⟨timers, kept, busy⟩ := scansSound_iff.1 sound
  obtain ⟨rest, -, -, acquisition⟩ := createScan_joins s b sound.converter
  have computation : (s.createScan b).computation = s.computation := by rw [rest]
  rw [outstanding_eq_count] at free
  refine scansSound_iff.2 ⟨timers.congr (by rw [rest]) (by rw [acquisition]) (by rw [acquisition]), ?_, ?_⟩
  · rw [State.ScansKept, acquisition, computation]
    exact kept.joined (q := s.newScan b) free rfl _ _
  · rw [State.UnitBusy, computation]
    exact busy

theorem periodExpiry_scansSound (sound : ScansSound s) (b : Fin 4) : ScansSound (s.periodExpiry b) := by
  cases timer : s.acquisition.timers[b] with
  | none =>
    rw [State.periodExpiry, timer]
    exact sound
  | some n =>
    have reached : ScansSound (s.reach n) := sound.of_scanning (scanning_reach n)
    have started := startTimer_scansSound (b := b) reached (by
      show s.acquisition.timers[b].isSome = true
      rw [timer]
      rfl)
    rw [periodExpiry_of_running timer]
    split
    · next free => exact createScan_scansSound started free
    · exact overrun_scansSound started

/-! ## Conversions and passes (R106, R114) -/

/-- An idle unit takes the oldest record that waits: then it is not idle while a record waits. -/
theorem startPass_scansSound (timers : s.TimersRun) (kept : s.ScansKept) : ScansSound s.startPass := by
  by_cases idle : s.computation.pass = none
  · rcases State.startPass_cases idle with ⟨empty, same⟩ | ⟨r, rest, queue, starts⟩
    · rw [same]
      exact scansSound_iff.2 ⟨timers, kept, fun _ => empty⟩
    · rw [starts]
      have acquisition : (s.passStarted r rest).acquisition = s.acquisition := rfl
      have waiting : (s.passStarted r rest).computation.queue = rest := rfl
      have fewer (b : Fin 4) : (s.acquisition.scanBogies rest).count b ≤ (s.acquisition.scanBogies (r :: rest)).count b :=
        List.Sublist.count_le b (.append_left (.cons _ (.refl _)) _)
      rw [State.ScansKept, queue] at kept
      refine scansSound_iff.2 ⟨timers.congr rfl rfl rfl, ?_, fun none => absurd none (Option.some_ne_none _)⟩
      rw [State.ScansKept, acquisition, waiting]
      exact { kept with outstanding := fun b => (fewer b).trans (kept.outstanding b) }
  · rw [State.startPass_of_busy idle]
    exact scansSound_iff.2 ⟨timers, kept, fun none => absurd none idle⟩

/-- The conversion goes on to a further stage of its scan (R106). -/
theorem Acquisition.ScansKept.goesOn {k : Acquisition} {waiting : List SampleRecord} {c d : Conversion}
    (kept : k.ScansKept waiting) (converting : k.converter = some c) (scan : d.scan = c.scan)
    (bogie : d.record.bogie = d.scan.bogie) : ScansKept { k with converter := some d } waiting := by
  have same : scanBogies { k with converter := some d } waiting = k.scanBogies waiting := by
    simp only [scanBogies, converting, Option.toList, List.map_cons, List.map_nil, scan]
  refine ⟨kept.periods, kept.roles, fun b => same ▸ kept.outstanding b, ?_, fun idle => absurd idle (Option.some_ne_none _)⟩
  intro e taken
  obtain rfl := Option.some.inj taken
  exact bogie

/-- The record handed over takes its scan's place among the outstanding ones, and the freed converter takes the oldest queued
scan (R102, R105, R106). -/
theorem Acquisition.ScansKept.freed {k : Acquisition} {waiting : List SampleRecord} {c : Conversion} {r : SampleRecord}
    (kept : k.ScansKept waiting) (converting : k.converter = some c) (bogie : r.bogie = c.scan.bogie) (now : Nat) :
    (k.freed now).ScansKept (waiting ++ [r]) := by
  have before := kept.outstanding
  cases queue : k.queue with
  | nil =>
    rw [freed_of_empty queue]
    refine ⟨kept.periods, kept.roles, fun b => ?_, fun d none => absurd none.symm (Option.some_ne_none _), fun _ => queue⟩
    specialize before b
    simp only [scanBogies, converting, queue, List.map_append, List.map_cons, List.map_nil, List.count_append,
      List.count_nil, Option.toList, bogie] at before ⊢
    omega
  | cons q rest =>
    rw [freed_of_queued queue]
    refine ⟨kept.periods, kept.roles, fun b => ?_, ?_, fun idle => absurd idle (Option.some_ne_none _)⟩
    · specialize before b
      simp only [scanBogies, converting, queue, List.map_append, List.map_cons, List.map_nil, List.count_append,
        List.count_cons, List.count_nil, Option.toList, bogie] at before ⊢
      omega
    · intro d taken
      obtain rfl := Option.some.inj taken
      rfl

theorem Acquisition.freed_stages_timers (k : Acquisition) (now : Nat) :
    (k.freed now).stages = k.stages ∧ (k.freed now).timers = k.timers := by
  unfold freed
  split <;> exact ⟨rfl, rfl⟩

theorem conversionEnd_scansSound (sound : ScansSound s) (raw : Nat) : ScansSound (s.conversionEnd raw) := by
  obtain ⟨timers, kept, busy⟩ := scansSound_iff.1 sound
  cases converting : s.acquisition.converter with
  | none =>
    rw [State.conversionEnd, converting]
    exact sound
  | some c =>
    have bogie : (c.written raw).bogie = c.scan.bogie := (c.written_bogie raw).trans (kept.record c converting)
    rcases Nat.lt_or_ge (c.position + 1) c.scan.stages.length with more | last
    · rw [conversionEnd_of_more converting more]
      exact scansSound_iff.2 ⟨timers, kept.goesOn converting rfl bogie, busy⟩
    · rw [conversionEnd_of_last converting last, takeScan_handedOver]
      obtain ⟨stages, same⟩ := s.acquisition.freed_stages_timers (max s.clock c.endsAt)
      exact startPass_scansSound (timers.congr rfl stages same) (kept.freed converting bogie _)

theorem completePass_scansSound (sound : ScansSound s) : ScansSound s.completePass := by
  obtain ⟨timers, kept, -⟩ := scansSound_iff.1 sound
  unfold State.completePass
  split
  · exact sound
  · next p _ =>
    extract_lets s0 a b s1 s2 s3
    have ended : (if p.resetAfter = true then s3.resetBogie p.sample.bogie else s3).scanning = s0.scanning := by
      split <;> simp [s3, s2, s1]
    generalize (if p.resetAfter = true then s3.resetBogie p.sample.bogie else s3) = u at ended
    have vehicle : u.vehicle = s.vehicle := congrArg Scanning.vehicle ended
    have acquisition : u.acquisition = s.acquisition := congrArg Scanning.acquisition ended
    have queue : u.computation.queue = s.computation.queue := congrArg Scanning.queue ended
    exact startPass_scansSound (timers.congr vehicle (by rw [acquisition]) (by rw [acquisition]))
      (kept.congr acquisition queue)

/-! ## Resets and the loss of the supply (R92, R93, R100, R101, R105, R114, R198, R207, R208) -/

/-- Without stages no bogie is complete, whatever the vehicle record. -/
theorem scansSound_initial (acquisition : s.acquisition = Acquisition.initial)
    (computation : s.computation = Computation.initial) : ScansSound s := by
  have stage (i : Fin 32) : s.acquisition.stages[i] = StageEntry.released := by
    simp [acquisition, Acquisition.initial]
  have incomplete (b : Fin 4) : s.schedulable b = false := by
    have absent (role : Role) : holdsRole s.acquisition.stages b role = false := by
      simp [holdsRole, stage, StageEntry.released, -Fin.getElem_fin]
    simp [State.schedulable, State.complete, laneRoles, absent]
  have empty : s.acquisition.scanBogies s.computation.queue = [] := by
    rw [acquisition, computation]
    rfl
  constructor
  case timers =>
    intro b
    rw [incomplete, acquisition]
    simp [Acquisition.initial]
  case periods =>
    intro b
    rw [acquisition]
    simp [Acquisition.initial]
  case roles =>
    intro i j owned
    rw [stage] at owned
    cases owned
  case outstanding =>
    intro b
    rw [outstanding_eq_count, empty]
    exact Nat.zero_le _
  case record =>
    rw [acquisition]
    exact fun c none => absurd none.symm (Option.some_ne_none c)
  case converter =>
    rw [acquisition]
    exact fun _ => rfl
  case pass =>
    rw [computation]
    exact fun _ => rfl

theorem scansSound_resetBlocks (s : State) : ScansSound s.resetBlocks := by
  have initial : ScansSound s.blocksInitial := scansSound_initial (s := s.blocksInitial) rfl rfl
  rw [State.resetBlocks_eq]
  exact initial.of_scanning scanning_settleAll

theorem scansSound_endStartUp (sound : ScansSound s) : ScansSound s.endStartUp := by
  unfold State.endStartUp
  split
  · exact scansSound_resetBlocks _
  · exact sound
  · exact sound

theorem scansSound_loseSupply (sound : ScansSound s) : ScansSound s.loseSupply := by
  unfold State.loseSupply
  split
  · exact sound
  · exact scansSound_initial rfl rfl
  · exact scansSound_initial rfl rfl

theorem scansSound_endFrame (sound : ScansSound s) : ScansSound s.endFrame := by
  unfold State.endFrame
  split
  · exact sound
  · dsimp only
    split
    · exact scansSound_resetBlocks _
    · exact sound.of_scanning ((scanning_changeLink _).trans (scanning_reach _))

theorem scansSound_restart (sound : ScansSound s) : ScansSound s.restart := by
  unfold State.restart
  split
  · exact scansSound_resetBlocks _
  · exact sound
  · exact sound

/-! ## Rows -/

/-- Sound scans are kept. -/
def KeepsScans (s t : State) : Prop := ScansSound s → ScansSound t

theorem KeepsScans.of_scanning (h : t.scanning = s.scanning) : KeepsScans s t := fun sound => sound.of_scanning h

theorem KeepsScans.whileRunning {f : State → State} (h : KeepsScans s (f s)) : KeepsScans s (s.whileRunning f) := by
  unfold State.whileRunning
  split
  · exact h
  · exact id

theorem keepsScans_settle {c : Fin 8} : KeepsScans s (s.whileRunning fun u => u.settle c) :=
  .whileRunning (.of_scanning scanning_settle)

/-- A request row keeps the scans sound where its owner does. -/
theorem KeepsScans.serve {kind : Byte} {mine fits : List Byte → Bool} {owner : Frame → State → State}
    (h : ∀ r u, KeepsScans u (owner r u)) : KeepsScans s (s.serve kind mine fits owner) := by
  rcases State.serve_cases (s := s) (kind := kind) (mine := mine) (fits := fits) owner with
    same | ⟨r, -, -, ⟨-, -, taken⟩ | ⟨-, refused⟩⟩
  · rw [same]
    exact id
  · rw [taken]
    exact fun sound => h r s.popRequest (sound.of_scanning scanning_popRequest)
  · rw [refused]
    exact .of_scanning rfl

theorem KeepsScans.serveAct {kind : Byte} {mine fits : List Byte → Bool} {act : List Byte → State → State × Answer}
    (h : ∀ body u, KeepsScans u (act body u).1) : KeepsScans s (s.serveAct kind mine fits act) :=
  KeepsScans.serve fun r u sound => (h r.body u sound).of_scanning (scanning_queueReply ..)

theorem Unscanned.serveAct {kind : Byte} {mine fits : List Byte → Bool} {act : List Byte → State → State × Answer}
    (h : Unscanned act) : KeepsScans s (s.serveAct kind mine fits act) :=
  KeepsScans.serveAct fun body u => .of_scanning (h body u)

theorem ownVehSet_keepsScans (body : List Byte) (s : State) : KeepsScans s (ownVehSet body s).1 := by
  intro sound
  unfold ownVehSet
  split
  · exact sound
  · split
    · exact sound
    · exact setVehicle_scansSound sound _

theorem ownStgSet_keepsScans (body : List Byte) (s : State) : KeepsScans s (ownStgSet body s).1 := by
  intro sound
  unfold ownStgSet
  split
  · split_ifs with absent unlocked held
    · exact sound
    · exact sound
    · exact sound
    · exact writeStage_scansSound sound (Bool.eq_false_iff.2 held)
  · exact sound

theorem ownPerSet_keepsScans (body : List Byte) (s : State) : KeepsScans s (ownPerSet body s).1 := by
  intro sound
  unfold ownPerSet
  dsimp only
  split
  · exact sound
  · split_ifs with beyond absent
    · exact sound
    · exact sound
    · exact setPeriod_scansSound sound (by omega) (by omega) _

/-! ## Every command -/

theorem exec_keepsScans {c : Instr} (h : exec c s = .next t) : KeepsScans s t := by
  cases c <;> cases h
  case startUpBegin => exact .of_scanning scanning_beginStartUp
  case startUpEnd => exact scansSound_endStartUp
  case supplyLoss => exact scansSound_loseSupply
  case frameSent => exact .whileRunning scansSound_endFrame
  case restartTakesEffect => exact .whileRunning scansSound_restart
  case periodTimerExpiry b => exact .whileRunning fun sound => periodExpiry_scansSound sound b
  case stageConversionComplete raw => exact .whileRunning fun sound => conversionEnd_scansSound sound raw.toNat
  case passComplete => exact .whileRunning completePass_scansSound
  case vehSet => exact .serveAct ownVehSet_keepsScans
  case stgSet => exact .serveAct ownStgSet_keepsScans
  case perSet => exact .serveAct ownPerSet_keepsScans
  case markerInputChange active => exact .of_scanning (scanning_markerLevel active)
  case frameReceived b => exact .whileRunning (.of_scanning (by split <;> simp))
  case frameLengthAbort b => exact .whileRunning (.of_scanning (by split <;> simp))
  case unknownKind | transmitBegin | wheelCount | markerDetection | markerDebounceRelease | markerResolve | byteTaken
      | interByteGapTimeout | snapshotTimerExpiry | lockTimerExpiry | pointsChange | tick | closeCheckComplete =>
    exact .whileRunning (.of_scanning (by simp))
  case lockEngagedChange c engaged =>
    exact fun sound => keepsScans_settle (sound.of_scanning (scanning_setLines _))
  case driveFaultChange c fault ready =>
    exact fun sound => keepsScans_settle (sound.of_scanning (scanning_setLines _))
  case secClose => exact .serve fun r u => .of_scanning (scanning_ownSecClose r)
  case sysRestart => exact .serve fun r u => .of_scanning (scanning_ownSysRestart r)
  case cndGet => exact .serve fun r u => .of_scanning (scanning_ownCndGet r)
  case secOpen => exact unscanned_secOpen.serveAct
  case secPut => exact unscanned_secPut.serveAct
  case secMark => exact unscanned_secMark.serveAct
  case secJoin => exact unscanned_secJoin.serveAct
  case secJoinNone => exact unscanned_secJoinNone.serveAct
  case secDrop => exact unscanned_secDrop.serveAct
  case ptsDefine => exact unscanned_ptsDefine.serveAct
  case ptsRemove => exact unscanned_ptsRemove.serveAct
  case ptsSet => exact unscanned_ptsSet.serveAct
  case posLocate => exact unscanned_posLocate.serveAct
  case lawSet => exact unscanned_lawSet.serveAct
  case secGet => exact readsOnly_secGet.unscanned.serveAct
  case vehGet => exact readsOnly_vehGet.unscanned.serveAct
  case lawGet => exact readsOnly_lawGet.unscanned.serveAct
  case stgGet => exact readsOnly_stgGet.unscanned.serveAct
  case posGet => exact readsOnly_posGet.unscanned.serveAct
  case chGet => exact readsOnly_chGet.unscanned.serveAct
  case cntGet => exact readsOnly_cntGet.unscanned.serveAct
  case chUnlock => exact unscanned_chUnlock.serveAct
  case chHold => exact unscanned_chHold.serveAct
  case chResume => exact unscanned_chResume.serveAct
  case chReturn => exact unscanned_chReturn.serveAct
  case chClear => exact unscanned_chClear.serveAct
  case permitSetOn => exact unscanned_permitSetOn.serveAct
  case permitSetOff => exact unscanned_permitSetOff.serveAct
  case cndEnable => exact unscanned_cndEnable.serveAct
  case cndCriteria => exact unscanned_cndCriteria.serveAct
  case cntSnap => exact unscanned_cntSnap.serveAct
  case cntModeAuto => exact unscanned_cntModeAuto.serveAct
  case cntModeManual => exact unscanned_cntModeManual.serveAct

/-- Settles O59: what the invariants read of a state is its scanning; the commands that change it set schedules afresh, or
move a scan from the converter queue to the converter, the pass queue and the unit, or put everything at its reset values. -/
theorem everyStepKeepsTheScansSound : Obligations.EveryStepKeepsTheScansSound := by
  intro s t sound stepped
  unfold step at stepped
  split at stepped
  · obtain rfl := Host.Outcome.next.inj stepped
    exact sound
  · next rest _ =>
    exact exec_keepsScans (s := s.withPending rest) stepped (ScansSound.of_scanning (s := s) rfl sound)

end Sys2Proof.Machine
end

