-- ==== Sys2Proof/Proofs/PassRecords.lean ====
section
/-!
SUPPORT. What the completion of a pass leaves of the computation unit's records (R115 to R117, R123 to R126, R135): settles
O42.
-/
namespace Sys2Proof.Machine

variable {s t u : State} {c d : Fin 8} {b : Fin 4} {p : Pass} {e : LaneEnd}

/-! ## The records and the clock -/

/-- The clock and the computation unit. -/
def State.figures (s : State) : Nat × Computation := (s.clock, s.computation)

theorem figures_eq (clock : t.clock = s.clock) (computation : t.computation = s.computation) : t.figures = s.figures := by
  rw [State.figures, clock, computation, State.figures]

@[simp] theorem figures_report (i : Fin 48) (x : Bool) : (s.report i x).figures = s.figures :=
  figures_eq (State.report_clock ..) (State.report_computation ..)
@[simp] theorem figures_reportIf (i : Fin 48) (x : Option Bool) : (s.reportIf i x).figures = s.figures :=
  figures_eq (State.reportIf_clock ..) (State.reportIf_computation ..)
@[simp] theorem figures_countIf (x : Bool) (k : Fin 52) : (s.countIf x k).figures = s.figures :=
  figures_eq (State.countIf_clock ..) (State.countIf_computation ..)
@[simp] theorem figures_offerPeak (k : Fin 16) (n : Nat) : (s.offerPeak k n).figures = s.figures := rfl
@[simp] theorem figures_setChannel (f : Channel → Channel) : (s.setChannel c f).figures = s.figures := rfl
@[simp] theorem figures_enterFault (k : FaultCause) : (s.enterFault c k).figures = s.figures :=
  figures_eq (State.enterFault_clock ..) (State.enterFault_computation ..)

/-- A channel that does not stand in UNLOCKING goes from there to no STEERING, whose entry alone changes a record (R109,
R144). -/
theorem settleOnce_figures (h : s.channels.bank[c].state ≠ .unlocking) :
    (s.settleOnce c).figures = s.figures ∧ (s.settleOnce c).channels.bank[c].state ≠ .unlocking := by
  rcases s.settleOnce_cases c with ⟨-, -, same⟩ | ⟨-, -, -, same⟩ | ⟨-, -, same⟩ | ⟨unlocking, -, -, -⟩ | same
  · rw [same]
    exact ⟨figures_enterFault _, by simp [State.enterFault, Channel.toFault]⟩
  · rw [same]
    exact ⟨rfl, by simp [State.enterLocked, Channel.toLocked]⟩
  · rw [same]
    exact ⟨rfl, by simp [State.enterLocking, Channel.toLocking]⟩
  · exact absurd unlocking h
  · rw [same]
    exact ⟨rfl, h⟩

/-- A channel brought to LOCKING changes no record, whatever its levels call for (R153). -/
@[simp] theorem figures_locked (e : ChannelEvent) : ((s.enterLocking c e).settle c).figures = s.figures := by
  have locking : (s.enterLocking c e).channels.bank[c].state ≠ .unlocking := by
    simp [State.enterLocking, Channel.toLocking]
  obtain ⟨once, still⟩ := settleOnce_figures locking
  rw [State.settle, (settleOnce_figures still).1, once]
  rfl

@[simp] theorem figures_supervise (law : LawRecord) (x : Sample) (taken : Option LaneResult) :
    (s.supervise c law x taken).figures = s.figures := by
  unfold State.supervise
  dsimp only
  cases comparison s.channels.bank[c] x <;> simp only [figures_offerPeak, figures_countIf, figures_report]
  all_goals
    split
    · simp
    · split
      · split <;> simp
      · simp

@[simp] theorem figures_finishLane (e : LaneEnd) :
    (s.finishLane e).figures = (s.setRecord e.channel fun _ => e.record).figures := figures_supervise ..

@[simp] theorem figures_reportLane (k : Criteria) (e : LaneEnd) : (s.reportLane k e).figures = s.figures := by
  unfold State.reportLane
  dsimp only
  cases e.taken with
  | none => dsimp only; split <;> simp <;> split <;> simp
  | some x => dsimp only; split <;> simp

/-- A bogie's yaw record written, and the condition judged over the four (R135, R136). -/
theorem setYaw_writes (s : State) (b : Fin 4) (r : YawRecord) :
    (s.setYaw b r).figures = (s.clock, { s.computation with yaw := changeAt s.computation.yaw b fun _ => r }) ∧
    (s.setYaw b r).present (ofVehicle .geometryMismatch) =
      allBogies.any fun d => (s.setYaw b r).computation.yaw[d].mismatch := by
  constructor
  · rw [State.setYaw, figures_report]
    rfl
  · have computation : (s.setYaw b r).computation = _ := State.report_computation ..
    rw [computation]
    exact (State.report_present ..).trans (if_pos rfl)

/-- The start of a pass leaves the clock, the monitor and every record (R114). -/
theorem startPass_keepsRecords (s : State) : s.startPass.clock = s.clock ∧ s.startPass.monitor = s.monitor ∧
    s.startPass.computation.laws = s.computation.laws ∧ s.startPass.computation.records = s.computation.records ∧
    s.startPass.computation.yaw = s.computation.yaw := by
  unfold State.startPass
  split <;> exact ⟨rfl, rfl, rfl, rfl, rfl⟩

/-- The computation unit after the completion of a pass with no reset due, before the next pass starts (R116, R135). -/
def Computation.completed (k : Computation) (p : Pass) (a b : ComputationRecord) : Computation :=
  { k with
    pass := none
    records := changeAt (changeAt k.records (channelA p.sample.bogie) fun _ => a) (channelB p.sample.bogie) fun _ => b
    yaw := changeAt k.yaw p.sample.bogie (yawAfter p) }

/-- The state in which both lanes have ended and reported, with no pass in flight (R116, R137). -/
def State.lanesEnded (s : State) (p : Pass) : State :=
  let s0 := (s.reach p.endsAt).setComputation fun k => { k with pass := none }
  (((s0.finishLane (s.endA p)).finishLane (s.endB p)).reportLane p.criteria (s.endA p)).reportLane p.criteria (s.endB p)

theorem lanesEnded_figures (s : State) (p : Pass) : (s.lanesEnded p).figures = (max s.clock p.endsAt,
    { s.computation.completed p (s.endA p).record (s.endB p).record with yaw := s.computation.yaw }) := by
  let s0 := (s.reach p.endsAt).setComputation fun k => { k with pass := none }
  let second (f : Nat × Computation) : Nat × Computation :=
    (f.1, { f.2 with records := changeAt f.2.records (s.endB p).channel fun _ => (s.endB p).record })
  have first : (s0.finishLane (s.endA p)).figures = (s0.setRecord (s.endA p).channel fun _ => (s.endA p).record).figures :=
    figures_finishLane _
  rw [State.lanesEnded, figures_reportLane, figures_reportLane, figures_finishLane]
  exact congrArg second first

/-- With no reset due, the yaw record is written after the lanes' ends, and the next pass starts (R114, R116, R135). -/
theorem completePass_of_unreset (inFlight : s.computation.pass = some p) (unreset : p.resetAfter = false) :
    s.completePass = ((s.lanesEnded p).setYaw p.sample.bogie
      (yawAfter p (s.lanesEnded p).computation.yaw[p.sample.bogie])).startPass := by
  rw [State.completePass, inFlight]
  dsimp only
  rw [unreset]
  rfl

theorem completePass_figures (inFlight : s.computation.pass = some p) (unreset : p.resetAfter = false) :
    ∃ u : State, s.completePass = u.startPass ∧
      u.figures = (max s.clock p.endsAt, s.computation.completed p (s.endA p).record (s.endB p).record) ∧
      u.present (ofVehicle .geometryMismatch) = allBogies.any fun b => u.computation.yaw[b].mismatch := by
  have figures := lanesEnded_figures s p
  have clock : (s.lanesEnded p).clock = _ := congrArg Prod.fst figures
  have computation : (s.lanesEnded p).computation = _ := congrArg Prod.snd figures
  obtain ⟨written, mismatch⟩ := setYaw_writes (s.lanesEnded p) p.sample.bogie
    (yawAfter p (s.lanesEnded p).computation.yaw[p.sample.bogie])
  refine ⟨_, completePass_of_unreset inFlight unreset, written.trans ?_, mismatch⟩
  rw [clock, computation]
  rfl

/-! ## A lane's end (R115 to R117, R123 to R126) -/

theorem resultTaken_iff {start : ChannelState} {ch : Channel} : resultTaken start ch = true ↔
    (start = .steering ∨ start = .returning) ∧ ch.state = start ∧ ch.entered = false := by
  simp [resultTaken, and_assoc]

theorem laneEndsHoldTheirLane : Claims.LaneEndsHoldTheirLane := fun _ _ =>
  ⟨rfl, rfl, ⟨rfl, rfl, rfl, rfl, rfl, rfl, if_congr resultTaken_iff rfl rfl⟩,
    ⟨rfl, rfl, rfl, rfl, rfl, rfl, if_congr resultTaken_iff rfl rfl⟩⟩

section
variable {own partner : LaneRead} {g h : Gaps} {x : Sample}

/-- Stage 5 leaves the fields that a result writes (R117, R124). -/
theorem LaneEndHolds.judged_keeps (holds : LaneEndHolds s p e c d own partner g h x) :
    e.judged = { e.judged with
      filter := s.computation.records[e.channel].filter, output := s.computation.records[e.channel].output,
      held := s.computation.records[e.channel].held, substituted := s.computation.records[e.channel].substituted,
      flags := s.computation.records[e.channel].flags, limitedRun := s.computation.records[e.channel].limitedRun,
      unlimitedRun := s.computation.records[e.channel].unlimitedRun } := by
  obtain ⟨rfl, -, -, -, -, judged, -⟩ := holds
  rw [judged]
  rfl

/-- A lane that started where no result is computed takes none. -/
theorem LaneEndHolds.record_of_undriven (holds : LaneEndHolds s p e c d own partner g h x)
    (undriven : e.read.start ≠ .steering ∧ e.read.start ≠ .returning) :
    e.record = if e.read.start.givesZero then e.judged.zeroed else e.judged := by
  have none : e.taken = none := by
    rw [holds.taken, if_neg]
    rw [holds.read] at undriven
    tauto
  rw [LaneEnd.record, none]

/-- A lane that started in STEERING or RETURNING, by whether its channel still stands there (R116). -/
theorem LaneEndHolds.record_of_driven (holds : LaneEndHolds s p e c d own partner g h x)
    (driven : e.read.start = .steering ∨ e.read.start = .returning) :
    let standing := s.channels.bank[e.channel].state = e.read.start ∧ s.channels.bank[e.channel].entered = false
    (¬standing → e.record = e.judged) ∧
      (standing → ∃ r, laneResult p e.read e.judged = some r ∧ e.record = e.judged.take r) := by
  have given : ∃ r, laneResult p e.read e.judged = some r := by
    unfold laneResult
    rcases driven with start | start <;> rw [start] <;> exact ⟨_, rfl⟩
  have unzeroed : e.read.start.givesZero = false := by rcases driven with start | start <;> rw [start] <;> rfl
  obtain ⟨rfl, rfl, -, -, -, -, taken⟩ := holds
  refine ⟨fun gone => ?_, fun standing => ?_⟩
  · rw [if_neg fun both => gone both.2] at taken
    rw [LaneEnd.record, taken, unzeroed]
    rfl
  · rw [if_pos ⟨driven, standing⟩] at taken
    obtain ⟨r, result⟩ := given
    exact ⟨r, result, by rw [LaneEnd.record, taken, result]⟩

end

/-! ## The obligation -/

theorem completionWritesTheRecords : Claims.PassCompletionWritesTheRecords := by
  intro s p running inFlight unreset
  obtain ⟨u, completed, figures, mismatch⟩ := completePass_figures inFlight unreset
  have clock : u.clock = max s.clock p.endsAt := congrArg Prod.fst figures
  have computation : u.computation = s.computation.completed p (s.endA p).record (s.endB p).record :=
    congrArg Prod.snd figures
  obtain ⟨clock', monitor, laws, records, yaw⟩ := startPass_keepsRecords u
  refine ⟨s.completePass, congrArg Host.Outcome.next (State.whileRunning_of_running running _), ?_⟩
  rw [completed, clock', laws, records, yaw, State.present, monitor]
  rw [State.present] at mismatch
  rw [computation] at mismatch ⊢
  refine ⟨clock, rfl, fun c other => ?_, fun b => ?_, mismatch, fun e member => ?_⟩
  · have apart := (not_congr (bogieOf_eq_iff (c := c) (b := p.sample.bogie))).1 other
    rw [not_or] at apart
    exact (changeAt_other _ _ _ _ apart.2).trans (changeAt_other _ _ _ _ apart.1)
  · split
    · next same => exact same ▸ changeAt_same ..
    · next other => exact changeAt_other _ _ _ _ other
  · have written : (s.computation.completed p (s.endA p).record (s.endB p).record).records[e.channel] = e.record := by
      rcases List.mem_pair.1 member with rfl | rfl
      · exact (changeAt_other _ _ _ _ (channelA_ne_channelB _)).trans (changeAt_same ..)
      · exact changeAt_same ..
    obtain ⟨c, d, own, partner, g, h, x, holds⟩ : ∃ c d own partner g h x, LaneEndHolds s p e c d own partner g h x := by
      obtain ⟨-, -, a, b⟩ := laneEndsHoldTheirLane s p
      rcases List.mem_pair.1 member with rfl | rfl
      · exact ⟨_, _, _, _, _, _, _, a⟩
      · exact ⟨_, _, _, _, _, _, _, b⟩
    have keeps := holds.judged_keeps
    have driven := holds.record_of_driven
    have undriven := holds.record_of_undriven
    have takes (r : LaneResult) : if r.flags.angle = true ∨ r.flags.stroke = true then
        e.judged.take r = { e.judged with
          filter := r.filter, output := r.output, held := r.held, substituted := r.substituted, flags := r.flags,
          limitedRun := min 255 (e.judged.limitedRun + 1), unlimitedRun := 0 }
        else e.judged.take r = { e.judged with
          filter := r.filter, output := r.output, held := r.held, substituted := r.substituted, flags := r.flags,
          limitedRun := 0, unlimitedRun := min 255 (e.judged.unlimitedRun + 1) } := by
      simp only [ComputationRecord.take, Bool.or_eq_true]
      split <;> rfl
    rw [congrArg ComputationRecord.limitedRun keeps, congrArg ComputationRecord.unlimitedRun keeps] at takes
    have zeroed (given : e.read.start.givesZero = true)
        (stands : e.read.start ≠ .steering ∧ e.read.start ≠ .returning) : e.record = e.judged.zeroed :=
      (undriven stands).trans (if_pos given)
    dsimp only
    rw [written]
    cases start : e.read.start with
    | locking | locked | unlocking | fault => exact zeroed (by rw [start]; rfl) (by rw [start]; decide)
    | holding => exact (undriven (by rw [start]; decide)).trans ((if_neg (by rw [start]; decide)).trans keeps)
    | steering | returning =>
      obtain ⟨gone, taken⟩ := driven (by rw [start]; decide)
      rw [start] at gone taken
      refine ⟨fun left => (gone left).trans keeps, fun standing => ?_⟩
      obtain ⟨r, result, record⟩ := taken standing
      exact ⟨r, result, record ▸ takes r⟩

/-- Settles O42: each lane's end holds its own lane by its definition, and the record it leaves is written by the start state
and by whether its result is taken. -/
theorem passCompletionWritesTheRecords : Obligations.PassCompletionWritesTheRecords :=
  ⟨laneEndsHoldTheirLane, completionWritesTheRecords⟩

end Sys2Proof.Machine
end

