-- ==== Sys2Proof/Proofs/Fields.lean ====
section
/-!
SUPPORT. Where the fields of a record lie in its bytes, and how a field is read back from the bytes it was written in (R199).
-/
namespace Sys2Proof.Machine

variable {a b : List Byte} {o w n : Nat} {x : Byte} {i : Int}

/-! ## Fields of joined bytes -/

/-- A field within the first of two parts. -/
@[simp] theorem fieldU_append_left (h : o + w ≤ a.length) : fieldU (a ++ b) o w = fieldU a o w := by
  rw [fieldU, fieldU, List.drop_append_of_le_length (by omega), List.take_append_of_le_length]
  rw [List.length_drop]
  omega

/-- A field within the second of two parts. -/
@[simp] theorem fieldU_append_right (h : a.length ≤ o) : fieldU (a ++ b) o w = fieldU b (o - a.length) w := by
  rw [fieldU, fieldU, List.drop_append, List.drop_of_length_le h, List.nil_append]

@[simp] theorem fieldU_cons_succ : fieldU (x :: b) (o + 1) w = fieldU b o w := rfl

@[simp] theorem fieldU_cons_zero : fieldU (x :: b) 0 1 = x.toNat := beNat_singleton x

@[simp] theorem fieldS_append_left (h : o + w ≤ a.length) : fieldS (a ++ b) o w = fieldS a o w := by
  rw [fieldS, fieldU_append_left h, fieldS]

@[simp] theorem fieldS_append_right (h : a.length ≤ o) : fieldS (a ++ b) o w = fieldS b (o - a.length) w := by
  rw [fieldS, fieldU_append_right h, fieldS]

@[simp] theorem fieldS_cons_succ : fieldS (x :: b) (o + 1) w = fieldS b o w := rfl

/-- A field of one byte is the byte at its place. -/
theorem fieldU_one (b : List Byte) (o : Nat) : fieldU b o 1 = (b.getD o 0).toNat := by
  rw [fieldU, List.getD_eq_getElem?_getD, ← List.head?_drop]
  cases b.drop o with
  | nil => rfl
  | cons x rest => exact beNat_singleton x

theorem getD_of_fieldU (h : fieldU b o 1 = x.toNat) : b.getD o 0 = x :=
  BitVec.eq_of_toNat_eq ((fieldU_one b o).symm.trans h)

/-! ## What is written is read -/

@[simp] theorem u8_toNat (n : Nat) : (u8 n).toNat = n % 256 := rfl

@[simp] theorem flag_toNat (x : Bool) : (flag x).toNat = if x then 1 else 0 := by cases x <;> rfl

@[simp] theorem beS_length (w : Nat) (i : Int) : (beS w i).length = w := be_length ..

/-- A number is read back as far as its width holds it. -/
theorem fieldU_be_self (w n : Nat) : fieldU (be w n) 0 w = n % 256 ^ w := by
  rw [fieldU, List.drop_zero, List.take_of_length_le (be_length w n).le, beNat_be]

@[simp] theorem fieldU_be_one (n : Nat) : fieldU (be 1 n) 0 1 = n % 256 := fieldU_be_self 1 n
@[simp] theorem fieldU_be_two (n : Nat) : fieldU (be 2 n) 0 2 = n % 65536 := fieldU_be_self 2 n
@[simp] theorem fieldU_be_three (n : Nat) : fieldU (be 3 n) 0 3 = n % 16777216 := fieldU_be_self 3 n
@[simp] theorem fieldU_be_four (n : Nat) : fieldU (be 4 n) 0 4 = n % 4294967296 := fieldU_be_self 4 n

/-- A signed number of a width is read back from its two's complement. -/
theorem fieldS_beS_self (m : Nat) (low : -2 ^ (8 * m + 7) ≤ i) (high : i < 2 ^ (8 * m + 7)) :
    fieldS (beS (m + 1) i) 0 (m + 1) = i := by
  obtain ⟨p, half⟩ : ∃ p, 2 ^ (8 * m + 7) = p := ⟨_, rfl⟩
  have whole : 256 ^ (m + 1) = 2 * p := by
    rw [← half, ← pow_succ', show 256 = 2 ^ 8 from rfl, ← pow_mul]
    rfl
  have halfInt : (2 : Int) ^ (8 * m + 7) = p := by exact_mod_cast half
  have wholeInt : (2 : Int) ^ (8 * (m + 1)) = 2 * p := by
    rw [← halfInt, ← pow_succ']
    rfl
  have positive : 0 < p := half ▸ Nat.two_pow_pos _
  rw [halfInt] at low high
  rw [fieldS, beS, fieldU_be_self, whole, signedOf, show 8 * (m + 1) - 1 = 8 * m + 7 from rfl, half, wholeInt]
  clear half halfInt whole wholeInt
  rcases lt_or_ge i 0 with negative | nonnegative
  · have wrapped : i % (2 * p : Nat) = i + (2 * p : Nat) := by
      rw [← Int.add_emod_right, Int.emod_eq_of_lt (by omega) (by omega)]
    rw [wrapped, Nat.mod_eq_of_lt (by omega)]
    split <;> omega
  · rw [Int.emod_eq_of_lt nonnegative (by omega), Nat.mod_eq_of_lt (by omega)]
    split <;> omega

theorem fieldS_beS_two (h : i.natAbs < 32768) : fieldS (beS 2 i) 0 2 = i := fieldS_beS_self 1 (by omega) (by omega)
theorem fieldS_beS_three (low : -8388608 ≤ i) (high : i < 8388608) : fieldS (beS 3 i) 0 3 = i :=
  fieldS_beS_self 2 low high
theorem fieldS_beS_four (h : i.natAbs < 2147483648) : fieldS (beS 4 i) 0 4 = i :=
  fieldS_beS_self 3 (by omega) (by omega)

/-! ## Flags -/

/-- The bits of a byte of flags (R199). -/
theorem bits_getLsbD (l : List Bool) (h : l.length ≤ 8) (k : Nat) : (bits l).getLsbD k = l.getD k false := by
  have bit (l : List Bool) (k : Nat) : (l.foldr (fun (b : Bool) acc => 2 * acc + b.toNat) 0).testBit k = l.getD k false := by
    induction l generalizing k with
    | nil => simp
    | cons b rest ih =>
      rw [List.foldr_cons, ← Nat.bit_val]
      cases k with
      | zero => simp
      | succ k => rw [Nat.testBit_bit_succ, ih]; simp
  rw [bits, u8, BitVec.getLsbD_ofNat, bit]
  by_cases inside : k < 8
  · simp [inside]
  · rw [List.getD_eq_default _ _ (by omega), Bool.and_false]

theorem bits_getElem (l : List Bool) (h : l.length ≤ 8) (k : Nat) (hk : k < 8) : (bits l)[k] = l.getD k false := by
  rw [← BitVec.getLsbD_eq_getElem, bits_getLsbD l h]

/-- A byte of few flags is small. -/
theorem bits_toNat_lt (l : List Bool) : (bits l).toNat < 2 ^ l.length := by
  have small (l : List Bool) : l.foldr (fun (b : Bool) acc => 2 * acc + b.toNat) 0 < 2 ^ l.length := by
    induction l with
    | nil => simp
    | cons b rest ih =>
      rw [List.foldr_cons, List.length_cons, pow_succ']
      have := b.toNat_le
      omega
  exact (Nat.mod_le _ _).trans_lt (small l)

/-! ## Blocks of one width -/

/-- A bank of blocks of one width, one after another. -/
theorem length_blocks {α : Type} {f : α → List Byte} (width : ∀ x, (f x).length = w) (l : List α) :
    (l.map f).flatten.length = w * l.length := by
  induction l with
  | nil => rfl
  | cons x rest ih => simp [ih, width, Nat.mul_succ, Nat.add_comm]

/-- A field of a block of a bank that stands behind other bytes. -/
theorem fieldU_block {α : Type} {f : α → List Byte} (width : ∀ x, (f x).length = w) {l : List α} {k : Nat} {x : α}
    (there : l[k]? = some x) {p m q : Nat} (before : a.length = p) (inside : m + n ≤ w) (place : q = p + w * k + m) :
    fieldU (a ++ (l.map f).flatten ++ b) q n = fieldU (f x) m n := by
  subst place before
  rw [List.append_assoc, Nat.add_assoc, fieldU_append_right (Nat.le_add_right ..), Nat.add_sub_cancel_left]
  induction l generalizing k with
  | nil => cases there
  | cons y rest ih =>
    rw [List.map_cons, List.flatten_cons, List.append_assoc]
    cases k with
    | zero =>
      obtain rfl : y = x := Option.some.inj there
      rw [Nat.mul_zero, Nat.zero_add, fieldU_append_left (by rw [width]; exact inside)]
    | succ k =>
      rw [fieldU_append_right (by rw [width, Nat.mul_succ]; omega), width, ← ih (k := k) there]
      congr 1
      rw [Nat.mul_succ]
      omega

theorem fieldS_block {α : Type} {f : α → List Byte} (width : ∀ x, (f x).length = w) {l : List α} {k : Nat} {x : α}
    (there : l[k]? = some x) {p m q : Nat} (before : a.length = p) (inside : m + n ≤ w) (place : q = p + w * k + m) :
    fieldS (a ++ (l.map f).flatten ++ b) q n = fieldS (f x) m n :=
  congrArg (signedOf n) (fieldU_block width there before inside place)

end Sys2Proof.Machine
end

