-- ==== Sys2Proof/Proofs/Records.lean ====
section
/-!
SUPPORT. Geometry, law, computation, yaw, channel and position records in their bytes, the codes, the condition sets and the
summary byte (R164, R192, R199 to R202, R205, R206).
-/
namespace Sys2Proof.Machine

/-! ## Codes fit a byte (R201) -/

theorem ChannelState.code_lt (x : ChannelState) : x.code < 256 := by cases x <;> decide
theorem FaultCause.code_lt (x : FaultCause) : x.code < 256 := by cases x <;> decide
theorem Health.code_lt (x : Health) : x.code < 256 := by cases x <;> decide
theorem LateralMode.code_lt (x : LateralMode) : x.code < 256 := by cases x <;> decide
theorem ForwardMode.code_lt (x : ForwardMode) : x.code < 256 := by cases x <;> decide
theorem TrackerState.code_lt (x : TrackerState) : x.code < 256 := by cases x <;> decide
theorem Orientation.code_lt (x : Orientation) : x.code < 256 := by cases x <;> decide
theorem SectionEnd.code_lt (x : SectionEnd) : x.code < 256 := by cases x <;> decide
theorem PointsRole.code_lt (x : PointsRole) : x.code < 256 := by cases x <;> decide
theorem Branch.code_lt (x : Branch) : x.code < 256 := by cases x <;> decide

/-! ## Geometry records (R202) -/

/-- The last two bytes of an element carry its kind above its clearance. -/
theorem element_kind_clearance (e : Element) (h : e.clearance.getD 0 < 16384) :
    (16384 * e.kind.code + e.clearance.getD 0) % 65536 / 16384 = e.kind.code ∧
    (16384 * e.kind.code + e.clearance.getD 0) % 65536 % 16384 = e.clearance.getD 0 := by
  have code : e.kind.code ≤ 2 := by cases e.kind <;> decide
  omega

theorem elementKindOf?_code (k : ElementKind) : elementKindOf? k.code = some k := by cases k <;> rfl

theorem element_readsBack {e : Element} (start : e.start < 16777216)
    (low : -8388608 ≤ e.curvatureStart ∧ -8388608 ≤ e.curvatureEnd)
    (high : e.curvatureStart < 8388608 ∧ e.curvatureEnd < 8388608)
    (clearance : ∀ c, e.clearance = some c → 0 < c ∧ c < 16384) :
    e.encode.length = 11 ∧ elementOf? e.encode = some e := by
  have small : e.clearance.getD 0 < 16384 := by
    cases given : e.clearance with
    | none => decide
    | some c => exact (clearance c given).2
  have none_of_zero : (if e.clearance.getD 0 = 0 then none else some (e.clearance.getD 0)) = e.clearance := by
    cases given : e.clearance with
    | none => rfl
    | some c => exact if_neg (Nat.ne_of_gt (clearance c given).1)
  obtain ⟨kind, rest⟩ := element_kind_clearance e small
  have fields : fieldU e.encode 0 3 = e.start ∧ fieldS e.encode 3 3 = e.curvatureStart ∧
      fieldS e.encode 6 3 = e.curvatureEnd ∧
      fieldU e.encode 9 2 = (16384 * e.kind.code + e.clearance.getD 0) % 65536 := by
    simp [Element.encode, fieldS_beS_three, start, low, high]
  obtain ⟨first, second, third, last⟩ := fields
  refine ⟨by simp [Element.encode], ?_⟩
  rw [elementOf?, first, second, third, last, kind, rest, none_of_zero, elementKindOf?_code]
  rfl

/-! ## Records of a channel (R205, R206) -/

theorem channelStatus_fields {c : ChannelStatus} (remaining : c.remaining < 65536) (demand : c.demand.natAbs < 32768)
    (measured : c.measured.natAbs < 2147483648) (error : ∀ e, c.trackingError = some e → e.natAbs < 2147483648)
    (output : c.output.natAbs < 2147483648) (runs : c.trackingRun ≤ 255 ∧ c.strokeInvalidRun ≤ 255) :
    let b := c.encode
    b.length = 23 ∧ fieldU b 0 1 = c.channel.val ∧ fieldU b 1 1 = c.state.code ∧ fieldU b 2 1 = c.cause.code ∧
    fieldU b 3 2 = c.remaining ∧ fieldS b 5 2 = c.demand ∧ fieldS b 7 4 = c.measured ∧
    fieldS b 11 4 = c.trackingError.getD 0 ∧ fieldU b 15 1 = c.trackingRun ∧ fieldU b 16 1 = c.strokeInvalidRun ∧
    b.getD 17 0 = bits [c.driveEnable, c.lockRelease, c.lines.driveReady, c.lines.driveFault, c.lines.lockEngaged,
      c.measuredValid, c.trackingError.isSome, c.permit] ∧
    fieldS b 18 4 = c.output ∧ fieldU b 22 1 = c.health.code := by
  have error : (c.trackingError.getD 0).natAbs < 2147483648 := by
    cases given : c.trackingError with
    | none => decide
    | some e => exact error e given
  have state := c.state.code_lt
  have cause := c.cause.code_lt
  have health := c.health.code_lt
  simp [ChannelStatus.encode, fieldS_beS_two, fieldS_beS_four, demand, measured, error, output]
  omega

theorem computationRecord_fields {r : ComputationRecord} (filter : r.filter.natAbs < 2147483648)
    (output : r.output.natAbs < 2147483648) (held : r.held.natAbs < 2147483648) (good : r.lastGood.natAbs < 8388608)
    (inUse : r.inUse.natAbs < 8388608) (runs : r.implausibleRun ≤ 255 ∧ r.plausibleRun ≤ 255)
    (limits : r.limitedRun ≤ 255 ∧ r.unlimitedRun ≤ 255) :
    let b := r.encode
    b.length = 27 ∧ fieldS b 0 4 = r.filter ∧ fieldS b 4 4 = r.output ∧ fieldS b 8 4 = r.held ∧
    fieldU b 12 1 = (if r.substituted then 1 else 0) ∧ fieldU b 13 1 = r.health.code ∧
    fieldU b 14 1 = r.implausibleRun ∧ fieldU b 15 1 = r.plausibleRun ∧ fieldS b 16 3 = r.lastGood ∧
    fieldS b 19 3 = r.inUse ∧ fieldU b 22 1 = (if r.proximity then 1 else 0) ∧
    fieldU b 23 1 = (if r.contact then 1 else 0) ∧ fieldU b 24 1 = r.limitedRun ∧ fieldU b 25 1 = r.unlimitedRun ∧
    b.getD 26 0 = r.flags.encode ∧ fieldU b 26 1 = r.flags.encode.toNat := by
  have good : fieldS (beS 3 r.lastGood) 0 3 = r.lastGood := fieldS_beS_three (by omega) (by omega)
  have inUse : fieldS (beS 3 r.inUse) 0 3 = r.inUse := fieldS_beS_three (by omega) (by omega)
  have health := r.health.code_lt
  simp [ComputationRecord.encode, fieldS_beS_four, filter, output, held, good, inUse]
  omega

theorem recordsAreFoundAtTheirPlaces : Claims.RecordsAreFoundAtTheirPlaces := by
  refine ⟨fun e start low high low' high' => element_readsBack start ⟨low, low'⟩ ⟨high, high'⟩, fun m chainage half => ?_,
    fun c remaining demand measured error output run invalid => ?_,
    fun r filter output held good inUse bad plausible limited unlimited => ?_, fun y disagree agree => ?_⟩
  · simp [Marker.encode, markerOf, Nat.mod_eq_of_lt, chainage, half]
  · obtain ⟨length, channel, state, cause, lock, stroke, seen, apart, track, lost, flags, angle, health⟩ :=
      channelStatus_fields remaining demand measured error output ⟨run, invalid⟩
    refine ⟨length, channel, state, cause, lock, stroke, seen, apart, track, lost, ?_⟩
    simp only [flags]
    simp [bits_getElem, angle, health]
  · obtain ⟨length, f, angle, forward, substituted, health, bad, plausible, last, use, near, contact, limit, unlimit, flags,
      byte⟩ := computationRecord_fields filter output held good inUse ⟨bad, plausible⟩ ⟨limited, unlimited⟩
    have small := bits_toNat_lt [r.flags.feedback, r.flags.angle, r.flags.rate, r.flags.stroke]
    refine ⟨length, f, angle, forward, substituted, health, bad, plausible, last, use, near, contact, limit, unlimit, ?_⟩
    simp only [flags, byte, LimitFlags.encode]
    simpa [bits_getElem] using small
  · simp [YawRecord.encode]
    omega

/-! ## The law record (R205) -/

theorem lawRecordIsFoundAtItsPlaces : Claims.LawRecordIsFoundAtItsPlaces := by
  intro l h
  obtain ⟨previewTime, kp, feedbackLimit, angleMax, rate, shifts, gaps, sum, speed, decay, yaw, tracking, persistence, centre,
    lock⟩ := h
  have lateral := l.lateralMode.code_lt
  have forward := l.forwardMode.code_lt
  delta LawRecord.encode
  simp
  omega

/-! ## Position records, path entries and end links (R202, R206) -/

theorem positionAndLinkRecordsAreFound : Claims.PositionAndLinkRecordsAreFound := by
  refine ⟨fun p fits => ?_, fun e => ?_, rfl, fun target end_ => ?_, fun id role => ?_⟩
  · obtain ⟨datum, speed, uncertainty, confidence, misses, valid⟩ := fits
    have state := p.state.code_lt
    have sign : fieldS (beS 1 p.sign.toInt) 0 1 = p.sign.toInt := by cases p.sign <;> decide
    cases given : p.datum with
    | none =>
      have zero (b : List Byte) : fieldU (0#8 :: 0#8 :: 0#8 :: b) 0 3 = 0 := rfl
      simp [Published.encode, given, sign, mmOfMicro, zero]
      omega
    | some d =>
      obtain ⟨low, high⟩ := datum d given
      have orientation := d.orientation.code_lt
      have chainage : (fieldU (beS 3 (roundDiv d.location.chainage 1000)) 0 3 : Int) = roundDiv d.location.chainage 1000 := by
        rw [beS, fieldU_be_three]
        omega
      simp [Published.encode, given, sign, mmOfMicro, idOfSection, chainage]
      omega
  · have orientation := e.orientation.code_lt
    have sec : e.sec.val + 1 < 256 := by omega
    refine ⟨?_, ?_, ?_, fun none => ?_, fun link => ?_, fun id branch points => ?_⟩
    · unfold PathEntry.encode
      split <;> rfl
    · simpa [PathEntry.encode, idOfSection] using sec
    · simpa [PathEntry.encode] using orientation
    · simp [PathEntry.encode, none]
    · simp [PathEntry.encode, link]
    · have code := branch.code_lt
      simp [PathEntry.encode, points, idOfPoints]
      omega
  · have code := end_.code_lt
    simp [Link.encode, idOfSection]
    omega
  · have code := role.code_lt
    simp [Link.encode, idOfPoints]
    omega

/-! ## Codes and condition sets (R164, R200, R201, R206) -/

/-- A set holds the instances that meet its test. -/
theorem setOf_getLsbD (f : Fin 48 → Bool) (i : Fin 48) : (setOf f).getLsbD i.val = f i := by
  have fold (l : List (Fin 48)) (acc : BitVec 48) :
      (l.foldl (fun acc i => if f i then acc ||| (1#48 <<< i.val) else acc) acc).getLsbD i.val =
        (acc.getLsbD i.val || (decide (i ∈ l) && f i)) := by
    induction l generalizing acc with
    | nil => simp
    | cons j rest ih =>
      have bit : (1#48 <<< j.val).getLsbD i.val = decide (i = j) := by
        rw [← BitVec.twoPow_eq, BitVec.getLsbD_twoPow, decide_eq_true j.isLt, Bool.true_and]
        exact decide_eq_decide.2 ⟨fun h => Fin.ext h.symm, fun h => congrArg Fin.val h.symm⟩
      have added : (if f j then acc ||| (1#48 <<< j.val) else acc).getLsbD i.val =
          (acc.getLsbD i.val || (decide (i = j) && f j)) := by
        rw [← bit]
        cases f j <;> simp only [BitVec.getLsbD_or, if_true, if_false, Bool.false_eq_true, Bool.and_true, Bool.and_false,
          Bool.or_false]
      have here : (decide (i = j) && f j) = (decide (i = j) && f i) := by
        by_cases same : i = j <;> simp [same]
      rw [List.foldl_cons, ih, added, here]
      simp [Bool.or_assoc, Bool.and_or_distrib_right]
  rw [setOf, fold]
  simp [allInstances]

theorem encodeSet_channel (set : BitVec 48) (c : Fin 8) (k : ChannelCondition) :
    ((encodeSet set).getD k.index.val 0).getLsbD c.val = set.getLsbD (ofChannel k c).val := by
  cases k <;> simp [encodeSet, ofChannel, ChannelCondition.index]

theorem encodeSet_vehicle (set : BitVec 48) (k : VehicleCondition) :
    ((encodeSet set).getD 5 0).getLsbD k.index.val = set.getLsbD (ofVehicle k).val := by
  simp [encodeSet, ofVehicle]

theorem codesAndSetsFollowTheirTables : Claims.CodesAndSetsFollowTheirTables :=
  ⟨rfl, rfl, rfl, rfl, rfl, rfl, rfl, rfl, rfl, rfl, rfl, rfl, rfl, rfl, rfl, rfl, rfl, rfl, rfl, rfl,
    fun set c => ⟨rfl, encodeSet_channel set c, encodeSet_vehicle set⟩,
    fun _ i => ⟨setOf_getLsbD _ i, setOf_getLsbD _ i⟩⟩

/-! ## The summary byte (R192, R200) -/

/-- The bits of a summary byte: the tracker state below, the flags at their places. -/
theorem summary_bits (x : TrackerState) (permit fault steering latched standstill : Bool) :
    let b := u8 x.code ||| bits [false, false, permit, fault, steering, latched, standstill]
    b.toNat % 4 = x.code ∧ b.getLsbD 2 = permit ∧ b.getLsbD 3 = fault ∧ b.getLsbD 4 = steering ∧
      b.getLsbD 5 = latched ∧ b.getLsbD 6 = standstill ∧ b.getLsbD 7 = false := by
  revert permit fault steering latched standstill
  cases x <;> decide

theorem summaryShowsTheVehicle : Claims.SummaryShowsTheVehicle := by
  intro s
  obtain ⟨state, permit, fault, steering, latched, standstill, clear⟩ := summary_bits s.tracker.published.state
    s.channels.permit s.anyFault s.anySteering s.anyLatched s.tracker.published.standstill
  refine ⟨state.trans ?_, permit, ?_, ?_, ?_, standstill, clear⟩
  · cases s.tracker.published.state <;> rfl
  · rw [State.summary, fault]
    simp [State.anyFault, allChannels_eq]
  · rw [State.summary, steering]
    simp [State.anySteering, allChannels_eq]
  · rw [State.summary, latched]
    simp [State.anyLatched, allInstances]

end Sys2Proof.Machine
end

