-- ==== Sys2Proof/Proofs/StageRecords.lean ====
section
/-!
SUPPORT. Stage entries and schedule records in their bytes (R97, R99, R102, R203).
-/
namespace Sys2Proof.Machine

variable {s : State} {b : Fin 4}

/-! ## Stage entries (R203) -/

/-- The owner's byte (R203). -/
def ownerCode : Option (Fin 4) → Nat
  | some b => b.val
  | none => 255

/-- The role's byte (R203). -/
def roleCode : Option Role → Nat
  | some r => r.code
  | none => 0

theorem StageEntry.encode_fields (i : Fin 32) {e : StageEntry} (input : e.input < 256) (scale : e.scale.natAbs < 8388608)
    (offset : e.offset.natAbs < 8388608) (low : e.validLow.natAbs < 8388608) (high : e.validHigh.natAbs < 8388608) :
    let b := e.encode i
    b.length = 16 ∧ fieldU b 0 1 = i.val ∧ fieldU b 1 1 = ownerCode e.owner ∧ fieldU b 2 1 = roleCode e.role ∧
    fieldU b 3 1 = e.input ∧ fieldS b 4 3 = e.scale ∧ fieldS b 7 3 = e.offset ∧ fieldS b 10 3 = e.validLow ∧
    fieldS b 13 3 = e.validHigh := by
  have signed {i : Int} (h : i.natAbs < 8388608) : fieldS (beS 3 i) 0 3 = i := fieldS_beS_three (by omega) (by omega)
  have bytes : e.encode i = [u8 i.val, u8 (ownerCode e.owner), u8 (roleCode e.role), u8 e.input] ++
      beS 3 e.scale ++ beS 3 e.offset ++ beS 3 e.validLow ++ beS 3 e.validHigh := by
    obtain ⟨owner, role⟩ := e
    cases owner <;> cases role <;> rfl
  have owner : ownerCode e.owner < 256 := by
    cases e.owner with
    | none => decide
    | some b => exact Nat.lt_of_lt_of_le b.isLt (by decide)
  have role : roleCode e.role < 256 := by
    cases e.role with
    | none => decide
    | some r => cases r <;> decide
  rw [bytes]
  simp [signed, scale, offset, low, high]
  omega

/-! ## Schedule records (R203) -/

theorem holdsRole_iff {r : Role} : holdsRole s.acquisition.stages b r = true ↔
    ∃ i : Fin 32, s.acquisition.stages[i].owner = some b ∧ s.acquisition.stages[i].role = some r := by
  simp [holdsRole, allStages]

theorem complete_iff : s.complete b = true ↔ ∀ r ∈ laneRoles, holdsRole s.acquisition.stages b r = true := by
  rw [State.complete, List.all_eq_true]

/-- The place of a bogie's outstanding scan, of which there is at most one (R102). -/
theorem scanState_code_iff (single : s.outstanding b ≤ 1) : (s.scanState b).code ≤ 3 ∧
    ((s.scanState b).code = 1 ↔ ∃ q ∈ s.acquisition.queue, q.bogie = b) ∧
    ((s.scanState b).code = 2 ↔ ∃ c, s.acquisition.converter = some c ∧ c.scan.bogie = b) ∧
    ((s.scanState b).code = 3 ↔ ∃ q ∈ s.computation.queue, q.bogie = b) := by
  rw [outstanding_eq_count, Acquisition.scanBogies, List.count_append, List.count_append] at single
  have queued : (∃ q ∈ s.acquisition.queue, q.bogie = b) ↔ 0 < (s.acquisition.queue.map (·.bogie)).count b := by
    rw [List.count_pos_iff, List.mem_map]
  have converting : (∃ c, s.acquisition.converter = some c ∧ c.scan.bogie = b) ↔
      0 < (s.acquisition.converter.toList.map (·.scan.bogie)).count b := by
    rw [List.count_pos_iff, List.mem_map]
    simp only [Option.mem_toList]
  have waiting : (∃ q ∈ s.computation.queue, q.bogie = b) ↔ 0 < (s.computation.queue.map (·.bogie)).count b := by
    rw [List.count_pos_iff, List.mem_map]
  have code : (s.scanState b).code = if 0 < (s.acquisition.queue.map (·.bogie)).count b then 1
      else if 0 < (s.acquisition.converter.toList.map (·.scan.bogie)).count b then 2
      else if 0 < (s.computation.queue.map (·.bogie)).count b then 3 else 0 := by
    simp only [← queued, ← converting, ← waiting, State.scanState, List.any_eq_true, decide_eq_true_eq, Option.any_eq_true]
    split_ifs <;> rfl
  rw [code, queued, converting, waiting]
  split_ifs with q c w
  · omega
  · omega
  · omega
  · exact ⟨Nat.zero_le _, iff_of_false id q, iff_of_false id c, iff_of_false id w⟩

/-- A byte of a bogie's schedule record is found in the four (R203). -/
theorem scheduleRecords_field (s : State) (b : Fin 4) {k : Nat} (h : k < 3) :
    fieldU s.scheduleRecords (3 * b.val + k) 1 = fieldU (s.scheduleRecord b) k 1 := by
  have there : allBogies[b.val]? = some b := by revert b; decide
  have block := fieldU_block (a := []) (b := []) (f := s.scheduleRecord) (fun _ => rfl) there rfl
    (show k + 1 ≤ 3 from h) (show 3 * b.val + k = 0 + 3 * b.val + k by omega)
  rwa [List.nil_append, List.append_nil] at block

theorem stageAndScheduleRecordsAreFound : Claims.StageAndScheduleRecordsAreFound := by
  refine ⟨fun i e input scale offset low high => ?_, fun s b held single => ?_⟩
  · obtain ⟨length, index, owner, role, input, scale, offset, low, high⟩ := e.encode_fields i input scale offset low high
    refine ⟨length, index, fun none => ?_, fun k some => ?_, fun none => ?_, fun r some => ?_, input, scale, offset, low, high,
      fun k r owned holds inRange => ?_, fun released => ?_⟩
    · rw [owner, none, ownerCode]
    · rw [owner, some, ownerCode]
    · rw [role, none, roleCode]
    · rw [role, some, roleCode]
    · rw [owned, ownerCode] at owner
      rw [holds, roleCode] at role
      exact stageEntryOf?_owned owned holds inRange owner role
        ⟨input.symm, scale.symm, offset.symm, low.symm, high.symm⟩
    · rw [released] at owner ⊢
      exact stageEntryOf?_released owner
  · obtain ⟨most, queued, converting, waiting⟩ := scanState_code_iff single
    let flags := [s.configured b, s.complete b, holdsRole s.acquisition.stages b .yaw, s.acquisition.timers[b].isSome]
    have period : fieldU s.scheduleRecords (3 * b.val) 1 = s.acquisition.periods[b] :=
      (scheduleRecords_field s b (k := 0) (by decide)).trans ((beNat_singleton _).trans (Nat.mod_eq_of_lt held))
    have flagByte : fieldU s.scheduleRecords (3 * b.val + 1) 1 = (bits flags).toNat :=
      (scheduleRecords_field s b (by decide)).trans (beNat_singleton _)
    have scan : fieldU s.scheduleRecords (3 * b.val + 2) 1 = (s.scanState b).code :=
      (scheduleRecords_field s b (by decide)).trans ((beNat_singleton _).trans (Nat.mod_eq_of_lt (by omega)))
    dsimp only
    rw [period, scan, flagByte, getD_of_fieldU flagByte]
    have small : (bits flags).toNat < 16 := bits_toNat_lt flags
    have few : flags.length ≤ 8 := Nat.le_of_ble_eq_true rfl
    simp only [bits_getLsbD flags few]
    refine ⟨rfl, trivial, small, ?_, ?_, ?_, ?_, most, queued, converting, waiting⟩
    · exact decide_eq_true_iff
    · show s.complete b = true ↔ _
      simp only [← holdsRole_iff, complete_iff]
      simp [laneRoles, holdsRole_iff]
    · exact holdsRole_iff
    · exact Option.isSome_iff_ne_none

end Sys2Proof.Machine
end

