-- ==== Sys2Proof/Proofs/VehicleBytes.lean ====
section
/-!
SUPPORT. The vehicle record in its bytes, and the record that VEH.SET reads from them again (R27, R31 to R34, R38, R204);
settles O54 with the records of the parts before.
-/
namespace Sys2Proof.Machine

variable {v : VehicleRecord} {body : List Byte}

/-! ## The banks and the rest (R204) -/

/-- The bytes of a bogie's fields. -/
def BogieFields.bytes (f : BogieFields) : List Byte := beS 2 f.centre ++ beS 2 f.body

/-- The bytes of a channel's fields. -/
def ChannelFields.bytes (f : ChannelFields) : List Byte := beS 2 f.offset ++ be 2 f.lever ++ be 2 f.strokeMax

/-- The bytes of a wheel's fields. -/
def WheelFields.bytes (f : WheelFields) : List Byte := be 2 f.diameter ++ [u8 f.teeth, u8 f.mode.code]

/-- The bytes of the four reference slots. -/
def VehicleRecord.slotBytes (v : VehicleRecord) : List Byte :=
  ((v.references.map fun (w : Fin 16) => u8 w.val) ++ [0, 0, 0, 0]).take 4

/-- The bytes behind the banks. -/
def VehicleRecord.restBytes (v : VehicleRecord) : List Byte :=
  [u8 v.references.length] ++ v.slotBytes ++
    beS 2 v.markerOffset ++ be 2 v.drift ++ be 2 v.locateAccuracy ++ be 2 v.markerAccuracy ++ be 2 v.uFull ++
    be 2 v.uZero ++ be 2 v.uDegrade ++ be 1 v.slip

/-- The bytes of the bogies, of the channels and of the wheels. -/
def VehicleRecord.bogieBytes (v : VehicleRecord) : List Byte := (allBogies.map fun b => v.bogies[b].bytes).flatten
def VehicleRecord.channelBytes (v : VehicleRecord) : List Byte := (allChannels.map fun c => v.channels[c].bytes).flatten
def VehicleRecord.wheelBytes (v : VehicleRecord) : List Byte := (allWheels.map fun w => v.wheels[w].bytes).flatten

theorem VehicleRecord.encode_eq (v : VehicleRecord) :
    v.encode = [u8 v.bogieCount] ++ v.bogieBytes ++ v.channelBytes ++ v.wheelBytes ++ v.restBytes := by
  simp only [encode, restBytes, List.append_assoc]
  rfl

@[simp] theorem VehicleRecord.slotBytes_length (v : VehicleRecord) : v.slotBytes.length = 4 := by simp [slotBytes]

@[simp] theorem VehicleRecord.restBytes_length (v : VehicleRecord) : v.restBytes.length = 20 := by simp [restBytes]

theorem BogieFields.bytes_length (f : BogieFields) : f.bytes.length = 4 := by simp [bytes]
theorem ChannelFields.bytes_length (f : ChannelFields) : f.bytes.length = 6 := by simp [bytes]
theorem WheelFields.bytes_length (f : WheelFields) : f.bytes.length = 4 := by simp [bytes]

@[simp] theorem VehicleRecord.bogieBytes_length (v : VehicleRecord) : v.bogieBytes.length = 16 :=
  length_blocks (fun _ => BogieFields.bytes_length _) allBogies
@[simp] theorem VehicleRecord.channelBytes_length (v : VehicleRecord) : v.channelBytes.length = 48 :=
  length_blocks (fun _ => ChannelFields.bytes_length _) allChannels
@[simp] theorem VehicleRecord.wheelBytes_length (v : VehicleRecord) : v.wheelBytes.length = 64 :=
  length_blocks (fun _ => WheelFields.bytes_length _) allWheels

theorem allBogies_getElem? : ∀ k : Fin 4, allBogies[k.val]? = some k := by decide
theorem allChannels_getElem? : ∀ k : Fin 8, allChannels[k.val]? = some k := by decide
theorem allWheels_getElem? : ∀ k : Fin 16, allWheels[k.val]? = some k := by decide

/-- A field of a bogie is found in its block. -/
theorem VehicleRecord.encode_bogie (v : VehicleRecord) (k : Fin 4) {m n q : Nat} (inside : m + n ≤ 4)
    (place : q = 1 + 4 * k.val + m) : fieldS v.encode q n = fieldS v.bogies[k].bytes m n := by
  rw [encode_eq, List.append_assoc, List.append_assoc]
  exact fieldS_block (fun _ => BogieFields.bytes_length _) (allBogies_getElem? k) rfl inside place

/-- A field of a channel is found in its block. -/
theorem VehicleRecord.encode_channel (v : VehicleRecord) (k : Fin 8) {m n q : Nat} (inside : m + n ≤ 6)
    (place : q = 17 + 6 * k.val + m) : fieldU v.encode q n = fieldU v.channels[k].bytes m n := by
  rw [encode_eq, List.append_assoc]
  exact fieldU_block (fun _ => ChannelFields.bytes_length _) (allChannels_getElem? k) (by simp) inside place

/-- A field of a wheel is found in its block. -/
theorem VehicleRecord.encode_wheel (v : VehicleRecord) (k : Fin 16) {m n q : Nat} (inside : m + n ≤ 4)
    (place : q = 65 + 4 * k.val + m) : fieldU v.encode q n = fieldU v.wheels[k].bytes m n := by
  rw [encode_eq]
  exact fieldU_block (fun _ => WheelFields.bytes_length _) (allWheels_getElem? k) (by simp) inside place

/-- A field behind the banks. -/
theorem VehicleRecord.encode_rest (v : VehicleRecord) (m n : Nat) : fieldU v.encode (129 + m) n = fieldU v.restBytes m n := by
  have banks : ([u8 v.bogieCount] ++ v.bogieBytes ++ v.channelBytes ++ v.wheelBytes).length = 129 := by simp
  rw [encode_eq, fieldU_append_right (banks ▸ Nat.le_add_right ..), banks, Nat.add_sub_cancel_left]

/-! ## The fields of each part -/

theorem BogieFields.bytes_fields {f : BogieFields} (centre : f.centre.natAbs < 32768) (body : f.body.natAbs < 32768) :
    fieldS f.bytes 0 2 = f.centre ∧ fieldS f.bytes 2 2 = f.body := by
  simp [bytes, fieldS_beS_two, centre, body]

theorem ChannelFields.bytes_fields {f : ChannelFields} (offset : f.offset.natAbs < 32768) (lever : f.lever < 65536)
    (strokeMax : f.strokeMax < 65536) :
    fieldS f.bytes 0 2 = f.offset ∧ fieldU f.bytes 2 2 = f.lever ∧ fieldU f.bytes 4 2 = f.strokeMax := by
  simp [bytes, fieldS_beS_two, offset, lever, strokeMax]

theorem WheelFields.bytes_fields {f : WheelFields} (diameter : f.diameter < 65536) (teeth : f.teeth < 256) :
    fieldU f.bytes 0 2 = f.diameter ∧ fieldU f.bytes 2 1 = f.teeth ∧ fieldU f.bytes 3 1 = f.mode.code := by
  have mode : f.mode.code < 256 := by cases f.mode <;> decide
  simp [bytes, diameter, teeth, mode]

/-- A reference slot holds its wheel, or 0 beyond the references. -/
theorem VehicleRecord.slotBytes_field (v : VehicleRecord) (k : Fin 4) :
    fieldU v.slotBytes k.val 1 = match v.references[k.val]? with
      | some w => w.val
      | none => 0 := by
  rw [fieldU_one, List.getD_eq_getElem?_getD, slotBytes, List.getElem?_take_of_lt k.isLt]
  cases used : v.references[k.val]? with
  | some w =>
    have inside : k.val < v.references.length := (List.getElem?_eq_some_iff.1 used).1
    rw [List.getElem?_append_left (by simpa using inside), List.getElem?_map, used]
    exact Nat.mod_eq_of_lt (by omega)
  | none =>
    have zeros : ∀ n : Nat, (([0, 0, 0, 0] : List Byte)[n]?.getD 0).toNat = 0 := by
      intro n
      cases read : ([0, 0, 0, 0] : List Byte)[n]? with
      | none => rfl
      | some x =>
        obtain rfl : x = 0 := by simpa using List.mem_of_getElem? read
        rfl
    rw [List.getElem?_append_right (by simpa using used)]
    exact zeros _

theorem VehicleRecord.restBytes_fields (references : v.references.length ≤ 4) (marker : v.markerOffset.natAbs < 32768)
    (trust : v.drift < 65536 ∧ v.locateAccuracy < 65536 ∧ v.markerAccuracy < 65536 ∧ v.uFull < 65536 ∧ v.uZero < 65536 ∧
      v.uDegrade < 65536 ∧ v.slip < 256) :
    let b := v.restBytes
    fieldU b 0 1 = v.references.length ∧ (∀ k : Fin 4, fieldU b (1 + k.val) 1 = fieldU v.slotBytes k.val 1) ∧
    fieldS b 5 2 = v.markerOffset ∧ fieldU b 7 2 = v.drift ∧ fieldU b 9 2 = v.locateAccuracy ∧
    fieldU b 11 2 = v.markerAccuracy ∧ fieldU b 13 2 = v.uFull ∧ fieldU b 15 2 = v.uZero ∧
    fieldU b 17 2 = v.uDegrade ∧ fieldU b 19 1 = v.slip := by
  have slot (k : Fin 4) : fieldU v.restBytes (1 + k.val) 1 = fieldU v.slotBytes k.val 1 := by
    simp only [restBytes, List.append_assoc]
    rw [fieldU_append_right (by simp), fieldU_append_left (by simp)]
    simp
  refine ⟨?_, slot, ?_⟩
  · simp [restBytes]
    omega
  · simp [restBytes, fieldS_beS_two, marker]
    omega

theorem VehicleRecord.encode_fields (h : VehicleInWidths v) :
    let b := v.encode
    b.length = 149 ∧ fieldU b 0 1 = v.bogieCount ∧
    (∀ k : Fin 4, fieldS b (1 + 4 * k.val) 2 = v.bogies[k].centre ∧ fieldS b (3 + 4 * k.val) 2 = v.bogies[k].body) ∧
    (∀ c : Fin 8, fieldS b (17 + 6 * c.val) 2 = v.channels[c].offset ∧
      fieldU b (19 + 6 * c.val) 2 = v.channels[c].lever ∧ fieldU b (21 + 6 * c.val) 2 = v.channels[c].strokeMax) ∧
    (∀ w : Fin 16, fieldU b (65 + 4 * w.val) 2 = v.wheels[w].diameter ∧
      fieldU b (67 + 4 * w.val) 1 = v.wheels[w].teeth ∧ fieldU b (68 + 4 * w.val) 1 = v.wheels[w].mode.code) ∧
    fieldU b 129 1 = v.references.length ∧
    (∀ k : Fin 4, fieldU b (130 + k.val) 1 = match v.references[k.val]? with
      | some w => w.val
      | none => 0) ∧
    fieldS b 134 2 = v.markerOffset ∧ fieldU b 136 2 = v.drift ∧ fieldU b 138 2 = v.locateAccuracy ∧
    fieldU b 140 2 = v.markerAccuracy ∧ fieldU b 142 2 = v.uFull ∧ fieldU b 144 2 = v.uZero ∧
    fieldU b 146 2 = v.uDegrade ∧ fieldU b 148 1 = v.slip := by
  obtain ⟨count, bogies, channels, wheels, references, marker, trust⟩ := h
  have bogie (k : Fin 4) := BogieFields.bytes_fields (bogies k).1 (bogies k).2
  have channel (k : Fin 8) := ChannelFields.bytes_fields (channels k).1 (channels k).2.1 (channels k).2.2
  have wheel (k : Fin 16) := WheelFields.bytes_fields (wheels k).1 (wheels k).2
  obtain ⟨number, slots, offset, rest⟩ := restBytes_fields references marker trust
  have signed {m : Nat} : fieldS v.encode (129 + m) 2 = fieldS v.restBytes m 2 := congrArg (signedOf 2) (v.encode_rest m 2)
  refine ⟨by simp [encode_eq], by simpa [encode_eq] using count, fun k => ?_, fun c => ?_, fun w => ?_,
    (v.encode_rest 0 1).trans number, fun k => ?_, (signed (m := 5)).trans offset, ?_⟩
  · obtain ⟨centre, pivot⟩ := bogie k
    exact ⟨(v.encode_bogie k (m := 0) (by decide) rfl).trans centre,
      (v.encode_bogie k (m := 2) (by decide) (by omega)).trans pivot⟩
  · obtain ⟨place, lever, most⟩ := channel c
    exact ⟨(congrArg (signedOf 2) (v.encode_channel c (m := 0) (by decide) rfl)).trans place,
      (v.encode_channel c (m := 2) (by decide) (by omega)).trans lever,
      (v.encode_channel c (m := 4) (by decide) (by omega)).trans most⟩
  · obtain ⟨diameter, teeth, mode⟩ := wheel w
    exact ⟨(v.encode_wheel w (m := 0) (by decide) rfl).trans diameter,
      (v.encode_wheel w (m := 2) (by decide) (by omega)).trans teeth,
      (v.encode_wheel w (m := 3) (by decide) (by omega)).trans mode⟩
  · have place : 130 + k.val = 129 + (1 + k.val) := by omega
    rw [place, encode_rest, slots]
    exact v.slotBytes_field k
  · obtain ⟨drift, locate, accuracy, full, zero, degrade, slip⟩ := rest
    exact ⟨(v.encode_rest 7 2).trans drift, (v.encode_rest 9 2).trans locate, (v.encode_rest 11 2).trans accuracy,
      (v.encode_rest 13 2).trans full, (v.encode_rest 15 2).trans zero, (v.encode_rest 17 2).trans degrade,
      (v.encode_rest 19 1).trans slip⟩

/-! ## Read again (R30, R33, R34) -/

/-- What VEH.SET leaves of entries beyond the bogie count, and of a wheel's distance (R28, R33, R34). -/
structure VehicleRecord.AsRead (v : VehicleRecord) : Prop where
  bogies : ∀ b : Fin 4, ¬b.val < v.bogieCount → v.bogies[b] = ⟨0, 0⟩
  channels : ∀ c : Fin 8, ¬(bogieOf c).val < v.bogieCount → v.channels[c] = ⟨0, 0, 0⟩
  distances : ∀ w : Fin 16, w.val < 4 * v.bogieCount →
    v.wheels[w].distance = distancePerCount v.wheels[w].diameter v.wheels[w].teeth v.wheels[w].mode
  wheels : ∀ w : Fin 16, ¬w.val < 4 * v.bogieCount → v.wheels[w] = ⟨0, 0, .rising, 0⟩

theorem vehRecord_bogies (body : List Byte) (b : Fin 4) :
    (vehRecord body).bogies[b] = if b.val < vehCount body then vehBogie body b else ⟨0, 0⟩ := by simp [vehRecord]

theorem vehRecord_channels (body : List Byte) (c : Fin 8) : (vehRecord body).channels[c] =
    if (bogieOf c).val < vehCount body then vehChannel body c else ⟨0, 0, 0⟩ := by simp [vehRecord]

theorem vehRecord_wheels (body : List Byte) (w : Fin 16) : (vehRecord body).wheels[w] =
    if w.val < 4 * vehCount body then vehWheel body w else ⟨0, 0, .rising, 0⟩ := by simp [vehRecord]

theorem vehRecord_asRead (body : List Byte) : (vehRecord body).AsRead where
  bogies b beyond := (vehRecord_bogies body b).trans (if_neg beyond)
  channels c beyond := (vehRecord_channels body c).trans (if_neg beyond)
  distances w inside := by
    rw [(vehRecord_wheels body w).trans (if_pos inside)]
    rfl
  wheels w beyond := (vehRecord_wheels body w).trans (if_neg beyond)

/-- A list is the run of its members. -/
theorem filterMap_range {α : Type} {l : List α} {f : Nat → Option α} (h : ∀ k x, l[k]? = some x → f k = some x) :
    (List.range l.length).filterMap f = l := by
  induction l generalizing f with
  | nil => rfl
  | cons x rest ih =>
    rw [List.length_cons, List.range_succ_eq_map, List.filterMap_cons, h 0 x rfl, List.filterMap_map]
    exact congrArg (x :: ·) (ih fun k y read => h (k + 1) y read)

theorem countModeOf?_code (m : CountMode) : countModeOf? m.code = some m := by cases m <;> rfl

/-- Two vehicle records with the same entries are the same. -/
theorem VehicleRecord.eq_of_entries {u v : VehicleRecord} (bogies : ∀ b : Fin 4, u.bogies[b] = v.bogies[b])
    (channels : ∀ c : Fin 8, u.channels[c] = v.channels[c]) (wheels : ∀ w : Fin 16, u.wheels[w] = v.wheels[w])
    (rest : u = { v with bogies := u.bogies, channels := u.channels, wheels := u.wheels }) : u = v := by
  have bogies : u.bogies = v.bogies := Vector.ext fun b h => bogies ⟨b, h⟩
  have channels : u.channels = v.channels := Vector.ext fun c h => channels ⟨c, h⟩
  have wheels : u.wheels = v.wheels := Vector.ext fun w h => wheels ⟨w, h⟩
  rw [rest, bogies, channels, wheels]

theorem vehRecord_encode (h : VehicleInWidths v) (read : v.AsRead) : vehRecord v.encode = v := by
  have references := h.references
  have fields := v.encode_fields h
  generalize v.encode = body at fields
  obtain ⟨length, count, bogies, channels, wheels, number, slots, marker, drift, locate, accuracy, full, zero, degrade,
    slip⟩ := fields
  have tail : vehTail body = [v.drift, v.locateAccuracy, v.markerAccuracy, v.uFull, v.uZero, v.uDegrade, v.slip] := by
    have within (o w dflt : Nat) (inside : o + w ≤ 149) : trailField body o w dflt = fieldU body o w :=
      if_pos (length ▸ inside)
    have whole : VehicleLength body.length := by
      rw [length, VehicleLength]
      decide
    rw [vehTail_eq whole, within _ _ _ (by decide), within _ _ _ (by decide), within _ _ _ (by decide),
      within _ _ _ (by decide), within _ _ _ (by decide), within _ _ _ (by decide), within _ _ _ (by decide),
      drift, locate, accuracy, full, zero, degrade, slip]
  have named : (List.range (vehReferences body)).filterMap (fun k => wheelOf? (vehSlot body k)) = v.references := by
    rw [vehReferences, number]
    refine filterMap_range fun k w read => ?_
    have inside : k < 4 := (List.getElem?_eq_some_iff.1 read).1.trans_le references
    have slot := slots ⟨k, inside⟩
    dsimp only at slot
    rw [read] at slot
    rw [vehSlot, slot, wheelOf?_val]
  refine VehicleRecord.eq_of_entries (fun b => ?_) (fun c => ?_) (fun w => ?_) ?_
  · rw [vehRecord_bogies, vehCount, count, vehBogie, (bogies b).1, (bogies b).2]
    split
    · rfl
    · next beyond => exact (read.bogies b beyond).symm
  · obtain ⟨offset, lever, most⟩ := channels c
    rw [vehRecord_channels, vehCount, count, vehChannel, offset, lever, most]
    split
    · rfl
    · next beyond => exact (read.channels c beyond).symm
  · obtain ⟨diameter, teeth, mode⟩ := wheels w
    rw [vehRecord_wheels, vehCount, count, vehWheel, vehDiameter, vehTeeth, vehMode, diameter, teeth, mode,
      countModeOf?_code, Option.getD_some]
    split
    · next inside =>
      rw [← read.distances w inside]
    · next beyond => exact (read.wheels w beyond).symm
  · unfold vehRecord
    dsimp only
    rw [tail, named, vehCount, count, vehMarker, marker]
    rfl

/-! ## The widths of an accepted record (R31, R32) -/

theorem fieldU_two_lt {o : Nat} (h : o + 2 ≤ body.length) : fieldU body o 2 < 65536 := by
  have high := fieldU_one_lt body o
  have low := fieldU_one_lt body (o + 1)
  rw [fieldU_two h]
  omega

/-- The offsets of an accepted body lie in their ranges (R31, R32). -/
theorem accepted_offsets (h : VehicleLength body.length) (accepted : vehFailure body = none) :
    (∀ b : Fin 4, b.val < fieldU body 0 1 → (fieldS body (1 + 4 * b.val) 2).natAbs ≤ 30000 ∧
      (fieldS body (3 + 4 * b.val) 2).natAbs ≤ 30000) ∧
    (∀ c : Fin 8, c.val < 2 * fieldU body 0 1 → (fieldS body (17 + 6 * c.val) 2).natAbs ≤ 30000) ∧
    (fieldS body 134 2).natAbs ≤ 30000 ∧ fieldU body 129 1 ≤ 4 := by
  have passes := not_fieldFails h accepted
  refine ⟨fun b inside => ⟨?_, ?_⟩, fun c inside => ?_, ?_, ?_⟩ <;> by_contra beyond <;> rw [Nat.not_le] at beyond
  · exact passes (2 + 2 * b.val) (.inr (.inl ⟨b, inside, .inl ⟨rfl, beyond⟩⟩))
  · exact passes (3 + 2 * b.val) (.inr (.inl ⟨b, inside, .inr ⟨rfl, beyond⟩⟩))
  · exact passes (10 + 3 * c.val) (.inr (.inr (.inl ⟨c, inside, .inl ⟨rfl, .inl beyond⟩⟩)))
  · exact passes 87 (.inr (.inr (.inr (.inr (.inr (.inr (.inl ⟨rfl, beyond⟩)))))))
  · exact passes 82 (.inr (.inr (.inr (.inr (.inl ⟨rfl, .inr beyond⟩)))))

theorem vehRecord_inWidths (h : VehicleLength body.length) (accepted : vehFailure body = none) :
    VehicleInWidths (vehRecord body) := by
  have long : 136 ≤ body.length := by
    simp only [VehicleLength, List.mem_cons, List.not_mem_nil, or_false] at h
    omega
  obtain ⟨bogie, channel, detector, slots⟩ := accepted_offsets h accepted
  obtain ⟨count, bogies, channels, wheels, references, marker, drift, locate, accuracy, full, zero, degrade, slip⟩ :=
    vehicleRecordTakesTheFields body h accepted
  constructor
  case bogieCount => exact count ▸ fieldU_one_lt body 0
  case bogies =>
    intro b
    rw [bogies, count]
    split
    · next inside =>
      obtain ⟨centre, pivot⟩ := bogie b inside
      exact ⟨centre.trans_lt (by decide), pivot.trans_lt (by decide)⟩
    · exact ⟨by decide, by decide⟩
  case channels =>
    intro c
    rw [channels, count]
    split
    · next inside =>
      exact ⟨(channel c inside).trans_lt (by decide), fieldU_two_lt (by omega), fieldU_two_lt (by omega)⟩
    · exact ⟨by decide, by decide, by decide⟩
  case wheels =>
    intro w
    have entry := wheels w
    split at entry
    · obtain ⟨diameter, teeth, -⟩ := entry
      rw [diameter, teeth]
      exact ⟨fieldU_two_lt (by omega), fieldU_one_lt body _⟩
    · rw [entry]
      exact ⟨by decide, by decide⟩
  case references =>
    have same := congrArg List.length references
    rw [List.length_map, List.length_map, List.length_range] at same
    exact same ▸ slots
  case markerOffset => exact marker ▸ detector.trans_lt (by decide)
  case trust =>
    have last : trailField body 148 1 13 < 256 := by
      unfold trailField
      split
      · exact fieldU_one_lt body 148
      · decide
    rw [drift, locate, accuracy, full, zero, degrade, slip]
    exact ⟨trailField_two_lt (by decide), trailField_two_lt (by decide), trailField_two_lt (by decide),
      trailField_two_lt (by decide), trailField_two_lt (by decide), trailField_two_lt (by decide), last⟩

theorem vehicleRecordReadsBack : Claims.VehicleRecordReadsBack :=
  ⟨fun v h => v.encode_fields h, fun body length accepted =>
    vehRecord_encode (vehRecord_inWidths length accepted) (vehRecord_asRead body)⟩

/-- Settles O54: every field is found behind the bytes before it and read back from the bytes that it was written in. -/
theorem writtenRecordsReadBack : Obligations.WrittenRecordsReadBack :=
  ⟨recordsAreFoundAtTheirPlaces, vehicleRecordReadsBack, stageAndScheduleRecordsAreFound, positionAndLinkRecordsAreFound,
    lawRecordIsFoundAtItsPlaces, codesAndSetsFollowTheirTables, summaryShowsTheVehicle⟩

end Sys2Proof.Machine
end

