-- ==== Sys2Proof/Proofs/LateralJudgement.lean ====
section
/-!
SUPPORT. Stage 5 of a pass: plausibility, the runs, health, last good y, proximity, contact and y in use (R123 to R126):
settles O41.
-/
namespace Sys2Proof.Machine

variable {r : ComputationRecord} {law : LawRecord} {clearance : Option Nat} {g : Gaps}

/-- A lane's gaps are plausible where both are valid and, with the clearance found, their sum is near it (R123). -/
theorem Gaps.plausible_iff {tolerance : Nat} : g.plausible clearance tolerance = true ↔
    g.left.valid = true ∧ g.right.valid = true ∧
      ∀ w, clearance = some w → (g.left.value + g.right.value - w).natAbs ≤ tolerance := by
  cases clearance <;> simp [Gaps.plausible, and_assoc]

/-- Stage 5 of a lane whose gaps are plausible (R124, R126). -/
theorem ComputationRecord.afterGaps_of_plausible (ok : g.plausible clearance law.sumTolerance = true) :
    r.afterGaps law clearance g =
      let good := runUp r.plausibleRun
      let health := healthAfter r.health true 0 good
      let least := min g.left.value g.right.value
      { r with
        health := health, implausibleRun := 0, plausibleRun := good
        lastGood := if health = .good then g.offset else r.lastGood
        proximity := decide (least ≤ law.proximityGap), contact := decide (least ≤ law.contactGap) } := by
  simp [ComputationRecord.afterGaps, ok]

/-- Stage 5 of a lane whose gaps are not (R124, R126). -/
theorem ComputationRecord.afterGaps_of_implausible (bad : g.plausible clearance law.sumTolerance = false) :
    r.afterGaps law clearance g =
      { r with
        health := healthAfter r.health false (runUp r.implausibleRun) 0
        implausibleRun := runUp r.implausibleRun, plausibleRun := 0, proximity := false, contact := false } := by
  simp [ComputationRecord.afterGaps, bad]

/-- Health after plausible gaps: good again at once but from FAILED, and from there with the tenth of a run (R124). -/
theorem healthAfter_plausible (before : Health) (bad good : Nat) :
    (healthAfter before true bad good = .good ↔ before ≠ .failed ∨ 10 ≤ good) ∧
      healthAfter before true bad good ≠ .suspect := by
  cases before with
  | good | suspect => exact ⟨iff_of_true rfl (.inl nofun), nofun⟩
  | failed => by_cases ten : 10 ≤ good <;> simp [healthAfter, ten]

/-- Health after implausible gaps: never good, and failed from SUSPECT with the third of a run (R124). -/
theorem healthAfter_implausible (before : Health) (bad good : Nat) : healthAfter before false bad good ≠ .good ∧
    (healthAfter before false bad good = .failed ↔ before = .failed ∨ (before = .suspect ∧ 3 ≤ bad)) := by
  cases before with
  | good => exact ⟨nofun, iff_of_false nofun (by simp)⟩
  | suspect => by_cases three : 3 ≤ bad <;> simp [healthAfter, three]
  | failed => exact ⟨nofun, iff_of_true rfl (.inl rfl)⟩

/-- y in use, by the health and the lateral substitution mode (R125). -/
theorem yInUse_eq (own : ComputationRecord) (partner : Health) (h : Gaps) : yInUse own law g partner h =
    match own.health with
    | .good => g.offset
    | .suspect => own.lastGood
    | .failed => match law.lateralMode with
      | .freeze => own.lastGood
      | .zero => 0
      | .partner => if partner = .good then h.offset else own.lastGood := by
  unfold yInUse
  cases own.health <;> cases law.lateralMode <;> rfl

/-- Settles O41: stage 5 by whether the gaps are plausible, and health by its table in each case. -/
theorem healthFollowsItsTable : Obligations.HealthFollowsItsTable := by
  intro r law clearance g partner partnerGaps
  dsimp only
  simp only [← Gaps.plausible_iff]
  cases plausible : g.plausible clearance law.sumTolerance with
  | true =>
    rw [ComputationRecord.afterGaps_of_plausible plausible]
    exact ⟨fun _ => ⟨rfl, rfl⟩, fun bad => absurd rfl bad, fun _ => healthAfter_plausible .., fun bad => absurd rfl bad,
      by simp [Gaps.offset], by simp, by simp, yInUse_eq ..⟩
  | false =>
    rw [ComputationRecord.afterGaps_of_implausible plausible]
    exact ⟨nofun, fun _ => ⟨rfl, rfl⟩, nofun, fun _ => healthAfter_implausible .., by simp, by simp, by simp, yInUse_eq ..⟩

end Sys2Proof.Machine
end

