-- ==== Sys2Proof/Proofs/Mirror.lean ====
section
/-!
SUPPORT. The mirror of a pass: every stage of it is odd in the angles and the same in what it judges (R134): settles O39.
-/
namespace Sys2Proof.Machine

variable {s m : State} {p : Pass} {l : LaneRead} {r : ComputationRecord} {law : LawRecord} {clearance : Option Nat}
  {g : Gaps}

/-! ## Stage 5 -/

theorem Gaps.plausible_exchange (g : Gaps) (clearance : Option Nat) (tolerance : Nat) :
    g.exchange.plausible clearance tolerance = g.plausible clearance tolerance := by
  rw [Bool.eq_iff_iff, Gaps.plausible_iff, Gaps.plausible_iff, Gaps.exchange, add_comm g.right.value]
  exact and_left_comm

theorem Gaps.offset_exchange (g : Gaps) : g.exchange.offset = -g.offset := by
  rw [Gaps.offset, Gaps.offset, ← roundDiv_neg, neg_sub]
  rfl

/-- Stage 5 of the mirrored record and gaps is the mirrored stage 5. -/
theorem afterGaps_mirror : r.mirror.afterGaps law clearance g.exchange = (r.afterGaps law clearance g).mirror := by
  cases plausible : g.plausible clearance law.sumTolerance with
  | false =>
    rw [ComputationRecord.afterGaps_of_implausible plausible,
      ComputationRecord.afterGaps_of_implausible ((g.plausible_exchange ..).trans plausible)]
    rfl
  | true =>
    have least : min g.exchange.left.value g.exchange.right.value = min g.left.value g.right.value := min_comm ..
    rw [ComputationRecord.afterGaps_of_plausible plausible,
      ComputationRecord.afterGaps_of_plausible ((g.plausible_exchange ..).trans plausible), least, Gaps.offset_exchange]
    by_cases good : healthAfter r.health true 0 (runUp r.plausibleRun) = .good <;>
      simp [ComputationRecord.mirror, good]

/-- y in use of the mirrored lane, whatever it was before the pass. -/
theorem yInUse_mirror {own : ComputationRecord} {partner : Health} {h : Gaps} :
    yInUse own.mirror law g.exchange partner h.exchange = -yInUse own law g partner h := by
  unfold yInUse ComputationRecord.mirror
  dsimp only
  rw [Gaps.offset_exchange, Gaps.offset_exchange]
  cases own.health with
  | good | suspect => rfl
  | failed =>
    cases law.lateralMode with
    | freeze => rfl
    | zero => rfl
    | partner => exact (apply_ite Neg.neg ..).symm

/-! ## Stages 3 to 10 -/

theorem feedforward_neg (centre wheel span : Int) (confidence : Nat) :
    feedforward (-centre) (-wheel) span confidence = -feedforward centre wheel span confidence := by
  simp only [feedforward, ← neg_add, roundDiv_neg, neg_mul]

theorem substituteForward_neg (mode : ForwardMode) (decay : Nat) (held : Int) :
    substituteForward mode decay (-held) = -substituteForward mode decay held := by
  cases mode with
  | hold | zero => rfl
  | decay => exact approach_neg decay 0 held

theorem forwardOf_mirror (centre : Int) (confidence : Nat) (held : Int) :
    forwardOf l.mirror centre confidence (-held) =
      (-(forwardOf l centre confidence held).1, (forwardOf l centre confidence held).2) := by
  unfold forwardOf LaneRead.mirror
  dsimp only
  cases l.centreSample <;> cases l.wheelSample <;>
    simp only [Option.map_some, Option.map_none, feedforward_neg, substituteForward_neg]

theorem rawFeedback_neg (sign : Sign) (speed : Nat) (y : Int) :
    rawFeedback law sign speed (-y) = -rawFeedback law sign speed y := by
  simp only [rawFeedback, apply_ite Neg.neg, neg_zero, mul_neg, roundDiv_neg]

theorem filterStep_neg (proximity : Bool) (target f : Int) :
    filterStep law proximity (-target) (-f) = -filterStep law proximity target f := by
  rw [filterStep, filterStep, neg_sub_neg, ← neg_sub, roundDiv_neg, neg_add]

theorem rawStroke_neg (output : Int) (lever : Nat) : rawStroke (-output) lever = -rawStroke output lever := by
  rw [rawStroke, neg_mul, roundDiv_neg, rawStroke]

theorem steeringResult_mirror : steeringResult p.mirror l.mirror r.mirror = (steeringResult p l r).mirror := by
  have forward := forwardOf_mirror (l := l) p.bogie.centre p.position.confidence r.held
  simp only [steeringResult, Pass.mirror, ComputationRecord.mirror, forward, LaneResult.mirror]
  simp only [LaneRead.mirror, SampleRecord.exchange, rawFeedback_neg, clampAbs_neg, ← neg_add, filterStep_neg,
    approach_neg, rawStroke_neg, neg_inj, ne_eq, Int.natAbs_neg]

theorem returningResult_mirror : returningResult p.mirror l.mirror r.mirror = (returningResult p l r).mirror := by
  have output (step : Nat) : approach step 0 (-r.output) = -approach step 0 r.output := approach_neg step 0 r.output
  simp only [returningResult, Pass.mirror, ComputationRecord.mirror, LaneRead.mirror, SampleRecord.exchange,
    LaneResult.mirror, output, rawStroke_neg, clampAbs_neg, neg_inj, ne_eq, Int.natAbs_neg, neg_eq_zero]

theorem laneResult_mirror : laneResult p.mirror l.mirror r.mirror = (laneResult p l r).map LaneResult.mirror := by
  unfold laneResult
  rw [steeringResult_mirror, returningResult_mirror, show l.mirror.start = l.start from rfl]
  cases l.start <;> rfl

/-! ## A lane's end -/

/-- What a lane's end gives in the mirror of its pass. -/
structure LaneEnd.Mirrors (e' e : LaneEnd) : Prop where
  read : e'.read = e.read.mirror
  gaps : e'.gaps = e.gaps.exchange
  judged : e'.judged = e.judged.mirror
  taken : e'.taken = e.taken.map LaneResult.mirror

theorem take_mirror (r : ComputationRecord) (x : LaneResult) : r.mirror.take x.mirror = (r.take x).mirror := rfl

theorem zeroed_mirror (r : ComputationRecord) : r.mirror.zeroed = r.zeroed.mirror := rfl

theorem LaneEnd.Mirrors.record {e' e : LaneEnd} (h : e'.Mirrors e) : e'.record = e.record.mirror := by
  unfold LaneEnd.record
  rw [h.taken, h.judged, h.read, show e.read.mirror.start = e.read.start from rfl]
  cases e.taken with
  | some x => exact take_mirror ..
  | none => exact (congrArg₂ (ite _) (zeroed_mirror _) rfl).trans (apply_ite ComputationRecord.mirror ..).symm

theorem LaneEnd.Mirrors.plausible {e' e : LaneEnd} (h : e'.Mirrors e) : e'.plausible = e.plausible := by
  rw [LaneEnd.plausible, h.read, h.gaps]
  exact Gaps.plausible_exchange ..

/-- What stage 5 makes of a lane's record (R123 to R126). -/
def ComputationRecord.judgedBy (r : ComputationRecord) (l : LaneRead) (g : Gaps) (partner : Health) (h : Gaps) :
    ComputationRecord :=
  { r.afterGaps l.law l.clearance g with inUse := yInUse (r.afterGaps l.law l.clearance g) l.law g partner h }

theorem laneEnd_judged (lane : Lane) (other : ComputationRecord) (h : Gaps) : (s.laneEnd p lane l other h).judged =
    s.computation.records[lane.channel p.sample.bogie].judgedBy l (p.sample.gaps lane) other.health h := rfl

theorem laneEnd_taken_eq (lane : Lane) (other : ComputationRecord) (h : Gaps) : (s.laneEnd p lane l other h).taken =
    if resultTaken l.start s.channels.bank[lane.channel p.sample.bogie] then
      laneResult p l (s.laneEnd p lane l other h).judged else none := rfl

/-- A pass writes y in use anew, and reads the old one nowhere (R125). -/
theorem judgedBy_inUse (r : ComputationRecord) (y : Int) (partner : Health) (h : Gaps) :
    { r with inUse := y }.judgedBy l g partner h = r.judgedBy l g partner h := rfl

theorem afterGaps_inUse (r : ComputationRecord) (y : Int) :
    { r with inUse := y }.afterGaps law clearance g = { r.afterGaps law clearance g with inUse := y } := rfl

theorem judgedBy_mirror (partner : Health) (h : Gaps) :
    r.mirror.judgedBy l.mirror g.exchange partner h.exchange = (r.judgedBy l g partner h).mirror := by
  have own : r.mirror.afterGaps l.mirror.law l.mirror.clearance g.exchange = (r.afterGaps l.law l.clearance g).mirror :=
    afterGaps_mirror
  have inUse : yInUse (r.afterGaps l.law l.clearance g).mirror l.mirror.law g.exchange partner h.exchange =
    -yInUse (r.afterGaps l.law l.clearance g) l.law g partner h := yInUse_mirror
  rw [ComputationRecord.judgedBy, own, inUse]
  rfl

/-- The records that a mirrored pass finds: each the mirrored one but for its y in use. -/
def RecordsMirror (m s : State) : Prop := ∀ c : Fin 8,
  { m.computation.records[c] with inUse := 0 } = { s.computation.records[c].mirror with inUse := 0 }

theorem RecordsMirror.record_eq (h : RecordsMirror m s) (c : Fin 8) :
    m.computation.records[c] = { s.computation.records[c].mirror with inUse := m.computation.records[c].inUse } :=
  congrArg (fun r : ComputationRecord => { r with inUse := m.computation.records[c].inUse }) (h c)

theorem RecordsMirror.judgedBy (records : RecordsMirror m s) (c : Fin 8) (partner : Health) (h : Gaps) :
    m.computation.records[c].judgedBy l.mirror g.exchange partner h.exchange =
      (s.computation.records[c].judgedBy l g partner h).mirror := by
  rw [records.record_eq, judgedBy_inUse, judgedBy_mirror]

theorem gaps_mirror (p : Pass) (lane : Lane) : p.mirror.sample.gaps lane = (p.sample.gaps lane).exchange := by
  cases lane <;> rfl

theorem laneEnd_mirror {lane : Lane} {other' other : ComputationRecord} {h : Gaps} (channels : m.channels = s.channels)
    (records : RecordsMirror m s) (partner : other'.health = other.health) :
    (m.laneEnd p.mirror lane l.mirror other' h.exchange).Mirrors (s.laneEnd p lane l other h) := by
  have judged : (m.laneEnd p.mirror lane l.mirror other' h.exchange).judged =
      (s.laneEnd p lane l other h).judged.mirror := by
    rw [laneEnd_judged, laneEnd_judged, gaps_mirror, partner]
    exact records.judgedBy ..
  refine ⟨rfl, gaps_mirror p lane, judged, ?_⟩
  rw [laneEnd_taken_eq, laneEnd_taken_eq, judged, laneResult_mirror, channels, apply_ite (Option.map LaneResult.mirror)]
  rfl

/-- The partner's health is judged the same. -/
theorem RecordsMirror.health (records : RecordsMirror m s) (c : Fin 8) (law : LawRecord) (clearance : Option Nat)
    (g : Gaps) : (m.computation.records[c].afterGaps law clearance g.exchange).health =
      (s.computation.records[c].afterGaps law clearance g).health := by
  rw [records.record_eq, afterGaps_inUse, afterGaps_mirror]
  rfl

/-- Settles O39: both lanes' ends mirror each other, stage by stage. -/
theorem passIsMirrorExact : Obligations.PassIsMirrorExact := by
  intro s m p channels records
  have a : (m.endA p.mirror).Mirrors (s.endA p) :=
    laneEnd_mirror (lane := .laneA) (h := p.sample.gaps .laneB) channels records
      (RecordsMirror.health records _ p.laneB.law p.laneB.clearance (p.sample.gaps .laneB))
  have b : (m.endB p.mirror).Mirrors (s.endB p) :=
    laneEnd_mirror (lane := .laneB) (h := p.sample.gaps .laneA) channels records
      (RecordsMirror.health records _ p.laneA.law p.laneA.clearance (p.sample.gaps .laneA))
  exact ⟨a.taken, b.taken, a.judged, b.judged, a.record, b.record, a.plausible, b.plausible⟩

end Sys2Proof.Machine
end

