-- ==== Sys2Proof/Proofs/LaneResults.lean ====
section
/-!
SUPPORT. The stages of a steering and of a returning result (R115, R120 to R122, R127 to R133): settles O40.
-/
namespace Sys2Proof.Machine

variable {p : Pass} {l : LaneRead} {r : ComputationRecord} {x : LaneResult} {goal : Int}

/-! ## Clamps and moves toward a target -/

theorem clampAbs_of_gt {limit : Nat} {i : Int} (h : limit < i.natAbs) :
    clampAbs limit i = if 0 < i then (limit : Int) else -(limit : Int) := by
  unfold clampAbs
  split <;> omega

theorem clampAbs_ne_iff {limit : Nat} {i : Int} : clampAbs limit i ≠ i ↔ limit < i.natAbs := by
  unfold clampAbs
  omega

theorem approach_natAbs (step : Nat) (target i : Int) : (approach step target i - i).natAbs ≤ step := by
  rw [approach, add_sub_cancel_left]
  exact clampAbs_natAbs ..

theorem approach_of_le {step : Nat} {target i : Int} (h : (target - i).natAbs ≤ step) : approach step target i = target := by
  rw [approach, clampAbs_of_le h, add_sub_cancel]

theorem approach_of_gt {step : Nat} {target i : Int} (h : step < (target - i).natAbs) :
    approach step target i = if i < target then i + step else i - step := by
  rw [approach, clampAbs_of_gt h]
  simp only [Int.sub_pos]
  split <;> rfl

theorem approach_ne_iff {step : Nat} {target i : Int} : approach step target i ≠ target ↔ step < (target - i).natAbs := by
  unfold approach clampAbs
  omega

/-! ## Quotients without a remainder -/

theorem roundDiv_mul (i : Int) {b : Nat} (hb : 0 < b) : roundDiv (i * b) b = i := by
  obtain ⟨near, -⟩ := roundDiv_nearest (i * b) hb
  rw [← sub_mul, Int.natAbs_mul, Int.natAbs_mul, Int.natAbs_natCast, ← Nat.mul_assoc] at near
  have apart : 2 * (roundDiv (i * b) b - i).natAbs ≤ 1 := Nat.le_of_mul_le_mul_right (near.trans_eq (Nat.one_mul b).symm) hb
  omega

theorem roundDiv_one (i : Int) : roundDiv i 1 = i := by simpa using roundDiv_mul i one_pos

theorem roundDiv_zero {b : Nat} (hb : 0 < b) : roundDiv 0 b = 0 := by simpa using roundDiv_mul 0 hb

/-! ## Stages 9 and 10 (R130 to R132) -/

/-- A lane's result, by the state in which the lane started (R115). -/
theorem laneResult_cases (h : laneResult p l r = some x) :
    (l.start = .steering ∧ x = steeringResult p l r) ∨ (l.start = .returning ∧ x = returningResult p l r) := by
  unfold laneResult at h
  split at h
  · next start => exact .inl ⟨start, (Option.some.inj h).symm⟩
  · next start => exact .inr ⟨start, (Option.some.inj h).symm⟩
  all_goals cases h

/-- Stages 9 and 10 of a result whose ψ_out moves toward a goal. -/
structure LaneResult.Moves (x : LaneResult) (p : Pass) (l : LaneRead) (r : ComputationRecord) (goal : Int) : Prop where
  output : x.output = approach (l.law.rate * p.sample.period) goal r.output
  rate : x.flags.rate = decide (x.output ≠ goal)
  stroke : x.stroke = clampAbs l.fields.strokeMax (roundDiv (x.output * l.fields.lever) 10000)
  limited : x.flags.stroke =
    decide (clampAbs l.fields.strokeMax (roundDiv (x.output * l.fields.lever) 10000) ≠
      roundDiv (x.output * l.fields.lever) 10000)

theorem steeringResult_moves (p : Pass) (l : LaneRead) (r : ComputationRecord) :
    (steeringResult p l r).Moves p l r (steeringResult p l r).filter := ⟨rfl, rfl, rfl, rfl⟩

theorem returningResult_moves (p : Pass) (l : LaneRead) (r : ComputationRecord) :
    (returningResult p l r).Moves p l r 0 := ⟨rfl, rfl, rfl, rfl⟩

theorem LaneResult.Moves.withinBounds (h : x.Moves p l r goal) :
    let allowance := l.law.rate * p.sample.period
    let stroke := roundDiv (x.output * l.fields.lever) 10000
    (x.output - r.output).natAbs ≤ allowance ∧
    ((goal - r.output).natAbs ≤ allowance → x.output = goal) ∧
    (allowance < (goal - r.output).natAbs →
      x.output = if r.output < goal then r.output + allowance else r.output - allowance) ∧
    (x.flags.rate = true ↔ allowance < (goal - r.output).natAbs) ∧
    x.stroke.natAbs ≤ l.fields.strokeMax ∧
    (stroke.natAbs ≤ l.fields.strokeMax → x.stroke = stroke) ∧
    (l.fields.strokeMax < stroke.natAbs →
      x.stroke = if 0 < stroke then (l.fields.strokeMax : Int) else -(l.fields.strokeMax : Int)) ∧
    (x.flags.stroke = true ↔ l.fields.strokeMax < stroke.natAbs) := by
  obtain ⟨output, rate, stroke, limited⟩ := h
  rw [rate, limited, stroke]
  generalize roundDiv (x.output * l.fields.lever) 10000 = v
  rw [output]
  exact ⟨approach_natAbs .., approach_of_le, approach_of_gt, decide_eq_true_iff.trans approach_ne_iff, clampAbs_natAbs ..,
    clampAbs_of_le, clampAbs_of_gt, decide_eq_true_iff.trans clampAbs_ne_iff⟩

/-- With a filter shift of 0 the filter goes to its target at once (R129). -/
theorem filterStep_of_zero {law : LawRecord} {proximity : Bool}
    (unfiltered : (if proximity then law.shiftWidened else law.shiftNormal) = 0) (target f : Int) :
    filterStep law proximity target f = target := by
  rw [filterStep, unfiltered, pow_zero, roundDiv_one, add_sub_cancel]

/-- The filter never moves away from its target (R129). -/
theorem filterStep_natAbs (law : LawRecord) (proximity : Bool) (target f : Int) :
    (target - filterStep law proximity target f).natAbs ≤ (target - f).natAbs := by
  have part := roundDiv_part (target - f) (p := 1) (Nat.two_pow_pos (if proximity then law.shiftWidened else law.shiftNormal))
    Nat.one_le_two_pow
  rw [Nat.cast_one, mul_one] at part
  unfold filterStep
  omega

theorem resultsStayWithinTheirBounds : Claims.ResultsStayWithinTheirBounds := by
  intro p l r x result
  rcases laneResult_cases result with ⟨start, rfl⟩ | ⟨start, rfl⟩
  · obtain ⟨step, reached, beyond, rate, stroke, inside, outside, limited⟩ := (steeringResult_moves p l r).withinBounds
    dsimp only
    rw [if_pos start]
    refine ⟨step, reached, beyond, rate, stroke, inside, outside, limited, fun returning => ?_, fun _ unfiltered => ?_⟩
    · rw [start] at returning
      cases returning
    · have filter : (steeringResult p l r).filter = clampAbs l.law.angleMax _ := filterStep_of_zero unfiltered ..
      exact filter ▸ clampAbs_natAbs ..
  · obtain ⟨step, reached, beyond, rate, stroke, inside, outside, limited⟩ := (returningResult_moves p l r).withinBounds
    dsimp only
    rw [if_neg (by rw [start]; decide)]
    refine ⟨step, reached, beyond, rate, stroke, inside, outside, limited,
      fun _ => ⟨rfl, rfl, rfl, rfl, decide_eq_true_iff⟩, fun steering => ?_⟩
    rw [start] at steering
    cases steering

/-! ## Stages 3 to 6 (R120 to R122, R127) -/

/-- The substituted feedforward, by its mode: it decays toward 0 and never past it (R120). -/
theorem substituteForward_decays {step : Nat} {held : Int} :
    (held.natAbs ≤ step → substituteForward .decay step held = 0) ∧
      (step < held.natAbs → (substituteForward .decay step held).natAbs + step = held.natAbs ∧
        0 < substituteForward .decay step held * held) := by
  unfold substituteForward
  dsimp only
  refine ⟨fun near => approach_of_le (by omega), fun far => ?_⟩
  rw [approach_of_gt (by omega)]
  split
  · next negative => exact ⟨by omega, mul_pos_of_neg_of_neg (by omega) negative⟩
  · next => exact ⟨by omega, mul_pos (by omega) (by omega)⟩

/-- A feedforward of two samples, at full confidence and at none (R121, R122). -/
theorem feedforward_confidence (centre wheel span : Int) :
    feedforward centre wheel span 256 = roundDiv (roundDiv (centre + wheel) 2 * span) 1000 ∧
      feedforward centre wheel span 0 = 0 := by
  refine ⟨roundDiv_mul _ (by decide), ?_⟩
  rw [feedforward, Nat.cast_zero, mul_zero, roundDiv_zero (by decide)]

theorem forwardOf_of_samples {a b centre held : Int} {confidence : Nat} (first : l.centreSample = some a)
    (second : l.wheelSample = some b) :
    forwardOf l centre confidence held = (feedforward a b (l.fields.offset - centre) confidence, false) := by
  rw [forwardOf, first, second]

theorem forwardOf_of_missing {centre held : Int} {confidence : Nat} (missing : l.centreSample = none ∨ l.wheelSample = none) :
    forwardOf l centre confidence held = (substituteForward l.law.forwardMode l.law.decayStep held, true) := by
  unfold forwardOf
  rcases missing with missing | missing
  · rw [missing]
  · rw [missing]
    cases l.centreSample <;> rfl

theorem feedforwardAndFeedbackFollowTheirStages : Claims.FeedforwardAndFeedbackFollowTheirStages := by
  intro p l r
  dsimp only
  have held : ((steeringResult p l r).held, (steeringResult p l r).substituted) =
    forwardOf l p.bogie.centre p.position.confidence r.held := rfl
  refine ⟨fun a b first second => ?_, fun missing => ?_, decide_eq_true_iff.trans clampAbs_ne_iff⟩
  · rw [forwardOf_of_samples first second, Prod.mk_inj] at held
    obtain ⟨held, measured⟩ := held
    obtain ⟨full, zero⟩ := feedforward_confidence a b (l.fields.offset - p.bogie.centre)
    refine ⟨measured, held, fun all => ?_, fun none => ?_⟩
    · rw [held, all, full]
    · rw [held, none, zero]
  · rw [forwardOf_of_missing missing, Prod.mk_inj] at held
    obtain ⟨held, substituted⟩ := held
    rw [held]
    refine ⟨substituted, ?_⟩
    cases l.law.forwardMode with
    | hold | zero => rfl
    | decay => exact substituteForward_decays

/-! ## Stages 6 to 8 (R127 to R129, R133) -/

theorem laneResult_isSome : (laneResult p l r).isSome = true ↔ l.start = .steering ∨ l.start = .returning := by
  unfold laneResult
  cases l.start <;> simp

theorem steeringResultFollowsItsTarget : Claims.SteeringResultFollowsItsTarget := by
  intro p l r
  refine ⟨rfl, fun unfiltered => filterStep_of_zero unfiltered .., filterStep_natAbs .., ?_, fun start => ?_,
    laneResult_isSome⟩
  · refine (Bool.or_eq_true ..).to_iff.trans ?_
    rw [decide_eq_true_iff, decide_eq_true_iff, clampAbs_ne_iff]
    rfl
  · rw [laneResult, start]

/-- Settles O40: both results move by the same last two stages, the feedforward is measured or substituted, and the filter goes
a part of its way to the clamped sum. -/
theorem laneResultsFollowTheirStages : Obligations.LaneResultsFollowTheirStages :=
  ⟨resultsStayWithinTheirBounds, feedforwardAndFeedbackFollowTheirStages, steeringResultFollowsItsTarget⟩

end Sys2Proof.Machine
end

