-- ==== Sys2Proof/Proofs/LawRecords.lean ====
section
/-!
SUPPORT. LAW.SET: its fields against their ranges, and how a law record is read back (R110, R111, R205): settles O46.
-/
namespace Sys2Proof.Machine

variable {s : State} {r : Frame} {body : List Byte} {fields : List Nat} {bounds : List (Nat × Nat)} {k : Nat}

/-! ## The first field outside its bounds -/

/-- Whether the field at a place lies within the bounds at that place. -/
def FieldWithin (fields : List Nat) (bounds : List (Nat × Nat)) (k : Nat) : Prop :=
  (bounds.getD k (0, 0)).1 ≤ fields.getD k 0 ∧ fields.getD k 0 ≤ (bounds.getD k (0, 0)).2

theorem firstOutside_of_first (i : Nat) (inside : k < fields.length) (sameLength : fields.length = bounds.length)
    (before : ∀ j < k, FieldWithin fields bounds j) (outside : ¬FieldWithin fields bounds k) :
    firstOutside i fields bounds = some (i + k) := by
  induction fields generalizing i k bounds with
  | nil => cases inside
  | cons n rest ih =>
    obtain _ | ⟨⟨lo, hi⟩, bounds⟩ := bounds
    · cases sameLength
    rw [firstOutside]
    cases k with
    | zero =>
      rw [FieldWithin, List.getD_cons_zero, List.getD_cons_zero] at outside
      exact if_pos (by dsimp only at outside; omega)
    | succ k =>
      obtain ⟨low, high⟩ : lo ≤ n ∧ n ≤ hi := before 0 (Nat.succ_pos k)
      rw [if_neg (by omega), ih (i + 1) (Nat.lt_of_succ_lt_succ inside) (Nat.succ.inj sameLength)
        (fun j lt => before (j + 1) (Nat.succ_lt_succ lt)) outside, Nat.add_right_comm]
      rfl

theorem firstOutside_of_within (i : Nat) (all : ∀ j < fields.length, FieldWithin fields bounds j) :
    firstOutside i fields bounds = none := by
  induction fields generalizing i bounds with
  | nil => rfl
  | cons n rest ih =>
    obtain _ | ⟨⟨lo, hi⟩, bounds⟩ := bounds
    · rfl
    obtain ⟨low, high⟩ : lo ≤ n ∧ n ≤ hi := all 0 (Nat.succ_pos _)
    rw [firstOutside, if_neg (by omega)]
    exact ih (i + 1) fun j lt => all (j + 1) (Nat.succ_lt_succ lt)

/-- A form read gives one value for each of its fields. -/
theorem trailing_length {form : List (Nat × Nat)} (read : trailing form body = some fields) :
    fields.length = form.length := by
  induction form generalizing body fields with
  | nil =>
    cases body with
    | nil => exact Option.some.inj read ▸ rfl
    | cons => cases read
  | cons field form ih =>
    cases body with
    | nil =>
      obtain ⟨rest, tail, rfl⟩ := Option.map_eq_some_iff.1 read
      exact congrArg Nat.succ (ih tail)
    | cons b bytes =>
      rw [trailing] at read
      split at read
      · cases read
      · obtain ⟨rest, tail, rfl⟩ := Option.map_eq_some_iff.1 read
        exact congrArg Nat.succ (ih tail)

/-! ## The ranges of R110 -/

/-- The field at a place, counted from 0, lies in its range (R110). -/
def LawFieldHolds (fields : List Nat) (k : Nat) : Prop := LawFieldInRange (fun j => fields.getD (j - 1) 0) (k + 1)

/-- Where every earlier field holds, the bounds that the model tests a field against are its range: those of k_w and of the
contact gap, which follow k_n and the proximity gap, too (R110). -/
theorem fieldWithin_lawBounds (place : k < 19) (before : ∀ j < k, LawFieldHolds fields j) :
    FieldWithin fields (lawBounds fields) k ↔ LawFieldHolds fields k := by
  have shift (after : 5 < k) : fields.getD 5 0 ≤ 7 := before 5 after
  have gap (after : 7 < k) : fields.getD 7 0 ≤ 3000 := before 7 after
  unfold FieldWithin LawFieldHolds
  interval_cases k <;> simp [lawBounds, LawFieldInRange] at shift gap ⊢ <;> omega

theorem lawFieldsHold_iff : (∀ k < 19, LawFieldHolds fields k) ↔
    LawInRange (lawOf fields) ∧ fields.getD 11 0 ≤ 2 ∧ fields.getD 12 0 ≤ 2 := by
  constructor
  · intro holds
    refine ⟨?_, holds 11 (by decide), holds 12 (by decide)⟩
    constructor
    case previewTime => exact holds 0 (by decide)
    case kp => exact holds 1 (by decide)
    case feedbackLimit => exact holds 2 (by decide)
    case angleMax => exact holds 3 (by decide)
    case rate => exact holds 4 (by decide)
    case shifts => exact ⟨holds 5 (by decide), holds 6 (by decide)⟩
    case gaps => exact ⟨holds 7 (by decide), holds 8 (by decide)⟩
    case sumTolerance => exact holds 9 (by decide)
    case feedbackMinSpeed => exact holds 10 (by decide)
    case decayStep => exact holds 13 (by decide)
    case yawTolerance => exact holds 14 (by decide)
    case trackingLimit => exact holds 15 (by decide)
    case trackingPersistence => exact holds 16 (by decide)
    case centreTolerance => exact holds 17 (by decide)
    case lockTime => exact holds 18 (by decide)
  · rintro ⟨⟨previewTime, kp, feedbackLimit, angleMax, rate, ⟨normal, widened⟩, ⟨proximity, contact⟩, sum, speed, decay, yaw,
      tracking, persistence, centre, lock⟩, lateral, forward⟩ k place
    interval_cases k
    exacts [previewTime, kp, feedbackLimit, angleMax, rate, normal, widened, proximity, contact, sum, speed, lateral, forward,
      decay, yaw, tracking, persistence, centre, lock]

/-! ## LAW.SET (R111) -/

section Owner
variable {c : Fin 8} (channel : fieldU body 0 1 = c.val) (read : trailing lawForm (body.drop 1) = some fields)
include channel read

theorem ownLawSet_outOfRange (place : k < 19) (before : ∀ j < k, LawFieldHolds fields j)
    (outside : ¬LawFieldHolds fields k) : ownLawSet body s = (s, ⟨.outOfRange, [u8 (k + 1)]⟩) := by
  have length : fields.length = 19 := trailing_length read
  have first : firstOutside 1 fields (lawBounds fields) = some (1 + k) :=
    firstOutside_of_first 1 (length ▸ place) length
      (fun j lt => (fieldWithin_lawBounds (lt.trans place) fun i lt' => before i (lt'.trans lt)).2 (before j lt))
      (mt (fieldWithin_lawBounds place before).1 outside)
  rw [ownLawSet, channel, channelOf?_val, read]
  dsimp only
  rw [first, Nat.add_comm]

theorem ownLawSet_taken (holds : ∀ k < 19, LawFieldHolds fields k) : ownLawSet body s =
    (s.setComputation fun k => { k with laws := changeAt k.laws c fun _ => lawOf fields }, ⟨.ok, [0]⟩) := by
  have length : fields.length = 19 := trailing_length read
  have none : firstOutside 1 fields (lawBounds fields) = none := firstOutside_of_within 1 fun j lt =>
    (fieldWithin_lawBounds (length ▸ lt) fun i lt' => holds i (lt'.trans (length ▸ lt))).2 (holds j (length ▸ lt))
  rw [ownLawSet, channel, channelOf?_val, read]
  dsimp only
  rw [none]

end Owner

theorem ownLawSet_noChannel (none : 7 < fieldU body 0 1) : ownLawSet body s = (s, ⟨.outOfRange, [0]⟩) := by
  rw [ownLawSet, channelOf?_none none]

theorem lawSetReplacesTheRecord : Claims.LawSetReplacesTheRecord := by
  intro s r fields taken kind nonempty read
  have fits : fitsLawSet r.body = true := decide_eq_true ⟨nonempty, by rw [read]; rfl⟩
  have only {index : Byte} (own : ownLawSet r.body s.popRequest = (s.popRequest, ⟨.outOfRange, [index]⟩)) :
      s.onlyAnswers (s.serveAct 0x28 anyBody fitsLawSet ownLawSet) r .outOfRange [index] :=
    State.onlyAnswers_of_owner taken kind fits rfl own
  refine ⟨_, rfl, fun none => only (ownLawSet_noChannel none), fun c channel =>
    ⟨fun k place before outside => only (ownLawSet_outOfRange channel read place before outside), lawFieldsHold_iff,
      fun inRange lateral forward => ?_⟩⟩
  rw [State.serveAct_taken taken kind fits rfl,
    ownLawSet_taken channel read (lawFieldsHold_iff.2 ⟨inRange, lateral, forward⟩)]
  exact ⟨⟨rfl, rfl⟩, rfl⟩

/-! ## The record read back (R110, R205) -/

/-- Fields 1 to 19 of a law record, in index order (R110). -/
def LawRecord.toFields (l : LawRecord) : List Nat :=
  [l.previewTime, l.kp, l.feedbackLimit, l.angleMax, l.rate, l.shiftNormal, l.shiftWidened, l.proximityGap, l.contactGap,
    l.sumTolerance, l.feedbackMinSpeed, l.lateralMode.code, l.forwardMode.code, l.decayStep, l.yawTolerance,
    l.trackingLimit, l.trackingPersistence, l.centreTolerance, l.lockTime]

theorem lawOf_toFields (l : LawRecord) : lawOf l.toFields = l := by
  have lateral : lateralModeOf? l.lateralMode.code = some l.lateralMode := by cases l.lateralMode <;> rfl
  have forward : forwardModeOf? l.forwardMode.code = some l.forwardMode := by cases l.forwardMode <;> rfl
  simp [lawOf, LawRecord.toFields, lateral, forward]

/-- A field written in its width is the first that its form reads. -/
theorem trailing_be {w d n : Nat} {rest : List (Nat × Nat)} (positive : 0 < w) (fits : n < 256 ^ w) :
    trailing ((w, d) :: rest) (be w n ++ body) = (trailing rest body).map (n :: ·) := by
  have length := be_length w n
  have value : beNat (be w n) = n := (beNat_be w n).trans (Nat.mod_eq_of_lt fits)
  cases bytes : be w n ++ body with
  | nil =>
    rw [(List.append_eq_nil_iff.1 bytes).1] at length
    exact absurd length positive.ne
  | cons b tail =>
    rw [trailing, if_neg, ← bytes, List.drop_left' length, List.take_left' length, value]
    rw [← bytes, List.length_append, length]
    omega

theorem trailing_lawForm_encode {l : LawRecord} (h : LawInRange l) : trailing lawForm l.encode = some l.toFields := by
  have lateral := l.lateralMode.code_lt
  have forward := l.forwardMode.code_lt
  obtain ⟨previewTime, kp, feedbackLimit, angleMax, rate, shifts, gaps, sum, speed, decay, yaw, tracking, persistence, centre,
    lock⟩ := h
  rw [← List.append_nil l.encode]
  simp only [LawRecord.encode, List.append_assoc, lawForm]
  repeat rw [trailing_be (by decide) (by norm_num; omega)]
  rfl

theorem lawRecordReadsBack : Claims.LawRecordReadsBack :=
  ⟨fun l inRange => ⟨by simp [LawRecord.encode], l.toFields, trailing_lawForm_encode inRange, lawOf_toFields l⟩,
    LawRecord.default.toFields, rfl, lawOf_toFields _, by constructor <;> decide⟩

/-- Settles O46: the checks in ascending order against bounds that are the fields' ranges, and the record as the list of its
fields. -/
theorem lawSetReplacesTheLawRecord : Obligations.LawSetReplacesTheLawRecord :=
  ⟨lawSetReplacesTheRecord, lawRecordReadsBack⟩

end Sys2Proof.Machine
end

