-- ==== Sys2Proof/Proofs/BogieResets.lean ====
section
/-!
SUPPORT. The yaw check, and the reset of the records of a bogie that ceases to be scheduled (R100, R135, R136): settles O44.
-/
namespace Sys2Proof.Machine

variable {s t u : State} {p : Pass} {b : Fin 4} {c : Fin 8} {now now' later later' : Fin 4 → Prop}

/-! ## The yaw check (R135, R136) -/

theorem yawAfter_of_reads {y : Sample} {centre body : Int} (field : p.sample.yaw = some y) (valid : y.valid = true)
    (first : p.yawCentre = some centre) (second : p.yawBody = some body) (r : YawRecord) :
    yawAfter p r = r.judged p.criteria
      (decide ((predictedYaw centre body p.bogie - y.value).natAbs ≤ p.laneA.law.yawTolerance)) := by
  rw [yawAfter, field]
  dsimp only
  rw [first, second]
  exact if_pos valid

theorem yawAfter_of_unread {y : Sample} (field : p.sample.yaw = some y)
    (unread : y.valid = false ∨ p.yawCentre = none ∨ p.yawBody = none) (r : YawRecord) : yawAfter p r = r := by
  rw [yawAfter, field]
  dsimp only
  rcases unread with invalid | missing | missing
  · rw [invalid]
    cases p.yawCentre <;> cases p.yawBody <;> rfl
  · rw [missing]
  · rw [missing]
    cases p.yawCentre <;> rfl

theorem yawCheckMovesTheRuns : Claims.YawCheckMovesTheRuns := by
  intro p r
  refine ⟨fun absent => by rw [yawAfter, absent], fun y field => ⟨fun unread => yawAfter_of_unread field unread r,
    fun centre body valid first second => ?_⟩⟩
  dsimp only
  rw [yawAfter_of_reads field valid first second]
  refine ⟨fun disagrees : p.laneA.law.yawTolerance < (predictedYaw centre body p.bogie - y.value).natAbs => ?_,
    fun agrees : ¬p.laneA.law.yawTolerance < (predictedYaw centre body p.bogie - y.value).natAbs => ?_⟩
  · rw [decide_eq_false (Nat.not_le.2 disagrees)]
    exact ⟨rfl, rfl, by simp [YawRecord.judged]⟩
  · rw [decide_eq_true (Nat.not_lt.1 agrees)]
    exact ⟨rfl, rfl, by simp [YawRecord.judged]⟩

/-! ## Records put back (R136) -/

/-- The instances that end with the records of a channel's bogie (R136). -/
abbrev EndsWith (c : Fin 8) (i : Fin 48) : Prop := i = ofChannel .lateralSensorFailed c ∨ i = ofChannel .flangeProximity c

theorem not_endsWith_ofVehicle (c : Fin 8) (k : VehicleCondition) : ¬EndsWith c (ofVehicle k) :=
  not_or.2 ⟨ofVehicle_ne_ofChannel _ _ _, ofVehicle_ne_ofChannel _ _ _⟩

/-- The instances that end with the records of the bogies put back. -/
def Ending (now : Fin 4 → Prop) (i : Fin 48) : Prop := ∃ k : Fin 8, now (bogieOf k) ∧ EndsWith k i

theorem Ending.ne_ofVehicle {i : Fin 48} (h : Ending now i) (k : VehicleCondition) : i ≠ ofVehicle k := by
  rintro rfl
  obtain ⟨c, -, named⟩ := h
  exact not_endsWith_ofVehicle c k named

theorem ending_or {i : Fin 48} : Ending (fun b => now b ∨ now' b) i ↔ Ending now i ∨ Ending now' i := by
  simp only [Ending, or_and_right, exists_or]

theorem ending_bogie {i : Fin 48} : Ending (· = b) i ↔ EndsWith (channelA b) i ∨ EndsWith (channelB b) i := by
  simp only [Ending, bogieOf_eq_iff, or_and_right, exists_or, exists_eq_left]

/-- From one state to another the records of the bogies `now` have been put back, and resets of the bogies `later` have
become due (R136). -/
structure PutBack (s t : State) (now later : Fin 4 → Prop) : Prop where
  yaw : ∀ b : Fin 4, (now b → t.computation.yaw[b] = ⟨0, 0, false⟩) ∧ (¬now b → t.computation.yaw[b] = s.computation.yaw[b])
  due : ∀ b : Fin 4, t.computation.resetDue[b] = true ↔ s.computation.resetDue[b] = true ∨ later b
  records : ∀ k : Fin 8, (¬now (bogieOf k) → t.computation.records[k] = s.computation.records[k]) ∧
    (now (bogieOf k) → t.computation.records[k] = s.computation.records[k].unscanned)
  conditions : ∀ i : Fin 48,
    (Ending now i → t.monitor.conditions[i] = { s.monitor.conditions[i] with present := false }) ∧
    (¬Ending now i → i ≠ ofVehicle .geometryMismatch → t.monitor.conditions[i] = s.monitor.conditions[i])
  mismatch : (∃ b, now b) → t.present (ofVehicle .geometryMismatch) = allBogies.any fun b => t.computation.yaw[b].mismatch
  still : (¬∃ b, now b) → t.monitor = s.monitor
  computation : t.computation = { s.computation with
    records := t.computation.records, yaw := t.computation.yaw, resetDue := t.computation.resetDue }
  monitor : t.monitor = { s.monitor with conditions := t.monitor.conditions }

/-- Nothing put back: the computation unit differs in the resets due alone. -/
theorem PutBack.of_due (computation : t.computation = { s.computation with resetDue := t.computation.resetDue })
    (monitor : t.monitor = s.monitor)
    (due : ∀ b : Fin 4, t.computation.resetDue[b] = true ↔ s.computation.resetDue[b] = true ∨ later b) :
    PutBack s t (fun _ => False) later := by
  have records : t.computation.records = s.computation.records := by rw [computation]
  have yaw : t.computation.yaw = s.computation.yaw := by rw [computation]
  refine ⟨fun b => ⟨False.elim, fun _ => by rw [yaw]⟩, due, fun k => ⟨fun _ => by rw [records], False.elim⟩,
    fun i => ⟨fun ⟨_, no, _⟩ => no.elim, fun _ _ => by rw [monitor]⟩, fun ⟨_, no⟩ => no.elim, fun _ => monitor, ?_,
    by rw [monitor]⟩
  rw [records, yaw]
  exact computation

theorem PutBack.of_same (computation : t.computation = s.computation) (monitor : t.monitor = s.monitor) :
    PutBack s t (fun _ => False) (fun _ => False) :=
  .of_due (by rw [computation]) monitor fun b => by rw [computation, or_false]

theorem PutBack.congr (h : PutBack s t now later) (same : ∀ b, now' b ↔ now b) (same' : ∀ b, later' b ↔ later b) :
    PutBack s t now' later' := by
  obtain rfl : now' = now := funext fun b => propext (same b)
  obtain rfl : later' = later := funext fun b => propext (same' b)
  exact h

theorem PutBack.trans (h : PutBack s t now later) (k : PutBack t u now' later') :
    PutBack s u (fun b => now b ∨ now' b) (fun b => later b ∨ later' b) where
  yaw b := by
    refine ⟨fun either => ?_, fun neither => ?_⟩
    · by_cases second : now' b
      · exact (k.yaw b).1 second
      · exact ((k.yaw b).2 second).trans ((h.yaw b).1 (either.resolve_right second))
    · obtain ⟨first, second⟩ := not_or.1 neither
      exact ((k.yaw b).2 second).trans ((h.yaw b).2 first)
  due b := by rw [k.due, h.due, or_assoc]
  records c := by
    obtain ⟨stays, resets⟩ := h.records c
    obtain ⟨stays', resets'⟩ := k.records c
    refine ⟨fun neither => ?_, fun either => ?_⟩
    · obtain ⟨first, second⟩ := not_or.1 neither
      rw [stays' second, stays first]
    · by_cases first : now (bogieOf c) <;> by_cases second : now' (bogieOf c)
      · rw [resets' second, resets first]
        rfl
      · rw [stays' second, resets first]
      · rw [resets' second, stays first]
      · exact absurd either (not_or.2 ⟨first, second⟩)
  conditions i := by
    obtain ⟨ends, stays⟩ := h.conditions i
    obtain ⟨ends', stays'⟩ := k.conditions i
    rw [ending_or]
    refine ⟨fun either => ?_, fun neither other => ?_⟩
    · have other : i ≠ ofVehicle .geometryMismatch := either.elim (·.ne_ofVehicle _) (·.ne_ofVehicle _)
      by_cases first : Ending now i <;> by_cases second : Ending now' i
      · rw [ends' second, ends first]
      · rw [stays' second other, ends first]
      · rw [ends' second, stays first other]
      · exact absurd either (not_or.2 ⟨first, second⟩)
    · obtain ⟨first, second⟩ := not_or.1 neither
      rw [stays' second other, stays first other]
  mismatch either := by
    by_cases second : ∃ b, now' b
    · exact k.mismatch second
    · have yaw (b : Fin 4) : u.computation.yaw[b] = t.computation.yaw[b] := (k.yaw b).2 fun here => second ⟨b, here⟩
      have first : ∃ b, now b := either.imp fun b here => here.resolve_right fun here' => second ⟨b, here'⟩
      rw [State.present, k.still second]
      simp only [yaw]
      exact h.mismatch first
  still neither := (k.still fun ⟨b, here⟩ => neither ⟨b, .inr here⟩).trans (h.still fun ⟨b, here⟩ => neither ⟨b, .inl here⟩)
  computation := by rw [k.computation, h.computation]
  monitor := by rw [k.monitor, h.monitor]

/-! ## One bogie's records put back (R136) -/

theorem resetBogie_computation (s : State) (b : Fin 4) : (s.resetBogie b).computation =
    { s.computation with
      records := changeAt (changeAt s.computation.records (channelA b) .unscanned) (channelB b) .unscanned
      yaw := changeAt s.computation.yaw b fun _ => ⟨0, 0, false⟩ } := by
  simp [State.resetBogie, State.resetLane, State.setYaw]

theorem resetLane_monitor (s : State) (c : Fin 8) :
    (s.resetLane c).monitor = { s.monitor with conditions := (s.resetLane c).monitor.conditions } := by
  rw [State.resetLane, State.report_monitor, State.report_monitor]
  rfl

/-- A report that is no rise latches nothing (R165). -/
theorem report_unraised (s : State) {i : Fin 48} {v : Bool} (unraised : v = true → s.present i = true) :
    (s.report i v).monitor.conditions[i] = { s.monitor.conditions[i] with present := v } := by
  have still : (v && !s.monitor.conditions[i].present) = false := by
    cases v with
    | false => rfl
    | true => rw [show s.monitor.conditions[i].present = true from unraised rfl]; rfl
  rw [State.report_condition, if_pos rfl, still, Bool.or_false]

theorem report_other {i j : Fin 48} (s : State) (v : Bool) (apart : i ≠ j) :
    (s.report j v).monitor.conditions[i] = s.monitor.conditions[i] := by
  rw [State.report_condition, if_neg (Ne.symm apart)]

theorem resetLane_ends {i : Fin 48} (s : State) (h : EndsWith c i) :
    (s.resetLane c).monitor.conditions[i] = { s.monitor.conditions[i] with present := false } := by
  rcases h with rfl | rfl
  · exact (report_other _ _ (by simp [ofChannel_inj])).trans (report_unraised (v := false) _ nofun)
  · refine (report_unraised (v := false) _ nofun).trans ?_
    rw [report_other _ _ (by simp [ofChannel_inj])]
    rfl

theorem resetLane_stays {i : Fin 48} (s : State) (h : ¬EndsWith c i) :
    (s.resetLane c).monitor.conditions[i] = s.monitor.conditions[i] := by
  obtain ⟨lateral, near⟩ := not_or.1 h
  exact (report_other _ _ near).trans (report_other _ _ lateral)

theorem setYaw_monitor (s : State) (b : Fin 4) (r : YawRecord) :
    (s.setYaw b r).monitor = { s.monitor with conditions := (s.setYaw b r).monitor.conditions } := by
  rw [State.setYaw, State.report_monitor]
  rfl

theorem setYaw_condition (s : State) (b : Fin 4) (r : YawRecord) {i : Fin 48} (h : i ≠ ofVehicle .geometryMismatch) :
    (s.setYaw b r).monitor.conditions[i] = s.monitor.conditions[i] := by
  rw [State.setYaw, State.report_condition, if_neg (Ne.symm h)]
  rfl

/-- The conditions of a bogie put back, by its two lanes. -/
theorem resetBogie_condition (s : State) (b : Fin 4) (i : Fin 48) :
    (Ending (· = b) i → (s.resetBogie b).monitor.conditions[i] = { s.monitor.conditions[i] with present := false }) ∧
    (¬Ending (· = b) i →
      (s.resetBogie b).monitor.conditions[i] = (s.setYaw b ⟨0, 0, false⟩).monitor.conditions[i]) := by
  rw [State.resetBogie]
  refine ⟨fun ends => ?_, fun stays => ?_⟩
  · have other := ends.ne_ofVehicle .geometryMismatch
    by_cases second : EndsWith (channelB b) i
    · by_cases first : EndsWith (channelA b) i
      · rw [resetLane_ends _ second, resetLane_ends _ first, setYaw_condition _ _ _ other]
      · rw [resetLane_ends _ second, resetLane_stays _ first, setYaw_condition _ _ _ other]
    · rw [resetLane_stays _ second, resetLane_ends _ ((ending_bogie.1 ends).resolve_right second),
        setYaw_condition _ _ _ other]
  · obtain ⟨first, second⟩ := not_or.1 (mt ending_bogie.2 stays)
    rw [resetLane_stays _ second, resetLane_stays _ first]

/-- The monitor's other parts, and every part of the computation unit but two banks, stay. -/
theorem resetBogie_monitor (s : State) (b : Fin 4) :
    (s.resetBogie b).monitor = { s.monitor with conditions := (s.resetBogie b).monitor.conditions } := by
  have last : (s.resetBogie b).monitor = _ :=
    resetLane_monitor ((s.setYaw b ⟨0, 0, false⟩).resetLane (channelA b)) (channelB b)
  rw [last, resetLane_monitor, setYaw_monitor]

theorem resetBogie_eq (s : State) (b : Fin 4) : s.resetBogie b = { s with
    computation := { s.computation with
      records := (s.resetBogie b).computation.records, yaw := (s.resetBogie b).computation.yaw }
    monitor := { s.monitor with conditions := (s.resetBogie b).monitor.conditions }
    link := { s.link with notices := (s.resetBogie b).link.notices } } := by
  have computation : (s.resetBogie b).computation = { s.computation with
      records := (s.resetBogie b).computation.records, yaw := (s.resetBogie b).computation.yaw } := by
    rw [resetBogie_computation]
  have judged : s.resetBogie b = _ := State.judged_resetBogie b
  rw [← computation, ← resetBogie_monitor]
  exact judged

theorem putBack_resetBogie (s : State) (b : Fin 4) : PutBack s (s.resetBogie b) (· = b) (fun _ => False) := by
  have computation := resetBogie_computation s b
  have yaw : (s.resetBogie b).computation.yaw = (s.setYaw b ⟨0, 0, false⟩).computation.yaw := by
    rw [computation, State.setYaw, State.report_computation]
    rfl
  have conditions := resetBogie_condition s b
  constructor
  case yaw =>
    rw [computation]
    rintro d
    exact ⟨fun same => same ▸ changeAt_same .., fun other => changeAt_other _ _ _ _ other⟩
  case due =>
    rw [computation]
    exact fun d => (or_false _).to_iff.symm
  case records =>
    rw [computation]
    refine fun k => ⟨fun other => ?_, fun own => ?_⟩
    · obtain ⟨first, second⟩ := not_or.1 (mt bogieOf_eq_iff.2 other)
      exact (changeAt_other _ _ _ _ second).trans (changeAt_other _ _ _ _ first)
    · rcases bogieOf_eq_iff.1 own with rfl | rfl
      · exact (changeAt_other _ _ _ _ (channelA_ne_channelB b)).trans (changeAt_same ..)
      · refine (changeAt_same ..).trans (congrArg _ ?_)
        exact changeAt_other _ _ _ _ (channelA_ne_channelB b).symm
  case conditions =>
    exact fun i => ⟨(conditions i).1, fun stays other => ((conditions i).2 stays).trans (setYaw_condition _ _ _ other)⟩
  case mismatch =>
    obtain ⟨-, judged⟩ := setYaw_writes s b ⟨0, 0, false⟩
    have kept := (conditions (ofVehicle .geometryMismatch)).2 fun ends => ends.ne_ofVehicle _ rfl
    rw [State.present, kept, yaw]
    exact fun _ => judged
  case still => exact fun none => absurd ⟨b, rfl⟩ none
  case computation => rw [computation]
  case monitor => exact resetBogie_monitor s b

/-- GEOMETRY_MISMATCH, where it was judged over the four bogies before: a bogie put back takes a mismatch away and brings
none, so that nothing is latched anew (R136, R165). -/
theorem resetBogie_mismatch (b : Fin 4)
    (judged : s.present (ofVehicle .geometryMismatch) = allBogies.any fun d => s.computation.yaw[d].mismatch) :
    (s.resetBogie b).monitor.conditions[ofVehicle .geometryMismatch] =
      { s.monitor.conditions[ofVehicle .geometryMismatch] with
        present := allBogies.any fun d => (s.resetBogie b).computation.yaw[d].mismatch } := by
  have kept := (resetBogie_condition s b (ofVehicle .geometryMismatch)).2 fun ends => ends.ne_ofVehicle _ rfl
  have yaw : (s.resetBogie b).computation.yaw = changeAt s.computation.yaw b fun _ => ⟨0, 0, false⟩ := by
    rw [resetBogie_computation]
  have falls : (allBogies.any fun d => (changeAt s.computation.yaw b fun _ => ⟨0, 0, false⟩)[d].mismatch) = true →
      s.present (ofVehicle .geometryMismatch) = true := by
    rw [judged, List.any_eq_true, List.any_eq_true]
    rintro ⟨d, mem, mismatch⟩
    refine ⟨d, mem, ?_⟩
    by_cases own : d = b
    · subst own
      rw [changeAt_same] at mismatch
      cases mismatch
    · rwa [changeAt_other _ _ _ _ own] at mismatch
  rw [kept, yaw]
  exact report_unraised (s.setComputation fun k => { k with yaw := changeAt k.yaw b fun _ => ⟨0, 0, false⟩ }) falls

/-! ## Bogies that cease to be scheduled (R100, R136) -/

theorem putBack_unscheduled (s : State) (b : Fin 4) : PutBack s (s.unscheduled b)
    (fun d => d = b ∧ s.outstanding b = 0) (fun d => d = b ∧ s.outstanding b ≠ 0) := by
  unfold State.unscheduled
  split
  · next idle =>
    have none := scanState_eq_none_iff.1 idle
    exact (putBack_resetBogie s b).congr (fun d => and_iff_left none)
      fun d => iff_of_false (fun (late : d = b ∧ s.outstanding b ≠ 0) => late.2 none) id
  · next busy =>
    have outstanding := mt scanState_eq_none_iff.2 busy
    refine PutBack.congr (now := fun _ => False) (.of_due rfl rfl fun d => ?_)
      (fun d => iff_of_false (fun (now : d = b ∧ s.outstanding b = 0) => outstanding now.2) id) fun d => Iff.rfl
    show (changeAt s.computation.resetDue b fun _ => true)[d] = true ↔ _
    by_cases same : d = b
    · subst same
      rw [changeAt_same]
      exact iff_of_true rfl (.inr ⟨rfl, outstanding⟩)
    · rw [changeAt_other _ _ _ _ same]
      simp [same]

/-- A bogie ceases to be scheduled, which is where its timer stops (R100). -/
def Ceases (s t : State) (b : Fin 4) : Prop := s.acquisition.timers[b] ≠ none ∧ t.acquisition.timers[b] = none

/-- From one state to another schedules have been set afresh: a bogie that ceases has no schedule any more, and what follows
from it has come about (R99, R100, R136). -/
structure SetAfresh (s t : State) : Prop where
  schedulable : ∀ b, t.schedulable b = s.schedulable b
  outstanding : ∀ b, t.outstanding b = s.outstanding b
  runs : ∀ b : Fin 4, s.schedulable b = true → s.acquisition.timers[b] ≠ none → t.acquisition.timers[b] ≠ none
  rests : ∀ b : Fin 4, s.schedulable b = false → s.acquisition.timers[b] = none → t.acquisition.timers[b] = none
  putBack : PutBack s t (fun b => Ceases s t b ∧ s.outstanding b = 0) (fun b => Ceases s t b ∧ s.outstanding b ≠ 0)

theorem SetAfresh.refl (s : State) : SetAfresh s s :=
  ⟨fun _ => rfl, fun _ => rfl, fun _ _ h => h, fun _ _ h => h,
    (PutBack.of_same rfl rfl).congr (fun _ => iff_of_false (fun h => h.1.1 h.1.2) id)
      fun _ => iff_of_false (fun h => h.1.1 h.1.2) id⟩

/-- A bogie ceases in one of two acts: what ceased stays so, and what was not running does not cease. -/
theorem SetAfresh.ceases_trans (h : SetAfresh s t) (k : SetAfresh t u) (b : Fin 4) :
    Ceases s u b ↔ Ceases s t b ∨ Ceases t u b := by
  have runs := h.runs b
  have rests := h.rests b
  have runs' := k.runs b
  have rests' := k.rests b
  rw [h.schedulable] at runs' rests'
  unfold Ceases
  cases scheduled : s.schedulable b
  · tauto
  · tauto

theorem SetAfresh.trans (h : SetAfresh s t) (k : SetAfresh t u) : SetAfresh s u := by
  refine ⟨fun b => (k.schedulable b).trans (h.schedulable b), fun b => (k.outstanding b).trans (h.outstanding b),
    fun b scheduled running => k.runs b ((h.schedulable b).trans scheduled) (h.runs b scheduled running),
    fun b unscheduled stopped => k.rests b ((h.schedulable b).trans unscheduled) (h.rests b unscheduled stopped),
    (h.putBack.trans k.putBack).congr (fun b => ?_) fun b => ?_⟩ <;>
  rw [h.ceases_trans k, h.outstanding, or_and_right]

/-- A schedule set afresh stops a running timer, with what follows from it, or changes neither the computation unit nor the
monitor (R100, R136). -/
theorem reschedule_cases (s : State) (b : Fin 4) :
    (s.schedulable b = false ∧ s.acquisition.timers[b] ≠ none ∧ s.reschedule b = (s.stopTimer b).unscheduled b) ∨
    (¬(s.schedulable b = false ∧ s.acquisition.timers[b] ≠ none) ∧ (s.reschedule b).computation = s.computation ∧
      (s.reschedule b).monitor = s.monitor) := by
  unfold State.reschedule
  split
  · next scheduled _ => exact .inr ⟨by simp [scheduled], rfl, rfl⟩
  · next unscheduled running => exact .inl ⟨unscheduled, by simp [running], rfl⟩
  · next _ running =>
    refine .inr ⟨fun ⟨unscheduled, runs⟩ => ?_, rfl, rfl⟩
    obtain ⟨at_, timer⟩ := Option.ne_none_iff_exists'.1 runs
    exact running at_ unscheduled timer

theorem reschedule_ceases_iff (s : State) (b d : Fin 4) :
    Ceases s (s.reschedule b) d ↔ d = b ∧ s.schedulable b = false ∧ s.acquisition.timers[b] ≠ none := by
  have timer := (rescheduled_reschedule s b).timers d
  unfold Ceases
  by_cases same : d = b
  · subst same
    rw [timer, if_pos (List.mem_singleton_self d), ← Option.isNone_iff_eq_none, ← Option.not_isSome,
      State.timerAfter_isSome]
    simp [and_comm]
  · rw [timer, if_neg (mt List.mem_singleton.1 same)]
    exact iff_of_false (fun h => h.1 h.2) fun h => same h.1

theorem putBack_reschedule (s : State) (b : Fin 4) : PutBack s (s.reschedule b)
    (fun d => Ceases s (s.reschedule b) d ∧ s.outstanding d = 0)
    (fun d => Ceases s (s.reschedule b) d ∧ s.outstanding d ≠ 0) := by
  simp only [reschedule_ceases_iff]
  rcases reschedule_cases s b with ⟨unscheduled, running, stops⟩ | ⟨still, computation, monitor⟩
  · rw [stops]
    have stopped : PutBack s (s.stopTimer b) _ _ := .of_same rfl rfl
    refine (stopped.trans (putBack_unscheduled (s.stopTimer b) b)).congr (fun d => ?_) fun d => ?_ <;>
    · rw [false_or, and_iff_left (And.intro unscheduled running)]
      exact and_congr_right fun same => same ▸ Iff.rfl
  · exact (PutBack.of_same computation monitor).congr (fun d => iff_of_false (fun now => still now.1.2) id)
      fun d => iff_of_false (fun late => still late.1.2) id

theorem setAfresh_reschedule (s : State) (b : Fin 4) : SetAfresh s (s.reschedule b) := by
  have afresh := rescheduled_reschedule s b
  have putBack := putBack_reschedule s b
  refine ⟨afresh.schedulable, fun d => ?_, fun d scheduled running => ?_, fun d unscheduled stopped => ?_, putBack⟩
  · have acquisition : (s.reschedule b).acquisition = _ := congrArg State.acquisition afresh.rest
    rw [outstanding_eq_count, acquisition, putBack.computation, outstanding_eq_count]
    rfl
  · rw [afresh.timers d]
    split
    · rw [← Option.isSome_iff_ne_none, State.timerAfter_isSome, scheduled]
    · exact running
  · rw [afresh.timers d]
    split
    · rw [State.timerAfter, unscheduled]
      rfl
    · exact stopped

/-! ## STG.SET and VEH.SET (R95, R100, R136) -/

/-- Two states with the same timers, outstanding scans, computation unit and monitor. -/
structure SameScans (s t : State) : Prop where
  timers : t.acquisition.timers = s.acquisition.timers
  outstanding : ∀ b, t.outstanding b = s.outstanding b
  computation : t.computation = s.computation
  monitor : t.monitor = s.monitor

/-- An owner that does nothing to the scans but to set schedules afresh. -/
def SetsAfresh (act : List Byte → State → State × Answer) : Prop :=
  ∀ body s, ∃ s', SameScans s s' ∧ SetAfresh s' (act body s).1

theorem SameScans.refl (s : State) : SameScans s s := ⟨rfl, fun _ => rfl, rfl, rfl⟩

theorem SetAfresh.putBack_between {s' u : State} (h : SetAfresh s' u) (before : SameScans s s') (after : SameScans u t) :
    PutBack s t (fun b => Ceases s t b ∧ s.outstanding b = 0) (fun b => Ceases s t b ∧ s.outstanding b ≠ 0) := by
  have ceases (b : Fin 4) : Ceases s t b ↔ Ceases s' u b := by rw [Ceases, Ceases, before.timers, after.timers]
  refine (((PutBack.of_same before.computation before.monitor).trans h.putBack).trans
    (PutBack.of_same after.computation after.monitor)).congr (fun b => ?_) fun b => ?_ <;>
  rw [false_or, or_false, ceases, before.outstanding]

theorem SetsAfresh.putBack {act : List Byte → State → State × Answer} (h : SetsAfresh act) (s : State) (kind : Byte)
    (mine fits : List Byte → Bool) :
    let t := s.serveAct kind mine fits act
    PutBack s t (fun b => Ceases s t b ∧ s.outstanding b = 0) (fun b => Ceases s t b ∧ s.outstanding b ≠ 0) := by
  dsimp only
  rcases State.serve_cases (s := s) (kind := kind) (mine := mine) (fits := fits)
      (fun r s => (act r.body s).1.queueReply r (act r.body s).2 false) with
    idle | ⟨r, -, -, ⟨-, -, served⟩ | ⟨-, refused⟩⟩
  · rw [State.serveAct, idle]
    exact (SetAfresh.refl s).putBack_between (.refl s) (.refl s)
  · rw [State.serveAct, served]
    obtain ⟨s', same, afresh⟩ := h r.body s.popRequest
    exact afresh.putBack_between ⟨same.timers, same.outstanding, same.computation, same.monitor⟩
      ⟨rfl, fun _ => rfl, rfl, rfl⟩
  · rw [State.serveAct, refused]
    exact (SetAfresh.refl s).putBack_between (.refl s) ⟨rfl, fun _ => rfl, rfl, rfl⟩

theorem setAfresh_foldl (l : List (Fin 4)) (s : State) : SetAfresh s (l.foldl (fun s b => s.reschedule b) s) := by
  induction l generalizing s with
  | nil => exact .refl s
  | cons b rest ih => exact (setAfresh_reschedule s b).trans (ih _)

theorem setAfresh_rescheduleOwner (s : State) (o : Option (Fin 4)) : SetAfresh s (s.rescheduleOwner o) := by
  cases o with
  | none => exact .refl s
  | some b => exact setAfresh_reschedule s b

theorem setsAfresh_stgSet : SetsAfresh ownStgSet := by
  intro body s
  have refused (st : Status) : ∃ s', SameScans s s' ∧ SetAfresh s' (s.stageAnswer st).1 := ⟨s, .refl s, .refl s⟩
  unfold ownStgSet
  split
  · next i e _ _ =>
    split_ifs
    · exact refused _
    · exact refused _
    · exact refused _
    · exact ⟨s.replaceStage i e, ⟨rfl, fun _ => rfl, rfl, rfl⟩,
        (setAfresh_rescheduleOwner _ _).trans (setAfresh_rescheduleOwner _ _)⟩
  · exact refused _

theorem setsAfresh_vehSet : SetsAfresh ownVehSet := by
  intro body s
  unfold ownVehSet
  split
  · exact ⟨s, .refl s, .refl s⟩
  · split
    · exact ⟨s, .refl s, .refl s⟩
    · exact ⟨{ s with vehicle := some (vehRecord body) }, ⟨rfl, fun _ => rfl, rfl, rfl⟩, setAfresh_foldl _ _⟩

theorem bogiesLeavingTheScheduleAreReset : Claims.BogiesLeavingTheScheduleAreReset := by
  intro c s t row next
  have putBack : PutBack s t (fun b => Ceases s t b ∧ s.outstanding b = 0)
      (fun b => Ceases s t b ∧ s.outstanding b ≠ 0) := by
    rcases row with rfl | rfl
    · obtain rfl := Host.Outcome.next.inj next
      exact setsAfresh_stgSet.putBack s _ _ _
    · obtain rfl := Host.Outcome.next.inj next
      exact setsAfresh_vehSet.putBack s _ _ _
  exact ⟨fun b => ⟨(putBack.yaw b).1, (putBack.yaw b).2, putBack.due b⟩, putBack.records, putBack.conditions,
    putBack.mismatch, putBack.still, putBack.computation, putBack.monitor⟩

/-! ## A reset that is due (R136) -/

/-- The state in which a pass has completed but for its reset and the next start (R116, R135, R137). -/
def State.passEnded (s : State) (p : Pass) : State :=
  (s.lanesEnded p).setYaw p.sample.bogie (yawAfter p (s.lanesEnded p).computation.yaw[p.sample.bogie])

theorem passEnded_mismatch (s : State) (p : Pass) : (s.passEnded p).present (ofVehicle .geometryMismatch) =
    allBogies.any fun d => (s.passEnded p).computation.yaw[d].mismatch :=
  (setYaw_writes ..).2

theorem completePass_of_due (inFlight : s.computation.pass = some p) (due : p.resetAfter = true) :
    s.completePass = ((s.passEnded p).resetBogie p.sample.bogie).startPass := by
  rw [State.completePass, inFlight]
  dsimp only
  rw [due, if_pos rfl]
  rfl

/-- The same pass with no reset due. -/
def State.withoutReset (s : State) (p : Pass) : State :=
  { s with computation := { s.computation with pass := some { p with resetAfter := false } } }

theorem endA_withoutReset (s : State) (p : Pass) : (s.withoutReset p).endA { p with resetAfter := false } = s.endA p := rfl

theorem endB_withoutReset (s : State) (p : Pass) : (s.withoutReset p).endB { p with resetAfter := false } = s.endB p := rfl

theorem completePass_withoutReset (s : State) (p : Pass) :
    (s.withoutReset p).completePass = (s.passEnded p).startPass := by
  have idle : ((s.withoutReset p).reach p.endsAt).setComputation (fun k => { k with pass := none }) =
    (s.reach p.endsAt).setComputation fun k => { k with pass := none } := rfl
  have lanes : (s.withoutReset p).lanesEnded { p with resetAfter := false } = s.lanesEnded p := by
    unfold State.lanesEnded
    rw [endA_withoutReset, endB_withoutReset]
    dsimp only
    rw [idle]
  have yaw : yawAfter { p with resetAfter := false } = yawAfter p := rfl
  rw [completePass_of_unreset (s := s.withoutReset p) rfl rfl, lanes, yaw]
  rfl

/-- What a start of a pass reads (R115) is not what a reset puts back: the pass starts the same, and what was put back
stands after it. -/
theorem startPass_of_reset {records : Vector ComputationRecord 8} {yaw : Vector YawRecord 4}
    {conditions : Vector ConditionRecord 48} {notices : List Notice}
    (reset : t = { s with
      computation := { s.computation with records := records, yaw := yaw }
      monitor := { s.monitor with conditions := conditions }, link := { s.link with notices := notices } }) :
    t.startPass = { s.startPass with
      computation := { s.startPass.computation with records := records, yaw := yaw }
      monitor := { s.startPass.monitor with conditions := conditions }
      link := { s.startPass.link with notices := notices } } := by
  subst reset
  unfold State.startPass
  dsimp only
  split <;> rfl

theorem dueResetsFollowThePass : Claims.DueResetsFollowThePass := by
  intro s p running inFlight due
  refine ⟨_, _, congrArg Host.Outcome.next (State.whileRunning_of_running running _),
    congrArg Host.Outcome.next (State.whileRunning_of_running (s := s.withoutReset p) running _), ?_⟩
  rw [completePass_of_due inFlight due, completePass_withoutReset]
  have putBack := putBack_resetBogie (s.passEnded p) p.sample.bogie
  have shape := resetBogie_eq (s.passEnded p) p.sample.bogie
  have mismatch := resetBogie_mismatch p.sample.bogie (passEnded_mismatch s p)
  generalize (s.passEnded p).resetBogie p.sample.bogie = t at putBack shape mismatch ⊢
  generalize s.passEnded p = u at putBack shape mismatch ⊢
  rw [startPass_of_reset shape]
  obtain ⟨-, monitor, -, records, yaw⟩ := startPass_keepsRecords u
  dsimp only
  rw [monitor, records, yaw]
  refine ⟨fun d => ?_, fun k => ?_, fun i => ?_, rfl⟩
  · split
    · next own => exact (putBack.yaw d).1 own
    · next other => exact (putBack.yaw d).2 other
  · split
    · next own => exact (putBack.records k).2 own
    · next other => exact (putBack.records k).1 other
  · obtain ⟨ends, stays⟩ := putBack.conditions i
    have named : Ending (· = p.sample.bogie) i ↔
        i ∈ [ofChannel .lateralSensorFailed (channelA p.sample.bogie),
          ofChannel .lateralSensorFailed (channelB p.sample.bogie),
          ofChannel .flangeProximity (channelA p.sample.bogie), ofChannel .flangeProximity (channelB p.sample.bogie)] := by
      rw [ending_bogie]
      simp only [EndsWith, List.mem_cons, List.not_mem_nil, or_false]
      tauto
    split
    · next same => exact same ▸ mismatch
    · next other =>
      split
      · next mem => exact ends (named.2 mem)
      · next apart => exact stays (mt named.1 apart) other

/-- Settles O44: the yaw runs by the outcome of the check; a schedule set afresh puts a bogie's records back, or makes its
reset due, where its timer stops; and a reset that is due comes between the pass's end and the next start, which does not read
what it puts back. -/
theorem yawRecordsMoveAndAreReset : Obligations.YawRecordsMoveAndAreReset :=
  ⟨yawCheckMovesTheRuns, bogiesLeavingTheScheduleAreReset, dueResetsFollowThePass⟩

end Sys2Proof.Machine
end

