-- ==== Sys2Proof/Proofs/PassReports.lean ====
section
/-!
SUPPORT. What the completion of a pass leaves of the counters, the peaks and the conditions (R126, R133, R137, R157, R162,
R173 to R175): settles O45.
-/
namespace Sys2Proof.Machine

variable {s t u : State} {p : Pass} {e : LaneEnd} {c d : Fin 8}

/-! ## Places in a counter set (R173, R175) -/

theorem counterOf_inj {k k' : ChannelCounter} : counterOf k c = counterOf k' d ↔ k = k' ∧ c = d := by
  have index : k.index = k'.index ↔ k = k' := by cases k <;> cases k' <;> decide
  rw [← index, counterOf, counterOf, Fin.mk.injEq, Fin.ext_iff, Fin.ext_iff]
  omega

theorem counterOf_ne_vehicleCounter (k : ChannelCounter) (c : Fin 8) (v : VehicleCounter) :
    counterOf k c ≠ vehicleCounter v := by
  rw [counterOf, vehicleCounter, ne_eq, Fin.mk.injEq]
  omega

theorem peakOffset_inj : peakOffset c = peakOffset d ↔ c = d := by
  rw [peakOffset, peakOffset, Fin.mk.injEq, Fin.ext_iff]
  omega

theorem peakError_inj : peakError c = peakError d ↔ c = d := by
  rw [peakError, peakError, Fin.mk.injEq, Fin.ext_iff]
  omega

theorem peakError_ne_peakOffset (c d : Fin 8) : peakError c ≠ peakOffset d := by
  rw [peakError, peakOffset, ne_eq, Fin.mk.injEq]
  omega

/-! ## Counts and peaks (R173, R175) -/

/-- A counter after an event that may have occurred (R173). -/
def countedUp (occurred : Bool) (n : Nat) : Nat := if occurred = true ∧ n < 65535 then n + 1 else n

@[simp] theorem countedUp_false (n : Nat) : countedUp false n = n := if_neg nofun

theorem countedUp_spec {occurred : Bool} {event : Prop} (h : occurred = true ↔ event) (n : Nat) :
    (event ∧ n < 65535 → countedUp occurred n = n + 1) ∧ (¬(event ∧ n < 65535) → countedUp occurred n = n) := by
  rw [← h]
  exact ⟨fun counts => if_pos counts, fun stays => if_neg stays⟩

/-- A peak after a candidate that may have been made (R175). -/
def peakAfter (made : Option Nat) (n : Nat) : Nat :=
  match made with
  | some candidate => max n (min 65535 candidate)
  | none => n

theorem countIf_counts (s : State) (b : Bool) (k j : Fin 52) : (s.countIf b k).monitor.live.counts[j] =
    if k = j then countedUp b s.monitor.live.counts[j] else s.monitor.live.counts[j] := by
  cases b with
  | false => simp [State.countIf]
  | true =>
    rw [State.countIf, if_pos rfl, State.count_counts]
    by_cases same : k = j
    · subst same
      simp [countedUp]
    · rw [if_neg same, if_neg fun h => same h.1]

/-- The live set with one counter up by one. -/
def CounterSet.up (l : CounterSet) (k : Fin 52) : CounterSet :=
  { l with counts := l.counts.set k.val (l.counts[k] + 1) k.isLt }

/-- Everything an event counted can do: nothing at 65,535, and COUNTER_SATURATED with the increment that reaches it (R173,
R174). -/
theorem count_cases (s : State) (k : Fin 52) :
    (65535 ≤ s.monitor.live.counts[k] ∧ s.count k = s) ∨
    (s.monitor.live.counts[k] < 65534 ∧ s.count k = s.setLive (s.monitor.live.up k)) ∨
    (s.monitor.live.counts[k] = 65534 ∧
      s.count k = (s.setLive (s.monitor.live.up k)).report (ofVehicle .counterSaturated) true) := by
  unfold State.count
  dsimp only
  split_ifs
  · exact .inr (.inr ⟨by omega, rfl⟩)
  · exact .inr (.inl ⟨by omega, rfl⟩)
  · exact .inl ⟨by omega, rfl⟩

theorem count_peaks (s : State) (k : Fin 52) : (s.count k).monitor.live.peaks = s.monitor.live.peaks := by
  rcases count_cases s k with ⟨-, same⟩ | ⟨-, up⟩ | ⟨-, up⟩
  · rw [same]
  · rw [up]; rfl
  · rw [up, State.report_live]; rfl

/-- A count leaves every condition but COUNTER_SATURATED (R174). -/
theorem count_present {i : Fin 48} (s : State) (k : Fin 52) (h : i ≠ ofVehicle .counterSaturated) :
    (s.count k).present i = s.present i := by
  rcases count_cases s k with ⟨-, same⟩ | ⟨-, up⟩ | ⟨-, up⟩
  · rw [same]
  · rw [up]; rfl
  · rw [up, State.report_present, if_neg (Ne.symm h)]; rfl

/-- COUNTER_SATURATED rises with the increment that brings a counter to 65,535 (R174). -/
theorem count_saturated (s : State) (k : Fin 52) : (s.count k).present (ofVehicle .counterSaturated) = true ↔
    s.present (ofVehicle .counterSaturated) = true ∨ s.monitor.live.counts[k] = 65534 := by
  rcases count_cases s k with ⟨full, same⟩ | ⟨below, up⟩ | ⟨last, up⟩
  · rw [same, or_iff_left (by omega)]
  · rw [up, or_iff_left (by omega)]; rfl
  · rw [up, State.report_present, if_pos rfl]
    exact iff_of_true rfl (.inr last)

theorem count_monitor (s : State) (k : Fin 52) : (s.count k).monitor = { s.monitor with
    live := (s.count k).monitor.live, conditions := (s.count k).monitor.conditions } := by
  rcases count_cases s k with ⟨-, same⟩ | ⟨-, up⟩ | ⟨-, up⟩
  · rw [same]
  · rw [up]; rfl
  · rw [up, State.report_monitor]; rfl

@[simp] theorem countIf_peaks (s : State) (b : Bool) (k : Fin 52) :
    (s.countIf b k).monitor.live.peaks = s.monitor.live.peaks := by
  cases b with
  | false => rfl
  | true => exact count_peaks s k

/-- A peak candidate offered where one is made. -/
def State.offerMade (s : State) (k : Fin 16) (made : Option Nat) : State :=
  match made with
  | some candidate => s.offerPeak k candidate
  | none => s

@[simp] theorem offerMade_counts (s : State) (k : Fin 16) (made : Option Nat) :
    (s.offerMade k made).monitor.live.counts = s.monitor.live.counts := by cases made <;> rfl

@[simp] theorem offerMade_present (s : State) (k : Fin 16) (made : Option Nat) (i : Fin 48) :
    (s.offerMade k made).present i = s.present i := by cases made <;> rfl

theorem offerMade_peaks (s : State) (k j : Fin 16) (made : Option Nat) : (s.offerMade k made).monitor.live.peaks[j] =
    if k = j then peakAfter made s.monitor.live.peaks[j] else s.monitor.live.peaks[j] := by
  cases made with
  | none => simp [State.offerMade, peakAfter]
  | some candidate =>
    have there : (s.offerPeak k candidate).monitor.live.peaks[j] = (s.monitor.live.peaks.set k.val _ k.isLt)[j] := rfl
    rw [State.offerMade, there, Fin.getElem_fin, Vector.getElem_set]
    by_cases same : k = j
    · subst same
      simp [peakAfter]
    · rw [if_neg (Fin.val_ne_of_ne same), if_neg same]
      rfl

theorem countIf_present {i : Fin 48} (s : State) (b : Bool) (k : Fin 52) (h : i ≠ ofVehicle .counterSaturated) :
    (s.countIf b k).present i = s.present i := by
  cases b with
  | false => rfl
  | true => exact count_present s k h

/-! ## COUNTER_SATURATED (R174) -/

/-- From one state to another counters have only counted up to 65,535, with COUNTER_SATURATED risen where one reached it,
and of the monitor only the live set and the conditions have changed. -/
structure Saturates (s t : State) : Prop where
  up : ∀ k : Fin 52, s.monitor.live.counts[k] ≤ t.monitor.live.counts[k]
  full : ∀ k : Fin 52, 65535 ≤ s.monitor.live.counts[k] → t.monitor.live.counts[k] = s.monitor.live.counts[k]
  saturated : t.present (ofVehicle .counterSaturated) = true ↔ s.present (ofVehicle .counterSaturated) = true ∨
    ∃ k : Fin 52, s.monitor.live.counts[k] < t.monitor.live.counts[k] ∧ t.monitor.live.counts[k] = 65535
  rest : t.monitor = { s.monitor with live := t.monitor.live, conditions := t.monitor.conditions }

theorem Saturates.of_counts (counts : t.monitor.live.counts = s.monitor.live.counts)
    (present : t.present (ofVehicle .counterSaturated) = s.present (ofVehicle .counterSaturated))
    (rest : t.monitor = { s.monitor with live := t.monitor.live, conditions := t.monitor.conditions }) : Saturates s t := by
  refine ⟨fun k => by rw [counts], fun k _ => by rw [counts], ?_, rest⟩
  rw [counts, present]
  exact (or_iff_left fun ⟨k, less, _⟩ => lt_irrefl _ less).symm

theorem Saturates.of_monitor (monitor : t.monitor = s.monitor) : Saturates s t :=
  .of_counts (by rw [monitor]) (by rw [State.present, monitor, State.present]) (by rw [monitor])

/-- A counter reaches 65,535 in one of two acts, and stays there. -/
theorem Saturates.trans (h : Saturates s t) (k : Saturates t u) : Saturates s u := by
  refine ⟨fun j => (h.up j).trans (k.up j), fun j full => ?_, ?_, by rw [k.rest, h.rest]⟩
  · have first := h.full j full
    exact (k.full j (first ▸ full)).trans first
  · rw [k.saturated, h.saturated, or_assoc, ← exists_or]
    refine or_congr_right (exists_congr fun j => ?_)
    have up := h.up j
    have up' := k.up j
    have full' := k.full j
    omega

theorem saturates_report {i : Fin 48} (s : State) (v : Bool) (h : i ≠ ofVehicle .counterSaturated) :
    Saturates s (s.report i v) :=
  .of_counts (by rw [State.report_live]) (by rw [State.report_present, if_neg h])
    (by rw [State.report_monitor])

theorem saturates_reportIf {i : Fin 48} (s : State) (v : Option Bool) (h : i ≠ ofVehicle .counterSaturated) :
    Saturates s (s.reportIf i v) := by
  cases v with
  | none => exact .of_monitor rfl
  | some v => exact saturates_report s v h

theorem saturates_offerMade (s : State) (k : Fin 16) (made : Option Nat) : Saturates s (s.offerMade k made) := by
  cases made with
  | none => exact .of_monitor rfl
  | some => exact .of_counts rfl rfl rfl

theorem saturates_count (s : State) (k : Fin 52) : Saturates s (s.count k) := by
  have own := s.count_counts k k
  have others (j : Fin 52) (apart : k ≠ j) : (s.count k).monitor.live.counts[j] = s.monitor.live.counts[j] :=
    (s.count_counts k j).trans (if_neg fun h => apart h.1)
  simp only [true_and] at own
  refine ⟨fun j => ?_, fun j full => ?_, (count_saturated s k).trans (or_congr_right ⟨fun last => ⟨k, ?_⟩, ?_⟩),
    count_monitor s k⟩
  · by_cases same : k = j
    · subst same
      split at own <;> omega
    · exact (others j same).ge
  · by_cases same : k = j
    · subst same
      rw [own, if_neg (Nat.not_lt.2 full)]
    · exact others j same
  · rw [if_pos (by omega)] at own
    omega
  · rintro ⟨j, less, reached⟩
    by_cases same : k = j
    · subst same
      split at own <;> omega
    · exact absurd (others j same) less.ne'

theorem saturates_countIf (s : State) (b : Bool) (k : Fin 52) : Saturates s (s.countIf b k) := by
  cases b with
  | false => exact .of_monitor rfl
  | true => exact saturates_count s k

/-! ## The supervision of a channel (R153, R156 to R158, R161) -/

/-- From one state to another nothing has been counted or offered, and of the conditions only those of a drive, TRACKING_ERROR
and CHANNEL_FAULT, have changed. -/
structure Uncounted (s t : State) : Prop where
  live : t.monitor.live = s.monitor.live
  present : ∀ i, (∀ d, i ≠ ofChannel .trackingError d) → (∀ d, i ≠ ofChannel .channelFault d) →
    t.present i = s.present i
  rest : t.monitor = { s.monitor with live := t.monitor.live, conditions := t.monitor.conditions }

theorem Uncounted.of_monitor (monitor : t.monitor = s.monitor) : Uncounted s t :=
  ⟨by rw [monitor], fun _ _ _ => by rw [State.present, monitor, State.present], by rw [monitor]⟩

theorem Uncounted.trans (h : Uncounted s t) (k : Uncounted t u) : Uncounted s u :=
  ⟨k.live.trans h.live, fun i tracking fault => (k.present i tracking fault).trans (h.present i tracking fault),
    by rw [k.rest, h.rest]⟩

theorem Uncounted.saturates (h : Uncounted s t) : Saturates s t :=
  .of_counts (by rw [h.live])
    (h.present _ (fun _ => ofVehicle_ne_ofChannel _ _ _) fun _ => ofVehicle_ne_ofChannel _ _ _) h.rest

theorem uncounted_report {i : Fin 48} (s : State) (v : Bool)
    (drive : i = ofChannel .trackingError c ∨ i = ofChannel .channelFault c) : Uncounted s (s.report i v) := by
  refine ⟨State.report_live .., fun j tracking fault => ?_, by rw [State.report_monitor]⟩
  rw [State.report_present, if_neg]
  rcases drive with rfl | rfl
  · exact (tracking c).symm
  · exact (fault c).symm

theorem uncounted_enterFault (s : State) (c : Fin 8) (k : FaultCause) : Uncounted s (s.enterFault c k) :=
  ((Uncounted.of_monitor (State.setChannel_monitor ..)).trans (uncounted_report (c := c) _ false (.inl rfl))).trans
    ((uncounted_report (c := c) _ true (.inr rfl)).trans (.of_monitor rfl))

theorem uncounted_settleOnce (s : State) (c : Fin 8) : Uncounted s (s.settleOnce c) := by
  rcases s.settleOnce_cases c with ⟨-, -, same⟩ | ⟨-, -, -, same⟩ | ⟨-, -, same⟩ | ⟨-, -, -, same⟩ | same <;> rw [same]
  · exact uncounted_enterFault s c .drive
  all_goals exact .of_monitor rfl

theorem uncounted_settle (s : State) (c : Fin 8) : Uncounted s (s.settle c) :=
  (uncounted_settleOnce s c).trans (uncounted_settleOnce (s.settleOnce c) c)

theorem uncounted_afterFound (s : State) (c : Fin 8) (found : Option FaultCause) (ends : LaneResult → Bool)
    (taken : Option LaneResult) : Uncounted s (s.afterFound c found ends taken) := by
  unfold State.afterFound
  split
  · exact uncounted_enterFault ..
  · split
    · split
      · exact (Uncounted.of_monitor (State.enterLocking_monitor s c .returnDone)).trans (uncounted_settle _ c)
      · exact .of_monitor rfl
    · exact .of_monitor rfl

/-- A channel moved by its supervision, with TRACKING_ERROR reported of it (R153, R156 to R158, R161). -/
def State.supervised (s : State) (c : Fin 8) (law : LawRecord) (stroke : Sample) (taken : Option LaneResult) : State :=
  let ch := s.channels.bank[c]
  let exceeded := exceeds law (comparison ch stroke)
  let moved := (s.setChannel c fun ch => ch.offered law stroke taken).afterFound c
    (faultFound law (ch.compare law stroke) exceeded) (fun x => ch.state = .returning ∧ returnEnds law x.output stroke) taken
  moved.report (ofChannel .trackingError c) (exceeded && decide (moved.channels.bank[c].state ≠ .fault))

theorem uncounted_supervised (s : State) (c : Fin 8) (law : LawRecord) (stroke : Sample) (taken : Option LaneResult) :
    Uncounted s (s.supervised c law stroke taken) :=
  ((Uncounted.of_monitor (State.setChannel_monitor ..)).trans (uncounted_afterFound ..)).trans
    (uncounted_report _ _ (.inl rfl))

/-- A supervision moves the channel, and then counts an error above the limit and offers the error that it formed (R157,
R175). -/
theorem supervise_eq (s : State) (c : Fin 8) (law : LawRecord) (stroke : Sample) (taken : Option LaneResult) :
    s.supervise c law stroke taken =
      ((s.supervised c law stroke taken).countIf (exceeds law (comparison s.channels.bank[c] stroke))
        (counterOf .trackingExceedPasses c)).offerMade (peakError c)
        ((comparison s.channels.bank[c] stroke).map Int.natAbs) := by
  cases taken <;>
  · unfold State.supervise State.supervised State.afterFound
    dsimp only
    generalize comparison s.channels.bank[c] stroke = error
    cases error <;> simp only [decide_eq_true_eq] <;> rfl

/-! ## A lane's end (R116, R156, R157) -/

/-- The tracking error that a lane's end forms (R157). -/
def LaneEnd.error (e : LaneEnd) (s : State) : Option Int := comparison s.channels.bank[e.channel] e.stroke

/-- The state in which a lane's end has moved its channel, before its counts. -/
def State.laneMoved (s : State) (e : LaneEnd) : State :=
  (s.setRecord e.channel fun _ => e.record).supervised e.channel e.read.law e.stroke e.taken

theorem finishLane_eq (s : State) (e : LaneEnd) : s.finishLane e =
    ((s.laneMoved e).countIf (exceeds e.read.law (e.error s)) (counterOf .trackingExceedPasses e.channel)).offerMade
      (peakError e.channel) ((e.error s).map Int.natAbs) :=
  supervise_eq (s.setRecord e.channel fun _ => e.record) ..

theorem uncounted_laneMoved (s : State) (e : LaneEnd) : Uncounted s (s.laneMoved e) :=
  (Uncounted.of_monitor (State.setRecord_monitor s e.channel fun _ => e.record)).trans (uncounted_supervised ..)

theorem finishLane_counts (s : State) (e : LaneEnd) (k : Fin 52) : (s.finishLane e).monitor.live.counts[k] =
    if counterOf .trackingExceedPasses e.channel = k then countedUp (exceeds e.read.law (e.error s)) s.monitor.live.counts[k]
    else s.monitor.live.counts[k] := by
  rw [finishLane_eq, offerMade_counts, countIf_counts, (uncounted_laneMoved s e).live]

theorem finishLane_peaks (s : State) (e : LaneEnd) (k : Fin 16) : (s.finishLane e).monitor.live.peaks[k] =
    if peakError e.channel = k then peakAfter ((e.error s).map Int.natAbs) s.monitor.live.peaks[k]
    else s.monitor.live.peaks[k] := by
  rw [finishLane_eq, offerMade_peaks, countIf_peaks, (uncounted_laneMoved s e).live]

/-- The conditions of a channel that a drive does not give stay at a lane's end (R165). -/
theorem finishLane_present (s : State) (e : LaneEnd) {k : ChannelCondition} (tracking : k ≠ .trackingError)
    (fault : k ≠ .channelFault) (c : Fin 8) : (s.finishLane e).present (ofChannel k c) = s.present (ofChannel k c) := by
  rw [finishLane_eq, offerMade_present, countIf_present _ _ _ (ofChannel_ne_ofVehicle _ _ _)]
  exact (uncounted_laneMoved s e).present _ (fun _ same => tracking (ofChannel_inj.1 same).1)
    fun _ same => fault (ofChannel_inj.1 same).1

theorem saturates_finishLane (s : State) (e : LaneEnd) : Saturates s (s.finishLane e) := by
  rw [finishLane_eq]
  exact (uncounted_laneMoved s e).saturates.trans ((saturates_countIf ..).trans (saturates_offerMade ..))

/-- A lane's end leaves the other channels as they are. -/
theorem finishLane_bank (s : State) (e : LaneEnd) (other : c ≠ e.channel) :
    (s.finishLane e).channels.bank[c] = s.channels.bank[c] := by
  obtain ⟨w, put, -, -⟩ := supervise_put (s.setRecord e.channel fun _ => e.record) e.channel e.read.law e.stroke e.taken
  have view : (s.finishLane e).picture.view c = s.picture.view c := by
    rw [State.finishLane, put, Picture.put_view_other other, picture_setRecord]
  exact congrArg ChannelView.ch view

/-! ## A lane's reports (R137) -/

/-- Whether a lane's result counts as a limited pass: any of its flags is set (R133). -/
def LaneEnd.limited (e : LaneEnd) : Bool :=
  match e.taken with
  | some x => x.flags.feedback || x.flags.angle || x.flags.rate || x.flags.stroke
  | none => false

/-- Whether a lane's result counts as a substituted pass (R125, R137). -/
def LaneEnd.substituted (e : LaneEnd) : Bool :=
  match e.taken with
  | some x => e.read.start = .steering && (x.substituted || e.lateralSubstituted)
  | none => false

/-- The change of STEER_LIMITED that a lane reports (R133, R172). -/
def LaneEnd.steerLimited (e : LaneEnd) (k : Criteria) : Option Bool :=
  match e.taken with
  | some x => Machine.steerLimited k x e.record
  | none => if e.read.start.givesZero then some false else none

/-- The candidate that a lane offers to its peak |y| (R175). -/
def LaneEnd.offset (e : LaneEnd) : Option Nat := if e.plausible then some e.gaps.offset.natAbs else none

/-- The events of a lane that its reports count (R137). -/
def LaneEnd.reports (e : LaneEnd) : ChannelCounter → Bool
  | .contact => e.judged.contact && !e.before.contact
  | .proximityPasses => e.judged.proximity
  | .limitedPasses => e.limited
  | .implausiblePasses => !e.plausible
  | .substitutedPasses => e.substituted
  | .trackingExceedPasses => false

/-- The state in which a lane's events have been counted. -/
def State.laneCounted (s : State) (e : LaneEnd) : State :=
  ((((s.countIf (e.reports .contact) (counterOf .contact e.channel)).countIf
    (e.reports .proximityPasses) (counterOf .proximityPasses e.channel)).countIf
    (e.reports .limitedPasses) (counterOf .limitedPasses e.channel)).countIf
    (e.reports .implausiblePasses) (counterOf .implausiblePasses e.channel)).countIf
    (e.reports .substitutedPasses) (counterOf .substitutedPasses e.channel)

/-- A lane's events are counted, its peak is offered, and its three conditions are reported, in this order (R137). -/
theorem reportLane_eq (s : State) (k : Criteria) (e : LaneEnd) : s.reportLane k e =
    ((((s.laneCounted e).offerMade (peakOffset e.channel) e.offset).report (ofChannel .flangeProximity e.channel)
      e.judged.proximity).report (ofChannel .lateralSensorFailed e.channel) (e.judged.health = .failed)).reportIf
      (ofChannel .steerLimited e.channel) (e.steerLimited k) := by
  unfold State.reportLane State.laneCounted LaneEnd.reports LaneEnd.limited LaneEnd.substituted LaneEnd.steerLimited
    LaneEnd.offset
  cases e.taken with
  | some x => cases e.plausible <;> rfl
  | none => cases e.plausible <;> cases e.read.start.givesZero <;> rfl

@[simp] theorem reportIf_live (s : State) (i : Fin 48) (v : Option Bool) :
    (s.reportIf i v).monitor.live = s.monitor.live := by
  cases v with
  | none => rfl
  | some v => exact s.report_live i v

theorem reportLane_counts (s : State) (k : Criteria) (e : LaneEnd) (kind : ChannelCounter) (c : Fin 8) :
    (s.reportLane k e).monitor.live.counts[counterOf kind c] =
      if e.channel = c then countedUp (e.reports kind) s.monitor.live.counts[counterOf kind c]
      else s.monitor.live.counts[counterOf kind c] := by
  rw [reportLane_eq, reportIf_live, State.report_live, State.report_live, offerMade_counts, State.laneCounted]
  simp only [countIf_counts, counterOf_inj]
  cases kind <;> simp [LaneEnd.reports]

theorem reportLane_vehicleCounts (s : State) (k : Criteria) (e : LaneEnd) (v : VehicleCounter) :
    (s.reportLane k e).monitor.live.counts[vehicleCounter v] = s.monitor.live.counts[vehicleCounter v] := by
  rw [reportLane_eq, reportIf_live, State.report_live, State.report_live, offerMade_counts, State.laneCounted]
  simp only [countIf_counts, counterOf_ne_vehicleCounter, if_false]

theorem reportLane_peaks (s : State) (k : Criteria) (e : LaneEnd) (j : Fin 16) :
    (s.reportLane k e).monitor.live.peaks[j] =
      if peakOffset e.channel = j then peakAfter e.offset s.monitor.live.peaks[j] else s.monitor.live.peaks[j] := by
  rw [reportLane_eq, reportIf_live, State.report_live, State.report_live, offerMade_peaks, State.laneCounted]
  simp only [countIf_peaks]

theorem laneCounted_present {i : Fin 48} (s : State) (e : LaneEnd) (h : i ≠ ofVehicle .counterSaturated) :
    (s.laneCounted e).present i = s.present i := by
  simp only [State.laneCounted, countIf_present _ _ _ h]

/-- What a lane reports of a condition of its channel, from whether it was present (R126, R133, R137). -/
def LaneEnd.shows (e : LaneEnd) (k : Criteria) (before : Bool) : ChannelCondition → Bool
  | .flangeProximity => e.judged.proximity
  | .lateralSensorFailed => decide (e.judged.health = .failed)
  | .steerLimited => (e.steerLimited k).getD before
  | .channelFault | .trackingError => before

theorem reportLane_present (s : State) (k : Criteria) (e : LaneEnd) (kind : ChannelCondition) (c : Fin 8) :
    (s.reportLane k e).present (ofChannel kind c) =
      if e.channel = c then e.shows k (s.present (ofChannel kind c)) kind else s.present (ofChannel kind c) := by
  have counted (kind : ChannelCondition) (c : Fin 8) :
      (s.laneCounted e).present (ofChannel kind c) = s.present (ofChannel kind c) :=
    laneCounted_present s e (ofChannel_ne_ofVehicle _ _ _)
  rw [reportLane_eq]
  simp only [State.reportIf_present, State.report_present, offerMade_present, counted, ofChannel_inj]
  by_cases own : e.channel = c
  · subst own
    cases kind <;> simp [LaneEnd.shows]
  · simp [own]

theorem saturates_reportLane (s : State) (k : Criteria) (e : LaneEnd) : Saturates s (s.reportLane k e) := by
  rw [reportLane_eq, State.laneCounted]
  have apart (kind : ChannelCondition) : ofChannel kind e.channel ≠ ofVehicle .counterSaturated :=
    ofChannel_ne_ofVehicle _ _ _
  exact ((((((((saturates_countIf ..).trans (saturates_countIf ..)).trans (saturates_countIf ..)).trans
    (saturates_countIf ..)).trans (saturates_countIf ..)).trans (saturates_offerMade ..)).trans
    (saturates_report _ _ (apart _))).trans (saturates_report _ _ (apart _))).trans (saturates_reportIf _ _ (apart _))

/-! ## Both lanes (R137) -/

/-- All events of a lane that the completion of its pass counts. -/
def LaneEnd.events (e : LaneEnd) (s : State) : ChannelCounter → Bool
  | .trackingExceedPasses => exceeds e.read.law (e.error s)
  | kind => e.reports kind

/-- The state at the end of a pass, with none in flight any more (R116). -/
def State.atEnd (s : State) (p : Pass) : State := (s.reach p.endsAt).setComputation fun k => { k with pass := none }

@[simp] theorem atEnd_monitor (s : State) (p : Pass) : (s.atEnd p).monitor = s.monitor := rfl

theorem lanesEnded_eq (s : State) (p : Pass) : s.lanesEnded p =
    ((((s.atEnd p).finishLane (s.endA p)).finishLane (s.endB p)).reportLane p.criteria (s.endA p)).reportLane p.criteria
      (s.endB p) := rfl

theorem endA_ne_endB (s : State) (p : Pass) : (s.endA p).channel ≠ (s.endB p).channel := channelA_ne_channelB _

theorem endA_error (s : State) (p : Pass) : (s.endA p).error (s.atEnd p) = (s.endA p).error s := rfl

/-- The second lane's channel still stands as it was when its end comes. -/
theorem endB_error (s : State) (p : Pass) :
    (s.endB p).error ((s.atEnd p).finishLane (s.endA p)) = (s.endB p).error s :=
  congrArg (comparison · (s.endB p).stroke) (finishLane_bank _ _ (endA_ne_endB s p).symm)

section Lanes
variable (mem : e ∈ [s.endA p, s.endB p])
include mem

/-- Each event of a lane is counted under its own counter, once (R137). -/
theorem lanesEnded_counts (kind : ChannelCounter) : (s.lanesEnded p).monitor.live.counts[counterOf kind e.channel] =
    countedUp (e.events s kind) s.monitor.live.counts[counterOf kind e.channel] := by
  have apart := endA_ne_endB s p
  rw [lanesEnded_eq, reportLane_counts, reportLane_counts, finishLane_counts, finishLane_counts, endB_error, endA_error]
  simp only [counterOf_inj, atEnd_monitor]
  rcases List.mem_pair.1 mem with rfl | rfl
  · cases kind <;> simp [LaneEnd.events, LaneEnd.reports, apart.symm]
  · cases kind <;> simp [LaneEnd.events, LaneEnd.reports, apart]

theorem lanesEnded_peakOffset : (s.lanesEnded p).monitor.live.peaks[peakOffset e.channel] =
    peakAfter e.offset s.monitor.live.peaks[peakOffset e.channel] := by
  have apart := endA_ne_endB s p
  rw [lanesEnded_eq, reportLane_peaks, reportLane_peaks, finishLane_peaks, finishLane_peaks]
  simp only [peakOffset_inj, peakError_ne_peakOffset, if_false, atEnd_monitor]
  rcases List.mem_pair.1 mem with rfl | rfl
  · simp [apart.symm]
  · simp [apart]

theorem lanesEnded_peakError : (s.lanesEnded p).monitor.live.peaks[peakError e.channel] =
    peakAfter ((e.error s).map Int.natAbs) s.monitor.live.peaks[peakError e.channel] := by
  have apart := endA_ne_endB s p
  rw [lanesEnded_eq, reportLane_peaks, reportLane_peaks, finishLane_peaks, finishLane_peaks, endB_error, endA_error]
  simp only [peakError_inj, (peakError_ne_peakOffset _ _).symm, if_false, atEnd_monitor]
  rcases List.mem_pair.1 mem with rfl | rfl
  · simp [apart.symm]
  · simp [apart]

/-- What both lanes leave present of a lane's conditions, but for those of the drive. -/
theorem lanesEnded_present {kind : ChannelCondition} (tracking : kind ≠ .trackingError) (fault : kind ≠ .channelFault) :
    (s.lanesEnded p).present (ofChannel kind e.channel) = e.shows p.criteria (s.present (ofChannel kind e.channel)) kind := by
  have apart := endA_ne_endB s p
  have before (c : Fin 8) : (((s.atEnd p).finishLane (s.endA p)).finishLane (s.endB p)).present (ofChannel kind c) =
      s.present (ofChannel kind c) :=
    (finishLane_present _ _ tracking fault c).trans (finishLane_present _ _ tracking fault c)
  rw [lanesEnded_eq, reportLane_present, reportLane_present, before]
  rcases List.mem_pair.1 mem with rfl | rfl
  · rw [if_neg apart.symm, if_pos rfl]
  · rw [if_pos rfl, if_neg apart]

end Lanes

/-- The counters and peaks of the channels of other bogies, and the vehicle's counters, stay. -/
theorem lanesEnded_others (s : State) (p : Pass) :
    (∀ c : Fin 8, bogieOf c ≠ p.sample.bogie →
      (∀ k : ChannelCounter, (s.lanesEnded p).monitor.live.counts[counterOf k c] = s.monitor.live.counts[counterOf k c]) ∧
      (s.lanesEnded p).monitor.live.peaks[peakOffset c] = s.monitor.live.peaks[peakOffset c] ∧
      (s.lanesEnded p).monitor.live.peaks[peakError c] = s.monitor.live.peaks[peakError c]) ∧
    ∀ k : VehicleCounter, (s.lanesEnded p).monitor.live.counts[vehicleCounter k] =
      s.monitor.live.counts[vehicleCounter k] := by
  rw [lanesEnded_eq]
  refine ⟨fun c other => ?_, fun k => ?_⟩
  · have first : (s.endA p).channel ≠ c := fun same => other (bogieOf_eq_iff.2 (.inl same.symm))
    have second : (s.endB p).channel ≠ c := fun same => other (bogieOf_eq_iff.2 (.inr same.symm))
    refine ⟨fun k => ?_, ?_, ?_⟩
    · rw [reportLane_counts, reportLane_counts, finishLane_counts, finishLane_counts]
      simp [counterOf_inj, first, second]
    · rw [reportLane_peaks, reportLane_peaks, finishLane_peaks, finishLane_peaks]
      simp [peakOffset_inj, peakError_ne_peakOffset, first, second]
    · rw [reportLane_peaks, reportLane_peaks, finishLane_peaks, finishLane_peaks]
      simp [peakError_inj, (peakError_ne_peakOffset _ _).symm, first, second]
  · rw [reportLane_vehicleCounts, reportLane_vehicleCounts, finishLane_counts, finishLane_counts]
    simp only [counterOf_ne_vehicleCounter, if_false, atEnd_monitor]

theorem saturates_lanesEnded (s : State) (p : Pass) : Saturates s (s.lanesEnded p) := by
  rw [lanesEnded_eq]
  have atEnd : Saturates s (s.atEnd p) := .of_monitor rfl
  exact (((atEnd.trans (saturates_finishLane ..)).trans (saturates_finishLane ..)).trans (saturates_reportLane ..)).trans
    (saturates_reportLane ..)

/-! ## The yaw record, the reset and the next start (R114, R136) -/

/-- After both lanes a completion changes conditions alone: GEOMETRY_MISMATCH, and those of a reset that is due. -/
theorem completePass_reports (inFlight : s.computation.pass = some p) :
    s.completePass.monitor =
      { (s.lanesEnded p).monitor with conditions := s.completePass.monitor.conditions } ∧
    ∀ i, i ≠ ofVehicle .geometryMismatch → (p.resetAfter = true → ¬Ending (· = p.sample.bogie) i) →
      s.completePass.present i = (s.lanesEnded p).present i := by
  have starts (u : State) : u.startPass.monitor = u.monitor := (startPass_keepsRecords u).2.1
  have ended : (s.passEnded p).monitor = _ := setYaw_monitor ..
  have shown (i : Fin 48) (other : i ≠ ofVehicle .geometryMismatch) :
      (s.passEnded p).present i = (s.lanesEnded p).present i :=
    congrArg ConditionRecord.present (setYaw_condition _ _ _ other)
  simp only [State.present] at shown ⊢
  cases due : p.resetAfter with
  | false =>
    have completed : s.completePass = (s.passEnded p).startPass := completePass_of_unreset inFlight due
    rw [completed, starts]
    exact ⟨ended, fun i other _ => shown i other⟩
  | true =>
    rw [completePass_of_due inFlight due, starts]
    refine ⟨by rw [resetBogie_monitor, ended], fun i other stays => ?_⟩
    rw [(resetBogie_condition _ _ i).2 (stays rfl), setYaw_condition _ _ _ other, shown i other]

/-! ## The events by their rules (R125, R133, R157, R172) -/

theorem ChannelState.supervised_iff {x : ChannelState} :
    x.supervised = true ↔ x = .steering ∨ x = .holding ∨ x = .returning := by
  cases x <;> simp [ChannelState.supervised]

/-- An error is formed of a supervised channel with a valid stroke (R157). -/
theorem comparison_eq (ch : Channel) (x : Sample) : comparison ch x =
    if (ch.state = .steering ∨ ch.state = .holding ∨ ch.state = .returning) ∧ x.valid = true
    then some (x.value - ch.demand) else none := by
  rw [comparison]
  exact if_congr ((Bool.and_eq_true ..).to_iff.trans (and_congr_left' ChannelState.supervised_iff)) rfl rfl

theorem exceeds_comparison_iff {law : LawRecord} {ch : Channel} {x : Sample} : exceeds law (comparison ch x) = true ↔
    ((ch.state = .steering ∨ ch.state = .holding ∨ ch.state = .returning) ∧ x.valid = true) ∧
      law.trackingLimit < (x.value - ch.demand).natAbs := by
  rw [comparison_eq]
  split
  · next compared => exact decide_eq_true_iff.trans (and_iff_right compared).symm
  · next apart => exact iff_of_false nofun fun h => apart h.1

theorem LaneEnd.limited_iff : e.limited = true ↔ ∃ x, e.taken = some x ∧
    (x.flags.feedback = true ∨ x.flags.angle = true ∨ x.flags.rate = true ∨ x.flags.stroke = true) := by
  rw [LaneEnd.limited]
  cases e.taken <;> simp [or_assoc]

theorem LaneEnd.substituted_iff : e.substituted = true ↔ ∃ x, e.taken = some x ∧
    (e.read.start = .steering ∧ (x.substituted = true ∨ e.judged.health = .failed)) := by
  rw [LaneEnd.substituted, LaneEnd.lateralSubstituted]
  cases e.taken <;> simp

/-- STEER_LIMITED after a taken result, by the runs after it (R133, R172). -/
theorem steerLimited_take (k : Criteria) (x : LaneResult) (r : ComputationRecord) (before : Bool) :
    (steerLimited k x (r.take x)).getD before =
      if x.flags.angle = true ∨ x.flags.stroke = true then (before || decide (k.limitRaise ≤ min 255 (r.limitedRun + 1)))
      else (before && decide (min 255 (r.unlimitedRun + 1) < k.limitClear)) := by
  have either : (x.flags.angle || x.flags.stroke) = true ↔ x.flags.angle = true ∨ x.flags.stroke = true :=
    (Bool.or_eq_true ..).to_iff
  by_cases limited : x.flags.angle = true ∨ x.flags.stroke = true
  · have run : (r.take x).limitedRun = min 255 (r.limitedRun + 1) := if_pos (either.2 limited)
    rw [if_pos limited, ← run, steerLimited, if_pos (either.2 limited)]
    by_cases raised : k.limitRaise ≤ (r.take x).limitedRun <;> simp [raised]
  · have run : (r.take x).unlimitedRun = min 255 (r.unlimitedRun + 1) := if_neg (mt either.1 limited)
    rw [if_neg limited, ← run, steerLimited, if_neg (mt either.1 limited)]
    by_cases cleared : k.limitClear ≤ (r.take x).unlimitedRun
    · rw [if_pos cleared, decide_eq_false (Nat.not_lt.2 cleared), Bool.and_false, Option.getD_some]
    · rw [if_neg cleared, decide_eq_true (Nat.not_le.1 cleared), Bool.and_true, Option.getD_none]

/-! ## The obligation -/

theorem completionCountsItsEvents (mem : e ∈ [s.endA p, s.endB p]) (kind : ChannelCounter) {event : Prop}
    (occurs : e.events s kind = true ↔ event) :
    let n := s.monitor.live.counts[counterOf kind e.channel]
    let n' := (s.lanesEnded p).monitor.live.counts[counterOf kind e.channel]
    (event ∧ n < 65535 → n' = n + 1) ∧ (¬(event ∧ n < 65535) → n' = n) := by
  dsimp only
  rw [lanesEnded_counts mem]
  exact countedUp_spec occurs _

theorem completionOffersItsOffset (mem : e ∈ [s.endA p, s.endB p]) {plausible : Prop} (h : e.plausible = true ↔ plausible) :
    let n := s.monitor.live.peaks[peakOffset e.channel]
    let n' := (s.lanesEnded p).monitor.live.peaks[peakOffset e.channel]
    (plausible → n' = max n (min 65535 e.gaps.offset.natAbs)) ∧ (¬plausible → n' = n) := by
  dsimp only
  rw [← h, lanesEnded_peakOffset mem, LaneEnd.offset]
  exact ⟨fun made => by rw [if_pos made]; rfl, fun none => by rw [if_neg none]; rfl⟩

theorem completionOffersItsError (mem : e ∈ [s.endA p, s.endB p]) :
    let ch := s.channels.bank[e.channel]
    let compared := (ch.state = .steering ∨ ch.state = .holding ∨ ch.state = .returning) ∧ e.stroke.valid = true
    let n := s.monitor.live.peaks[peakError e.channel]
    let n' := (s.lanesEnded p).monitor.live.peaks[peakError e.channel]
    (compared → n' = max n (min 65535 (e.stroke.value - ch.demand).natAbs)) ∧ (¬compared → n' = n) := by
  dsimp only
  rw [lanesEnded_peakError mem, LaneEnd.error, comparison_eq]
  exact ⟨fun made => by rw [if_pos made]; rfl, fun none => by rw [if_neg none]; rfl⟩

/-- STEER_LIMITED as a lane shows it: by the runs of a taken result, ended by a zero result, else as it was (R117, R133,
R172). -/
theorem steerLimited_shows (mem : e ∈ [s.endA p, s.endB p]) (k : Criteria) (before : Bool) :
    e.shows k before .steerLimited = match e.taken with
      | some x => if x.flags.angle = true ∨ x.flags.stroke = true then
          (before || decide (k.limitRaise ≤ min 255 (e.before.limitedRun + 1)))
        else (before && decide (min 255 (e.before.unlimitedRun + 1) < k.limitClear))
      | none => match e.read.start with
        | .locking | .locked | .unlocking | .fault => false
        | .steering | .holding | .returning => before := by
  have runs : e.judged.limitedRun = e.before.limitedRun ∧ e.judged.unlimitedRun = e.before.unlimitedRun := by
    rcases List.mem_pair.1 mem with rfl | rfl <;> exact ⟨rfl, rfl⟩
  obtain ⟨limited, unlimited⟩ := runs
  rw [LaneEnd.shows, LaneEnd.steerLimited, LaneEnd.record]
  cases e.taken with
  | some x => rw [← limited, ← unlimited]; exact steerLimited_take ..
  | none => cases e.read.start <;> rfl

/-- Settles O45: each lane counts and offers under places of its own, its reports stand where its channel's conditions are,
and what comes after both lanes touches GEOMETRY_MISMATCH and the conditions of a reset that is due alone. -/
theorem passCompletionReportsToTheMonitor : Obligations.PassCompletionReportsToTheMonitor := by
  intro s p running inFlight
  refine ⟨s.completePass, congrArg Host.Outcome.next (State.whileRunning_of_running running _), ?_⟩
  obtain ⟨monitor, shown⟩ := completePass_reports inFlight
  have live : s.completePass.monitor.live = (s.lanesEnded p).monitor.live := by rw [monitor]
  have after : Saturates (s.lanesEnded p) s.completePass := .of_counts (by rw [live])
    (shown _ (by rw [ne_eq, ofVehicle_inj]; decide) fun _ ends => ends.ne_ofVehicle _ rfl) (by rw [monitor])
  have saturates := (saturates_lanesEnded s p).trans after
  obtain ⟨others, vehicle⟩ := lanesEnded_others s p
  dsimp only
  rw [live]
  refine ⟨fun e mem => ?_, others, vehicle, live ▸ saturates.saturated, live ▸ saturates.rest⟩
  have plausible : e.plausible = true ↔ e.gaps.left.valid = true ∧ e.gaps.right.valid = true ∧
    ∀ w, e.read.clearance = some w → (e.gaps.left.value + e.gaps.right.value - w).natAbs ≤ e.read.law.sumTolerance :=
    Gaps.plausible_iff
  have present (kind : ChannelCondition) (tracking : kind ≠ .trackingError) (fault : kind ≠ .channelFault)
      (stays : p.resetAfter = true → ¬Ending (· = p.sample.bogie) (ofChannel kind e.channel)) :
      s.completePass.present (ofChannel kind e.channel) =
        e.shows p.criteria (s.present (ofChannel kind e.channel)) kind :=
    (shown _ (ofChannel_ne_ofVehicle _ _ _) stays).trans (lanesEnded_present mem tracking fault)
  refine ⟨completionCountsItsEvents mem .contact ?_, completionCountsItsEvents mem .proximityPasses Iff.rfl,
    completionCountsItsEvents mem .implausiblePasses ?_, completionCountsItsEvents mem .limitedPasses LaneEnd.limited_iff,
    completionCountsItsEvents mem .substitutedPasses LaneEnd.substituted_iff,
    completionCountsItsEvents mem .trackingExceedPasses exceeds_comparison_iff, completionOffersItsOffset mem plausible,
    completionOffersItsError mem,
    fun unreset => ⟨present .flangeProximity nofun nofun ?_, present .lateralSensorFailed nofun nofun ?_⟩,
    (present .steerLimited nofun nofun ?_).trans (steerLimited_shows mem ..)⟩
  · exact (Bool.and_eq_true ..).to_iff.trans (and_congr_right' (Bool.not_eq_true' _).to_iff)
  · rw [← plausible]
    exact (Bool.not_eq_true' _).to_iff.trans Bool.eq_false_iff
  · exact fun due => absurd (unreset.symm.trans due) nofun
  · exact fun due => absurd (unreset.symm.trans due) nofun
  · rintro - ⟨k, -, named⟩
    rcases named with named | named <;> cases (ofChannel_inj.1 named).1

end Sys2Proof.Machine
end

