-- ==== Sys2Proof/Proofs/ChannelMoves.lean ====
section
/-!
SUPPORT. One channel moved and its N.CHAN queued, the levels of its lines acted on, and what the lock timer and a change of
a line make of it (R143 to R146, R160): settles O50.
-/
namespace Sys2Proof.Machine

variable {s t u : State} {c d : Fin 8} {ch ch' : Channel} {before before' : ChannelState} {event event' : ChannelEvent}

/-! ## One channel moved (R160) -/

/-- An N.CHAN stands in the queue that it joined (R195). -/
theorem State.mem_notifyChannel (s : State) (c : Fin 8) (before : ChannelState) (event : ChannelEvent) :
    .channel c before event (s.channelStatus c) ∈ (s.notifyChannel c before event).link.notices :=
  mem_queueNotice (fun m => by cases m <;> rfl) _

/-- A waiting notice of another kind or subject than the one that joins stays (R195). -/
theorem mem_queueNotice_other {m n : Notice} {l : List Notice} (h : n ∈ l) (apart : n.sameSubject m = false) :
    n ∈ queueNotice m l := by
  induction l with
  | nil => cases h
  | cons k rest ih =>
    rw [queueNotice]
    rcases List.mem_cons.1 h with rfl | h
    · rw [apart]
      exact List.mem_cons_self
    · split
      · exact List.mem_cons_of_mem _ h
      · exact List.mem_cons_of_mem _ (ih h)

/-- So do the N.CHAN of the other channels. -/
theorem State.mem_notifyChannel_other {b : ChannelState} {k : ChannelEvent} {x : ChannelStatus}
    (h : .channel d b k x ∈ s.link.notices) (apart : d ≠ c) :
    .channel d b k x ∈ (s.notifyChannel c before event).link.notices :=
  mem_queueNotice_other h (decide_eq_false apart)

/-- From `s` to `t` one channel has moved, told by its N.CHAN, and the N.CHAN of the others still wait; besides, only the
monitor and the notices may have changed. -/
structure ChannelMoves (s t : State) (c : Fin 8) (ch : Channel) (before : ChannelState) (event : ChannelEvent) : Prop where
  rest : t = { s with
    monitor := t.monitor, link := { s.link with notices := t.link.notices }
    channels := { s.channels with bank := s.channels.bank.set c.val ch c.isLt } }
  told : .channel c before event (t.channelStatus c) ∈ t.link.notices
  others : ∀ d b k x, d ≠ c → .channel d b k x ∈ s.link.notices → .channel d b k x ∈ t.link.notices

theorem ChannelMoves.bank (h : ChannelMoves s t c ch before event) (d : Fin 8) :
    t.channels.bank[d] = if d = c then ch else s.channels.bank[d] := by
  rw [h.rest]
  exact bank_set ..

/-- Of two moves of one channel, the second gives the channel and its notice. -/
theorem ChannelMoves.trans (h : ChannelMoves s t c ch before event) (k : ChannelMoves t u c ch' before' event') :
    ChannelMoves s u c ch' before' event' := by
  refine ⟨?_, k.told, fun d b e x apart waits => k.others d b e x apart (h.others d b e x apart waits)⟩
  have last := k.rest
  rw [h.rest] at last
  simpa only [Vector.set_set] using last

/-- A channel changed, and the N.CHAN of its change. -/
theorem channelMoves_notifyChannel (s : State) (c : Fin 8) (f : Channel → Channel) (before : ChannelState)
    (event : ChannelEvent) :
    ChannelMoves s ((s.setChannel c f).notifyChannel c before event) c (f s.channels.bank[c]) before event :=
  ⟨rfl, State.mem_notifyChannel .., fun _ _ _ _ apart waits => State.mem_notifyChannel_other waits apart⟩

theorem enterLocked_moves (s : State) (c : Fin 8) (e : ChannelEvent) :
    ChannelMoves s (s.enterLocked c e) c s.channels.bank[c].toLocked s.channels.bank[c].state e :=
  channelMoves_notifyChannel ..

theorem enterLocking_moves (s : State) (c : Fin 8) (e : ChannelEvent) :
    ChannelMoves s (s.enterLocking c e) c (s.channels.bank[c].toLocking (s.lockDeadline c)) s.channels.bank[c].state e :=
  channelMoves_notifyChannel ..

theorem enterReturning_moves (s : State) (c : Fin 8) (e : ChannelEvent) :
    ChannelMoves s (s.enterReturning c e) c s.channels.bank[c].toReturning s.channels.bank[c].state e :=
  channelMoves_notifyChannel ..

/-- The entry into STEERING from UNLOCKING writes the channel's computation record besides (R109, R144). -/
theorem enterSteering_moves (s : State) (c : Fin 8) :
    ChannelMoves (s.setRecord c fun r => { r with filter := 0, output := 0, held := 0, substituted := false })
      (s.enterSteering c) c { s.channels.bank[c].toSteering with demand := 0 } s.channels.bank[c].state .lockReleased :=
  channelMoves_notifyChannel ..

/-- A channel that enters FAULT (R146, R161). -/
theorem enterFault_moves (s : State) (c : Fin 8) (k : FaultCause) :
    let t := s.enterFault c k
    ChannelMoves s t c (s.channels.bank[c].toFault k) s.channels.bank[c].state .fault ∧
      t.monitor = { s.monitor with conditions := t.monitor.conditions } ∧
      t.present (ofChannel .channelFault c) = true ∧ t.present (ofChannel .trackingError c) = false := by
  have judged : (s.setChannel c (Channel.toFault k)).Judged (s.enterFault c k) :=
    State.Judged.trans (State.Judged.trans (State.judged_report ..) (State.judged_report ..)) rfl
  have counted := uncounted_enterFault s c k
  have view : (s.enterFault c k).view c = ⟨s.channels.bank[c].toFault k, true, false⟩ :=
    (congrFun (congrArg Picture.view (picture_enterFault k)) c).trans Picture.put_view_same
  unfold State.Judged at judged
  rw [State.enterFault_computation] at judged
  have others (d : Fin 8) (b : ChannelState) (e : ChannelEvent) (x : ChannelStatus) (apart : d ≠ c)
      (waits : .channel d b e x ∈ s.link.notices) : .channel d b e x ∈ (s.enterFault c k).link.notices :=
    have other : ∀ risen fallen, Notice.channel d b e x ≠ .condition risen fallen := by simp
    State.mem_notifyChannel_other
      ((State.mem_report_notices other _ _).2 ((State.mem_report_notices other _ _).2 waits)) apart
  exact ⟨⟨judged, State.mem_notifyChannel .., others⟩, counted.rest.trans (by rw [counted.live]),
    congrArg ChannelView.fault view, congrArg ChannelView.tracking view⟩

/-! ## The levels acted on, by the state (R144, R145) -/

theorem settle_unmoved (h : LevelTaken s.lines.drive[c] s.channels.bank[c].state) : s.settle c = s :=
  State.settle_of_settleOnce (State.settleOnce_of_levelTaken h)

theorem settleOnce_of_fault (h : s.channels.bank[c].state.faultable = true) (fault : s.lines.drive[c].driveFault = true) :
    s.settleOnce c = s.enterFault c .drive := if_pos ⟨h, fault⟩

/-- A true drive fault takes a channel to FAULT, and it stays there (R145). -/
theorem settle_of_fault (h : s.channels.bank[c].state.faultable = true) (fault : s.lines.drive[c].driveFault = true) :
    s.settle c = s.enterFault c .drive := by
  have once := settleOnce_of_fault h fault
  rw [State.settle_of_levelTaken, once]
  rw [once, (enterFault_moves s c .drive).1.bank, if_pos rfl]
  trivial

/-- A channel in LOCKING goes to FAULT by a true drive fault, else to LOCKED by a true lock engaged (R144, R145). -/
theorem settle_of_locking (state : s.channels.bank[c].state = .locking) : s.settle c =
    if s.lines.drive[c].driveFault then s.enterFault c .drive
    else if s.lines.drive[c].lockEngaged then s.enterLocked c .lockEngaged else s := by
  cases fault : s.lines.drive[c].driveFault with
  | true => exact settle_of_fault (by rw [state]; rfl) fault
  | false =>
    cases engaged : s.lines.drive[c].lockEngaged with
    | true =>
      have once : s.settleOnce c = s.enterLocked c .lockEngaged := by
        simp [State.settleOnce, fault, state, engaged, -Fin.getElem_fin]
      rw [State.settle_of_levelTaken, once]
      · rfl
      · rw [once, (enterLocked_moves s c .lockEngaged).bank, if_pos rfl]
        exact engaged
    | false => exact settle_unmoved (by rw [state]; exact ⟨engaged, fault⟩)

/-- A channel in LOCKED whose lock is lost goes to LOCKING, and on to FAULT by a true drive fault (R144, R145). -/
theorem settle_of_lost (state : s.channels.bank[c].state = .locked) (lost : s.lines.drive[c].lockEngaged = false) :
    s.settle c = if s.lines.drive[c].driveFault then (s.enterLocking c .lockLost).enterFault c .drive
      else s.enterLocking c .lockLost := by
  have once : s.settleOnce c = s.enterLocking c .lockLost := by
    simp [State.settleOnce, state, lost, ChannelState.faultable, -Fin.getElem_fin]
  have locking : (s.enterLocking c .lockLost).channels.bank[c].state = .locking :=
    congrArg Channel.state (changeAt_same ..)
  rw [State.settle, once]
  split
  · next fault => exact settleOnce_of_fault (s := s.enterLocking c .lockLost) (by rw [locking]; rfl) fault
  · next sound =>
    refine State.settleOnce_of_levelTaken ?_
    rw [locking]
    exact ⟨lost, Bool.eq_false_iff.2 sound⟩

/-- A channel in UNLOCKING whose lock has been released goes to STEERING (R144). -/
theorem settle_of_released (state : s.channels.bank[c].state = .unlocking) (sound : s.lines.drive[c].driveFault = false)
    (released : s.lines.drive[c].lockEngaged = false) : s.settle c = s.enterSteering c := by
  have once : s.settleOnce c = s.enterSteering c := by
    simp [State.settleOnce, state, sound, released, -Fin.getElem_fin]
  have steering : (s.enterSteering c).channels.bank[c].state = .steering := congrArg Channel.state (changeAt_same ..)
  rw [State.settle_of_levelTaken, once]
  rw [once, steering]
  exact sound

/-! ## The lock timer (R143) -/

theorem lockTimerExpiryFaults : Claims.LockTimerExpiryFaults := by
  intro s c running
  have expires : exec (.lockTimerExpiry c) s = .next (s.lockExpiry c) :=
    congrArg Host.Outcome.next (State.whileRunning_of_running running _)
  refine ⟨fun stopped => ?_, fun at_ runs waits => ?_⟩
  · rw [expires, State.lockExpiry, stopped]
  · have timed : s.channels.bank[c].state.timed = true := by rcases waits with state | state <;> rw [state] <;> rfl
    have faults : s.lockExpiry c = (s.reach at_).enterFault c .lockTimeout := by
      rw [State.lockExpiry, runs]
      exact if_pos timed
    obtain ⟨moves, monitor, fault, tracking⟩ := enterFault_moves (s.reach at_) c .lockTimeout
    rw [← faults] at moves monitor fault tracking
    have rest := moves.rest
    rw [monitor] at rest
    exact ⟨_, expires, fault, tracking, moves.told, rest⟩

/-! ## The lines of a channel (R144, R145) -/

/-- A channel's lines after their change. -/
theorem setLines_drive (s : State) (c : Fin 8) (f : DriveLines → DriveLines) :
    (s.setLines c f).lines.drive[c] = f s.lines.drive[c] := changeAt_same ..

theorem lockEngagedLineMovesTheChannel : Claims.LockEngagedLineMovesTheChannel := by
  intro s c level running taken
  have levels := (levelsTaken_iff s).1 taken running c
  let u := s.setLines c fun l => { l with lockEngaged := level }
  have drive : u.lines.drive[c] = { s.lines.drive[c] with lockEngaged := level } := setLines_drive ..
  have engaged : u.lines.drive[c].lockEngaged = level := congrArg DriveLines.lockEngaged drive
  have fault : u.lines.drive[c].driveFault = s.lines.drive[c].driveFault := (congrArg DriveLines.driveFault drive).trans rfl
  refine ⟨u.settle c, congrArg Host.Outcome.next (State.whileRunning_of_running (s := u) running _),
    State.settle_lines .., ?_⟩
  have unmoved (h : LevelTaken u.lines.drive[c] s.channels.bank[c].state) :
      u.settle c = { s with lines := (u.settle c).lines } := by
    rw [settle_unmoved (s := u) h]
    rfl
  rw [LevelTaken.eq_def] at unmoved levels
  rw [engaged, fault] at unmoved
  dsimp only
  cases state : s.channels.bank[c].state with
  | locking =>
    rw [state] at levels unmoved
    cases level with
    | true =>
      obtain ⟨rest, told, -⟩ := enterLocked_moves u c .lockEngaged
      rw [settle_of_locking (s := u) state, fault, levels.2, engaged]
      rw [show u.channels.bank[c].state = .locking from state] at told
      exact ⟨rest, told⟩
    | false => exact unmoved ⟨rfl, levels.2⟩
  | locked =>
    rw [state] at unmoved
    cases level with
    | true => exact unmoved rfl
    | false =>
      rw [settle_of_lost (s := u) state engaged, fault]
      have locking := enterLocking_moves u c .lockLost
      cases faulty : s.lines.drive[c].driveFault with
      | true =>
        obtain ⟨moves, -, present, -⟩ := enterFault_moves (u.enterLocking c .lockLost) c .drive
        have bank := moves.bank c
        have told := moves.told
        rw [locking.bank, if_pos rfl] at told
        rw [if_pos rfl] at bank
        simp only [if_true]
        rw [bank]
        exact ⟨rfl, rfl, rfl, rfl, present, told⟩
      | false =>
        obtain ⟨rest, told, -⟩ := locking
        rw [show u.channels.bank[c].state = .locked from state] at told
        exact ⟨rest, told⟩
  | unlocking =>
    rw [state] at levels unmoved
    cases level with
    | true => exact unmoved ⟨rfl, levels.2⟩
    | false =>
      obtain ⟨rest, told, -⟩ := enterSteering_moves u c
      rw [settle_of_released (s := u) state (fault.trans levels.2) engaged]
      rw [show u.channels.bank[c].state = .unlocking from state] at told
      exact ⟨rest, told⟩
  | steering | holding | returning | fault =>
    rw [state] at levels unmoved
    exact unmoved levels

theorem ChannelState.faultable_iff {x : ChannelState} : x.faultable = true ↔ x ≠ .locked ∧ x ≠ .fault := by
  cases x <;> decide

/-- A change of the drive's lines calls for no move without a true drive fault in a state that it acts on (R145). -/
theorem LevelTaken.of_faultChange {l : DriveLines} {x : ChannelState} {fault ready : Bool} (h : LevelTaken l x)
    (stays : ¬(fault = true ∧ x.faultable = true)) : LevelTaken { l with driveFault := fault, driveReady := ready } x := by
  cases fault with
  | false =>
    cases x with
    | locking | unlocking => exact ⟨h.1, rfl⟩
    | steering | holding | returning => exact rfl
    | locked | fault => exact h
  | true =>
    cases x with
    | locked | fault => exact h
    | locking | unlocking | steering | holding | returning => exact absurd ⟨rfl, rfl⟩ stays

theorem driveFaultLineFaultsTheChannel : Claims.DriveFaultLineFaultsTheChannel := by
  intro s c fault ready running taken
  have levels := (levelsTaken_iff s).1 taken running c
  let u := s.setLines c fun l => { l with driveFault := fault, driveReady := ready }
  have drive : u.lines.drive[c] = { s.lines.drive[c] with driveFault := fault, driveReady := ready } := setLines_drive ..
  refine ⟨u.settle c, congrArg Host.Outcome.next (State.whileRunning_of_running (s := u) running _),
    State.settle_lines .., ?_⟩
  dsimp only
  split
  · next faults =>
    obtain ⟨rfl, state⟩ := faults
    obtain ⟨moves, monitor, present, tracking⟩ := enterFault_moves u c .drive
    have rest := moves.rest
    rw [monitor] at rest
    rw [settle_of_fault (s := u) (ChannelState.faultable_iff.2 state) (by rw [drive]), State.enterFault_lines]
    exact ⟨present, tracking, moves.told, rest⟩
  · next stays =>
    rw [settle_unmoved (s := u)]
    · rfl
    · rw [drive]
      refine levels.of_faultChange ?_
      rwa [ChannelState.faultable_iff]

/-- Settles O50: a lock timer's expiry is an entry into FAULT, and a change of a line writes its level and then acts on it,
once or twice, by the state that the channel stands in. -/
theorem linesAndTimersMoveTheChannel : Obligations.LinesAndTimersMoveTheChannel :=
  ⟨lockTimerExpiryFaults, lockEngagedLineMovesTheChannel, driveFaultLineFaultsTheChannel⟩

end Sys2Proof.Machine
end

