-- ==== Sys2Proof/Proofs/ChannelRequests.lean ====
section
/-!
SUPPORT. The requests that move a channel and the permit (R147 to R152, R154, R155): settles O47, O48 and O49.
-/
namespace Sys2Proof.Machine

variable {s t u : State} {r : Frame} {c d : Fin 8} {ch : Channel} {before : ChannelState} {event e : ChannelEvent}

/-! ## CH.* requests taken and refused (R147) -/

/-- The first check of a CH.* request. -/
theorem channelRequest_cons (holds : Bool) (x : Reason) (rest : List (Bool × Reason)) (act : State → State) (c : Fin 8)
    (s : State) : channelRequest (firstReason ((holds, x) :: rest)) act c s =
      if holds = false then (s, s.channelAnswer c .badState x) else channelRequest (firstReason rest) act c s := by
  cases holds <;> rfl

/-- With no check left, the request is taken. -/
theorem channelRequest_nil (act : State → State) (c : Fin 8) (s : State) :
    channelRequest (firstReason []) act c s = (act s, (act s).channelAnswer c .ok .none) := rfl

section Taken
variable {kind : Byte} {act : List Byte → State → State × Answer}

/-- A request taken whose act changes the channels, the monitor and the notices alone. -/
theorem serveAct_channels {mine fits : List Byte → Bool} {st : Status} {fields : List Byte} (taken : s.canTake r)
    (kinds : r.kind = kind) (fit : fits r.body = true) (rows : mine r.body = true)
    (own : act r.body s.popRequest = (u, ⟨st, fields⟩))
    (rest : u = { s.popRequest with
      monitor := u.monitor, link := { s.popRequest.link with notices := u.link.notices }, channels := u.channels }) :
    let t := s.serveAct kind mine fits act
    s.answered t r st fields ∧ t.link.notices = u.link.notices ∧ (∀ c, t.channelStatus c = u.channelStatus c) ∧
      t.monitor = u.monitor ∧ t = { s with link := t.link, monitor := u.monitor, channels := u.channels } := by
  have link : u.link = { s.popRequest.link with notices := u.link.notices } := by rw [rest]
  have shape (l : LinkState) : { u with link := l } =
      { s with link := l, monitor := u.monitor, channels := u.channels } := by rw [rest]; rfl
  rw [State.serveAct_taken taken kinds fit rows, own]
  refine ⟨?_, rfl, fun _ => rfl, rfl, shape _⟩
  show { u.link with replies := u.link.replies ++ [replyOf r st u.summary fields] } = _
  rw [link]
  rfl

/-- A CH.* request taken, where its act moves the channel. -/
theorem channelMoves_answered (taken : s.canTake r) (kinds : r.kind = kind) (length : r.body.length = 1)
    (own : act r.body s.popRequest = (u, u.channelAnswer c .ok .none))
    (moves : ChannelMoves s.popRequest u c ch before event) :
    let t := s.serveAct kind anyBody (lengthIs 1) act
    s.answered t r .ok (0 :: (t.channelStatus c).encode) ∧
      .channel c before event (t.channelStatus c) ∈ t.link.notices ∧ t.monitor = u.monitor ∧
      t = { s with link := t.link, monitor := u.monitor,
                   channels := { s.channels with bank := s.channels.bank.set c.val ch c.isLt } } := by
  have channels : u.channels = { s.channels with bank := s.channels.bank.set c.val ch c.isLt } := by rw [moves.rest]; rfl
  obtain ⟨answered, notices, status, monitor, rest⟩ :=
    serveAct_channels (mine := anyBody) taken kinds (lengthIs_of_eq length) rfl own (by rw [channels]; exact moves.rest)
  dsimp only
  rw [channels] at rest
  rw [status, notices]
  exact ⟨answered, moves.told, monitor, rest⟩

/-- The same, where the act reports no condition. -/
theorem channelMoves_answered_unreported (taken : s.canTake r) (kinds : r.kind = kind) (length : r.body.length = 1)
    (own : act r.body s.popRequest = (u, u.channelAnswer c .ok .none))
    (moves : ChannelMoves s.popRequest u c ch before event) (monitor : u.monitor = s.monitor) :
    let t := s.serveAct kind anyBody (lengthIs 1) act
    s.answered t r .ok (0 :: (t.channelStatus c).encode) ∧
      .channel c before event (t.channelStatus c) ∈ t.link.notices ∧
      t = { s with link := t.link,
                   channels := { s.channels with bank := s.channels.bank.set c.val ch c.isLt } } := by
  obtain ⟨answered, told, -, rest⟩ := channelMoves_answered taken kinds length own moves
  rw [monitor] at rest
  exact ⟨answered, told, rest⟩

/-- A CH.* request refused for a reason. -/
theorem channelRequest_onlyAnswers {x : Reason} {st : Status} (taken : s.canTake r) (kinds : r.kind = kind)
    (length : r.body.length = 1) (own : act r.body s.popRequest = (s.popRequest, s.popRequest.channelAnswer c st x)) :
    s.onlyAnswers (s.serveAct kind anyBody (lengthIs 1) act) r st (u8 x.code :: (s.channelStatus c).encode) :=
  State.onlyAnswers_of_owner taken kinds (lengthIs_of_eq length) rfl own

end Taken

/-! ## CH.UNLOCK (R148, R149) -/

/-- A channel in LOCKED with no drive fault is released, and stays in UNLOCKING while its lock is home (R144, R149). -/
theorem unlock_moves (state : s.channels.bank[c].state = .locked) (engaged : s.lines.drive[c].lockEngaged = true)
    (sound : s.lines.drive[c].driveFault = false) :
    ChannelMoves s (s.unlock c) c (s.channels.bank[c].toUnlocking (s.lockDeadline c)) .locked .unlock ∧
      (s.unlock c).monitor = s.monitor := by
  have moves := channelMoves_notifyChannel s c (Channel.toUnlocking (s.lockDeadline c)) .locked .unlock
  have settled : s.unlock c =
      (s.setChannel c (Channel.toUnlocking (s.lockDeadline c))).notifyChannel c .locked .unlock := by
    rw [State.unlock, state]
    refine settle_unmoved ?_
    rw [moves.bank, if_pos rfl]
    exact ⟨engaged, sound⟩
  rw [settled]
  exact ⟨moves, rfl⟩

/-- CH.UNLOCK on a channel, by its first failing check (R148, R149). -/
theorem ownChUnlock_eq {body : List Byte} (named : fieldU body 0 1 = c.val) (s : State) :
    ownChUnlock body s.popRequest =
      let u := s.popRequest
      if s.vehicle = none then (u, u.channelAnswer c .noVehicle .none)
      else if s.channels.bank[c].state ≠ .locked then (u, u.channelAnswer c .badState .state)
      else if s.channels.permit = false then (u, u.channelAnswer c .badState .permitOff)
      else if s.tracker.state = .unlocated then (u, u.channelAnswer c .badState .unlocated)
      else if s.vehicleView.bogieCount ≤ c.val / 2 then (u, u.channelAnswer c .badState .notConfigured)
      else if s.complete (bogieOf c) = false then (u, u.channelAnswer c .badState .incomplete)
      else if s.lines.drive[c].driveReady = false then (u, u.channelAnswer c .badState .driveNotReady)
      else if s.lines.drive[c].driveFault = true then (u, u.channelAnswer c .badState .driveFault)
      else (u.unlock c, (u.unlock c).channelAnswer c .ok .none) := by
  have configured (u : State) : u.configured (bogieOf c) = decide (c.val / 2 < u.vehicleView.bogieCount) := rfl
  rw [ownChUnlock, named, channelOf?_val]
  simp only [State.unlockReason, channelRequest_cons, channelRequest_nil, configured, Option.isNone_iff_eq_none,
    decide_eq_false_iff_not, not_not, not_lt, Bool.not_eq_false', ne_eq]
  rfl

/-- Settles O47: the checks in their order, and a channel that passes them is released with its lock still home. -/
theorem chUnlockChecksAndReleases : Obligations.ChUnlockChecksAndReleases := by
  intro s r c levels taken kind length named
  have own := ownChUnlock_eq named s
  refine ⟨_, rfl, ?_⟩
  dsimp only
  split_ifs at own ⊢ with absent state permit located count complete ready fault
  case neg =>
    have locked := not_not.1 state
    have engaged : s.lines.drive[c].lockEngaged = true := by
      have level := (levelsTaken_iff s).1 levels taken.1 c
      rw [locked] at level
      exact level
    obtain ⟨moves, monitor⟩ := unlock_moves (s := s.popRequest) locked engaged (Bool.eq_false_iff.2 fault)
    exact channelMoves_answered_unreported taken kind length own moves monitor
  all_goals exact channelRequest_onlyAnswers taken kind length own

/-! ## CH.HOLD, CH.RESUME and CH.RETURN (R150 to R152) -/

theorem ownChHold_eq {body : List Byte} (named : fieldU body 0 1 = c.val) (s : State) : ownChHold body s =
    if s.channels.bank[c].state ≠ .steering then (s, s.channelAnswer c .badState .state)
    else (s.hold c, (s.hold c).channelAnswer c .ok .none) := by
  rw [ownChHold, named, channelOf?_val]
  simp only [channelRequest_cons, channelRequest_nil, decide_eq_false_iff_not, ne_eq]

theorem ownChResume_eq {body : List Byte} (named : fieldU body 0 1 = c.val) (s : State) : ownChResume body s =
    if s.channels.bank[c].state ≠ .holding then (s, s.channelAnswer c .badState .state)
    else (s.resume c, (s.resume c).channelAnswer c .ok .none) := by
  rw [ownChResume, named, channelOf?_val]
  simp only [channelRequest_cons, channelRequest_nil, decide_eq_false_iff_not, ne_eq]

theorem ChannelState.returnable_iff {x : ChannelState} :
    x.returnable = true ↔ (x = .steering ∨ x = .holding) ∨ x = .unlocking := by cases x <;> decide

theorem ownChReturn_eq {body : List Byte} (named : fieldU body 0 1 = c.val) (s : State) : ownChReturn body s =
    if s.channels.bank[c].state.returnable = false then (s, s.channelAnswer c .badState .state)
    else (s.bringBack .returnTaken c, (s.bringBack .returnTaken c).channelAnswer c .ok .none) := by
  rw [ownChReturn, named, channelOf?_val]
  simp only [channelRequest_cons, channelRequest_nil]

/-- A channel in STEERING or HOLDING is brought back by its return (R152, R155). -/
theorem bringBack_of_supervised (state : s.channels.bank[c].state = .steering ∨ s.channels.bank[c].state = .holding)
    (e : ChannelEvent) : s.bringBack e c = s.enterReturning c e := by
  unfold State.bringBack
  rcases state with state | state <;> rw [state]

/-- A channel in UNLOCKING is brought back to LOCKING, where the lock, still home, makes it LOCKED at once (R144, R152,
R155). -/
theorem bringBack_of_unlocking (state : s.channels.bank[c].state = .unlocking)
    (home : s.lines.drive[c].lockEngaged = true) (sound : s.lines.drive[c].driveFault = false) (e : ChannelEvent) :
    ChannelMoves s (s.bringBack e c) c s.channels.bank[c].toLocked .locking .lockEngaged ∧
      (s.bringBack e c).monitor = s.monitor := by
  have locking := enterLocking_moves s c e
  have bank : (s.enterLocking c e).channels.bank[c] = s.channels.bank[c].toLocking (s.lockDeadline c) :=
    (locking.bank c).trans (if_pos rfl)
  have locked := enterLocked_moves (s.enterLocking c e) c .lockEngaged
  rw [bank] at locked
  have brought : s.bringBack e c = (s.enterLocking c e).enterLocked c .lockEngaged := by
    unfold State.bringBack
    rw [state]
    dsimp only
    rw [settle_of_locking (by rw [bank]; rfl), State.enterLocking_lines, sound, home]
    rfl
  rw [brought]
  exact ⟨locking.trans locked, rfl⟩

theorem holdResumeReturnKeepTheDemand : Claims.HoldResumeReturnKeepTheDemand := by
  intro s r c row after event member taken kind length named
  simp only [List.mem_cons, List.not_mem_nil, or_false, Prod.mk.injEq] at member
  rcases member with ⟨rfl, rfl, rfl⟩ | ⟨rfl, rfl, rfl⟩ | ⟨rfl, rfl, rfl⟩
  · have own := ownChHold_eq named s.popRequest
    refine ⟨_, rfl, fun fits => ?_, fun misfits _ => ?_⟩
    · exact channelMoves_answered_unreported taken kind length (own.trans (if_neg (not_not.2 fits)))
        (channelMoves_notifyChannel ..) rfl
    · exact channelRequest_onlyAnswers taken kind length (own.trans (if_pos misfits))
  · have own := ownChResume_eq named s.popRequest
    refine ⟨_, rfl, fun fits => ?_, fun misfits _ => ?_⟩
    · exact channelMoves_answered_unreported taken kind length (own.trans (if_neg (not_not.2 fits)))
        (channelMoves_notifyChannel ..) rfl
    · exact channelRequest_onlyAnswers taken kind length (own.trans (if_pos misfits))
  · have own := ownChReturn_eq named s.popRequest
    refine ⟨_, rfl, fun fits => ?_, fun misfits unreleased => ?_⟩
    · have returnable := ChannelState.returnable_iff.2 (.inl fits)
      rw [if_neg (by simp only [State.popRequest_channels, returnable, Bool.true_eq_false, not_false_eq_true]),
        bringBack_of_supervised (s := s.popRequest) fits] at own
      exact channelMoves_answered_unreported taken kind length own (enterReturning_moves ..) rfl
    · have stuck : ¬_ := mt ChannelState.returnable_iff.1 (not_or.2 ⟨misfits, unreleased rfl⟩)
      exact channelRequest_onlyAnswers taken kind length (own.trans (if_pos (Bool.eq_false_iff.2 stuck)))

theorem returnAbandonsTheRelease : Claims.ReturnAbandonsTheRelease := by
  intro s r c levels taken kind length named state
  have level := (levelsTaken_iff s).1 levels taken.1 c
  rw [state] at level
  have own := ownChReturn_eq named s.popRequest
  rw [if_neg (by rw [State.popRequest_channels, state]; decide)] at own
  obtain ⟨moves, monitor⟩ := bringBack_of_unlocking (s := s.popRequest) state level.1 level.2 .returnTaken
  exact ⟨_, rfl, channelMoves_answered_unreported taken kind length own moves monitor⟩

/-! ## CH.CLEAR (R154) -/

theorem ownChClear_eq {body : List Byte} (named : fieldU body 0 1 = c.val) (s : State) :
    ownChClear body s.popRequest =
      let u := s.popRequest
      if s.channels.bank[c].state ≠ .fault then (u, u.channelAnswer c .badState .state)
      else if s.lines.drive[c].driveFault = true then (u, u.channelAnswer c .badState .driveFault)
      else if s.lines.drive[c].lockEngaged = false then (u, u.channelAnswer c .badState .lockNotEngaged)
      else (u.clearFault c, (u.clearFault c).channelAnswer c .ok .none) := by
  rw [ownChClear, named, channelOf?_val]
  simp only [State.clearReason, channelRequest_cons, channelRequest_nil, decide_eq_false_iff_not, Bool.not_eq_false', ne_eq]
  rfl

/-- A report that a condition is absent leaves its latch (R165). -/
theorem report_false_monitor (s : State) (i : Fin 48) : (s.report i false).monitor = { s.monitor with
    conditions := s.monitor.conditions.set i.val { s.monitor.conditions[i] with present := false } i.isLt } := by
  have banks : (s.report i false).monitor.conditions =
      s.monitor.conditions.set i.val { s.monitor.conditions[i] with present := false } i.isLt := by
    refine Vector.ext fun j hj => ?_
    have after := s.report_condition i ⟨j, hj⟩ false
    simp only [Bool.false_and, Bool.or_false] at after
    refine after.trans ?_
    rw [Vector.getElem_set]
    exact if_congr Fin.ext_iff rfl rfl
  rw [State.report_monitor, banks]

theorem clearFault_moves (state : s.channels.bank[c].state = .fault) :
    let i := ofChannel .channelFault c
    ChannelMoves s (s.clearFault c) c s.channels.bank[c].toLocked .fault .clear ∧
      (s.clearFault c).monitor = { s.monitor with
        conditions := s.monitor.conditions.set i.val { s.monitor.conditions[i] with present := false } i.isLt } := by
  have cleared : s.clearFault c =
      ((s.setChannel c Channel.toLocked).report (ofChannel .channelFault c) false).notifyChannel c .fault .clear := by
    rw [State.clearFault, state]
  have judged : (s.setChannel c Channel.toLocked).Judged (s.clearFault c) := by
    rw [cleared]
    exact State.Judged.trans (State.judged_report ..) rfl
  have computation : (s.clearFault c).computation = s.computation := by
    rw [cleared]
    exact State.report_computation ..
  unfold State.Judged at judged
  rw [computation] at judged
  refine ⟨⟨judged, ?_, fun d b k x apart waits => ?_⟩, ?_⟩ <;> rw [cleared]
  · exact State.mem_notifyChannel ..
  · exact State.mem_notifyChannel_other ((State.mem_report_notices (by simp) _ _).2 waits) apart
  · exact report_false_monitor ..

theorem chClearEndsTheFault : Claims.ChClearEndsTheFault := by
  intro s r c taken kind length named
  have own := ownChClear_eq named s
  refine ⟨_, rfl, ?_⟩
  dsimp only
  split_ifs at own ⊢ with state fault home
  case neg =>
    obtain ⟨moves, monitor⟩ := clearFault_moves (s := s.popRequest) (not_not.1 state)
    obtain ⟨answered, told, same, rest⟩ := channelMoves_answered taken kind length own moves
    exact ⟨answered, told, same.trans monitor, by rw [same]; exact rest⟩
  all_goals exact channelRequest_onlyAnswers taken kind length own

/-! ## The channel number (R147, R206) -/

theorem channelNumberIsChecked : Claims.ChannelNumberIsChecked := by
  intro row s r member taken kind length beyond
  have none := channelOf?_none beyond
  have only {act : List Byte → State → State × Answer} (own : act r.body s.popRequest = (s.popRequest, noChannel)) :
      s.onlyAnswers (s.serveAct row.2 anyBody (lengthIs 1) act) r .outOfRange (List.replicate 24 0) :=
    State.onlyAnswers_of_owner taken kind (lengthIs_of_eq length) rfl own
  simp only [List.mem_cons, List.not_mem_nil, or_false] at member
  rcases member with rfl | rfl | rfl | rfl | rfl
  · exact ⟨_, rfl, only (by rw [ownChUnlock, none])⟩
  · exact ⟨_, rfl, only (by rw [ownChHold, none])⟩
  · exact ⟨_, rfl, only (by rw [ownChResume, none])⟩
  · exact ⟨_, rfl, only (by rw [ownChReturn, none])⟩
  · exact ⟨_, rfl, only (by rw [ownChClear, none])⟩

/-- Settles O48: each request by its checks, and what it makes of its channel where it is taken. -/
theorem channelRequestsMoveTheChannel : Obligations.ChannelRequestsMoveTheChannel :=
  ⟨channelNumberIsChecked, holdResumeReturnKeepTheDemand, returnAbandonsTheRelease, chClearEndsTheFault⟩

/-! ## The permit (R155) -/

/-- What a channel becomes when the permit goes OFF. -/
def Channel.broughtBack (ch : Channel) : Channel :=
  match ch.state with
  | .unlocking => ch.toLocked
  | .steering | .holding => ch.toReturning
  | .locking | .locked | .returning | .fault => ch

/-- The state before and the event in the N.CHAN of a channel brought back, by the state it stands in. -/
def ChannelState.toldBack (event : ChannelEvent) : ChannelState → Option (ChannelState × ChannelEvent)
  | .unlocking => some (.locking, .lockEngaged)
  | .steering => some (.steering, event)
  | .holding => some (.holding, event)
  | .locking | .locked | .returning | .fault => none

/-- From `s` to `t` the listed channels have been brought back, and the N.CHAN of each that moved waits. -/
structure BroughtBack (event : ChannelEvent) (s t : State) (l : List (Fin 8)) : Prop where
  rest : t = { s with
    link := { s.link with notices := t.link.notices }, channels := { s.channels with bank := t.channels.bank } }
  bank : ∀ c : Fin 8, t.channels.bank[c] = if c ∈ l then s.channels.bank[c].broughtBack else s.channels.bank[c]
  told : ∀ c ∈ l, ∀ b k, s.channels.bank[c].state.toldBack event = some (b, k) →
    .channel c b k (t.channelStatus c) ∈ t.link.notices
  others : ∀ d b k x, d ∉ l → .channel d b k x ∈ s.link.notices → .channel d b k x ∈ t.link.notices

theorem BroughtBack.nil (event : ChannelEvent) (s : State) : BroughtBack event s s [] :=
  ⟨rfl, fun _ => rfl, nofun, fun _ _ _ _ _ => id⟩

/-- A channel that is not brought back shows the same status. -/
theorem BroughtBack.channelStatus {l : List (Fin 8)} (h : BroughtBack e s t l) (stays : c ∉ l) :
    t.channelStatus c = s.channelStatus c := by
  have bank := (h.bank c).trans (if_neg stays)
  have shape := h.rest
  generalize t.channels.bank = v at bank shape
  rw [shape]
  simp only [State.channelStatus, State.lockRemaining, State.driveEnable, State.lockRelease, bank]

theorem BroughtBack.cons {l : List (Fin 8)} (h : BroughtBack e s t [c]) (k : BroughtBack e t u l) (new : c ∉ l) :
    BroughtBack e s u (c :: l) := by
  have first (d : Fin 8) : t.channels.bank[d] = if d = c then s.channels.bank[d].broughtBack else s.channels.bank[d] := by
    simpa only [List.mem_singleton] using h.bank d
  refine ⟨?_, fun d => ?_, fun d mem b x moved => ?_, fun d b x y apart waits => ?_⟩
  · have second := k.rest
    rw [h.rest] at second
    exact second
  · rw [k.bank, first]
    by_cases own : d = c
    · rw [if_neg (own ▸ new), if_pos own, if_pos (List.mem_cons.2 (.inl own))]
    · rw [if_neg own]
      exact if_congr (List.mem_cons.trans (or_iff_right own)).symm rfl rfl
  · rcases List.mem_cons.1 mem with rfl | mem
    · rw [k.channelStatus new]
      exact k.others _ _ _ _ new (h.told d (List.mem_singleton_self d) b x moved)
    · have apart : d ≠ c := fun own => new (own ▸ mem)
      refine k.told d mem b x ?_
      rw [first, if_neg apart]
      exact moved
  · obtain ⟨other, rest⟩ := List.ne_and_not_mem_of_not_mem_cons apart
    exact k.others _ _ _ _ rest (h.others _ _ _ _ (by simpa using other) waits)

/-- A channel that moved as it is brought back. -/
theorem ChannelMoves.broughtBack {b : ChannelState} {k : ChannelEvent}
    (h : ChannelMoves s t c s.channels.bank[c].broughtBack b k) (monitor : t.monitor = s.monitor)
    (told : s.channels.bank[c].state.toldBack e = some (b, k)) : BroughtBack e s t [c] := by
  refine ⟨?_, fun d => ?_, fun d mem b' k' moved => ?_, fun d _ _ _ apart => h.others _ _ _ _ (by simpa using apart)⟩
  · have shape := h.rest
    rw [monitor] at shape
    have bank : t.channels.bank = _ := congrArg (·.channels.bank) shape
    rw [bank]
    exact shape
  · rw [h.bank]
    by_cases own : d = c
    · rw [if_pos own, if_pos (List.mem_singleton.2 own), own]
    · rw [if_neg own, if_neg (mt List.mem_singleton.1 own)]
  · obtain rfl := List.mem_singleton.1 mem
    obtain ⟨rfl, rfl⟩ := Prod.mk.inj (Option.some.inj (told.symm.trans moved))
    exact h.told

/-- One channel with its levels taken is brought back (R144, R155). -/
theorem bringBack_broughtBack (taken : LevelTaken s.lines.drive[c] s.channels.bank[c].state) (e : ChannelEvent) :
    BroughtBack e s (s.bringBack e c) [c] := by
  have stays (same : s.bringBack e c = s) (still : s.channels.bank[c].broughtBack = s.channels.bank[c])
      (untold : s.channels.bank[c].state.toldBack e = none) : BroughtBack e s (s.bringBack e c) [c] := by
    rw [same]
    refine ⟨rfl, fun d => ?_, fun d mem b k moved => ?_, fun _ _ _ _ _ => id⟩
    · split_ifs with mem
      · rw [List.mem_singleton.1 mem, still]
      · rfl
    · rw [List.mem_singleton.1 mem, untold] at moved
      cases moved
  have returns (state : s.channels.bank[c].state = .steering ∨ s.channels.bank[c].state = .holding) :
      BroughtBack e s (s.bringBack e c) [c] := by
    have moves := enterReturning_moves s c e
    rw [bringBack_of_supervised state]
    refine ChannelMoves.broughtBack (b := s.channels.bank[c].state) (k := e) ?_ rfl ?_
    · have back : s.channels.bank[c].broughtBack = s.channels.bank[c].toReturning := by
        unfold Channel.broughtBack
        rcases state with state | state <;> rw [state]
      rwa [back]
    · rcases state with state | state <;> rw [state] <;> rfl
  cases state : s.channels.bank[c].state with
  | unlocking =>
    rw [state] at taken
    obtain ⟨moves, monitor⟩ := bringBack_of_unlocking state taken.1 taken.2 e
    refine ChannelMoves.broughtBack ?_ monitor (by rw [state]; rfl)
    have back : s.channels.bank[c].broughtBack = s.channels.bank[c].toLocked := by rw [Channel.broughtBack, state]
    rwa [back]
  | steering => exact returns (.inl state)
  | holding => exact returns (.inr state)
  | locking | locked | returning | fault =>
    exact stays (by rw [State.bringBack, state]) (by rw [Channel.broughtBack, state]) (by rw [state]; rfl)

/-- Channels with their levels taken are brought back one after the other. -/
theorem broughtBack_foldl (e : ChannelEvent) {l : List (Fin 8)} (distinct : l.Nodup) (s : State)
    (taken : ∀ c ∈ l, LevelTaken s.lines.drive[c] s.channels.bank[c].state) :
    BroughtBack e s (l.foldl (fun s c => s.bringBack e c) s) l := by
  induction l generalizing s with
  | nil => exact .nil e s
  | cons c rest ih =>
    obtain ⟨new, distinct⟩ := List.nodup_cons.1 distinct
    have here := bringBack_broughtBack (taken c List.mem_cons_self) e
    refine here.cons (ih distinct _ fun d mem => ?_) new
    have apart : d ∉ [c] := fun own => new (List.mem_singleton.1 own ▸ mem)
    rw [State.bringBack_lines, here.bank, if_neg apart]
    exact taken d (List.mem_cons_of_mem c mem)

/-- The permit goes OFF (R155). -/
theorem permitOff_broughtBack (on : s.channels.permit = true)
    (taken : ∀ c : Fin 8, LevelTaken s.lines.drive[c] s.channels.bank[c].state) :
    BroughtBack .permitOff (s.setPermit false) s.permitOff allChannels := by
  rw [State.permitOff, if_pos on]
  exact broughtBack_foldl _ (by decide) _ fun c _ => taken c

/-- Settles O49: ON changes the permit alone, and OFF brings back one channel after the other, each by moves that leave the
others and their notices. -/
theorem permitSetMovesTheChannels : Obligations.PermitSetMovesTheChannels := by
  intro s r levels taken kind length
  have fits := lengthIs_of_eq length
  have on (code : fieldU r.body 0 1 ≠ 0) : (!permitsOff r.body) = true := by rw [permitsOff, decide_eq_false code]; rfl
  refine ⟨fun code => ⟨_, rfl, ?_⟩, fun code => ⟨_, rfl, ?_⟩, fun code => ⟨_, rfl, fun off => ?_, fun granted => ?_⟩⟩
  · have own : ownPermitSetOn r.body s.popRequest = (s.popRequest.setPermit true, .plain .ok) := if_pos code
    rw [State.serveAct_taken taken kind fits (on (by omega)), own]
    exact ⟨⟨rfl, rfl⟩, rfl⟩
  · exact State.onlyAnswers_of_owner taken kind fits (on (by omega)) (if_neg (by omega))
  · have unmoved : s.popRequest.permitOff = s.popRequest := if_neg (ne_true_of_eq_false off)
    exact State.onlyAnswers_of_owner taken kind fits (decide_eq_true code) (by rw [ownPermitSetOff, unmoved]; rfl)
  · obtain ⟨rest, bank, told, -⟩ :=
      permitOff_broughtBack (s := s.popRequest) granted ((levelsTaken_iff s).1 levels taken.1)
    have own : ownPermitSetOff r.body s.popRequest = (s.popRequest.permitOff, .plain .ok) := rfl
    generalize s.popRequest.permitOff = u at rest bank told own
    have permit : u.channels.permit = false := by rw [rest]; rfl
    have monitor : u.monitor = s.monitor := by rw [rest]; rfl
    have channels : u.channels = { s.channels with permit := false, bank := u.channels.bank } := by rw [← permit]
    obtain ⟨answered, notices, status, -, shape⟩ := serveAct_channels (mine := permitsOff) taken kind fits
      (decide_eq_true code) own
      (by rw [channels, monitor]; exact rest)
    have same : (s.serveAct 0x40 permitsOff (lengthIs 1) ownPermitSetOff).channels = u.channels := by rw [shape]
    refine ⟨answered, same ▸ permit, by rw [same]; rw [monitor] at shape; exact shape, fun c => ?_⟩
    have stands : u.channels.bank[c] = s.channels.bank[c].broughtBack := (bank c).trans (if_pos (mem_allChannels c))
    have waits (b : ChannelState) (k : ChannelEvent) (moved : s.channels.bank[c].state.toldBack .permitOff = some (b, k)) :
        .channel c b k (u.channelStatus c) ∈ u.link.notices := told c (mem_allChannels c) b k moved
    rw [Channel.broughtBack] at stands
    rw [same, notices, status]
    cases state : s.channels.bank[c].state <;> rw [state] at stands waits
    case unlocking | steering | holding => exact ⟨stands, waits _ _ rfl⟩
    all_goals exact stands

end Sys2Proof.Machine
end

