-- ==== Sys2Proof/Proofs/PassSupervision.lean ====
section
/-!
SUPPORT. What the completion of a pass makes of a channel (R153, R156 to R158, R161): settles O43.
-/
namespace Sys2Proof.Machine

variable {s t u : State} {p : Pass} {e : LaneEnd} {c d : Fin 8} {v : ChannelView} {law : LawRecord} {stroke : Sample}
  {taken : Option LaneResult}

/-! ## The view after step 4 (R146, R153) -/

/-- A channel whose return has ended: in LOCKING, and on from there by the levels of its lines (R144, R145, R153). -/
def ChannelView.returned (v : ChannelView) (l : DriveLines) (deadline : Nat) : ChannelView :=
  if l.driveFault then ⟨(v.ch.toLocking deadline).toFault .drive, true, false⟩
  else if l.lockEngaged then { v with ch := (v.ch.toLocking deadline).toLocked }
  else { v with ch := v.ch.toLocking deadline }

/-- A channel after step 4 of a pass: in FAULT by the fault found, else returned where its return has ended. -/
def ChannelView.afterFound (v : ChannelView) (l : DriveLines) (deadline : Nat) (found : Option FaultCause) (ended : Bool) :
    ChannelView :=
  match found with
  | some cause => ⟨v.ch.toFault cause, true, false⟩
  | none => if ended then v.returned l deadline else v

/-- The fault that a pass finds for a channel (R156 to R158). -/
def Channel.foundBy (ch : Channel) (law : LawRecord) (stroke : Sample) : Option FaultCause :=
  faultFound law (ch.compare law stroke) (exceeds law (comparison ch stroke))

/-- Whether a result taken ends the channel's return (R153). -/
def Channel.returnEndedBy (ch : Channel) (law : LawRecord) (stroke : Sample) (taken : Option LaneResult) : Bool :=
  taken.any fun x => ch.state = .returning ∧ returnEnds law x.output stroke

/-- A channel after its supervision at a pass. -/
def ChannelView.supervised (v : ChannelView) (l : DriveLines) (deadline : Nat) (law : LawRecord) (stroke : Sample)
    (taken : Option LaneResult) : ChannelView :=
  let moved := ChannelView.afterFound { v with ch := v.ch.offered law stroke taken } l deadline (v.ch.foundBy law stroke)
    (v.ch.returnEndedBy law stroke taken)
  { moved with tracking := exceeds law (comparison v.ch stroke) && decide (moved.ch.state ≠ .fault) }

/-- The end of a return in the picture. -/
theorem picture_returned (s : State) (c : Fin 8) (e : ChannelEvent) : ((s.enterLocking c e).settle c).picture =
    s.picture.put c ((s.picture.view c).returned s.lines.drive[c] (s.lockDeadline c)) := by
  have locking : (s.enterLocking c e).channels.bank[c].state = .locking := congrArg Channel.state (changeAt_same ..)
  rw [settle_of_locking locking, State.enterLocking_lines, ChannelView.returned]
  split_ifs
  · rw [picture_enterFault, picture_enterLocking, Picture.put_put, Picture.put_view_same]
  · rw [picture_enterLocked, picture_enterLocking, Picture.put_put, Picture.put_view_same]
  · rw [picture_enterLocking]

theorem picture_afterFound (s : State) (c : Fin 8) (found : Option FaultCause) (ends : LaneResult → Bool)
    (taken : Option LaneResult) : (s.afterFound c found ends taken).picture =
      s.picture.put c ((s.picture.view c).afterFound s.lines.drive[c] (s.lockDeadline c) found (taken.any ends)) := by
  unfold State.afterFound ChannelView.afterFound
  cases found with
  | some cause => exact picture_enterFault cause
  | none =>
    cases taken with
    | none => exact Picture.put_view_self.symm
    | some x =>
      dsimp only [Option.any_some]
      split
      · exact picture_returned ..
      · exact Picture.put_view_self.symm

theorem picture_supervise_put (s : State) (c : Fin 8) (law : LawRecord) (stroke : Sample) (taken : Option LaneResult) :
    (s.supervise c law stroke taken).picture = s.picture.put c
      ((s.picture.view c).supervised s.lines.drive[c] (s.lockDeadline c) law stroke taken) := by
  have moved := picture_afterFound (s.setChannel c fun ch => ch.offered law stroke taken) c
    (s.channels.bank[c].foundBy law stroke)
    (fun x => s.channels.bank[c].state = .returning ∧ returnEnds law x.output stroke) taken
  rw [picture_setChannel, Picture.put_put, Picture.put_view_same] at moved
  rw [picture_supervise]
  unfold Channel.foundBy at moved
  generalize State.afterFound _ _ _ _ _ = s2 at moved
  have state : s2.channels.bank[c].state = (s2.picture.view c).ch.state := rfl
  rw [picture_report_trackingError, state, moved, Picture.put_put, Picture.put_view_same]
  rfl

/-! ## Both lanes, and what comes after them (R114, R116, R136) -/

theorem picture_finishLane (s : State) (e : LaneEnd) : (s.finishLane e).picture = s.picture.put e.channel
    ((s.picture.view e.channel).supervised s.lines.drive[e.channel] (s.lockDeadline e.channel) e.read.law e.stroke
      e.taken) :=
  picture_supervise_put (s.setRecord e.channel fun _ => e.record) ..

/-- The moment that a lock timer started at the end of a pass expires (R143). -/
def State.deadlineAtEnd (s : State) (p : Pass) (c : Fin 8) : Nat :=
  max s.clock p.endsAt + 1000 * s.computation.laws[c].lockTime

/-- The first lane's end leaves the moment at which the second one's lock timer would expire. -/
theorem finishLane_lockDeadline (s : State) (e : LaneEnd) (c : Fin 8) :
    (s.finishLane e).lockDeadline c = s.lockDeadline c := by
  have figures := figures_finishLane (s := s) e
  have clock : (s.finishLane e).clock = s.clock := congrArg Prod.fst figures
  have computation : (s.finishLane e).computation = _ := congrArg Prod.snd figures
  rw [State.lockDeadline, clock, computation]
  rfl

/-- What both lanes show of the channels: their own supervised, the others as they were. -/
theorem lanesEnded_view (s : State) (p : Pass) :
    (∀ c, bogieOf c ≠ p.sample.bogie → (s.lanesEnded p).view c = s.view c) ∧
    ∀ e ∈ [s.endA p, s.endB p], (s.lanesEnded p).view e.channel = (s.view e.channel).supervised
      s.lines.drive[e.channel] (s.deadlineAtEnd p e.channel) e.read.law e.stroke e.taken := by
  have apart := endA_ne_endB s p
  let first := (s.atEnd p).finishLane (s.endA p)
  have shownA : first.picture = _ := picture_finishLane (s.atEnd p) (s.endA p)
  have shownB : (first.finishLane (s.endB p)).picture = _ := picture_finishLane first (s.endB p)
  have lines : first.lines.drive = s.lines.drive := congrArg Picture.drive shownA
  have deadline : first.lockDeadline (s.endB p).channel = s.deadlineAtEnd p (s.endB p).channel :=
    finishLane_lockDeadline ..
  have last (c : Fin 8) : (s.lanesEnded p).view c = (first.finishLane (s.endB p)).picture.view c := by
    rw [lanesEnded_eq]
    show (State.picture _).view c = _
    rw [picture_reportLane, picture_reportLane]
  have before (c : Fin 8) (other : c ≠ (s.endA p).channel) : first.picture.view c = s.view c := by
    rw [shownA, Picture.put_view_other other]
    rfl
  refine ⟨fun c other => ?_, fun e mem => ?_⟩
  · have notA : c ≠ (s.endA p).channel := fun same => other (bogieOf_eq_iff.2 (.inl same))
    have notB : c ≠ (s.endB p).channel := fun same => other (bogieOf_eq_iff.2 (.inr same))
    rw [last, shownB, Picture.put_view_other notB, before c notA]
  · rw [last, shownB]
    rcases List.mem_pair.1 mem with rfl | rfl
    · rw [Picture.put_view_other apart, shownA, Picture.put_view_same]
      rfl
    · rw [Picture.put_view_same, before _ apart.symm, lines, deadline]

/-- A channel's view but for its mark of an entry (R116). -/
def ChannelView.marked (v : ChannelView) (b : Bool) : ChannelView := { v with ch := { v.ch with entered := b } }

theorem watched_marked (q : Picture) (c d : Fin 8) : ∃ b, (q.watched c).view d = (q.view d).marked b := by
  rcases q.watched_view c d with same | marked
  · exact ⟨_, same⟩
  · exact ⟨_, marked⟩

/-- The start of a pass marks channels, and leaves the permit (R116). -/
theorem startPass_shows (s : State) : s.startPass.channels.permit = s.channels.permit ∧
    ∀ c, ∃ b, s.startPass.view c = (s.view c).marked b := by
  unfold State.startPass
  split
  · next r rest _ _ =>
    refine ⟨rfl, fun c => ?_⟩
    dsimp only
    generalize idle : s.setComputation _ = s1
    have before : s1.picture.view c = s.view c := by rw [← idle]; rfl
    obtain ⟨b, first⟩ := watched_marked s1.picture (channelA r.bogie) c
    obtain ⟨b', second⟩ := watched_marked (s1.picture.watched (channelA r.bogie)) (channelB r.bogie) c
    refine ⟨b', ?_⟩
    show (State.picture _).view c = _
    rw [picture_setChannel, picture_setChannel]
    refine second.trans ?_
    rw [first, before]
    rfl
  · exact ⟨rfl, fun c => ⟨_, rfl⟩⟩

/-- After both lanes a completion changes of the channels the marks of an entry alone. -/
theorem completePass_shows (inFlight : s.computation.pass = some p) :
    s.completePass.clock = max s.clock p.endsAt ∧ s.completePass.channels.permit = s.channels.permit ∧
      ∀ c, ∃ b, s.completePass.view c = ((s.lanesEnded p).view c).marked b := by
  obtain ⟨u, completed, clock, shown⟩ : ∃ u : State, s.completePass = u.startPass ∧ u.clock = (s.passEnded p).clock ∧
      u.picture = (s.passEnded p).picture := by
    cases due : p.resetAfter with
    | false => exact ⟨_, completePass_of_unreset inFlight due, rfl, rfl⟩
    | true => exact ⟨_, completePass_of_due inFlight due, by rw [resetBogie_eq], picture_resetBogie _⟩
  have ended : (s.passEnded p).clock = max s.clock p.endsAt := by
    have written : (s.passEnded p).clock = (s.lanesEnded p).clock := congrArg Prod.fst (setYaw_writes ..).1
    rw [written]
    exact congrArg Prod.fst (lanesEnded_figures s p)
  have lanes : (s.passEnded p).picture = (s.lanesEnded p).picture := picture_setYaw _ _
  obtain ⟨permit, views⟩ := startPass_shows u
  rw [completed]
  refine ⟨(startPass_keepsRecords u).1.trans (clock.trans ended), permit.trans ?_, fun c => ?_⟩
  · have same : u.picture.permit = (s.lanesEnded p).picture.permit := by rw [shown, lanes]
    refine (show u.channels.permit = (s.lanesEnded p).picture.permit from same).trans ?_
    rw [lanesEnded_eq, picture_reportLane, picture_reportLane, picture_finishLane, picture_finishLane]
    rfl
  · obtain ⟨b, view⟩ := views c
    refine ⟨b, view.trans (congrArg (ChannelView.marked · b) ?_)⟩
    exact congrFun (congrArg Picture.view (shown.trans lanes)) c

/-! ## The runs and the fault found (R156 to R158) -/

/-- The states in which a channel's stroke is watched (R156). -/
abbrev ChannelState.Watched (x : ChannelState) : Prop := x = .steering ∨ x = .holding ∨ x = .returning

/-- The error that a pass finds is above the limit (R157). -/
abbrev Channel.Exceeds (ch : Channel) (law : LawRecord) (stroke : Sample) : Prop :=
  ch.state.Watched ∧ stroke.valid = true ∧ law.trackingLimit < (stroke.value - ch.demand).natAbs

theorem exceeds_iff (ch : Channel) (law : LawRecord) (stroke : Sample) :
    exceeds law (comparison ch stroke) = true ↔ ch.Exceeds law stroke :=
  exceeds_comparison_iff.trans and_assoc

theorem compare_trackingRun (ch : Channel) (law : LawRecord) (stroke : Sample) :
    (ch.compare law stroke).trackingRun = if ch.Exceeds law stroke then min 255 (ch.trackingRun + 1)
      else if ch.state.Watched ∧ stroke.valid = false then ch.trackingRun else 0 := by
  have exceeding := exceeds_iff ch law stroke
  have error := comparison_eq ch stroke
  unfold Channel.compare
  dsimp only
  by_cases watched : ch.state.Watched
  · rw [if_pos (ChannelState.supervised_iff.2 watched)]
    by_cases valid : stroke.valid = true
    · have unmissed : ¬(ch.state.Watched ∧ stroke.valid = false) := fun both => absurd (valid.symm.trans both.2) nofun
      rw [if_pos ⟨watched, valid⟩] at error
      rw [error] at exceeding ⊢
      rw [if_neg unmissed]
      exact if_congr exceeding rfl rfl
    · have uncompared : ¬ch.Exceeds law stroke := fun above => valid above.2.1
      rw [if_neg fun both => valid both.2] at error
      have missed : ch.state.Watched ∧ stroke.valid = false := ⟨watched, Bool.eq_false_iff.2 valid⟩
      rw [error, if_neg uncompared, if_pos missed]
  · rw [if_neg (mt ChannelState.supervised_iff.1 watched), if_neg fun both => watched both.1,
      if_neg fun both => watched both.1]

theorem compare_strokeInvalidRun (ch : Channel) (law : LawRecord) (stroke : Sample) :
    (ch.compare law stroke).strokeInvalidRun =
      if ch.state.Watched ∧ stroke.valid = false then min 255 (ch.strokeInvalidRun + 1) else 0 := by
  unfold Channel.compare
  dsimp only
  by_cases watched : ch.state.Watched
  · rw [if_pos (ChannelState.supervised_iff.2 watched)]
    cases stroke.valid <;> simp [watched, runUp]
  · rw [if_neg (mt ChannelState.supervised_iff.1 watched), if_neg fun both => watched both.1]

/-- The fault found, from the runs after the comparison (R157, R158). -/
theorem foundBy_eq (ch : Channel) (law : LawRecord) (stroke : Sample) : ch.foundBy law stroke =
    if ch.Exceeds law stroke ∧ law.trackingPersistence ≤ (ch.compare law stroke).trackingRun then some .tracking
    else if ch.state.Watched ∧ stroke.valid = false ∧ 3 ≤ (ch.compare law stroke).strokeInvalidRun then some .strokeSensor
    else none := by
  have watched : (ch.compare law stroke).state.supervised = true ↔ ch.state.Watched := ChannelState.supervised_iff
  have valid : (ch.compare law stroke).measuredValid = stroke.valid := rfl
  rw [Channel.foundBy, faultFound]
  simp only [Bool.and_eq_true, decide_eq_true_eq, exceeds_iff, watched, valid, Bool.not_eq_true', and_assoc]

theorem returnEndedBy_iff {ch : Channel} : ch.returnEndedBy law stroke taken = true ↔ ch.state = .returning ∧
    ∃ x, taken = some x ∧ x.output = 0 ∧ stroke.valid = true ∧ stroke.value.natAbs ≤ law.centreTolerance := by
  cases taken <;> simp [Channel.returnEndedBy, returnEnds, and_assoc]

/-! ## The channel supervised (R153, R156 to R158, R161) -/

section Supervised
variable {l : DriveLines} {deadline : Nat}

/-- TRACKING_ERROR of a channel supervised: its error is above the limit, and it does not stand in FAULT (R161; log entry
24). -/
theorem supervised_tracking : (v.supervised l deadline law stroke taken).tracking =
    decide (v.ch.Exceeds law stroke ∧ (v.supervised l deadline law stroke taken).ch.state ≠ .fault) := by
  rw [Bool.decide_and, ← Bool.decide_congr (exceeds_iff ..), Bool.decide_eq_true]
  rfl

/-- The stroke is recorded, whatever becomes of the channel (R156, R157). -/
theorem supervised_records : let w := (v.supervised l deadline law stroke taken).ch
    w.measured = stroke.value ∧ w.measuredValid = stroke.valid ∧ w.trackingError = comparison v.ch stroke := by
  unfold ChannelView.supervised ChannelView.afterFound ChannelView.returned
  dsimp only
  cases v.ch.foundBy law stroke with
  | some => cases taken <;> exact ⟨rfl, rfl, rfl⟩
  | none => cases taken <;> split_ifs <;> exact ⟨rfl, rfl, rfl⟩

/-- A channel with a fault found stands in FAULT (R146). -/
theorem supervised_of_found {k : FaultCause} (found : v.ch.foundBy law stroke = some k) :
    let w := v.supervised l deadline law stroke taken
    w.ch.state = .fault ∧ w.ch.cause = k ∧ w.ch.demand = 0 ∧ w.ch.lockTimer = none ∧ w.ch.trackingRun = 0 ∧
      w.ch.strokeInvalidRun = 0 ∧ w.fault = true := by
  unfold ChannelView.supervised ChannelView.afterFound
  rw [found]
  exact ⟨rfl, rfl, rfl, rfl, rfl, rfl, rfl⟩

/-- The demand of a channel offered a result (R156). -/
theorem offered_demand (ch : Channel) (law : LawRecord) (stroke : Sample) (taken : Option LaneResult) :
    (ch.offered law stroke taken).demand = match taken with
      | some x => x.stroke
      | none => ch.demand := by cases taken <;> rfl

/-- A channel that stays where it is takes the demand of its result, with its runs moved (R156 to R158). -/
theorem supervised_of_neither (found : v.ch.foundBy law stroke = none)
    (goes : v.ch.returnEndedBy law stroke taken = false) :
    let w := (v.supervised l deadline law stroke taken).ch
    w.state = v.ch.state ∧ w.cause = v.ch.cause ∧
      w.demand = (v.ch.offered law stroke taken).demand ∧
      w.lockTimer = v.ch.lockTimer ∧ w.trackingRun = (v.ch.compare law stroke).trackingRun ∧
      w.strokeInvalidRun = (v.ch.compare law stroke).strokeInvalidRun := by
  unfold ChannelView.supervised ChannelView.afterFound
  rw [found, goes]
  cases taken <;> exact ⟨rfl, rfl, rfl, rfl, rfl, rfl⟩

/-- A channel whose return has ended goes by the levels of its lines (R144, R145, R153). -/
theorem supervised_of_ended (found : v.ch.foundBy law stroke = none)
    (ended : v.ch.returnEndedBy law stroke taken = true) :
    let w := (v.supervised l deadline law stroke taken).ch
    w.demand = 0 ∧ w.state = (if l.driveFault then .fault else if l.lockEngaged then .locked else .locking) ∧
      w.lockTimer = if l.driveFault || l.lockEngaged then none else some deadline := by
  unfold ChannelView.supervised ChannelView.afterFound ChannelView.returned
  rw [found, ended]
  cases l.driveFault <;> cases l.lockEngaged <;> exact ⟨rfl, rfl, rfl⟩

end Supervised

/-- Settles O43: both lanes' supervisions are seen in the views of their channels, of which what follows changes only the marks
of an entry; and each is read off from the fault found and whether the return has ended. -/
theorem passCompletionSupervisesTheChannels : Obligations.PassCompletionSupervisesTheChannels := by
  intro s p running inFlight
  obtain ⟨others, lanes⟩ := lanesEnded_view s p
  obtain ⟨clock, permit, shown⟩ := completePass_shows inFlight
  refine ⟨s.completePass, congrArg Host.Outcome.next (State.whileRunning_of_running running _), permit,
    fun c other => ?_, fun e mem => ?_⟩
  · obtain ⟨b, view⟩ := shown c
    rw [others c other] at view
    have bank : s.completePass.channels.bank[c] = { s.channels.bank[c] with entered := b } := congrArg ChannelView.ch view
    rw [bank]
  · obtain ⟨b, view⟩ := shown e.channel
    rw [lanes e mem] at view
    have bank : s.completePass.channels.bank[e.channel] = _ := congrArg ChannelView.ch view
    have showsTracking : s.completePass.present (ofChannel .trackingError e.channel) = _ :=
      congrArg ChannelView.tracking view
    have showsFault : s.completePass.present (ofChannel .channelFault e.channel) = _ := congrArg ChannelView.fault view
    rw [bank, showsTracking, showsFault, clock]
    intro ch after lines law watched error above trackingRun strokeRun tracking sensor demand ended
    have found : ch.foundBy law e.stroke = if tracking then some .tracking else if sensor then some .strokeSensor
        else none := by
      rw [foundBy_eq, compare_trackingRun, compare_strokeInvalidRun]
    have ends : ch.returnEndedBy law e.stroke e.taken = true ↔ ended := returnEndedBy_iff
    have apart (missed : sensor) : ¬tracking := fun high => absurd (high.1.2.1.symm.trans missed.2.1) nofun
    obtain ⟨measured, valid, formed⟩ := supervised_records (v := s.view e.channel) (law := law) (stroke := e.stroke)
      (taken := e.taken) (l := lines) (deadline := s.deadlineAtEnd p e.channel)
    refine ⟨measured, valid, formed.trans (comparison_eq ..), supervised_tracking, fun high => ?_, fun missed => ?_,
      fun low met goes => ?_, fun low met returned => ?_⟩
    · exact supervised_of_found (found.trans (if_pos high))
    · exact supervised_of_found (found.trans ((if_neg (apart missed)).trans (if_pos missed)))
    · obtain ⟨state, cause, demanded, timer, run, run'⟩ := supervised_of_neither (v := s.view e.channel)
        (l := lines) (deadline := s.deadlineAtEnd p e.channel) (found.trans ((if_neg low).trans (if_neg met)))
        (Bool.eq_false_iff.2 (mt ends.1 goes))
      exact ⟨state, cause, demanded.trans (offered_demand ..), timer, run.trans (compare_trackingRun ..),
        run'.trans (compare_strokeInvalidRun ..)⟩
    · exact supervised_of_ended (found.trans ((if_neg low).trans (if_neg met))) (ends.2 returned)

end Sys2Proof.Machine
end
